-- ==== Sys2Proof/Word.lean ====
section
/-! DEFINITION. The word types of the hart. -/

namespace Sys2Proof

/-- The 64-bit container every register of the hart stands in. A register of width W < 64 keeps its value in the low
W bits; the accessors of the machine say what the upper bits hold. -/
abbrev Word := BitVec 64

/-- One byte of memory (R168). -/
abbrev Byte := BitVec 8

/-- The two register widths in scope (R6, R44). -/
inductive Xlen where
  | rv32
  | rv64
deriving DecidableEq, Repr

/-- XLEN as a number of bits. -/
def Xlen.bits : Xlen → Nat
  | .rv32 => 32
  | .rv64 => 64

end Sys2Proof
end

