-- ==== Sys2Proof/Syntax.lean ====
section
/-! DEFINITION. The instructions: one constructor per row of spec/opcode_table.json. Operands are the encoded fields
of R224, R227 and R278; fields that an instruction ignores are operands too, so that no bit of a word is lost. -/

namespace Sys2Proof

/-- A register specifier x0 to x31 (R18). -/
abbrev Reg := BitVec 5

/-- The instructions of the hart. -/
inductive Instr where
  -- 40_trap_and_interrupt_instructions.md
  | ecall | ebreak | mret | sret | mnret | wfi
  -- 41_csr_access.md
  | csrrw (rd : Reg) (csr : BitVec 12) (rs1 : Reg)
  | csrrs (rd : Reg) (csr : BitVec 12) (rs1 : Reg)
  | csrrc (rd : Reg) (csr : BitVec 12) (rs1 : Reg)
  | csrrwi (rd : Reg) (csr : BitVec 12) (uimm : BitVec 5)
  | csrrsi (rd : Reg) (csr : BitVec 12) (uimm : BitVec 5)
  | csrrci (rd : Reg) (csr : BitVec 12) (uimm : BitVec 5)
  -- 42_memory_management_fences.md
  | sfenceVma (rs1 rs2 : Reg)
  | sinvalVma (rs1 rs2 : Reg)
  | sfenceWInval | sfenceInvalIr
  -- 43_hypervisor_instructions.md
  | hlvB (rd rs1 : Reg) | hlvBu (rd rs1 : Reg) | hlvH (rd rs1 : Reg) | hlvHu (rd rs1 : Reg)
  | hlvW (rd rs1 : Reg) | hlvWu (rd rs1 : Reg) | hlvD (rd rs1 : Reg)
  | hlvxHu (rd rs1 : Reg) | hlvxWu (rd rs1 : Reg)
  | hsvB (rs1 rs2 : Reg) | hsvH (rs1 rs2 : Reg) | hsvW (rs1 rs2 : Reg) | hsvD (rs1 rs2 : Reg)
  | hfenceVvma (rs1 rs2 : Reg) | hfenceGvma (rs1 rs2 : Reg)
  | hinvalVvma (rs1 rs2 : Reg) | hinvalGvma (rs1 rs2 : Reg)
  -- 45_base_integer_assumed.md
  | lui (rd : Reg) (imm : BitVec 20)
  | auipc (rd : Reg) (imm : BitVec 20)
  | jal (rd : Reg) (offset : BitVec 21)
  | jalr (rd rs1 : Reg) (imm : BitVec 12)
  | beq (rs1 rs2 : Reg) (offset : BitVec 13)
  | bne (rs1 rs2 : Reg) (offset : BitVec 13)
  | blt (rs1 rs2 : Reg) (offset : BitVec 13)
  | bge (rs1 rs2 : Reg) (offset : BitVec 13)
  | bltu (rs1 rs2 : Reg) (offset : BitVec 13)
  | bgeu (rs1 rs2 : Reg) (offset : BitVec 13)
  | lb (rd rs1 : Reg) (imm : BitVec 12)
  | lh (rd rs1 : Reg) (imm : BitVec 12)
  | lw (rd rs1 : Reg) (imm : BitVec 12)
  | lbu (rd rs1 : Reg) (imm : BitVec 12)
  | lhu (rd rs1 : Reg) (imm : BitVec 12)
  | lwu (rd rs1 : Reg) (imm : BitVec 12)
  | ld (rd rs1 : Reg) (imm : BitVec 12)
  | sb (rs1 rs2 : Reg) (imm : BitVec 12)
  | sh (rs1 rs2 : Reg) (imm : BitVec 12)
  | sw (rs1 rs2 : Reg) (imm : BitVec 12)
  | sd (rs1 rs2 : Reg) (imm : BitVec 12)
  | addi (rd rs1 : Reg) (imm : BitVec 12)
  | slti (rd rs1 : Reg) (imm : BitVec 12)
  | sltiu (rd rs1 : Reg) (imm : BitVec 12)
  | xori (rd rs1 : Reg) (imm : BitVec 12)
  | ori (rd rs1 : Reg) (imm : BitVec 12)
  | andi (rd rs1 : Reg) (imm : BitVec 12)
  | slli (rd rs1 : Reg) (shamt : BitVec 6)
  | srli (rd rs1 : Reg) (shamt : BitVec 6)
  | srai (rd rs1 : Reg) (shamt : BitVec 6)
  | add (rd rs1 rs2 : Reg) | sub (rd rs1 rs2 : Reg) | sll (rd rs1 rs2 : Reg)
  | slt (rd rs1 rs2 : Reg) | sltu (rd rs1 rs2 : Reg) | xor (rd rs1 rs2 : Reg)
  | srl (rd rs1 rs2 : Reg) | sra (rd rs1 rs2 : Reg) | or (rd rs1 rs2 : Reg) | and (rd rs1 rs2 : Reg)
  | addiw (rd rs1 : Reg) (imm : BitVec 12)
  | slliw (rd rs1 : Reg) (shamt : BitVec 5)
  | srliw (rd rs1 : Reg) (shamt : BitVec 5)
  | sraiw (rd rs1 : Reg) (shamt : BitVec 5)
  | addw (rd rs1 rs2 : Reg) | subw (rd rs1 rs2 : Reg) | sllw (rd rs1 rs2 : Reg)
  | srlw (rd rs1 rs2 : Reg) | sraw (rd rs1 rs2 : Reg)
  | fence (rd rs1 : Reg) (fm pred succ : BitVec 4)
  | fenceI (rd rs1 : Reg) (imm : BitVec 12)
deriving DecidableEq, Repr

end Sys2Proof
end

