-- ==== Sys2Proof/WellFormed.lean ====
section
/-! DEFINITION. Which terms of Instr an encoding exists for. Register numbers, CSR numbers, shift amounts and most
immediates are bounded by their types; the one relation left is that a branch or jump offset is even (imm[0] = 0 in the
B and J formats, R278). -/

namespace Sys2Proof

/-- imm[0] of a B- or J-format offset is 0 (R278). -/
def evenOffset {n : Nat} (off : BitVec n) : Bool := !off.getLsbD 0

/-- The instruction has an encoding. -/
def Instr.wf : Instr → Bool
  | .jal _ off => evenOffset off
  | .beq _ _ off | .bne _ _ off | .blt _ _ off | .bge _ _ off | .bltu _ _ off | .bgeu _ _ off => evenOffset off
  | _ => true

end Sys2Proof
end

