-- ==== Sys2Proof/Decode.lean ====
section
/-! DEFINITION. The decoder, total on any bytes, and after it the encoder. Both follow 30_encoding.md R223-R230 and the
formats of 45_base_integer_assumed.md R278. A word is decoded without regard to XLEN or to the extensions present: an
RV64-only word on RV32, or a word of an absent extension, is an illegal instruction when it executes (R230, R348). -/

namespace Sys2Proof

/-- Why bytes are no instruction. -/
inductive DecodeError where
  /-- Fewer than four bytes are left. -/
  | truncated
  /-- Bits 1:0 are not 11: a compressed encoding, which is out of scope (R223). -/
  | notThirtyTwoBit (w : BitVec 32)
  /-- The word matches no row of the opcode table (R229, R230, R278). -/
  | reserved (w : BitVec 32)
deriving DecidableEq, Repr

namespace WordField

/-- opcode, bits 6:0 -/
def opcode (w : BitVec 32) : BitVec 7 := w.extractLsb' 0 7
/-- rd, bits 11:7 -/
def rd (w : BitVec 32) : Reg := w.extractLsb' 7 5
/-- funct3, bits 14:12 -/
def funct3 (w : BitVec 32) : BitVec 3 := w.extractLsb' 12 3
/-- rs1, bits 19:15 -/
def rs1 (w : BitVec 32) : Reg := w.extractLsb' 15 5
/-- rs2, bits 24:20 -/
def rs2 (w : BitVec 32) : Reg := w.extractLsb' 20 5
/-- funct7, bits 31:25 -/
def funct7 (w : BitVec 32) : BitVec 7 := w.extractLsb' 25 7
/-- funct6, bits 31:26, which tells the RV64 shifts apart (R306-R308) -/
def funct6 (w : BitVec 32) : BitVec 6 := w.extractLsb' 26 6
/-- the six-bit shift amount, bits 25:20 (R306) -/
def shamt (w : BitVec 32) : BitVec 6 := w.extractLsb' 20 6
/-- I-format immediate, and the CSR number (R224, R278) -/
def immI (w : BitVec 32) : BitVec 12 := w.extractLsb' 20 12
/-- S-format immediate (R278) -/
def immS (w : BitVec 32) : BitVec 12 := w.extractLsb' 25 7 ++ w.extractLsb' 7 5
/-- B-format immediate (R278) -/
def immB (w : BitVec 32) : BitVec 13 :=
  w.extractLsb' 31 1 ++ w.extractLsb' 7 1 ++ w.extractLsb' 25 6 ++ w.extractLsb' 8 4 ++ 0#1
/-- imm[31:12] of the U format (R278) -/
def immU (w : BitVec 32) : BitVec 20 := w.extractLsb' 12 20
/-- J-format immediate (R278) -/
def immJ (w : BitVec 32) : BitVec 21 :=
  w.extractLsb' 31 1 ++ w.extractLsb' 12 8 ++ w.extractLsb' 20 1 ++ w.extractLsb' 21 10 ++ 0#1

end WordField

open WordField

/-- LOAD, opcode 0000011 (R289-R295). -/
def decodeLoad (w : BitVec 32) : Option Instr :=
  if funct3 w = 0b000#3 then some (.lb (rd w) (rs1 w) (immI w))
  else if funct3 w = 0b001#3 then some (.lh (rd w) (rs1 w) (immI w))
  else if funct3 w = 0b010#3 then some (.lw (rd w) (rs1 w) (immI w))
  else if funct3 w = 0b011#3 then some (.ld (rd w) (rs1 w) (immI w))
  else if funct3 w = 0b100#3 then some (.lbu (rd w) (rs1 w) (immI w))
  else if funct3 w = 0b101#3 then some (.lhu (rd w) (rs1 w) (immI w))
  else if funct3 w = 0b110#3 then some (.lwu (rd w) (rs1 w) (immI w))
  else none

/-- STORE, opcode 0100011 (R296-R299). -/
def decodeStore (w : BitVec 32) : Option Instr :=
  if funct3 w = 0b000#3 then some (.sb (rs1 w) (rs2 w) (immS w))
  else if funct3 w = 0b001#3 then some (.sh (rs1 w) (rs2 w) (immS w))
  else if funct3 w = 0b010#3 then some (.sw (rs1 w) (rs2 w) (immS w))
  else if funct3 w = 0b011#3 then some (.sd (rs1 w) (rs2 w) (immS w))
  else none

/-- BRANCH, opcode 1100011 (R283-R288). -/
def decodeBranch (w : BitVec 32) : Option Instr :=
  if funct3 w = 0b000#3 then some (.beq (rs1 w) (rs2 w) (immB w))
  else if funct3 w = 0b001#3 then some (.bne (rs1 w) (rs2 w) (immB w))
  else if funct3 w = 0b100#3 then some (.blt (rs1 w) (rs2 w) (immB w))
  else if funct3 w = 0b101#3 then some (.bge (rs1 w) (rs2 w) (immB w))
  else if funct3 w = 0b110#3 then some (.bltu (rs1 w) (rs2 w) (immB w))
  else if funct3 w = 0b111#3 then some (.bgeu (rs1 w) (rs2 w) (immB w))
  else none

/-- OP-IMM, opcode 0010011 (R300-R308). -/
def decodeOpImm (w : BitVec 32) : Option Instr :=
  if funct3 w = 0b000#3 then some (.addi (rd w) (rs1 w) (immI w))
  else if funct3 w = 0b010#3 then some (.slti (rd w) (rs1 w) (immI w))
  else if funct3 w = 0b011#3 then some (.sltiu (rd w) (rs1 w) (immI w))
  else if funct3 w = 0b100#3 then some (.xori (rd w) (rs1 w) (immI w))
  else if funct3 w = 0b110#3 then some (.ori (rd w) (rs1 w) (immI w))
  else if funct3 w = 0b111#3 then some (.andi (rd w) (rs1 w) (immI w))
  else if funct3 w = 0b001#3 ∧ funct6 w = 0b000000#6 then some (.slli (rd w) (rs1 w) (shamt w))
  else if funct3 w = 0b101#3 ∧ funct6 w = 0b000000#6 then some (.srli (rd w) (rs1 w) (shamt w))
  else if funct3 w = 0b101#3 ∧ funct6 w = 0b010000#6 then some (.srai (rd w) (rs1 w) (shamt w))
  else none

/-- OP, opcode 0110011 (R309-R318). -/
def decodeOp (w : BitVec 32) : Option Instr :=
  if funct7 w = 0b0000000#7 then
    if funct3 w = 0b000#3 then some (.add (rd w) (rs1 w) (rs2 w))
    else if funct3 w = 0b001#3 then some (.sll (rd w) (rs1 w) (rs2 w))
    else if funct3 w = 0b010#3 then some (.slt (rd w) (rs1 w) (rs2 w))
    else if funct3 w = 0b011#3 then some (.sltu (rd w) (rs1 w) (rs2 w))
    else if funct3 w = 0b100#3 then some (.xor (rd w) (rs1 w) (rs2 w))
    else if funct3 w = 0b101#3 then some (.srl (rd w) (rs1 w) (rs2 w))
    else if funct3 w = 0b110#3 then some (.or (rd w) (rs1 w) (rs2 w))
    else some (.and (rd w) (rs1 w) (rs2 w))
  else if funct7 w = 0b0100000#7 then
    if funct3 w = 0b000#3 then some (.sub (rd w) (rs1 w) (rs2 w))
    else if funct3 w = 0b101#3 then some (.sra (rd w) (rs1 w) (rs2 w))
    else none
  else none

/-- OP-IMM-32, opcode 0011011 (R319-R322). -/
def decodeOpImm32 (w : BitVec 32) : Option Instr :=
  if funct3 w = 0b000#3 then some (.addiw (rd w) (rs1 w) (immI w))
  else if funct3 w = 0b001#3 ∧ funct7 w = 0b0000000#7 then some (.slliw (rd w) (rs1 w) (rs2 w))
  else if funct3 w = 0b101#3 ∧ funct7 w = 0b0000000#7 then some (.srliw (rd w) (rs1 w) (rs2 w))
  else if funct3 w = 0b101#3 ∧ funct7 w = 0b0100000#7 then some (.sraiw (rd w) (rs1 w) (rs2 w))
  else none

/-- OP-32, opcode 0111011 (R323-R327). -/
def decodeOp32 (w : BitVec 32) : Option Instr :=
  if funct7 w = 0b0000000#7 then
    if funct3 w = 0b000#3 then some (.addw (rd w) (rs1 w) (rs2 w))
    else if funct3 w = 0b001#3 then some (.sllw (rd w) (rs1 w) (rs2 w))
    else if funct3 w = 0b101#3 then some (.srlw (rd w) (rs1 w) (rs2 w))
    else none
  else if funct7 w = 0b0100000#7 then
    if funct3 w = 0b000#3 then some (.subw (rd w) (rs1 w) (rs2 w))
    else if funct3 w = 0b101#3 then some (.sraw (rd w) (rs1 w) (rs2 w))
    else none
  else none

/-- MISC-MEM, opcode 0001111 (R328, R329). -/
def decodeMiscMem (w : BitVec 32) : Option Instr :=
  if funct3 w = 0b000#3 then
    some (.fence (rd w) (rs1 w) (w.extractLsb' 28 4) (w.extractLsb' 24 4) (w.extractLsb' 20 4))
  else if funct3 w = 0b001#3 then some (.fenceI (rd w) (rs1 w) (immI w))
  else none

/-- The fences that name two registers: funct3 = 000, rd = 00000 (R226). -/
def decodeFence (w : BitVec 32) : Option Instr :=
  if funct7 w = 0b0001001#7 then some (.sfenceVma (rs1 w) (rs2 w))
  else if funct7 w = 0b0001011#7 then some (.sinvalVma (rs1 w) (rs2 w))
  else if funct7 w = 0b0010001#7 then some (.hfenceVvma (rs1 w) (rs2 w))
  else if funct7 w = 0b0110001#7 then some (.hfenceGvma (rs1 w) (rs2 w))
  else if funct7 w = 0b0010011#7 then some (.hinvalVvma (rs1 w) (rs2 w))
  else if funct7 w = 0b0110011#7 then some (.hinvalGvma (rs1 w) (rs2 w))
  else none

/-- PRIV, funct3 = 000 (R226): the words with every bit fixed, then the fences. -/
def decodePriv (w : BitVec 32) : Option Instr :=
  if w = 0x00000073#32 then some .ecall
  else if w = 0x00100073#32 then some .ebreak
  else if w = 0x10200073#32 then some .sret
  else if w = 0x30200073#32 then some .mret
  else if w = 0x70200073#32 then some .mnret
  else if w = 0x10500073#32 then some .wfi
  else if w = 0x18000073#32 then some .sfenceWInval
  else if w = 0x18100073#32 then some .sfenceInvalIr
  else if rd w = 0#5 then decodeFence w
  else none

/-- The hypervisor virtual-machine loads and stores, funct3 = 100 (R227). -/
def decodeHv (w : BitVec 32) : Option Instr :=
  if funct7 w = 0b0110000#7 then
    if rs2 w = 0#5 then some (.hlvB (rd w) (rs1 w))
    else if rs2 w = 1#5 then some (.hlvBu (rd w) (rs1 w))
    else none
  else if funct7 w = 0b0110010#7 then
    if rs2 w = 0#5 then some (.hlvH (rd w) (rs1 w))
    else if rs2 w = 1#5 then some (.hlvHu (rd w) (rs1 w))
    else if rs2 w = 3#5 then some (.hlvxHu (rd w) (rs1 w))
    else none
  else if funct7 w = 0b0110100#7 then
    if rs2 w = 0#5 then some (.hlvW (rd w) (rs1 w))
    else if rs2 w = 1#5 then some (.hlvWu (rd w) (rs1 w))
    else if rs2 w = 3#5 then some (.hlvxWu (rd w) (rs1 w))
    else none
  else if funct7 w = 0b0110110#7 then
    if rs2 w = 0#5 then some (.hlvD (rd w) (rs1 w)) else none
  else if rd w = 0#5 then
    if funct7 w = 0b0110001#7 then some (.hsvB (rs1 w) (rs2 w))
    else if funct7 w = 0b0110011#7 then some (.hsvH (rs1 w) (rs2 w))
    else if funct7 w = 0b0110101#7 then some (.hsvW (rs1 w) (rs2 w))
    else if funct7 w = 0b0110111#7 then some (.hsvD (rs1 w) (rs2 w))
    else none
  else none

/-- SYSTEM, opcode 1110011 (R225). -/
def decodeSystem (w : BitVec 32) : Option Instr :=
  if funct3 w = 0b000#3 then decodePriv w
  else if funct3 w = 0b001#3 then some (.csrrw (rd w) (immI w) (rs1 w))
  else if funct3 w = 0b010#3 then some (.csrrs (rd w) (immI w) (rs1 w))
  else if funct3 w = 0b011#3 then some (.csrrc (rd w) (immI w) (rs1 w))
  else if funct3 w = 0b100#3 then decodeHv w
  else if funct3 w = 0b101#3 then some (.csrrwi (rd w) (immI w) (rs1 w))
  else if funct3 w = 0b110#3 then some (.csrrsi (rd w) (immI w) (rs1 w))
  else some (.csrrci (rd w) (immI w) (rs1 w))

/-- The major opcodes (R278). -/
def decodeOpcode (w : BitVec 32) : Option Instr :=
  if opcode w = 0b0000011#7 then decodeLoad w
  else if opcode w = 0b0001111#7 then decodeMiscMem w
  else if opcode w = 0b0010011#7 then decodeOpImm w
  else if opcode w = 0b0010111#7 then some (.auipc (rd w) (immU w))
  else if opcode w = 0b0011011#7 then decodeOpImm32 w
  else if opcode w = 0b0100011#7 then decodeStore w
  else if opcode w = 0b0110011#7 then decodeOp w
  else if opcode w = 0b0110111#7 then some (.lui (rd w) (immU w))
  else if opcode w = 0b0111011#7 then decodeOp32 w
  else if opcode w = 0b1100011#7 then decodeBranch w
  else if opcode w = 0b1100111#7 then
    if funct3 w = 0b000#3 then some (.jalr (rd w) (rs1 w) (immI w)) else none
  else if opcode w = 0b1101111#7 then some (.jal (rd w) (immJ w))
  else if opcode w = 0b1110011#7 then decodeSystem w
  else none

/-- The instruction a 32-bit word is, or why it is none (R223, R230). -/
def decodeWord (w : BitVec 32) : Except DecodeError Instr :=
  if w.extractLsb' 0 2 = 0b11#2 then
    match decodeOpcode w with
    | some i => .ok i
    | none => .error (.reserved w)
  else .error (.notThirtyTwoBit w)

/-- Four bytes as a word, the byte at the lowest address least significant: fetch is always little-endian (R173). -/
def wordOfBytes (b0 b1 b2 b3 : Byte) : BitVec 32 := b3 ++ b2 ++ b1 ++ b0

/-- The bytes of a word in the order of their addresses (R173). -/
def bytesOfWord (w : BitVec 32) : List Byte :=
  [w.extractLsb' 0 8, w.extractLsb' 8 8, w.extractLsb' 16 8, w.extractLsb' 24 8]

/-- The first instruction of a list of bytes, and the bytes after it. -/
def decode : List Byte → Except DecodeError (Instr × List Byte)
  | b0 :: b1 :: b2 :: b3 :: rest =>
    match decodeWord (wordOfBytes b0 b1 b2 b3) with
    | .ok i => .ok (i, rest)
    | .error e => .error e
  | _ => .error .truncated

/-! ### The encoder -/

/-- R format (R224). -/
def encR (f7 : BitVec 7) (rs2 rs1 : Reg) (f3 : BitVec 3) (rd : Reg) (op : BitVec 7) : BitVec 32 :=
  f7 ++ rs2 ++ rs1 ++ f3 ++ rd ++ op

/-- I format (R224, R278). -/
def encI (imm : BitVec 12) (rs1 : Reg) (f3 : BitVec 3) (rd : Reg) (op : BitVec 7) : BitVec 32 :=
  imm ++ rs1 ++ f3 ++ rd ++ op

/-- I format with a six-bit shift amount (R306). -/
def encShift (f6 : BitVec 6) (sh : BitVec 6) (rs1 : Reg) (f3 : BitVec 3) (rd : Reg) (op : BitVec 7) : BitVec 32 :=
  f6 ++ sh ++ rs1 ++ f3 ++ rd ++ op

/-- S format (R278). -/
def encS (imm : BitVec 12) (rs2 rs1 : Reg) (f3 : BitVec 3) (op : BitVec 7) : BitVec 32 :=
  imm.extractLsb' 5 7 ++ rs2 ++ rs1 ++ f3 ++ imm.extractLsb' 0 5 ++ op

/-- B format (R278). -/
def encB (off : BitVec 13) (rs2 rs1 : Reg) (f3 : BitVec 3) : BitVec 32 :=
  off.extractLsb' 12 1 ++ off.extractLsb' 5 6 ++ rs2 ++ rs1 ++ f3 ++ off.extractLsb' 1 4 ++ off.extractLsb' 11 1
    ++ 0b1100011#7

/-- U format (R278). -/
def encU (imm : BitVec 20) (rd : Reg) (op : BitVec 7) : BitVec 32 := imm ++ rd ++ op

/-- J format (R278). -/
def encJ (off : BitVec 21) (rd : Reg) : BitVec 32 :=
  off.extractLsb' 20 1 ++ off.extractLsb' 1 10 ++ off.extractLsb' 11 1 ++ off.extractLsb' 12 8 ++ rd ++ 0b1101111#7

/-- FENCE (R328). -/
def encFence (fm pred succ : BitVec 4) (rs1 rd : Reg) : BitVec 32 :=
  fm ++ pred ++ succ ++ rs1 ++ 0b000#3 ++ rd ++ 0b0001111#7

/-- The word of an instruction (R226, R227, R239-R244, R279-R329). -/
def encode : Instr → BitVec 32
  | .ecall => 0x00000073#32
  | .ebreak => 0x00100073#32
  | .sret => 0x10200073#32
  | .mret => 0x30200073#32
  | .mnret => 0x70200073#32
  | .wfi => 0x10500073#32
  | .csrrw rd csr rs1 => encI csr rs1 0b001#3 rd 0b1110011#7
  | .csrrs rd csr rs1 => encI csr rs1 0b010#3 rd 0b1110011#7
  | .csrrc rd csr rs1 => encI csr rs1 0b011#3 rd 0b1110011#7
  | .csrrwi rd csr u => encI csr u 0b101#3 rd 0b1110011#7
  | .csrrsi rd csr u => encI csr u 0b110#3 rd 0b1110011#7
  | .csrrci rd csr u => encI csr u 0b111#3 rd 0b1110011#7
  | .sfenceVma rs1 rs2 => encR 0b0001001#7 rs2 rs1 0b000#3 0#5 0b1110011#7
  | .sinvalVma rs1 rs2 => encR 0b0001011#7 rs2 rs1 0b000#3 0#5 0b1110011#7
  | .sfenceWInval => 0x18000073#32
  | .sfenceInvalIr => 0x18100073#32
  | .hlvB rd rs1 => encR 0b0110000#7 0#5 rs1 0b100#3 rd 0b1110011#7
  | .hlvBu rd rs1 => encR 0b0110000#7 1#5 rs1 0b100#3 rd 0b1110011#7
  | .hlvH rd rs1 => encR 0b0110010#7 0#5 rs1 0b100#3 rd 0b1110011#7
  | .hlvHu rd rs1 => encR 0b0110010#7 1#5 rs1 0b100#3 rd 0b1110011#7
  | .hlvW rd rs1 => encR 0b0110100#7 0#5 rs1 0b100#3 rd 0b1110011#7
  | .hlvWu rd rs1 => encR 0b0110100#7 1#5 rs1 0b100#3 rd 0b1110011#7
  | .hlvD rd rs1 => encR 0b0110110#7 0#5 rs1 0b100#3 rd 0b1110011#7
  | .hlvxHu rd rs1 => encR 0b0110010#7 3#5 rs1 0b100#3 rd 0b1110011#7
  | .hlvxWu rd rs1 => encR 0b0110100#7 3#5 rs1 0b100#3 rd 0b1110011#7
  | .hsvB rs1 rs2 => encR 0b0110001#7 rs2 rs1 0b100#3 0#5 0b1110011#7
  | .hsvH rs1 rs2 => encR 0b0110011#7 rs2 rs1 0b100#3 0#5 0b1110011#7
  | .hsvW rs1 rs2 => encR 0b0110101#7 rs2 rs1 0b100#3 0#5 0b1110011#7
  | .hsvD rs1 rs2 => encR 0b0110111#7 rs2 rs1 0b100#3 0#5 0b1110011#7
  | .hfenceVvma rs1 rs2 => encR 0b0010001#7 rs2 rs1 0b000#3 0#5 0b1110011#7
  | .hfenceGvma rs1 rs2 => encR 0b0110001#7 rs2 rs1 0b000#3 0#5 0b1110011#7
  | .hinvalVvma rs1 rs2 => encR 0b0010011#7 rs2 rs1 0b000#3 0#5 0b1110011#7
  | .hinvalGvma rs1 rs2 => encR 0b0110011#7 rs2 rs1 0b000#3 0#5 0b1110011#7
  | .lui rd imm => encU imm rd 0b0110111#7
  | .auipc rd imm => encU imm rd 0b0010111#7
  | .jal rd off => encJ off rd
  | .jalr rd rs1 imm => encI imm rs1 0b000#3 rd 0b1100111#7
  | .beq rs1 rs2 off => encB off rs2 rs1 0b000#3
  | .bne rs1 rs2 off => encB off rs2 rs1 0b001#3
  | .blt rs1 rs2 off => encB off rs2 rs1 0b100#3
  | .bge rs1 rs2 off => encB off rs2 rs1 0b101#3
  | .bltu rs1 rs2 off => encB off rs2 rs1 0b110#3
  | .bgeu rs1 rs2 off => encB off rs2 rs1 0b111#3
  | .lb rd rs1 imm => encI imm rs1 0b000#3 rd 0b0000011#7
  | .lh rd rs1 imm => encI imm rs1 0b001#3 rd 0b0000011#7
  | .lw rd rs1 imm => encI imm rs1 0b010#3 rd 0b0000011#7
  | .lbu rd rs1 imm => encI imm rs1 0b100#3 rd 0b0000011#7
  | .lhu rd rs1 imm => encI imm rs1 0b101#3 rd 0b0000011#7
  | .lwu rd rs1 imm => encI imm rs1 0b110#3 rd 0b0000011#7
  | .ld rd rs1 imm => encI imm rs1 0b011#3 rd 0b0000011#7
  | .sb rs1 rs2 imm => encS imm rs2 rs1 0b000#3 0b0100011#7
  | .sh rs1 rs2 imm => encS imm rs2 rs1 0b001#3 0b0100011#7
  | .sw rs1 rs2 imm => encS imm rs2 rs1 0b010#3 0b0100011#7
  | .sd rs1 rs2 imm => encS imm rs2 rs1 0b011#3 0b0100011#7
  | .addi rd rs1 imm => encI imm rs1 0b000#3 rd 0b0010011#7
  | .slti rd rs1 imm => encI imm rs1 0b010#3 rd 0b0010011#7
  | .sltiu rd rs1 imm => encI imm rs1 0b011#3 rd 0b0010011#7
  | .xori rd rs1 imm => encI imm rs1 0b100#3 rd 0b0010011#7
  | .ori rd rs1 imm => encI imm rs1 0b110#3 rd 0b0010011#7
  | .andi rd rs1 imm => encI imm rs1 0b111#3 rd 0b0010011#7
  | .slli rd rs1 sh => encShift 0b000000#6 sh rs1 0b001#3 rd 0b0010011#7
  | .srli rd rs1 sh => encShift 0b000000#6 sh rs1 0b101#3 rd 0b0010011#7
  | .srai rd rs1 sh => encShift 0b010000#6 sh rs1 0b101#3 rd 0b0010011#7
  | .add rd rs1 rs2 => encR 0b0000000#7 rs2 rs1 0b000#3 rd 0b0110011#7
  | .sub rd rs1 rs2 => encR 0b0100000#7 rs2 rs1 0b000#3 rd 0b0110011#7
  | .sll rd rs1 rs2 => encR 0b0000000#7 rs2 rs1 0b001#3 rd 0b0110011#7
  | .slt rd rs1 rs2 => encR 0b0000000#7 rs2 rs1 0b010#3 rd 0b0110011#7
  | .sltu rd rs1 rs2 => encR 0b0000000#7 rs2 rs1 0b011#3 rd 0b0110011#7
  | .xor rd rs1 rs2 => encR 0b0000000#7 rs2 rs1 0b100#3 rd 0b0110011#7
  | .srl rd rs1 rs2 => encR 0b0000000#7 rs2 rs1 0b101#3 rd 0b0110011#7
  | .sra rd rs1 rs2 => encR 0b0100000#7 rs2 rs1 0b101#3 rd 0b0110011#7
  | .or rd rs1 rs2 => encR 0b0000000#7 rs2 rs1 0b110#3 rd 0b0110011#7
  | .and rd rs1 rs2 => encR 0b0000000#7 rs2 rs1 0b111#3 rd 0b0110011#7
  | .addiw rd rs1 imm => encI imm rs1 0b000#3 rd 0b0011011#7
  | .slliw rd rs1 sh => encR 0b0000000#7 sh rs1 0b001#3 rd 0b0011011#7
  | .srliw rd rs1 sh => encR 0b0000000#7 sh rs1 0b101#3 rd 0b0011011#7
  | .sraiw rd rs1 sh => encR 0b0100000#7 sh rs1 0b101#3 rd 0b0011011#7
  | .addw rd rs1 rs2 => encR 0b0000000#7 rs2 rs1 0b000#3 rd 0b0111011#7
  | .subw rd rs1 rs2 => encR 0b0100000#7 rs2 rs1 0b000#3 rd 0b0111011#7
  | .sllw rd rs1 rs2 => encR 0b0000000#7 rs2 rs1 0b001#3 rd 0b0111011#7
  | .srlw rd rs1 rs2 => encR 0b0000000#7 rs2 rs1 0b101#3 rd 0b0111011#7
  | .sraw rd rs1 rs2 => encR 0b0100000#7 rs2 rs1 0b101#3 rd 0b0111011#7
  | .fence rd rs1 fm pred succ => encFence fm pred succ rs1 rd
  | .fenceI rd rs1 imm => encI imm rs1 0b001#3 rd 0b0001111#7

/-- The instruction the decoder reads from the word `w` of the opcode table, laid out as fetch reads it. -/
def decodeTableWord (nbits w : Nat) : Option Instr :=
  match decode (bytesOfWord (BitVec.ofNat 32 (w % 2 ^ nbits))) with
  | .ok (i, _) => some i
  | .error _ => none

end Sys2Proof
end

