-- ==== Sys2Proof/Config.lean ====
section
/-! DEFINITION. What an implementation or a platform fixes (00_scope.md R8, 92_eei_decisions.md), and the free values:
constants with no body, for what the spec leaves open. -/

namespace Sys2Proof

/-! ### Physical memory attributes (20_memory.md R178-R182) -/

/-- The memory-mapped registers the architecture defines (R187). -/
inductive Device where
  | mtime
  | mtimecmp
  | msip
deriving DecidableEq, Repr

/-- The class of a region (R178, R179): main memory; an I/O region that is memory all the same, such as scratchpad RAM; an
I/O region of one of the architecture's registers; an I/O region whose device the spec does not describe. -/
inductive RegionKind where
  | main
  | ioMemory
  | device (d : Device)
  | io
deriving DecidableEq, Repr

/-- The region holds bytes that read as last written. -/
def RegionKind.isMemory : RegionKind → Bool
  | .main | .ioMemory => true
  | .device _ | .io => false

/-- AMO support (R180, Table 3.9). -/
inductive AmoClass where
  | none | swap | logical | arithmetic
deriving DecidableEq, Repr

/-- LR/SC support (R180). -/
inductive Reservability where
  | none | nonEventual | eventual
deriving DecidableEq, Repr

/-- The ordering attribute (R178, R184). -/
inductive RegionOrder where
  | rvwmo | rvtso | nonCoherent | relaxed | strong (channel : Nat)
deriving DecidableEq, Repr

/-- A region of the physical address space with its attributes (R178). -/
structure Region where
  base : Nat
  size : Nat
  kind : RegionKind
  /-- widths, in bytes, of the aligned reads it supports -/
  reads : List Nat
  /-- widths, in bytes, of the aligned writes it supports -/
  writes : List Nat
  /-- widths, in bytes, of the execute accesses it supports: 4 for a fetch and HLVX.WU, 2 for HLVX.HU (R178, R179, R268) -/
  exec : List Nat
  /-- the widths, in bytes, at which misaligned accesses are supported: MISALIGNED_OK(region, width), which names no kind of access, so
  that loads and stores are alike (R8, R175) -/
  misaligned : List Nat
  /-- hardware page-table reads are supported (R179) -/
  ptRead : Bool
  /-- hardware page-table writes are supported (R179) -/
  ptWrite : Bool
  /-- the misaligned atomicity granule, in bytes (R180) -/
  granule : Option Nat
  /-- reads are idempotent (R178, R181); those of main memory always are (R179) -/
  idempotentReads : Bool
  /-- writes are idempotent (R178, R181); those of main memory always are (R179) -/
  idempotentWrites : Bool
  amo : AmoClass
  reservability : Reservability
  order : RegionOrder
  coherent : Bool
  cacheable : Bool
deriving DecidableEq, Repr

/-- The attributes are those of the region's class (R178-R180): main memory is idempotent and, if coherent, RVWMO or RVTSO, of which the
model of non-coherent main memory is the implementation's; I/O is relaxed or strongly ordered. A granule is a power of two. Which widths
the attached devices require main memory to support is the platform's to say: its lists of widths. -/
def Region.wf (r : Region) : Bool :=
  (match r.kind with
    | .main => r.idempotentReads && r.idempotentWrites && (!r.coherent || r.order == .rvwmo || r.order == .rvtso)
    | .ioMemory | .device _ | .io =>
      match r.order with
      | .relaxed | .strong _ => true
      | .rvwmo | .rvtso | .nonCoherent => false)
    && r.granule.all fun g => (List.range 64).any fun k => 2 ^ k == g

/-- Main memory with every access supported but misaligned ones (R179). -/
def Region.mainMemory (base size : Nat) : Region where
  base := base
  size := size
  kind := .main
  reads := [1, 2, 4, 8]
  writes := [1, 2, 4, 8]
  exec := [2, 4]
  misaligned := []
  ptRead := true
  ptWrite := true
  granule := none
  idempotentReads := true
  idempotentWrites := true
  amo := .arithmetic
  reservability := .eventual
  order := .rvwmo
  coherent := true
  cacheable := true

/-- The window of one of the architecture's own memory-mapped registers (R187): an I/O region. -/
def Region.timer (d : Device) (base size : Nat) (widths : List Nat) : Region where
  base := base
  size := size
  kind := .device d
  reads := widths
  writes := widths
  exec := []
  misaligned := []
  ptRead := false
  ptWrite := false
  granule := none
  idempotentReads := true
  idempotentWrites := true
  amo := .none
  reservability := .none
  order := .strong 0
  coherent := true
  cacheable := false

/-! ### The parameters -/

/-- What an implementation does with an endianness bit: read-only 0, read-only 1, or writable (R61, D5). The harts on which R61 lets SBE
be a read-only copy of MBE, or UBE one of MBE or SBE, are left out (DESIGN CHOICE, notes/assumptions/52.md). -/
inductive EndianBit where
  | little | big | writable
deriving DecidableEq, Repr

/-- How A and D bits are handled (R209, D9). -/
inductive AdScheme where
  | svade | svadu | switchable
deriving DecidableEq, Repr

/-- The values a trap-vector register can hold (MTVEC_LEGAL, STVEC_LEGAL, D6): those that agree with `value` outside the writable
bits, whose BASE is aligned to 2^vectoredAlign bytes where MODE is Vectored. A register of one value, a register without Vectored or
without Direct mode, and a coarser alignment of BASE are all such sets; sets of another shape are not parameters (DESIGN CHOICE,
notes/assumptions/19.md). -/
structure TvecLegal where
  /-- the writable bits of BASE (63:2) and of MODE (bit 0); bit 1 is never writable: MODE 2 and 3 are reserved (R67) -/
  writable : Word
  /-- what the other bits hold -/
  value : Word
  /-- the alignment that Vectored mode asks of BASE, as a power of two -/
  vectoredAlign : Nat
deriving DecidableEq, Repr

/-- Every BASE, Direct and Vectored (D6). -/
def TvecLegal.any : TvecLegal := ⟨0xFFFFFFFFFFFFFFFD, 0, 2⟩

/-- The register with w written into its writable bits. -/
def TvecLegal.fill (t : TvecLegal) (w : Word) : Word := ((w &&& t.writable) ||| (t.value &&& ~~~t.writable)) &&& ~~~2#64

/-- The register at reset, where no bit has been written. -/
def TvecLegal.initial (t : TvecLegal) (xl : Xlen) : Word :=
  match xl with
  | .rv32 => ((t.fill 0).setWidth 32).setWidth 64
  | .rv64 => t.fill 0

/-- Vectored mode has the alignment it asks for. -/
def TvecLegal.aligned (t : TvecLegal) (w : Word) : Bool := !w.getLsbD 0 || w.toNat / 4 * 4 % 2 ^ t.vectoredAlign == 0

/-- The parameters of one hart and its platform, fixed for its life (R8). -/
structure Config where
  -- modes and widths
  mxlen : Xlen
  hasU : Bool
  hasS : Bool
  hasH : Bool
  /-- `misa` is implemented; if not it reads 0 (R44) -/
  misaImpl : Bool
  /-- the writable bits of `misa` (MISA_WRITABLE, D2): of this hart's, U, S and H; I cannot be one, since E, its complement, is not
  implemented (R46) -/
  misaWritable : BitVec 26
  /-- SXL, UXL, VSXL and vsstatus.UXL are writable, and then hold each width up to the widest; else they are fixed (D4; other subsets of
  the widths are left out, notes/assumptions/58.md) -/
  sxlWritable : Bool
  uxlWritable : Bool
  vsxlWritable : Bool
  vuxlWritable : Bool
  -- byte order (D5)
  mbe : EndianBit
  sbe : EndianBit
  ube : EndianBit
  vsbe : EndianBit
  vube : EndianBit
  -- identification (P_ID)
  mvendorid : BitVec 32
  marchid : Word
  mimpid : Word
  mhartid : Word
  mconfigptr : Word
  -- vectors and reset
  resetVector : Word
  resetCause : Word
  nmiVector : Word
  /-- MTVEC_LEGAL and STVEC_LEGAL; `vstvec` has its own (D6) -/
  mtvecLegal : TvecLegal
  stvecLegal : TvecLegal
  vstvecLegal : TvecLegal
  rnmiIntVector : Word
  /-- the RNMI exception handler; none: the `mtvec` vector (R135) -/
  rnmiExcVector : Option Word
  -- PMP
  pmpCount : Nat
  /-- G: the granularity is 2^(G+2) bytes (R193, D21) -/
  pmpG : Nat
  paBits : Nat
  -- translation
  sv32 : Bool
  sv39 : Bool
  sv48 : Bool
  sv57 : Bool
  sv32x4 : Bool
  sv39x4 : Bool
  sv48x4 : Bool
  sv57x4 : Bool
  asidLen : Nat
  vmidLen : Nat
  adScheme : AdScheme
  /-- the hart has an address-translation cache (R25), and may keep results of PMP checks (R199) -/
  tlb : Bool
  -- interrupts and delegation
  geilen : Nat
  /-- platform interrupts 16 and up, in decreasing priority (D14) -/
  platformInts : List Nat
  medelegMask : Word
  midelegMask : Word
  hedelegMask : Word
  hidelegMask : Word
  -- counters
  hpmCounters : BitVec 32
  hpmEventMask : Word
  mcounterenMask : BitVec 32
  scounterenMask : BitVec 32
  hcounterenMask : BitVec 32
  mcountinhibitImpl : Bool
  mcountinhibitMask : BitVec 32
  /-- the `time` CSR exists; if not its reads trap for emulation (P_TIMER) -/
  timeCsr : Bool
  -- memory
  /-- the hart attempts misaligned loads and stores (D10) -/
  misaligned : Bool
  pma : List Region
  -- policies
  /-- bit c: exception c writes the informative trap value (D11) -/
  tvalInfo : BitVec 64
  /-- bit c: exception c, a guest-page fault, writes the guest physical address (D11) -/
  tval2Info : BitVec 64
  /-- bit c: exception c, of a load or store, writes the transformed instruction to `xtinst` (TINST_POLICY, D12) -/
  tinstTransformed : BitVec 64
  /-- bit c: exception c, a guest-page fault on an implicit access, writes the pseudoinstruction also where it is not required
  (TINST_POLICY, D12) -/
  tinstPseudo : BitVec 64
  /-- WFI_IS_NOP; if not, WFI stalls the hart until an enabled interrupt is pending (D8) -/
  wfiIsNop : Bool
  /-- the bound on WFI, in steps; 0: raise at once (TW_TIMEOUT, D7) -/
  wfiTimeout : Nat
  xretClearsReservation : Bool
  /-- SFENCE.VMA and SINVAL.VMA are illegal instructions where `satp.MODE` is read-only 0 (R253) -/
  sfenceIllegalWithoutVm : Bool
  /-- FIOM is writable in `menvcfg`, `henvcfg` and `senvcfg` alike, or read-only 0 in all of them. Where there is no paging, R85 for
  `menvcfg` and R98 for `senvcfg` each allow either by itself: harts on which they differ are left out (DESIGN CHOICE,
  notes/assumptions/55.md) -/
  fiomWritable : Bool
  fsWritable : Bool
  vsWritable : Bool
  -- extensions (P_EXT)
  smstateen : Bool
  smcsrind : Bool
  sscsrind : Bool
  smepmp : Bool
  smcntrpmf : Bool
  smrnmi : Bool
  smcdeleg : Bool
  svnapot : Bool
  svpbmt : Bool
  svinval : Bool
  svvptc : Bool
  sstc : Bool
  sscofpmf : Bool
  shlcofideleg : Bool
deriving DecidableEq, Repr

/-- The hart the model resets: RV64 with M, S, U and the hypervisor extension, the decisions D2 to D26 of
92_eei_decisions.md, and the open parameters as the programs of 95_test_vectors.md take them (reset vector 0x80000000,
no PMP entry, no Smrnmi; notes/assumptions/1.md). DESIGN CHOICE, unsafe: another hart differs. -/
def Config.standard : Config where
  mxlen := .rv64
  hasU := true
  hasS := true
  hasH := true
  misaImpl := true
  misaWritable := 0
  sxlWritable := false
  uxlWritable := false
  vsxlWritable := false
  vuxlWritable := false
  mbe := .little
  sbe := .little
  ube := .little
  vsbe := .little
  vube := .little
  mvendorid := 0
  marchid := 0
  mimpid := 0
  mhartid := 0
  mconfigptr := 0
  resetVector := 0x80000000
  resetCause := 0
  nmiVector := 0x80000000
  mtvecLegal := .any
  stvecLegal := .any
  vstvecLegal := .any
  rnmiIntVector := 0x80000000
  rnmiExcVector := none
  pmpCount := 0
  pmpG := 0
  paBits := 56
  sv32 := false
  sv39 := true
  sv48 := true
  sv57 := true
  sv32x4 := false
  sv39x4 := true
  sv48x4 := true
  sv57x4 := true
  asidLen := 16
  vmidLen := 14
  adScheme := .svade
  tlb := false
  geilen := 0
  platformInts := []
  medelegMask := 0x0000000000FCB7FF
  midelegMask := 0x2222
  hedelegMask := 0x00000000000CB1FF
  hidelegMask := 0x444
  hpmCounters := 0xFFFFFFF8
  hpmEventMask := 0x00FFFFFFFFFFFFFF
  mcounterenMask := 0xFFFFFFFF
  scounterenMask := 0xFFFFFFFF
  hcounterenMask := 0xFFFFFFFF
  mcountinhibitImpl := true
  mcountinhibitMask := 0xFFFFFFFD
  timeCsr := true
  misaligned := false
  pma := [Region.timer .msip 0x2000000 4 [4], Region.timer .mtimecmp 0x2004000 8 [4, 8],
          Region.timer .mtime 0x200BFF8 8 [4, 8], Region.mainMemory 0 (2 ^ 56)]
  tvalInfo := BitVec.allOnes 64
  tval2Info := BitVec.allOnes 64
  tinstTransformed := 0
  tinstPseudo := 0
  wfiIsNop := true
  wfiTimeout := 0
  xretClearsReservation := false
  sfenceIllegalWithoutVm := false
  fiomWritable := true
  fsWritable := false
  vsWritable := false
  smstateen := true
  smcsrind := true
  sscsrind := true
  smepmp := true
  smcntrpmf := true
  smrnmi := false
  smcdeleg := true
  svnapot := true
  svpbmt := true
  svinval := true
  svvptc := true
  sstc := true
  sscofpmf := true
  shlcofideleg := false

/-- The exceptions with an informative trap value, as bits: addresses and instruction bits, not the environment calls; those of
the hypervisor extension where it is implemented (R342). -/
def Config.informative (c : Config) : BitVec 64 := if c.hasH then 0xF0B0FF else 0xB0FF

/-- Some exception writes a trap value, so that `mtval` is not read-only 0 (R82). -/
def Config.hasMtval (c : Config) : Bool := c.tvalInfo &&& c.informative != 0

/-- Some paged mode is supported, so that `satp.MODE` is not read-only 0 (R60, R101). -/
def Config.hasPaging (c : Config) : Bool := c.sv32 || c.sv39 || c.sv48 || c.sv57

/-- The writable bits of `misa` are of implemented extensions that this model has, and what depends on a writable extension is
itself writable: S on U, H on S (R46). -/
def Config.misaWf (c : Config) : Bool :=
  c.misaWritable &&& ~~~((if c.hasU then 1#26 <<< 20 else 0) ||| (if c.hasS then 1#26 <<< 18 else 0)
      ||| (if c.hasH then 1#26 <<< 7 else 0)) == 0
    && (!(c.misaWritable.getLsbD 20 && c.hasS) || c.misaWritable.getLsbD 18)
    && (!(c.misaWritable.getLsbD 18 && c.hasH) || c.misaWritable.getLsbD 7)

/-- The values the trap vectors are reset to are legal (R67). -/
def Config.tvecWf (c : Config) : Bool :=
  [c.mtvecLegal, c.stvecLegal, c.vstvecLegal].all fun t => decide (t.vectoredAlign ≤ 32) && t.aligned (t.fill 0)

/-- The delegation bits that must be read-only 0 are: of `medeleg` those of exceptions that cannot occur below M-mode, of which R68 names
bit 11 and D13 the others; and those of `hedeleg` and `hideleg` that must be writable are (R146, R147). -/
def Config.delegationWf (c : Config) : Bool :=
  c.medelegMask &&& ~~~0xFCB7FF == 0 && c.hedelegMask &&& 0xF10E00 == 0
    && (!c.hasH || (c.hedelegMask &&& 0xCB1FF == 0xCB1FF && c.hidelegMask &&& 0x444 == 0x444))

/-- The constraints the spec puts on the parameters (R15, R22, R68, R82, R85, R136, R146, R147, R168, R178-R180, R184, R189,
R210, R211, the table of P_* parameters). -/
def Config.wf (c : Config) : Bool :=
  (!c.hasS || c.hasU) && (!c.hasH || (c.hasS && c.hasMtval)) && c.misaWf && c.tvecWf
    && (c.fiomWritable || !c.hasS || !c.hasPaging) && (!c.svnapot || c.sv39) && (!c.svpbmt || c.sv39)
    && (c.pmpCount == 0 || c.pmpCount == 16 || c.pmpCount == 64)
    && (match c.mxlen with
        | .rv32 => decide (c.paBits ≤ 34) && !(c.sv39 || c.sv48 || c.sv57 || c.sv39x4 || c.sv48x4 || c.sv57x4)
            && decide (c.geilen ≤ 31) && (!c.hasH || c.sv32)
        | .rv64 => decide (c.paBits ≤ 56) && decide (c.geilen ≤ 63) && (!c.hasH || c.sv39))
    && c.pma.all (fun r => decide (r.base + r.size ≤ 2 ^ c.paBits) && r.wf)
    && (!c.sv48 || c.sv39) && (!c.sv57 || c.sv48)
    && decide (c.asidLen ≤ 16) && decide (c.vmidLen ≤ 14)
    && (!c.smcdeleg || (c.sscsrind && c.hasS)) && (!c.sstc || c.hasS)
    && c.resetVector.extractLsb' 0 2 == 0 && c.nmiVector.extractLsb' 0 2 == 0
    && c.rnmiIntVector.extractLsb' 0 2 == 0
    && (match c.rnmiExcVector with | none => true | some v => v.extractLsb' 0 2 == 0)
    && (c.misaligned || c.pma.all (fun r => r.granule.isNone))
    && c.platformInts.all (fun i => decide (16 ≤ i))
    && c.delegationWf

/-! ### Free values

Nothing evaluates them and nothing can be proved of their values; a claim is true whatever they are. The first argument is
the step's number (`State.draws`), so that every step draws afresh. -/

/-- How many cycles pass between two instructions, beyond the one that always does (R74, R358). -/
opaque Config.cycleTicks : Nat → Nat

/-- By how much more than 1 `mtime` advances where it advances (R83, R358). -/
opaque Config.timeTicks : Nat → Nat

/-- After how many steps without an advance `mtime` advances again (R83, R358): step. -/
opaque Config.timeGap : Nat → Nat

/-- How many steps from step n on pass before `mtime` advances. -/
def Config.untilTick : Nat → Nat
  | 0 => Config.timeGap 0
  | n + 1 => if Config.untilTick n = 0 then Config.timeGap (n + 1) else Config.untilTick n - 1

/-- How far `mtime` advances before the instruction of step n: by open amounts at open moments, never backwards, and always again
(R358). -/
def Config.timeAdvance (n : Nat) : Nat := if Config.untilTick n = 0 then Config.timeTicks n + 1 else 0

/-- An unspecified register value (R34, R46): step, which register. -/
opaque Config.freeWord : Nat → Nat → Word

/-- What a WLRL exception-code field holds after an illegal write: the value written, the old value (R32). -/
opaque Config.wlrlCause : Word → Word → Word

/-- What `hstatus.VGEIN` holds after an illegal write: the value written, the old value (R32, R142). -/
opaque Config.wlrlVgein : BitVec 6 → BitVec 6 → BitVec 6

/-- What the ASID and PPN fields hold after Bare is selected with them non-zero: the value written (R102). -/
opaque Config.satpBareRest : Word → Word

/-- Where translation under such a register leads (R102): the register, the virtual address; none: a page fault. -/
opaque Config.satpBareTarget : Word → Word → Option Nat

/-- Which bytes of a misaligned store that faults stay, of those that can be stored (R176): step, byte of the access. -/
opaque Config.splitVisible : Nat → Nat → Bool

/-- The portion of a part of a misaligned access that is named where the part faults, by its first byte in the part and its width
(R176): step, first byte of the part in the access. -/
opaque Config.faultPortion : Nat → Nat → Nat × Nat

/-- Which PMP registers a check goes by, of the current ones and those kept since before a write (R199, R356): step, use, address,
width. -/
opaque Config.pmpChoice : Nat → Nat → Nat → Nat → Nat

/-- Which of the 16 pages of a NAPOT range a cached copy of its PTE is kept for (R210): step, address. -/
opaque Config.napotAliases : Nat → Nat → BitVec 16

/-- Which cached translation, if any, a walk takes (R208, R254): step, kind of walk and level, address. -/
opaque Config.cacheChoice : Nat → Nat → Nat → Nat

/-- The addresses that the hart walks speculatively before an instruction (R25, R208): step, stage. -/
opaque Config.specWalks : Nat → Nat → List Nat

end Sys2Proof
end

