-- ==== Sys2Proof/Machine/State.lean ====
section
/-! DEFINITION. The state of one hart with its platform, and the state after reset. Plain data; the meaning of every
field's bits is in the accessors of Machine/Fields.lean and Machine/CsrRead.lean. -/

namespace Sys2Proof.Machine

/-- The nominal privilege modes (R14). Code 2 is reserved and never held. -/
inductive Priv where
  | u | s | m
deriving DecidableEq, Repr

/-- Why the machine stops with a fault. -/
inductive Fault where
  /-- Raised by a fetch, load, store or page-table access that passes translation, PMP and PMA and reaches an I/O region
  whose device the spec does not describe (R178, R362). Safe: the model stops where the hardware goes on. -/
  | undescribedDevice (pa : Nat)
deriving DecidableEq, Repr

/-- Why the machine refuses an instruction. -/
inductive Refusal where
  /-- Raised by an arm of exec whose instruction has no meaning yet; no arm is left so. Safe: the model stops. -/
  | notModelled (mnemonic : String)
deriving DecidableEq, Repr

/-- Memory: the bytes that differ from what an unlisted address reads as, by physical address (R168). -/
abbrev Memory := List Host.Cell

/-- The translation stage a cached entry belongs to (R25, R214). -/
inductive Stage where
  | s | vs | g
deriving DecidableEq, Repr

/-- The parameters of a translation scheme (R200, R216). -/
structure Scheme where
  levels : Nat
  vpnBits : Nat
  pteBytes : Nat
  /-- further bits of the top level's page number: 2 in G-stage (R216) -/
  extra : Nat
deriving DecidableEq, Repr

/-- One cached PTE copy (R25): the address space, the scheme and the level it was read under, the page number above that level, the
PTE. -/
structure CacheEntry where
  stage : Stage
  scheme : Scheme
  vmid : Nat
  asid : Nat
  level : Nat
  vpn : Nat
  pte : Word
  /-- a walk ends at the PTE: it is a leaf, or invalid or reserved; not a pointer (R253, R254) -/
  leaf : Bool
  /-- the mapping is global: the G bit here or on the path (R204) -/
  global : Bool
deriving DecidableEq, Repr

/-- The PMP registers as they were before a write: until a fence the hart may go by the results of checks it made then (R199, R356).
`guest` says which fence ends that: HFENCE.GVMA for accesses of virtual machines, else SFENCE.VMA. -/
structure PmpCopy where
  guest : Bool
  cfg : Vector (BitVec 8) 64
  addr : Vector Word 64
deriving DecidableEq, Repr

/-- The input signals of the hart (R26). -/
structure Pins where
  meip : Bool
  seip : Bool
  /-- guest external interrupt lines (R152) -/
  hgeip : Word
  /-- platform external and timer interrupt signals directed to VS level (R150) -/
  vsei : Bool
  vsti : Bool
  /-- platform interrupts, by number (D14) -/
  platform : Word
  /-- an NMI with its cause code (R349) -/
  nmi : Option Word
  /-- a resumable NMI with its cause code (R350) -/
  rnmi : Option Word
deriving DecidableEq, Repr

/-- What the platform does between two instructions (R359, R362). -/
structure EnvInput where
  pins : Pins
  /-- how far `mtime` advances -/
  timeTicks : Nat
  /-- how many cycles pass beyond the one that always does (R358) -/
  cycleTicks : Nat
  /-- performance-monitoring events that occurred (P_HPM) -/
  events : List Word
  /-- the interrupt controller sets SSIP (R71) -/
  setSsip : Bool
  /-- bytes that other harts and devices store at physical addresses: memory, page tables, and the memory-mapped registers of
  this hart, by which they raise inter-processor interrupts (R187, R357) -/
  stores : List Host.Cell
deriving DecidableEq, Repr

/-- Machine-level CSRs (11_machine_csrs.md, 13_extension_csrs.md, 21_pmp.md). -/
structure MCsrs where
  /-- mstatus with mstatush in bits 63:32, in the RV64 layout (R52) -/
  mstatus : Word
  /-- misa.Extensions (R45) -/
  misa : BitVec 26
  medeleg : Word
  mideleg : Word
  mie : Word
  /-- the software-writable bits of mip (R71) -/
  mip : Word
  mtvec : Word
  mcounteren : BitVec 32
  mcountinhibit : BitVec 32
  mscratch : Word
  mepc : Word
  mcause : Word
  mtval : Word
  mtval2 : Word
  mtinst : Word
  menvcfg : Word
  mseccfg : Word
  mstateen : Vector Word 4
  miselect : Word
  mnscratch : Word
  mnepc : Word
  mncause : Word
  mnstatus : Word
  pmpcfg : Vector (BitVec 8) 64
  pmpaddr : Vector Word 64
deriving DecidableEq, Repr

/-- Supervisor-level CSRs (12_supervisor_csrs.md, 13_extension_csrs.md). -/
structure SCsrs where
  stvec : Word
  scounteren : BitVec 32
  senvcfg : Word
  sscratch : Word
  sepc : Word
  scause : Word
  stval : Word
  stimecmp : Word
  satp : Word
  sstateen : Vector (BitVec 32) 4
  siselect : Word
deriving DecidableEq, Repr

/-- Hypervisor CSRs (14_hypervisor_csrs.md). -/
structure HCsrs where
  hstatus : Word
  hedeleg : Word
  hideleg : Word
  hvip : Word
  hgeie : Word
  hcounteren : BitVec 32
  henvcfg : Word
  htimedelta : Word
  htval : Word
  htinst : Word
  hgatp : Word
  hstateen : Vector Word 4
deriving DecidableEq, Repr

/-- Virtual-supervisor CSRs (14_hypervisor_csrs.md). -/
structure VCsrs where
  vsstatus : Word
  vstvec : Word
  vsscratch : Word
  vsepc : Word
  vscause : Word
  vstval : Word
  vstimecmp : Word
  vsatp : Word
  vsiselect : Word
deriving DecidableEq, Repr

/-- Counters and their selectors (R74, R75, R118, R120). Index i is counter i; 0 to 2 of the arrays are unused. `mcycle`, and with it
`mcountinhibit.CY`, is this hart's own: the sharing among the harts of a core that R74, R78 and R357 allow is left out, so that
no write of another hart reaches it (DESIGN CHOICE, notes/assumptions/25.md). -/
structure Counters where
  mcycle : Word
  minstret : Word
  hpmcounter : Vector Word 32
  hpmevent : Vector Word 32
  mcyclecfg : Word
  minstretcfg : Word
deriving DecidableEq, Repr

/-- The state of the machine. -/
structure State where
  /-- the parameters; the model's own field, constant (R8) -/
  cfg : Config
  pc : Word
  /-- x0 to x31; entry 0 is not read (R18) -/
  regs : Vector Word 32
  priv : Priv
  /-- the virtualisation mode V (R16) -/
  virt : Bool
  mc : MCsrs
  sc : SCsrs
  hc : HCsrs
  vc : VCsrs
  cnt : Counters
  mtime : Word
  mtimecmp : Word
  /-- the memory-mapped machine software interrupt register (R187) -/
  msip : BitVec 32
  mem : Memory
  /-- the address-translation cache (R25) -/
  cache : List CacheEntry
  /-- the PMP results it may still hold: the registers they were made with (R199, R356) -/
  pmpCopies : List PmpCopy
  /-- the load reservation (R24) -/
  reservation : Option Nat
  /-- the steps a WFI has stalled the hart, the pc being still its own; 0: the hart is not stalled (R238, D8) -/
  waited : Nat
  pins : Pins
  /-- the platform's inputs to come; the model's own field (R359) -/
  env : List EnvInput
  /-- the number of steps taken, behind the free values; the model's own field -/
  draws : Nat
deriving DecidableEq, Repr

/-- No signal asserted. -/
def Pins.none : Pins := ⟨false, false, 0, false, false, 0, Option.none, Option.none⟩

/-- What a byte-order bit holds at reset (R52, R352). -/
def EndianBit.atReset : EndianBit → Word
  | .big => 1
  | _ => 0

/-- mstatus after reset: MIE, MPRV and, where little-endian is supported, MBE are 0 (R352); SXL and UXL hold MXLEN's
code, MPP the least mode, which are the least legal values; the rest is 0 (log 2). -/
def mstatusAtReset (c : Config) : Word :=
  (if c.hasU then 0 else 3 <<< 11)
    ||| (match c.mxlen with
        | .rv32 => 0
        | .rv64 => (if c.hasS then 2 <<< 34 else 0) ||| (if c.hasU then 2 <<< 32 else 0))
    ||| (EndianBit.atReset c.mbe <<< 37) ||| (EndianBit.atReset c.sbe <<< 36) ||| (EndianBit.atReset c.ube <<< 6)

/-- misa.Extensions after reset: every supported extension (R44, R352). -/
def misaAtReset (c : Config) : BitVec 26 :=
  (1 <<< 8) ||| (if c.hasH then 1 <<< 7 else 0) ||| (if c.hasS then 1 <<< 18 else 0)
    ||| (if c.hasU then 1 <<< 20 else 0)

/-- The state right after reset of a hart with the parameters `c` (R352, R353). Every `pmpcfg` is 0: the platform mandates no other
reset value of A and L for any entry, though R194 and R352 allow it (DESIGN CHOICE, notes/assumptions/17.md). -/
def State.resetWith (c : Config) : State where
  cfg := c
  pc := match c.mxlen with
    | .rv32 => (c.resetVector.setWidth 32).signExtend 64
    | .rv64 => c.resetVector
  regs := Vector.replicate 32 0
  priv := .m
  virt := false
  mc :=
    { mstatus := mstatusAtReset c
      misa := misaAtReset c
      medeleg := 0
      mideleg := 0
      mie := 0
      mip := 0
      mtvec := c.mtvecLegal.initial c.mxlen
      mcounteren := 0
      mcountinhibit := 0
      mscratch := 0
      mepc := 0
      mcause := c.resetCause
      mtval := 0
      mtval2 := 0
      mtinst := 0
      menvcfg := 0
      mseccfg := 0
      mstateen := Vector.replicate 4 0
      miselect := 0
      mnscratch := 0
      mnepc := 0
      mncause := 0
      mnstatus := if c.hasU then 0 else 3 <<< 11
      pmpcfg := Vector.replicate 64 0
      pmpaddr := Vector.replicate 64 0 }
  sc :=
    { stvec := c.stvecLegal.initial c.mxlen, scounteren := 0, senvcfg := 0, sscratch := 0, sepc := 0, scause := 0, stval := 0
      stimecmp := 0, satp := 0, sstateen := Vector.replicate 4 0, siselect := 0 }
  hc :=
    { hstatus := (match c.mxlen with
        | .rv32 => 0
        | .rv64 => if c.hasH then 2 <<< 32 else 0) ||| (EndianBit.atReset c.vsbe <<< 5)
      hedeleg := 0
      hideleg := 0
      hvip := 0
      hgeie := 0
      hcounteren := 0
      henvcfg := 0
      htimedelta := 0
      htval := 0
      htinst := 0
      hgatp := 0
      hstateen := Vector.replicate 4 0 }
  vc :=
    { vsstatus := (match c.mxlen with
        | .rv32 => 0
        | .rv64 => if c.hasH then 2 <<< 32 else 0) ||| (EndianBit.atReset c.vube <<< 6)
      vstvec := c.vstvecLegal.initial c.mxlen
      vsscratch := 0
      vsepc := 0
      vscause := 0
      vstval := 0
      vstimecmp := 0
      vsatp := 0
      vsiselect := 0 }
  cnt :=
    { mcycle := 0, minstret := 0, hpmcounter := Vector.replicate 32 0, hpmevent := Vector.replicate 32 0
      mcyclecfg := 0, minstretcfg := 0 }
  mtime := 0
  mtimecmp := 0
  msip := 0
  mem := []
  cache := []
  pmpCopies := []
  reservation := none
  waited := 0
  pins := Pins.none
  env := []
  draws := 0

/-- The machine right after reset: the standard hart (notes/assumptions/1.md). -/
def State.reset : State := State.resetWith Config.standard

end Sys2Proof.Machine
end

