-- ==== Sys2Proof/Machine/Bits.lean ====
section
/-! DEFINITION. Bit fields, width conversions and byte order (R9, R10, R19, R37, R57, R173). -/

namespace Sys2Proof.Machine

/-- Bit i of a word (R9). -/
def bit (w : Word) (i : Nat) : Bool := w.getLsbD i

/-- The word whose only set bit is bit i, if b. -/
def bitAt (i : Nat) (b : Bool) : Word := if b then 1#64 <<< i else 0

/-- w with bit i replaced (R11). -/
def setBit (w : Word) (i : Nat) (b : Bool) : Word := (w &&& ~~~(1#64 <<< i)) ||| bitAt i b

/-- The field of n bits that starts at bit lo (R9). -/
def field (w : Word) (lo n : Nat) : BitVec n := w.extractLsb' lo n

/-- w with the field that starts at bit lo replaced (R11). -/
def setField (w : Word) (lo : Nat) {n : Nat} (v : BitVec n) : Word :=
  (w &&& ~~~((BitVec.allOnes n).setWidth 64 <<< lo)) ||| (v.setWidth 64 <<< lo)

/-- The bits of v where the mask is set, the bits of w elsewhere. -/
def merge (w v mask : Word) : Word := (w &&& ~~~mask) ||| (v &&& mask)

/-- A value zero-extended from the width (R11, R37). -/
def zx : Xlen → Word → Word
  | .rv32, v => (v.setWidth 32).setWidth 64
  | .rv64, v => v

/-- A value sign-extended from the width: what a narrower mode writes to x registers and pc (R57). -/
def sx : Xlen → Word → Word
  | .rv32, v => (v.setWidth 32).signExtend 64
  | .rv64, v => v

/-- The mask of the low XLEN bits. -/
def xmask : Xlen → Word
  | .rv32 => 0xFFFFFFFF
  | .rv64 => BitVec.allOnes 64

/-- An explicit write of v changes the low XLEN bits only (R37). -/
def writeLow (xl : Xlen) (old v : Word) : Word := merge old v (xmask xl)

/-- Bits 31:0 of old and v's low half in bits 63:32: a write of a high-half CSR (R37). -/
def writeHigh (old v : Word) : Word := merge old (v <<< 32) 0xFFFFFFFF00000000

/-- The two low bits cleared: IALIGN = 32 (R22, R80). -/
def align4 (w : Word) : Word := w &&& ~~~3#64

/-- The number whose base-256 digits are the bytes, the first least significant. -/
def natOfBytes : List Byte → Nat
  | [] => 0
  | b :: bs => b.toNat + 256 * natOfBytes bs

/-- The value of bytes listed by rising address: little-endian, or big-endian (R173). -/
def valueOfBytes (big : Bool) (bs : List Byte) : Word :=
  BitVec.ofNat 64 (natOfBytes (if big then bs.reverse else bs))

/-- The n low bytes of a value, least significant first. -/
def lowBytes (v : Word) : Nat → List Byte
  | 0 => []
  | n + 1 => v.setWidth 8 :: lowBytes (v >>> 8) n

/-- The n low bytes of a value in the order of their addresses (R173). -/
def bytesOfValue (big : Bool) (n : Nat) (v : Word) : List Byte :=
  if big then (lowBytes v n).reverse else lowBytes v n

/-- Sign extension from n bytes (R11). -/
def sextBytes (n : Nat) (v : Word) : Word := (v.setWidth (8 * n)).signExtend 64

/-- Zero extension from n bytes (R11). -/
def zextBytes (n : Nat) (v : Word) : Word := (v.setWidth (8 * n)).setWidth 64

end Sys2Proof.Machine
end

