-- ==== Sys2Proof/Machine/Fields.lean ====
section
/-! DEFINITION. The fields of the status and control registers, the features present, the XLEN of each mode, and the
delegation and enable registers as they read (10_state.md to 14_hypervisor_csrs.md). -/

namespace Sys2Proof.Machine

/-! ### Privilege modes (R14) -/

/-- The two-bit code of a mode (R14). -/
def Priv.code : Priv → BitVec 2
  | .u => 0
  | .s => 1
  | .m => 3

/-- The mode of a code; the reserved code 2, which no field ever holds, is read as U (R14, R54). -/
def Priv.ofCode (c : BitVec 2) : Priv :=
  if c = 3#2 then .m else if c = 1#2 then .s else .u

/-- The mode SPP and its like name: 0 U, 1 S (R54). -/
def Priv.ofBit (b : Bool) : Priv := if b then .s else .u

/-! ### Features -/

/-- The extension of bit k of `misa` is enabled; without a `misa` every implemented one is (R46). -/
def State.enables (s : State) (k : Nat) : Bool := !s.cfg.misaImpl || s.mc.misa.getLsbD k

/-- U-mode is implemented, and enabled by `misa.U` (R15, R46). -/
def State.hasU (s : State) : Bool := s.cfg.hasU && s.enables 20

/-- S-mode is implemented, and enabled by `misa.S`; it depends on U-mode (R15, R46). -/
def State.hasS (s : State) : Bool := s.hasU && s.cfg.hasS && s.enables 18

/-- The hypervisor extension is implemented, and enabled by `misa.H`; it depends on S-mode (R46, R136). -/
def State.hasH (s : State) : Bool := s.hasS && s.cfg.hasH && s.enables 7

/-- The least privileged supported mode (R55). -/
def State.leastMode (s : State) : Priv := if s.hasU then .u else .m

/-- The mode is implemented (R54). -/
def State.supports (s : State) : Priv → Bool
  | .u => s.hasU
  | .s => s.hasS
  | .m => true

/-! ### mstatus (R52) -/

def State.mstatusSIE (s : State) : Bool := bit s.mc.mstatus 1
def State.mstatusMIE (s : State) : Bool := bit s.mc.mstatus 3
def State.mstatusSPIE (s : State) : Bool := bit s.mc.mstatus 5
def State.mstatusUBE (s : State) : Bool := bit s.mc.mstatus 6
def State.mstatusMPIE (s : State) : Bool := bit s.mc.mstatus 7
def State.mstatusSPP (s : State) : Bool := bit s.mc.mstatus 8
def State.mstatusMPP (s : State) : BitVec 2 := field s.mc.mstatus 11 2
def State.mstatusMPRV (s : State) : Bool := bit s.mc.mstatus 17
def State.mstatusSUM (s : State) : Bool := bit s.mc.mstatus 18
def State.mstatusMXR (s : State) : Bool := bit s.mc.mstatus 19
def State.mstatusTVM (s : State) : Bool := bit s.mc.mstatus 20
def State.mstatusTW (s : State) : Bool := bit s.mc.mstatus 21
def State.mstatusTSR (s : State) : Bool := bit s.mc.mstatus 22
def State.mstatusSBE (s : State) : Bool := bit s.mc.mstatus 36
def State.mstatusMBE (s : State) : Bool := bit s.mc.mstatus 37
def State.mstatusGVA (s : State) : Bool := bit s.mc.mstatus 38
def State.mstatusMPV (s : State) : Bool := bit s.mc.mstatus 39

/-! ### hstatus (R139), vsstatus (R159), mnstatus (R134) -/

def State.hstatusVSBE (s : State) : Bool := bit s.hc.hstatus 5
def State.hstatusGVA (s : State) : Bool := bit s.hc.hstatus 6
def State.hstatusSPV (s : State) : Bool := bit s.hc.hstatus 7
def State.hstatusSPVP (s : State) : Bool := bit s.hc.hstatus 8
def State.hstatusHU (s : State) : Bool := bit s.hc.hstatus 9
def State.hstatusVGEIN (s : State) : BitVec 6 := field s.hc.hstatus 12 6
def State.hstatusVTVM (s : State) : Bool := bit s.hc.hstatus 20
def State.hstatusVTW (s : State) : Bool := bit s.hc.hstatus 21
def State.hstatusVTSR (s : State) : Bool := bit s.hc.hstatus 22

def State.vsstatusSIE (s : State) : Bool := bit s.vc.vsstatus 1
def State.vsstatusSPIE (s : State) : Bool := bit s.vc.vsstatus 5
def State.vsstatusUBE (s : State) : Bool := bit s.vc.vsstatus 6
def State.vsstatusSPP (s : State) : Bool := bit s.vc.vsstatus 8
def State.vsstatusSUM (s : State) : Bool := bit s.vc.vsstatus 18
def State.vsstatusMXR (s : State) : Bool := bit s.vc.vsstatus 19

def State.mnstatusNMIE (s : State) : Bool := bit s.mc.mnstatus 3
def State.mnstatusMNPV (s : State) : Bool := bit s.mc.mnstatus 7
def State.mnstatusMNPP (s : State) : BitVec 2 := field s.mc.mnstatus 11 2

/-! ### XLEN of each mode (R27, R56, R140, R159) -/

/-- The width a two-bit XL field names: 1 is 32, 2 is 64 (R44, R56). -/
def xlenOf (f : BitVec 2) : Xlen := if f = 1#2 then .rv32 else .rv64

/-- SXLEN, also HSXLEN (R56). -/
def State.sxlen (s : State) : Xlen :=
  match s.cfg.mxlen with
  | .rv32 => .rv32
  | .rv64 => if s.hasS then xlenOf (field s.mc.mstatus 34 2) else .rv64

/-- UXLEN (R56, R89): never wider than SXLEN. -/
def State.uxlen (s : State) : Xlen :=
  match s.sxlen with
  | .rv32 => .rv32
  | .rv64 => if s.hasU then xlenOf (field s.mc.mstatus 32 2) else .rv64

/-- Some paged mode is supported at SXLEN, so `satp.MODE` is not read-only 0 (R60, R89, R101). -/
def State.hasPaging (s : State) : Bool :=
  match s.sxlen with
  | .rv32 => s.cfg.sv32
  | .rv64 => s.cfg.sv39 || s.cfg.sv48 || s.cfg.sv57

/-- VSXLEN (R140). -/
def State.vsxlen (s : State) : Xlen :=
  match s.sxlen with
  | .rv32 => .rv32
  | .rv64 => xlenOf (field s.hc.hstatus 32 2)

/-- The XLEN of VU-mode (R159). -/
def State.vuxlen (s : State) : Xlen :=
  match s.vsxlen with
  | .rv32 => .rv32
  | .rv64 => xlenOf (field s.vc.vsstatus 32 2)

/-- The XLEN of a mode (R27). -/
def State.xlenAt (s : State) (p : Priv) (v : Bool) : Xlen :=
  match p, v with
  | .m, _ => s.cfg.mxlen
  | .s, false => s.sxlen
  | .u, false => s.uxlen
  | .s, true => s.vsxlen
  | .u, true => s.vuxlen

/-- XLEN in the current mode (R27). -/
def State.xlen (s : State) : Xlen := s.xlenAt s.priv s.virt

/-! ### Delegation (R68, R146, R147, R166) -/

/-- Interrupt i is one the platform has (R70). -/
def State.hasPlatformInt (s : State) (i : Nat) : Bool := s.cfg.platformInts.contains i

/-- The platform interrupts as a mask (D14). -/
def State.platformMask (s : State) : Word := s.cfg.platformInts.foldl (fun w i => w ||| 1#64 <<< i) 0

/-- The supervisor-level interrupts: SSI, STI, SEI, LCOFI and the platform's (R70, R91). Every hart with S-mode has SSI, STI and SEI,
and one with Sscofpmf LCOFI: harts that implement fewer standard interrupts, with both bits read-only 0 as R91 allows, are left
out (DESIGN CHOICE, notes/assumptions/54.md). -/
def State.sInts (s : State) : Word :=
  (if s.hasS then 0x222 else 0) ||| bitAt 13 s.cfg.sscofpmf ||| s.platformMask

/-- The VS-level and guest external interrupts (R149, R166). -/
def State.hInts (s : State) : Word :=
  if s.hasH then 0x444 ||| bitAt 12 (s.cfg.geilen != 0) else 0

/-- medeleg as it reads: bits 11, 14, 16, 17 and 24 up are read-only 0, 10 and 20-23 exist with H only (R68, D13). -/
def State.medeleg (s : State) : Word :=
  s.mc.medeleg &&& s.cfg.medelegMask &&& (if s.hasH then 0xFCB7FF else 0x0CB3FF)

/-- The writable bits of mideleg (R68, D13). -/
def State.midelegWritable (s : State) : Word := if s.hasS then s.cfg.midelegMask &&& s.sInts else 0

/-- mideleg as it reads: VS-level and guest external interrupts are always delegated (R68, R166). DESIGN CHOICE: no other bit is
read-only 1, where R68 lets that of any lower-level interrupt be; one that the parameters do not make writable is read-only 0
(notes/assumptions/39.md). -/
def State.mideleg (s : State) : Word := (s.mc.mideleg &&& s.midelegWritable) ||| s.hInts

/-- The writable bits of hedeleg (R146, D13): bits 9-11, 16 and 20-23 are read-only 0. -/
def State.hedeleg (s : State) : Word :=
  if s.hasH then s.hc.hedeleg &&& s.cfg.hedelegMask &&& 0xFFFFFFFFFF0EF1FF else 0

/-- The writable bits of hideleg, HSXLEN bits wide (R147): 2, 6, 10, with Shlcofideleg 13, and platform interrupts, where mideleg is
set. -/
def State.hidelegWritable (s : State) : Word :=
  if s.hasH then
    zx s.sxlen (s.cfg.hidelegMask &&& (0x444 ||| bitAt 13 s.cfg.shlcofideleg ||| s.platformMask) &&& s.mideleg)
  else 0

/-- hideleg as it reads (R147, R166). -/
def State.hideleg (s : State) : Word := s.hc.hideleg &&& s.hidelegWritable

/-! ### Environment configuration (R84, R98, R153) -/

/-- The writable bits of menvcfg (R84, R85), those of extensions of S-mode only with it. CDE is writable where the hart has Smcdeleg,
as R84 has it, though a table of 93_implementation_defined.md names it among fields that read 0 (DESIGN CHOICE,
notes/assumptions/45.md). -/
def State.menvcfgWritable (s : State) : Word :=
  (if s.hasS then
      bitAt 63 s.cfg.sstc ||| bitAt 62 s.cfg.svpbmt ||| bitAt 61 (s.cfg.adScheme == .switchable) ||| bitAt 60 s.cfg.smcdeleg
    else 0) ||| bitAt 0 s.cfg.fiomWritable

/-- menvcfg as it reads; absent without U-mode (R84). -/
def State.menvcfg (s : State) : Word := if s.hasU then s.mc.menvcfg &&& s.menvcfgWritable else 0

/-- The writable bits of henvcfg: STCE, PBMTE and ADUE only where menvcfg has them set (R85, R100, R153). -/
def State.henvcfgWritable (s : State) : Word :=
  (s.menvcfg &&& 0xE000000000000000) ||| bitAt 0 s.cfg.fiomWritable

/-- henvcfg as it reads (R153). -/
def State.henvcfg (s : State) : Word := if s.hasH then s.hc.henvcfg &&& s.henvcfgWritable else 0

/-- senvcfg as it reads: only FIOM is in scope (R98). Whether it is writable goes with `menvcfg`'s (DESIGN CHOICE,
notes/assumptions/55.md). -/
def State.senvcfg (s : State) : Word := if s.hasS then s.sc.senvcfg &&& bitAt 0 s.cfg.fiomWritable else 0

def State.menvcfgFIOM (s : State) : Bool := bit s.menvcfg 0
def State.menvcfgCDE (s : State) : Bool := bit s.menvcfg 60
def State.menvcfgADUE (s : State) : Bool := bit s.menvcfg 61
def State.menvcfgPBMTE (s : State) : Bool := bit s.menvcfg 62
def State.menvcfgSTCE (s : State) : Bool := bit s.menvcfg 63
def State.henvcfgFIOM (s : State) : Bool := bit s.henvcfg 0
def State.henvcfgADUE (s : State) : Bool := bit s.henvcfg 61
def State.henvcfgPBMTE (s : State) : Bool := bit s.henvcfg 62
def State.henvcfgSTCE (s : State) : Bool := bit s.henvcfg 63

/-! ### State enables (R104-R111) -/

/-- The bits of stateen0 that U-mode's registers have too: JVT, FCSR and C. The hart has no Zcmt, no floating point on x
registers and no custom state, so they are read-only 0 (R106, R108). -/
def stateenUser : Word := 0

/-- `hedelegh` can exist: HSXLEN is 32, or can become 32 (R56, R146). -/
def State.canHedelegh (s : State) : Bool := s.hasH && (decide (s.cfg.mxlen = .rv32) || s.cfg.sxlWritable)

/-- The writable bits of mstateen[n] (R107, R108): SE, ENVCFG, CSRIND and P1P13, each where the registers it guards exist
(R106). -/
def State.mstateenWritable (s : State) (n : Fin 4) : Word :=
  if n = 0 then
    bitAt 63 s.hasS ||| bitAt 62 s.hasS ||| bitAt 60 (s.cfg.sscsrind && s.hasS) ||| bitAt 56 s.canHedelegh ||| stateenUser
  else bitAt 63 s.hasS

/-- mstateen[n] as it reads. -/
def State.mstateen (s : State) (n : Fin 4) : Word := s.mc.mstateen[n] &&& s.mstateenWritable n

/-- The writable bits of hstateen[n]: none where mstateen[n] is 0 (R106, R109). -/
def State.hstateenWritable (s : State) (n : Fin 4) : Word :=
  (if n = 0 then bitAt 63 true ||| bitAt 62 true ||| bitAt 60 s.cfg.sscsrind ||| stateenUser
  else bitAt 63 true) &&& s.mstateen n

/-- hstateen[n] as it reads (R106). -/
def State.hstateen (s : State) (n : Fin 4) : Word := s.hc.hstateen[n] &&& s.hstateenWritable n

/-- The writable bits of sstateen[n], under mstateen and, when V=1, hstateen (R106, R110). -/
def State.sstateenWritable (s : State) (n : Fin 4) : BitVec 32 :=
  (if n = 0 then stateenUser.setWidth 32 else 0) &&& (s.mstateen n).setWidth 32
    &&& (if s.virt then (s.hstateen n).setWidth 32 else BitVec.allOnes 32)

/-- sstateen[n] as it reads in the current mode (R106). -/
def State.sstateen (s : State) (n : Fin 4) : BitVec 32 := s.sc.sstateen[n] &&& s.sstateenWritable n

/-! ### Counter enables (R77, R93, R154) -/

def State.mcounteren (s : State) : BitVec 32 := s.mc.mcounteren &&& s.cfg.mcounterenMask
def State.scounteren (s : State) : BitVec 32 := s.sc.scounteren &&& s.cfg.scounterenMask
def State.hcounteren (s : State) : BitVec 32 := s.hc.hcounteren &&& s.cfg.hcounterenMask

/-- mcountinhibit as it reads: bit 1 is 0; where it is not implemented it acts as 0 (R78). -/
def State.mcountinhibit (s : State) : BitVec 32 :=
  if s.cfg.mcountinhibitImpl then s.mc.mcountinhibit &&& s.cfg.mcountinhibitMask &&& 0xFFFFFFFD else 0

/-! ### mseccfg (R86, R196) -/

def State.mseccfgMML (s : State) : Bool := s.cfg.smepmp && bit s.mc.mseccfg 0
def State.mseccfgMMWP (s : State) : Bool := s.cfg.smepmp && bit s.mc.mseccfg 1
def State.mseccfgRLB (s : State) : Bool := s.cfg.smepmp && bit s.mc.mseccfg 2

/-! ### The effective mode of an explicit access (R58, R165) -/

/-- MPRV as it acts: only in M-mode, and as 0 while `mnstatus.NMIE` is 0 (R58, R134). -/
def State.mprvActs (s : State) : Bool :=
  s.priv == .m && s.mstatusMPRV && (!s.cfg.smrnmi || s.mnstatusNMIE)

/-- The effective privilege of a load or store (R58). -/
def State.effPriv (s : State) : Priv := if s.mprvActs then Priv.ofCode s.mstatusMPP else s.priv

/-- The effective virtualisation mode of a load or store (R165, Table 18.5). -/
def State.effVirt (s : State) : Bool :=
  if s.mprvActs then s.hasH && s.mstatusMPV && s.effPriv != .m else s.virt

/-- The byte order of an explicit access at an effective mode: true is big-endian (R173). -/
def State.bigEndian (s : State) (p : Priv) (v : Bool) : Bool :=
  match p, v with
  | .m, _ => s.mstatusMBE
  | .s, false => s.mstatusSBE
  | .u, false => s.mstatusUBE
  | .s, true => s.hstatusVSBE
  | .u, true => s.vsstatusUBE

end Sys2Proof.Machine
end

