-- ==== Sys2Proof/Machine/Flags.lean ====
section
/-! DEFINITION. Status bits that hardware computes. The integer ISA has no condition codes (R21); what is left is SD,
the summary of the extension contexts (R65), the counter inhibition by mode (R119, R120) and the overflow bits of the
event counters (R121). -/

namespace Sys2Proof.Machine

/-- SD: FS, XS or VS is 3; XS is read-only 0, the hart has no further extension state (R65). -/
def sdOf (status : Word) : Bool := field status 13 2 == 3#2 || field status 9 2 == 3#2

/-- A status register as it reads at a width: SD in the top bit (R52, R87, R159). -/
def withSD (xl : Xlen) (status : Word) : Word := setBit status (xl.bits - 1) (sdOf status)

/-- The xINH bits of a counter configuration inhibit counting in the current mode (R118, R120). -/
def inhibitedIn (cfg : Word) (p : Priv) (v : Bool) : Bool :=
  match p, v with
  | .m, _ => bit cfg 62
  | .s, false => bit cfg 61
  | .u, false => bit cfg 60
  | .s, true => bit cfg 59
  | .u, true => bit cfg 58

/-- The bits of mcyclecfg and minstretcfg that exist (R118). -/
def State.filterMask (s : State) : Word :=
  bitAt 62 true ||| bitAt 61 s.hasS ||| bitAt 60 s.hasU ||| bitAt 59 s.hasH ||| bitAt 58 s.hasH

/-- mcyclecfg or minstretcfg as it acts: 0 without Smcntrpmf (R43, R118). -/
def State.counterFilter (s : State) (stored : Word) : Word :=
  if s.cfg.smcntrpmf then stored &&& s.filterMask else 0

/-- `minstret` counts an instruction retired in the current mode (R78, R119). -/
def State.countsInstret (s : State) : Bool :=
  !s.mcountinhibit.getLsbD 2 && !inhibitedIn (s.counterFilter s.cnt.minstretcfg) s.priv s.virt

/-- `mcycle` counts in the current mode (R78, R119). -/
def State.countsCycle (s : State) : Bool :=
  !s.mcountinhibit.getLsbD 0 && !inhibitedIn (s.counterFilter s.cnt.mcyclecfg) s.priv s.virt

/-- Counter i exists (R75). -/
def State.hpmExists (s : State) (i : Fin 32) : Bool := decide (3 ≤ i.val) && s.cfg.hpmCounters.getLsbD i.val

/-- The writable bits of mhpmevent i (R75, R120): the event selector in 55:0, with Sscofpmf OF and the xINH bits. DESIGN CHOICE: the
values a selector holds are those of one bit mask, the same for all 29, with no bit above 55 but Sscofpmf's, where R75 leaves the legal
values to the platform (notes/assumptions/9.md). -/
def State.hpmeventWritable (s : State) : Word :=
  (s.cfg.hpmEventMask &&& 0x00FFFFFFFFFFFFFF) ||| (if s.cfg.sscofpmf then bitAt 63 true ||| s.filterMask else 0)

/-- mhpmevent i as it reads (R75). -/
def State.hpmevent (s : State) (i : Fin 32) : Word :=
  if s.hpmExists i then s.cnt.hpmevent[i] &&& s.hpmeventWritable else 0

/-- Counter i counts an occurrence of event e in the current mode: event 0 is "no event" (R75, R78, R120). -/
def State.countsEvent (s : State) (e : Word) (i : Fin 32) : Bool :=
  s.hpmExists i && s.hpmevent i &&& 0x00FFFFFFFFFFFFFF == e && e != 0
    && !s.mcountinhibit.getLsbD i.val && !inhibitedIn (s.hpmevent i) s.priv s.virt

/-- Counter i counts once; on overflow OF is set, and LCOFIP if OF was clear (R121). DESIGN CHOICE: a counter has all 64 bits
(notes/assumptions/41.md); LCOFIP is set at once, where R121 asks only that it be set eventually (notes/assumptions/46.md). -/
def State.countHpm (s : State) (i : Fin 32) : State :=
  let old := s.cnt.hpmcounter[i]
  let overflows := old == BitVec.allOnes 64 && s.cfg.sscofpmf
  { s with
    cnt := { s.cnt with
      hpmcounter := s.cnt.hpmcounter.set i (old + 1)
      hpmevent := if overflows then s.cnt.hpmevent.set i (setBit s.cnt.hpmevent[i] 63 true) else s.cnt.hpmevent }
    mc := if overflows && !bit s.cnt.hpmevent[i] 63 then { s.mc with mip := setBit s.mc.mip 13 true } else s.mc }

/-- One event occurs: every counter that selects it counts once (R75). -/
def State.countEvent (s : State) (e : Word) : State :=
  (List.finRange 32).foldl (fun t i => if s.countsEvent e i then t.countHpm i else t) s

end Sys2Proof.Machine
end

