-- ==== Sys2Proof/Machine/Operands.lean ====
section
/-! DEFINITION. Operands: x registers at the current XLEN, immediates, effective addresses, the program counter and the
retirement of an instruction (R18, R22, R57, R74, R278). -/

namespace Sys2Proof.Machine

/-! ### Registers (R18, R57) -/

/-- x[r]: x0 reads 0; the bits above XLEN are ignored, and stand as copies of bit XLEN-1 (R18, R57). -/
def State.x (s : State) (r : Reg) : Word :=
  if r = 0#5 then 0 else sx s.xlen (s.regs[r.toNat]'(r.isLt))

/-- x[r] <- v: a write to x0 is discarded; the result is sign-extended from XLEN (R18, R57). -/
def State.setX (s : State) (r : Reg) (v : Word) : State :=
  if r = 0#5 then s else { s with regs := s.regs.set r.toNat (sx s.xlen v) r.isLt }

/-! ### Immediates (R278) -/

/-- A 12-bit immediate, sign-extended. -/
def imm12 (i : BitVec 12) : Word := i.signExtend 64

/-- The value of a U-format immediate: imm[31:12] << 12, sign-extended. -/
def immU (i : BitVec 20) : Word := (i ++ 0#12).signExtend 64

/-- A branch offset, sign-extended. -/
def immB (o : BitVec 13) : Word := o.signExtend 64

/-- A jump offset, sign-extended. -/
def immJ (o : BitVec 21) : Word := o.signExtend 64

/-- The immediate of the CSR*I instructions, zero-extended (R242). -/
def uimm (u : BitVec 5) : Word := u.setWidth 64

/-- x[rs1] + imm, the address a load or store names (45_base_integer_assumed.md section 4). -/
def State.address (s : State) (rs1 : Reg) (imm : BitVec 12) : Word := s.x rs1 + imm12 imm

/-- Shift amounts are taken modulo XLEN (R311). -/
def shiftAmount (xl : Xlen) (v : Word) : Nat := v.toNat % xl.bits

/-! ### Control flow (R22, R57) -/

/-- pc <- t: bits above XLEN are ignored, a value written is sign-extended (R57). -/
def State.goto (s : State) (t : Word) : State := { s with pc := sx s.xlen t }

/-- The instruction retires in the mode of the state before: `minstret` counts it unless inhibited (R74, R119). -/
def State.retire (s : State) (before : State) : State :=
  if before.countsInstret then { s with cnt := { s.cnt with minstret := s.cnt.minstret + 1 } } else s

/-- The instruction completes and the next one follows it: pc + 4 (R11, R74). -/
def State.next (s : State) : State := (s.goto (s.pc + 4)).retire s

/-- The instruction completes with x[rd] <- v. -/
def State.finish (s : State) (rd : Reg) (v : Word) : State := (s.setX rd v).next

/-- The target is not aligned to IALIGN = 32 (R22, R281). -/
def misalignedTarget (t : Word) : Bool := t.extractLsb' 0 2 != 0#2

end Sys2Proof.Machine
end

