-- ==== Sys2Proof/Machine/Ops.lean ====
section
/-! DEFINITION. The operations instructions share: bytes of memory (R168), taking an exception or an interrupt
(60_exceptions.md R331-R345), non-maskable interrupts (R349, R350) and the trap returns (R234-R237). -/

namespace Sys2Proof.Machine

/-- What a step or a meaning answers. -/
abbrev Result := Host.Outcome State Fault Refusal

/-! ### Memory (R168) -/

/-- What an address that memory does not list reads as: 0 (DESIGN CHOICE, unsafe, notes/assumptions/3.md). -/
def Memory.unlisted : Byte := 0

/-- The byte at an address. -/
def Memory.read : Memory → Nat → Byte
  | [], _ => Memory.unlisted
  | (k, b) :: rest, a => if k = a then b else Memory.read rest a

/-- Memory with the byte at an address replaced, kept in canonical form. -/
def Memory.write : Memory → Nat → Byte → Memory
  | [], a, v => if v = Memory.unlisted then [] else [(a, v)]
  | (k, b) :: rest, a, v =>
    if k = a then (if v = Memory.unlisted then rest else (a, v) :: rest)
    else if a < k then (if v = Memory.unlisted then (k, b) :: rest else (a, v) :: (k, b) :: rest)
    else (k, b) :: Memory.write rest a v

/-- The canonical form: addresses strictly rise from `lo` up, and no entry equals what an unlisted address reads as. -/
def Memory.wfFrom : Nat → Memory → Bool
  | _, [] => true
  | lo, (k, b) :: rest => decide (lo ≤ k) && (b != Memory.unlisted) && Memory.wfFrom (k + 1) rest

/-- Memory is in canonical form, so that equal memories are equal data. -/
def Memory.wf (m : Memory) : Bool := Memory.wfFrom 0 m

/-- The n bytes from an address up. -/
def Memory.readBytes (m : Memory) (a : Nat) : Nat → List Byte
  | 0 => []
  | n + 1 => m.read a :: Memory.readBytes m (a + 1) n

/-- Bytes stored from an address up. -/
def Memory.writeBytes (m : Memory) (a : Nat) : List Byte → Memory
  | [] => m
  | b :: bs => Memory.writeBytes (m.write a b) (a + 1) bs

/-! ### Exceptions (R333) -/

/-- The synchronous exceptions this spec raises (R333). -/
inductive Exc where
  | instrMisaligned | instrAccess | illegal | breakpoint
  | loadMisaligned | loadAccess | storeMisaligned | storeAccess
  | ecallU | ecallS | ecallVS | ecallM
  | instrPage | loadPage | storePage
  | instrGuest | loadGuest | virtualInstr | storeGuest
deriving DecidableEq, Repr

/-- The exception code (R333). -/
def Exc.code : Exc → Nat
  | .instrMisaligned => 0
  | .instrAccess => 1
  | .illegal => 2
  | .breakpoint => 3
  | .loadMisaligned => 4
  | .loadAccess => 5
  | .storeMisaligned => 6
  | .storeAccess => 7
  | .ecallU => 8
  | .ecallS => 9
  | .ecallVS => 10
  | .ecallM => 11
  | .instrPage => 12
  | .loadPage => 13
  | .storePage => 15
  | .instrGuest => 20
  | .loadGuest => 21
  | .virtualInstr => 22
  | .storeGuest => 23

/-- An exception with the informative trap values of R342 to R345. -/
structure Trap where
  exc : Exc
  /-- the informative value of `tval` (R342) -/
  tval : Word
  /-- `tval` is a guest virtual address (R343) -/
  gva : Bool
  /-- the faulting guest physical address, shifted right by 2 (R344) -/
  tval2 : Word
  /-- the pseudoinstruction or transformed instruction (R345) -/
  tinst : Word
deriving DecidableEq, Repr

/-- An exception that writes no address. -/
def Trap.plain (e : Exc) (tval : Word) : Trap := ⟨e, tval, false, 0, 0⟩

/-! ### Trap entry (R339-R341) -/

/-- Where a trap is handled. -/
inductive Dest where
  | m | s | vs
deriving DecidableEq, Repr

/-- The destination of a synchronous exception (R339). -/
def State.destOfException (s : State) (code : Nat) : Dest :=
  if s.priv = .m || !s.hasS || !bit s.medeleg code then .m
  else if s.virt && bit s.hedeleg code then .vs
  else .s

/-- The handler's address (R341). -/
def vector (tvec : Word) (intr : Bool) (code : Nat) : Word :=
  align4 tvec + (if bit tvec 0 && intr then BitVec.ofNat 64 (4 * code) else 0)

/-- The value of a cause register (R340). -/
def causeWord (xl : Xlen) (intr : Bool) (code : Nat) : Word := bitAt (xl.bits - 1) intr ||| BitVec.ofNat 64 code

/-- A cause in VS-level numbering: 10 to 9, 6 to 5, 2 to 1 (R147, R340); a platform interrupt keeps its number (DESIGN CHOICE,
notes/assumptions/39.md). -/
def vsNumber (code : Nat) : Nat := if code = 2 ∨ code = 6 ∨ code = 10 then code - 1 else code

/-- What a trap writes to `xepc`: the pc as an address of the interrupted mode (R80, R340; log 10), never converted to another
address (DESIGN CHOICE, R80, R95, R132, notes/assumptions/40.md). -/
def State.epc (s : State) : Word := align4 (zx s.xlen s.pc)

/-- The status fields a trap into M-mode saves (R54, R340). -/
def State.saveStatusM (s : State) (gva : Bool) : Word :=
  let w := setBit s.mc.mstatus 7 s.mstatusMIE
  let w := setBit w 3 false
  let w := setField w 11 s.priv.code
  if s.hasH then setBit (setBit w 39 s.virt) 38 gva else w

/-- The handler's address for a trap into M-mode; `rnmi` is where exceptions in M-mode go while `mnstatus.NMIE` is 0
(R134, R350). -/
def State.vectorM (s : State) (intr : Bool) (code : Nat) : Word :=
  match s.cfg.rnmiExcVector with
  | some v => if s.cfg.smrnmi && !s.mnstatusNMIE && s.priv == .m && !intr then v else vector s.mc.mtvec intr code
  | none => vector s.mc.mtvec intr code

/-- A trap into M-mode (R340). -/
def State.enterM (s : State) (intr : Bool) (code : Nat) (tval : Word) (gva : Bool) (tval2 tinst : Word) : State :=
  { s with
    mc := { s.mc with
      mstatus := s.saveStatusM gva
      mepc := s.epc
      mcause := causeWord s.cfg.mxlen intr code
      mtval := zx s.cfg.mxlen tval
      mtval2 := if s.hasH then zx s.cfg.mxlen tval2 else s.mc.mtval2
      mtinst := if s.hasH then tinst else s.mc.mtinst }
    priv := .m
    virt := false
    pc := sx s.cfg.mxlen (s.vectorM intr code) }

/-- The HS-level status a trap into S-mode leaves (R54, R340). -/
def State.saveStatusS (s : State) : Word :=
  let w := setBit s.mc.mstatus 5 s.mstatusSIE
  let w := setBit w 1 false
  setBit w 8 (s.priv == .s)

/-- `hstatus` after a trap into HS-mode: SPV, SPVP and GVA (R144, R340). -/
def State.saveHstatus (s : State) (gva : Bool) : Word :=
  let w := setBit s.hc.hstatus 7 s.virt
  let w := if s.virt then setBit w 8 (s.priv == .s) else w
  setBit w 6 gva

/-- A trap into S-mode, HS-mode with the hypervisor extension (R340). -/
def State.enterS (s : State) (intr : Bool) (code : Nat) (tval : Word) (gva : Bool) (tval2 tinst : Word) : State :=
  { s with
    mc := { s.mc with mstatus := s.saveStatusS }
    sc := { s.sc with
      sepc := s.epc
      scause := causeWord s.sxlen intr code
      stval := zx s.sxlen tval }
    hc := if s.hasH then
        { s.hc with hstatus := s.saveHstatus gva, htval := zx s.sxlen tval2, htinst := tinst }
      else s.hc
    priv := .s
    virt := false
    pc := sx s.sxlen (vector s.sc.stvec intr code) }

/-- A trap into VS-mode, from V=1 only: only VS CSRs are written (R340). -/
def State.enterVS (s : State) (intr : Bool) (code : Nat) (tval : Word) : State :=
  let c := if intr then vsNumber code else code
  { s with
    vc := { s.vc with
      vsstatus := setBit (setBit (setBit s.vc.vsstatus 5 s.vsstatusSIE) 1 false) 8 (s.priv == .s)
      vsepc := s.epc
      vscause := causeWord s.vsxlen intr c
      vstval := zx s.vsxlen tval }
    priv := .s
    virt := true
    pc := sx s.vsxlen (vector s.vc.vstvec intr c) }

/-- Taking a trap (R340): all its writes in one step. -/
def State.enterTrap (s : State) (d : Dest) (intr : Bool) (code : Nat) (tval : Word) (gva : Bool)
    (tval2 tinst : Word) : State :=
  match d with
  | .m => s.enterM intr code tval gva tval2 tinst
  | .s => s.enterS intr code tval gva tval2 tinst
  | .vs => s.enterVS intr code tval

/-- The platform writes the informative trap value for this exception (D11, R342). -/
def State.writesTval (s : State) (e : Exc) : Bool := bit s.cfg.tvalInfo e.code

/-- What the exception writes to `tval`: its informative value, or 0 (D11, R342). -/
def State.tvalOf (s : State) (t : Trap) : Word := if s.writesTval t.exc then t.tval else 0

/-- What the exception writes to `mtval2` or `htval`: the guest physical address, or 0 (D11, R344). -/
def State.tval2Of (s : State) (t : Trap) : Word := if bit s.cfg.tval2Info t.exc.code then t.tval2 else 0

/-- TAKING AN EXCEPTION, for every instruction and for the fetch: the destination of R339, the trap values of R342 to
R345, the entry of R340. GVA is 1 only with a guest virtual address other than 0 written to `tval` (R343). `s` is the state in
which the instruction at `s.pc` raised it. -/
def State.takeException (s : State) (t : Trap) : State :=
  s.enterTrap (s.destOfException t.exc.code) false t.exc.code (s.tvalOf t) (t.gva && s.tvalOf t != 0)
    (s.tval2Of t) t.tinst

/-- An interrupt is taken: the trap values are 0 (R340, R342-R345). -/
def State.takeInterrupt (s : State) (d : Dest) (code : Nat) : State := s.enterTrap d true code 0 false 0 0

/-- A meaning that ends in an exception. -/
def raise (t : Trap) (s : State) : Result := .next (s.takeException t)

/-- The instruction's bits, the trap value of an illegal or virtual instruction (R342). -/
def instrBits (i : Instr) : Word := (encode i).setWidth 64

/-- The illegal-instruction exception on an instruction (R348). -/
def raiseIllegal (i : Instr) (s : State) : Result := raise (.plain .illegal (instrBits i)) s

/-- The virtual-instruction exception on an instruction (R347). -/
def raiseVirtual (i : Instr) (s : State) : Result := raise (.plain .virtualInstr (instrBits i)) s

/-! ### Non-maskable interrupts (R349, R350) -/

/-- An NMI: as a trap into M-mode, to the NMI vector (R349, D25). -/
def State.takeNmi (s : State) (code : Word) : State :=
  { s with
    mc := { s.mc with
      mstatus := s.saveStatusM false
      mepc := s.epc
      mcause := zx s.cfg.mxlen (bitAt (s.cfg.mxlen.bits - 1) true ||| code)
      mtval := 0
      mtval2 := if s.hasH then 0 else s.mc.mtval2
      mtinst := if s.hasH then 0 else s.mc.mtinst }
    priv := .m
    virt := false
    pc := sx s.cfg.mxlen s.cfg.nmiVector }

/-- `mnstatus` after an RNMI: MNPP, MNPV and NMIE (R350). -/
def State.saveMnstatus (s : State) : Word :=
  let w := setField s.mc.mnstatus 11 s.priv.code
  let w := setBit w 3 false
  if s.hasH then setBit w 7 s.virt else w

/-- A resumable NMI (R350): `mepc`, `mcause` and `mstatus` stay. `mnepc` holds the pc as State.epc gives it (R132, log 40). -/
def State.takeRnmi (s : State) (code : Word) : State :=
  { s with
    mc := { s.mc with
      mnepc := s.epc
      mncause := zx s.cfg.mxlen (bitAt (s.cfg.mxlen.bits - 1) true ||| code)
      mnstatus := s.saveMnstatus }
    priv := .m
    virt := false
    pc := sx s.cfg.mxlen s.cfg.rnmiIntVector }

/-! ### Trap returns (R234-R237) -/

/-- A return to mode (p, v) at address t; whether it clears the reservation is a parameter (R234). -/
def State.returnTo (s : State) (p : Priv) (v : Bool) (t : Word) : State :=
  { s with
    priv := p
    virt := v
    pc := sx (s.xlenAt p v) (align4 t)
    reservation := if s.cfg.xretClearsReservation then none else s.reservation }

/-- A return to a mode below M clears MPRV (R55). -/
def clearMprv (p : Priv) (w : Word) : Word := if p = .m then w else setBit w 17 false

/-- The return of MRET (R55, R235). -/
def State.returnM (s : State) : State :=
  let y := Priv.ofCode s.mstatusMPP
  let w := setBit s.mc.mstatus 3 s.mstatusMPIE
  let w := setBit w 7 true
  let w := setField w 11 s.leastMode.code
  let w := if s.hasH then setBit w 39 false else w
  State.returnTo { s with mc := { s.mc with mstatus := clearMprv y w } }
    y (y != .m && s.hasH && s.mstatusMPV) s.mc.mepc

/-- The return of SRET executed with V=0 (R55, R236). -/
def State.returnS (s : State) : State :=
  let y := Priv.ofBit s.mstatusSPP
  let w := setBit s.mc.mstatus 1 s.mstatusSPIE
  let w := setBit w 5 true
  let w := setBit w 8 false
  State.returnTo
    { s with
      mc := { s.mc with mstatus := setBit w 17 false }
      hc := if s.hasH then { s.hc with hstatus := setBit s.hc.hstatus 7 false } else s.hc }
    y (s.hasH && s.hstatusSPV) s.sc.sepc

/-- The return of SRET executed in VS-mode: `vsstatus` and `vsepc`; MPRV is cleared as well (R236). -/
def State.returnVS (s : State) : State :=
  let w := setBit s.vc.vsstatus 1 s.vsstatusSPIE
  let w := setBit w 5 true
  let w := setBit w 8 false
  State.returnTo
    { s with
      vc := { s.vc with vsstatus := w }
      mc := { s.mc with mstatus := setBit s.mc.mstatus 17 false } }
    (Priv.ofBit s.vsstatusSPP) true s.vc.vsepc

/-- The return of MNRET (R237): MNPP and MNPV stay. -/
def State.returnMN (s : State) : State :=
  let y := Priv.ofCode s.mnstatusMNPP
  State.returnTo
    { s with
      mc := { s.mc with
        mnstatus := setBit s.mc.mnstatus 3 true
        mstatus := clearMprv y s.mc.mstatus } }
    y (y != .m && s.hasH && s.mnstatusMNPV) s.mc.mnepc

end Sys2Proof.Machine
end

