-- ==== Sys2Proof/Machine/Interrupts.lean ====
section
/-! DEFINITION. Which interrupts are pending, enabled and taken (60_exceptions.md R332, R335-R338; 11_machine_csrs.md
R70-R72; 14_hypervisor_csrs.md R150-R152, R163, R167). -/

namespace Sys2Proof.Machine

/-- The bits of `hgeip` and `hgeie` that exist: GEILEN down to 1, of the HSXLEN bits these registers have (R152). -/
def State.geiMask (s : State) : Word :=
  if s.hasH then zx s.sxlen (BitVec.ofNat 64 (2 ^ (s.cfg.geilen + 1) - 2)) else 0

/-- `hgeip` (R152). -/
def State.hgeip (s : State) : Word := s.pins.hgeip &&& s.geiMask

/-- `hgeie` as it reads (R152). -/
def State.hgeie (s : State) : Word := s.hc.hgeie &&& s.geiMask

/-- `time` as VS-mode and VU-mode see it: the sum wraps (R155). On a hart without the `time` CSR, and so without `htimedelta` (R43), the
comparison with `vstimecmp` (R163) adds the value stored for `htimedelta` all the same, which no instruction reads or writes there
(DESIGN CHOICE, notes/assumptions/59.md). -/
def State.guestTime (s : State) : Word := s.mtime + s.hc.htimedelta

/-- mip.SEIP: the software-written bit or the platform's signal (R71). -/
def State.seip (s : State) : Bool := s.hasS && (bit s.mc.mip 9 || s.pins.seip)

/-- mip.STIP: the comparison with `stimecmp` under Sstc, else the software-written bit (R71, R335). -/
def State.stip (s : State) : Bool :=
  s.hasS && (if s.menvcfgSTCE then decide (s.sc.stimecmp ≤ s.mtime) else bit s.mc.mip 5)

/-- mip.MTIP (R83, R335). -/
def State.mtip (s : State) : Bool := decide (s.mtimecmp ≤ s.mtime)

/-- hip.VSEIP (R150). -/
def State.vseip (s : State) : Bool :=
  s.hasH && (bit s.hc.hvip 10 || bit s.hgeip s.hstatusVGEIN.toNat || s.pins.vsei)

/-- hip.VSTIP: what `hvip` holds, or the VS-level timer signal, which is the comparison with `vstimecmp` while henvcfg.STCE is 1,
else the platform's. R150 and R163 allow a platform's signal; R335 and a table of 93_implementation_defined.md have none: the
model has it as an input, which may stay low (DESIGN CHOICE, notes/assumptions/6.md). -/
def State.vstip (s : State) : Bool :=
  s.hasH && (bit s.hc.hvip 6 || (if s.henvcfgSTCE then decide (s.vc.vstimecmp ≤ s.guestTime) else s.pins.vsti))

/-- hip.SGEIP (R150). -/
def State.sgeip (s : State) : Bool := s.hgeip &&& s.hgeie != 0

/-- Interrupt i is pending: bit i of `mip` (R335, R167). -/
def State.pending (s : State) (i : Nat) : Bool :=
  match i with
  | 1 => s.hasS && bit s.mc.mip 1
  | 2 => s.hasH && bit s.hc.hvip 2
  | 3 => s.msip.getLsbD 0
  | 5 => s.stip
  | 6 => s.vstip
  | 7 => s.mtip
  | 9 => s.seip
  | 10 => s.vseip
  | 11 => s.pins.meip
  | 12 => s.sgeip
  | 13 => s.cfg.sscofpmf && bit s.mc.mip 13
  | _ => s.hasPlatformInt i && bit s.pins.platform i

/-- `mip` as it reads (R70, R167). -/
def State.mip (s : State) : Word :=
  bitAt 1 (s.pending 1) ||| bitAt 2 (s.pending 2) ||| bitAt 3 (s.pending 3) ||| bitAt 5 (s.pending 5)
    ||| bitAt 6 (s.pending 6) ||| bitAt 7 (s.pending 7) ||| bitAt 9 (s.pending 9) ||| bitAt 10 (s.pending 10)
    ||| bitAt 11 (s.pending 11) ||| bitAt 12 (s.pending 12) ||| bitAt 13 (s.pending 13)
    ||| (s.pins.platform &&& s.platformMask)

/-- The bits of `mie` that exist: the interrupts that can become pending (R70, R167). DESIGN CHOICE: MSIE and MSIP exist on every hart,
where R71 lets both be read-only 0 (notes/assumptions/54.md). -/
def State.mieMask (s : State) : Word := 0x888 ||| s.sInts ||| s.hInts

/-- `mie` as it reads (R70). -/
def State.mie (s : State) : Word := s.mc.mie &&& s.mieMask

/-- The destination of interrupt i (R336). -/
def State.destOfInterrupt (s : State) (i : Nat) : Dest :=
  if !s.hasS || !bit s.mideleg i then .m
  else if s.hasH && bit s.hideleg i then .vs
  else .s

/-- Interrupts destined for d are globally enabled in the current mode (R336). -/
def State.interruptsOn (s : State) (d : Dest) : Bool :=
  (!s.cfg.smrnmi || s.mnstatusNMIE) &&
  match d with
  | .m => s.priv != .m || s.mstatusMIE
  | .s => s.priv != .m && (s.virt || s.priv == .u || s.mstatusSIE)
  | .vs => s.virt && (s.priv == .u || s.vsstatusSIE)

/-- The registers that destination d looks at have a bit i: `mip` and `mie`; `sip`, `sie`, `hip` and `hie`, SXLEN bits wide; `vsip` and
`vsie`, VSXLEN bits wide (R92, R151, R336). -/
def State.reaches (s : State) (d : Dest) (i : Nat) : Bool :=
  match d with
  | .m => true
  | .s => decide (i < s.sxlen.bits)
  | .vs => decide (i < s.vsxlen.bits)

/-- The order of the interrupts of one destination, the highest priority first; platform interrupts come before the
standard ones (R337, D14, D24). -/
def State.interruptOrder (s : State) (d : Dest) : List Nat :=
  s.cfg.platformInts ++
  match d with
  | .m => [11, 3, 7, 9, 1, 5, 13]
  | .s => [9, 1, 5, 12, 10, 2, 6, 13]
  | .vs => [10, 2, 6, 13]

/-- The interrupt of destination d that would be taken (R92, R151, R336, R337): delegated, and with a number beyond the width of the
destination's registers, it stays pending. -/
def State.interruptFor (s : State) (d : Dest) : Option Nat :=
  (s.interruptOrder d).find? fun i =>
    bit s.mie i && s.interruptsOn d && decide (s.destOfInterrupt i = d) && s.reaches d i && s.pending i

/-- The interrupt to take at this instruction boundary, if any: M-destined before HS-destined before VS-destined
(R337, R338). -/
def State.interrupt (s : State) : Option (Dest × Nat) :=
  match s.interruptFor .m with
  | some i => some (.m, i)
  | none =>
    match s.interruptFor .s with
    | some i => some (.s, i)
    | none =>
      match s.interruptFor .vs with
      | some i => some (.vs, i)
      | none => none

/-- A non-maskable interrupt to take, before every other: an RNMI with Smrnmi while NMIE is 1, an NMI without Smrnmi
(R349, R350, D24). It is an event: taking it consumes it. -/
def State.nonMaskable (s : State) : Option State :=
  if s.cfg.smrnmi then
    if s.mnstatusNMIE then
      match s.pins.rnmi with
      | some c => some (State.takeRnmi { s with pins := { s.pins with rnmi := none } } c)
      | none => none
    else none
  else
    match s.pins.nmi with
    | some c => some (State.takeNmi { s with pins := { s.pins with nmi := none } } c)
    | none => none

/-- An NMI is pending, or with Smrnmi an RNMI, whether or not NMIE lets it be taken (R349, R350). -/
def State.nonMaskablePending (s : State) : Bool := if s.cfg.smrnmi then s.pins.rnmi.isSome else s.pins.nmi.isSome

/-- Some locally enabled interrupt is pending, at whatever level and wherever delegated, or a non-maskable one: a stalled WFI ends. The
global enables, NMIE among them, do not affect it (R238; that a non-maskable interrupt wakes is notes/assumptions/24.md). -/
def State.wakes (s : State) : Bool := s.mip &&& s.mie != 0 || s.nonMaskablePending

end Sys2Proof.Machine
end

