-- ==== Sys2Proof/Machine/Pmp.lean ====
section
/-! DEFINITION. Physical memory protection with Smepmp (21_pmp.md R188-R198) and physical memory attributes (20_memory.md
R172, R178-R181), and the bytes of the physical address space (R168, R187). -/

namespace Sys2Proof.Machine

/-- What an access needs (R170): a fetch, a load, a store, or a load with execute permission (HLVX, R268). -/
inductive Need where
  | fetch | load | store | execLoad
deriving DecidableEq, Repr

/-- Why an access does not complete. -/
inductive Abort where
  /-- page fault of the original type (R206) -/
  | page
  /-- access fault of the original type (R172, R195) -/
  | access
  /-- guest-page fault at a guest physical address; for an implicit VS-stage access, whether it was a write (R217) -/
  | guestPage (gpa : Nat) (implicit : Option Bool)
  /-- the machine stops -/
  | stop (f : Fault)
deriving DecidableEq, Repr

/-! ### PMP (R189-R198) -/

/-- pmp[i]cfg as it reads: an unimplemented entry is read-only 0 (R189). -/
def State.pmpcfg (s : State) (i : Nat) : BitVec 8 :=
  if h : i < 64 then (if i < s.cfg.pmpCount then s.mc.pmpcfg[i] else 0) else 0

/-- The stored value of pmpaddr[i]: an unimplemented one is 0 (R189, R191). -/
def State.pmpStored (s : State) (i : Nat) : Word :=
  if h : i < 64 then (if i < s.cfg.pmpCount then s.mc.pmpaddr[i] else 0) else 0

/-- pmpaddr[i] as it reads: where the granularity is coarser than 4 bytes, its G low bits read 0 in modes OFF and TOR, by which
software finds G (R193), and its G - 1 low bits read 1 in mode NAPOT (PRESUMED: lost passage N19, notes/assumptions/17.md). -/
def State.pmpaddr (s : State) (i : Nat) : Word :=
  let w := s.pmpStored i
  match (s.pmpcfg i).extractLsb' 3 2 with
  | 2#2 => w
  | 3#2 => w ||| BitVec.ofNat 64 (2 ^ (s.cfg.pmpG - 1) - 1)
  | _ => w &&& ~~~BitVec.ofNat 64 (2 ^ s.cfg.pmpG - 1)

/-- The number of trailing one bits of a `pmpaddr`, at most n (R193). -/
def trailingOnes (w : Word) : Nat → Nat
  | 0 => 0
  | n + 1 => if bit w 0 then trailingOnes (w >>> 1) n + 1 else 0

/-- The start of the range of a TOR entry: the address register below, in whole granules (R193). -/
def State.pmpBase (s : State) (i : Nat) : Nat :=
  if i = 0 then 0 else (s.pmpStored (i - 1)).toNat / 2 ^ s.cfg.pmpG * 2 ^ s.cfg.pmpG

/-- Entry i matches the byte at pa (R193). -/
def State.pmpMatches (s : State) (i pa : Nat) : Bool :=
  let top := (s.pmpaddr i).toNat
  match (s.pmpcfg i).extractLsb' 3 2 with
  | 0#2 => false
  | 1#2 => decide (s.pmpBase i ≤ pa / 4) && decide (pa / 4 < top)
  | 2#2 => pa / 4 == top
  | _ =>
    let k := trailingOnes (s.pmpaddr i) 64
    pa / 2 ^ (k + 3) == top / 2 ^ (k + 1)

/-- R, W and X of a configuration field permit the access (R192). HLVX needs X and R (R268). -/
def rwxPermits (r w x : Bool) : Need → Bool
  | .fetch => x
  | .load => r
  | .store => w
  | .execLoad => x && r

/-- Table 6.1: what a configuration field permits when MML is 1 (R197). -/
def mmlPermits (cfg : BitVec 8) (m : Bool) (need : Need) : Bool :=
  let r := cfg.getLsbD 0
  let w := cfg.getLsbD 1
  let x := cfg.getLsbD 2
  if cfg.getLsbD 7 then
    if !r && w then rwxPermits (m && x) false true need
    else if r && w && x then rwxPermits true false false need
    else m && rwxPermits r w x need
  else
    if !r && w then rwxPermits true (m || x) false need
    else !m && rwxPermits r w x need

/-- The entry permits the access to the privilege mode (R195, R197). -/
def State.pmpPermits (s : State) (cfg : BitVec 8) (p : Priv) (need : Need) : Bool :=
  if s.mseccfgMML then mmlPermits cfg (p == .m) need
  else if !cfg.getLsbD 7 && p == .m then true
  else rwxPermits (cfg.getLsbD 0) (cfg.getLsbD 1) (cfg.getLsbD 2) need

/-- What holds where no entry matches (R195, R198). -/
def State.pmpDefault (s : State) (p : Priv) (need : Need) : Bool :=
  p == .m && !(s.mseccfgMMWP || (s.mseccfgMML && (need == .fetch || need == .execLoad)))

/-- The bytes of an access. -/
def bytesAt (pa n : Nat) : List Nat := (List.range n).map (pa + ·)

/-- The first matching entry from i on decides (R195): `k` entries are left. -/
def State.pmpFrom (s : State) (pa n : Nat) (p : Priv) (need : Need) : Nat → Nat → Bool
  | _, 0 => s.pmpDefault p need
  | i, k + 1 =>
    if (bytesAt pa n).any (s.pmpMatches i) then
      (bytesAt pa n).all (s.pmpMatches i) && s.pmpPermits (s.pmpcfg i) p need
    else s.pmpFrom pa n p need (i + 1) k

/-- The PMP check (R188, R195, R198). A hart with no entry has no PMP: every access passes. -/
def State.pmpAllows (s : State) (pa n : Nat) (p : Priv) (need : Need) : Bool :=
  s.cfg.pmpCount == 0 || s.pmpFrom pa n p need 0 s.cfg.pmpCount

/-! ### PMA (R172, R178-R181) -/

/-- The region of a byte: the first that holds it (R178); none: the address is vacant (R172). -/
def State.regionAt (s : State) (b : Nat) : Option Region :=
  s.cfg.pma.find? fun r => decide (r.base ≤ b) && decide (b < r.base + r.size)

/-- The regions of the bytes of an access, byte by byte (R171); none: some byte is vacant. -/
def State.regionsAt (s : State) (pa n : Nat) : Option (List Region) := (bytesAt pa n).mapM s.regionAt

/-- An explicit access as the PMAs judge it: all of it, also where it is made in parts (R176). -/
structure Shape where
  /-- it is an access of a virtual machine: its virtualisation mode is 1 -/
  guest : Bool
  /-- the width of the whole access, in bytes -/
  width : Nat
  /-- the whole access is naturally aligned (R175) -/
  aligned : Bool
  /-- the physical addresses of the bytes in its other part; none where it is made in one part -/
  others : List Nat
deriving DecidableEq, Repr

/-- What kind of memory reference the region is asked to support (R178). -/
inductive Use where
  | explicit (need : Need) (shape : Shape)
  /-- a PTE is read; a speculative walk may read it too (R181) -/
  | tableRead (stage : Stage) (speculative : Bool)
  | tableWrite (stage : Stage)
deriving DecidableEq, Repr

/-- All bytes of the access, the n from pa and those of its other part, lie in one misaligned atomicity granule of the region
(R180). -/
def inGranule (r : Region) (sh : Shape) (pa n : Nat) : Bool :=
  match r.granule with
  | some g => pa / g == (pa + n - 1) / g && sh.others.all (· / g == pa / g)
  | none => false

/-- The region supports the width, and, where the access is misaligned, misaligned accesses of that width: everywhere, or within one
granule (R175, R178, R180). R180 names the loads and stores of the base ISA; the granule holds for HLV, HLVX and HSV as well, which
are loads and stores too (R260; DESIGN CHOICE, notes/assumptions/15.md). -/
def widthOk (r : Region) (widths : List Nat) (sh : Shape) (pa n : Nat) : Bool :=
  widths.contains sh.width && (sh.aligned || r.misaligned.contains sh.width || inGranule r sh pa n)

/-- The region supports the access whose bytes are the n from pa (R178, R179). -/
def regionSupports (r : Region) (use : Use) (pa n : Nat) : Bool :=
  match use with
  | .explicit .fetch sh => r.exec.contains sh.width
  | .explicit .load sh => widthOk r r.reads sh pa n
  | .explicit .store sh => widthOk r r.writes sh pa n
  | .explicit .execLoad sh => r.exec.contains sh.width && widthOk r r.reads sh pa n
  | .tableRead _ _ => r.ptRead && r.reads.contains n
  | .tableWrite _ => r.ptWrite && r.writes.contains n

/-- The region is idempotent for the access (R178, R181): main memory is assumed to be (R179), also in a map that says otherwise, which
Region.wf rules out. -/
def idempotentFor (r : Region) (need : Need) : Bool :=
  r.kind == .main ||
  match need with
  | .store => r.idempotentWrites
  | _ => r.idempotentReads

/-- Idempotency of an access to a page of a memory type: NC is idempotent, IO is not, PMA is as the regions are (R183, R211). -/
def effIdempotent (pbmt : Nat) (rs : List Region) (need : Need) : Bool :=
  if pbmt = 1 then true else if pbmt = 2 then false else rs.all (idempotentFor · need)

/-- What PMP checks for a reference (R188): page-table accesses have effective privilege S. -/
def Use.pmp (p : Priv) : Use → Priv × Need
  | .explicit n _ => (p, n)
  | .tableRead _ _ => (.s, .load)
  | .tableWrite _ => (.s, .store)

/-- The reference is made for a virtual machine: with V=1, or in a walk of VS-stage or G-stage. -/
def Use.guest : Use → Bool
  | .explicit _ sh => sh.guest
  | .tableRead st _ | .tableWrite st => decide (st ≠ .s)

def stageCode : Stage → Nat
  | .s => 0
  | .vs => 1
  | .g => 2

def Need.index : Need → Nat
  | .fetch => 0
  | .load => 1
  | .store => 2
  | .execLoad => 3

/-- A number for a use: each kind of reference chooses by itself. -/
def Use.index : Use → Nat
  | .explicit need sh => need.index + if sh.guest then 4 else 0
  | .tableRead st speculative => 8 + stageCode st + if speculative then 3 else 0
  | .tableWrite st => 14 + stageCode st

/-! ### PMP results that are kept (R199, R356) -/

/-- The hart may keep results of PMP checks: it has a cache, and paging; without paging PMP is checked synchronously (R199). -/
def State.cachesPmp (s : State) : Bool := s.cfg.tlb && s.hasS && s.hasPaging

/-- s with the PMP registers of a copy. -/
def State.withPmp (s : State) (c : PmpCopy) : State := { s with mc := { s.mc with pmpcfg := c.cfg, pmpaddr := c.addr } }

/-- The PMP registers that checks for a virtual machine, or other ones, may go by: the current ones, and those kept since before a
write (R199). A hart may check an address and keep the result at any time, the identity mapping of M-mode among its translations,
so that no copy is bound to an address. -/
def State.pmpViews (s : State) (guest : Bool) : List State :=
  s :: if s.cachesPmp then (s.pmpCopies.filter (·.guest == guest)).map s.withPmp else []

/-- The one that a check of the n bytes from pa goes by: open while copies are kept (R356). -/
def State.pmpView (s : State) (use : Use) (pa n : Nat) : State :=
  match s.pmpViews use.guest with
  | [_] => s
  | us => (us[Config.pmpChoice s.draws use.index pa n]?).getD s

/-- PMP permits the reference to the n bytes from pa, `p` being the privilege mode of an explicit access (R188). -/
def State.pmpPasses (s : State) (use : Use) (p : Priv) (pa n : Nat) : Bool :=
  (s.pmpView use pa n).pmpAllows pa n (use.pmp p).1 (use.pmp p).2

/-- Before a write of a PMP register: what was checked with the old values may be kept (R199, R356). -/
def State.keepPmp (s : State) : State :=
  if s.cachesPmp then
    { s with pmpCopies := ⟨false, s.mc.pmpcfg, s.mc.pmpaddr⟩ :: ⟨true, s.mc.pmpcfg, s.mc.pmpaddr⟩ :: s.pmpCopies }
  else s

/-- A fence of all addresses and address spaces, both operands x0, ends what is kept (R199, R356). -/
def State.fencePmp (s : State) (rs1 rs2 : BitVec 5) (guest : Bool) : State :=
  if rs1 = 0#5 ∧ rs2 = 0#5 then { s with pmpCopies := s.pmpCopies.filter (·.guest != guest) } else s

/-! ### PMP and PMA together (R171) -/

/-- PMP and PMA checked in parallel, for every byte (R171): the regions of the bytes, or an access fault. -/
def State.checkRegions (s : State) (use : Use) (p : Priv) (pa n : Nat) : Except Abort (List Region) :=
  match s.regionsAt pa n with
  | none => .error .access
  | some rs => if rs.all (regionSupports · use pa n) && s.pmpPasses use p pa n then .ok rs else .error .access

/-- A reference that no check turns away reaches its regions; the machine stops at a device that the spec does not describe (R178,
notes/assumptions/31.md). -/
def reachRegions (pa : Nat) (rs : List Region) : Except Abort (List Region) :=
  if rs.any (·.kind == .io) then .error (.stop (.undescribedDevice pa)) else .ok rs

/-- A reference to a page table, or another that PMP and PMA alone can turn away: the regions it reaches (R171). -/
def State.checkPhys (s : State) (use : Use) (p : Priv) (pa n : Nat) : Except Abort (List Region) :=
  match s.checkRegions use p pa n with
  | .error e => .error e
  | .ok rs => reachRegions pa rs

/-! ### The bytes of the physical address space (R168, R174, R187) -/

/-- The value of a memory-mapped register (R187). -/
def State.deviceValue (s : State) : Device → Word
  | .mtime => s.mtime
  | .mtimecmp => s.mtimecmp
  | .msip => s.msip.setWidth 64

/-- A memory-mapped register takes a value. Only bit 0 of the software interrupt register exists (PRESUMED,
notes/assumptions/20.md). -/
def State.setDevice (s : State) (d : Device) (v : Word) : State :=
  match d with
  | .mtime => { s with mtime := v }
  | .mtimecmp => { s with mtimecmp := v }
  | .msip => { s with msip := v.setWidth 32 &&& 1 }

/-- The memory-mapped register at a physical address, and which of its bytes. -/
def State.deviceAt (s : State) (a : Nat) : Option (Device × Nat) :=
  match s.regionAt a with
  | some r =>
    match r.kind with
    | .device d => some (d, a - r.base)
    | _ => none
  | none => none

/-- The byte at a physical address. The layout of the memory-mapped registers is little-endian on every platform (PRESUMED,
R174, notes/assumptions/20.md). -/
def State.physByte (s : State) (a : Nat) : Byte :=
  match s.deviceAt a with
  | some (d, k) => field (s.deviceValue d) (8 * k) 8
  | none => s.mem.read a

/-- A byte stored at a physical address. -/
def State.setPhysByte (s : State) (a : Nat) (b : Byte) : State :=
  match s.deviceAt a with
  | some (d, k) => s.setDevice d (setField (s.deviceValue d) (8 * k) b)
  | none => { s with mem := s.mem.write a b }

/-- The n bytes at a physical address. -/
def State.physRead (s : State) (pa n : Nat) : List Byte := (bytesAt pa n).map s.physByte

/-- Bytes stored at a physical address. -/
def State.physWrite (s : State) (pa : Nat) : List Byte → State
  | [] => s
  | b :: bs => (s.setPhysByte pa b).physWrite (pa + 1) bs

end Sys2Proof.Machine
end

