-- ==== Sys2Proof/Machine/Translate.lean ====
section
/-! DEFINITION. Address translation: one stage (22_virtual_memory.md R200-R211), two stages (23_two_stage_translation.md
R214-R218), and the address-translation cache (10_state.md R25, R208, R254; notes/assumptions/8.md). -/

namespace Sys2Proof.Machine

/-! ### Schemes (R200, R216) -/

def Scheme.sv32 : Scheme := ⟨2, 10, 4, 0⟩
def Scheme.sv39 : Scheme := ⟨3, 9, 8, 0⟩
def Scheme.sv48 : Scheme := ⟨4, 9, 8, 0⟩
def Scheme.sv57 : Scheme := ⟨5, 9, 8, 0⟩

/-- The G-stage variant (R216). -/
def Scheme.x4 (c : Scheme) : Scheme := { c with extra := 2 }

/-- The width of the input address. -/
def Scheme.bits (c : Scheme) : Nat := 12 + c.levels * c.vpnBits + c.extra

/-- The scheme a MODE field of `satp`, `vsatp` or `hgatp` selects; none is Bare (R101, R158). -/
def schemeOf (xl : Xlen) (atp : Word) : Option Scheme :=
  match xl with
  | .rv32 => if bit atp 31 then some .sv32 else none
  | .rv64 =>
    match field atp 60 4 with
    | 8#4 => some .sv39
    | 9#4 => some .sv48
    | 10#4 => some .sv57
    | _ => none

/-- PPN of an address-translation register (R101, R158). -/
def atpPpn (xl : Xlen) (atp : Word) : Nat :=
  match xl with
  | .rv32 => (field atp 0 22).toNat
  | .rv64 => (field atp 0 44).toNat

/-- ASID of `satp` or `vsatp` (R101). -/
def atpAsid (xl : Xlen) (atp : Word) : Nat :=
  match xl with
  | .rv32 => (field atp 22 9).toNat
  | .rv64 => (field atp 44 16).toNat

/-- VMID of `hgatp` (R158). -/
def atpVmid (xl : Xlen) (atp : Word) : Nat :=
  match xl with
  | .rv32 => (field atp 22 7).toNat
  | .rv64 => (field atp 44 14).toNat

/-- The current virtual machine (R221). -/
def State.vmid (s : State) : Nat := atpVmid s.sxlen s.hc.hgatp

/-- The upper bits of a virtual address are the sign extension that the scheme asks for (R201). -/
def canonical (c : Scheme) (va : Word) : Bool :=
  c.levels == 2 || (va.toInt == ((va.toNat : Int) + 2 ^ (c.bits - 1)) % 2 ^ c.bits - 2 ^ (c.bits - 1))

/-! ### Page-table entries (R203, R204) -/

def pteV (p : Word) : Bool := bit p 0
def pteR (p : Word) : Bool := bit p 1
def pteW (p : Word) : Bool := bit p 2
def pteX (p : Word) : Bool := bit p 3
def pteU (p : Word) : Bool := bit p 4
def pteG (p : Word) : Bool := bit p 5
def pteA (p : Word) : Bool := bit p 6
def pteD (p : Word) : Bool := bit p 7
def ptePbmt (p : Word) : BitVec 2 := field p 61 2
def pteN (p : Word) : Bool := bit p 63
/-- A leaf: R or X set (R204). -/
def pteLeaf (p : Word) : Bool := pteR p || pteX p

/-- pte.ppn: bits 53:10, bits 31:10 for Sv32 (R203). -/
def ptePpn (c : Scheme) (p : Word) : Nat :=
  if c.pteBytes = 4 then (field p 10 22).toNat else (field p 10 44).toNat

/-! ### A walk -/

/-- What a walk works with: the stage, its tables, the rights it is made with. -/
structure Walk where
  stage : Stage
  scheme : Scheme
  root : Nat
  asid : Nat
  vmid : Nat
  /-- the access counts as a U-mode access (R207); always so in G-stage (R217) -/
  user : Bool
  sum : Bool
  mxr : Bool
  /-- A and D are updated by hardware (R209) -/
  hwAd : Bool
  pbmte : Bool
  napot : Bool
  /-- big-endian page tables (R173) -/
  big : Bool
  need : Need
  /-- the walk is speculative: it reads idempotent memory only (R181) -/
  speculative : Bool
deriving DecidableEq, Repr

/-- The page number of an address at a level and above it: va >> (12 + vpnBits * level). -/
def vpnFrom (c : Scheme) (level va : Nat) : Nat := va / 2 ^ (12 + c.vpnBits * level)

/-- va.vpn[level]; the top level of G-stage is wider (R201, R216). -/
def vpnAt (c : Scheme) (level va : Nat) : Nat :=
  vpnFrom c level va % 2 ^ (c.vpnBits + if level + 1 = c.levels then c.extra else 0)

/-- What a PTE is to a walk. -/
inductive Found where
  | fault
  | pointer (table : Nat)
  | leaf
  /-- a leaf whose A or D must be set first (R206 step 7) -/
  | update
deriving DecidableEq, Repr

/-- Some bit or encoding reserved for future use is set (R203, R204, R206 step 3, R210, R211, D22). -/
def Walk.reserved (w : Walk) (level : Nat) (p : Word) : Bool :=
  (!pteR p && pteW p)
    || (w.scheme.pteBytes == 8 &&
        (field p 54 7 != 0
          || (pteN p && !(w.napot && pteLeaf p && level == 0 && ptePpn w.scheme p % 16 == 8))
          || (if w.pbmte && pteLeaf p then ptePbmt p == 3#2 else ptePbmt p != 0)))
    || (!pteLeaf p && (pteD p || pteA p || pteU p))

/-- The page allows the access (R207, R217, R268). -/
def Walk.allowed (w : Walk) (p : Word) : Bool :=
  (if w.user then pteU p else !pteU p || (w.need != .fetch && w.sum)) &&
  match w.need with
  | .fetch => pteX p
  | .load => pteR p || (w.mxr && pteX p)
  | .store => pteW p
  | .execLoad => pteX p

/-- Steps 3 to 7 of R206 on a PTE. -/
def Walk.inspect (w : Walk) (level : Nat) (p : Word) : Found :=
  if !pteV p || w.reserved level p then .fault
  else if !pteLeaf p then .pointer (ptePpn w.scheme p * 4096)
  else if !w.allowed p then .fault
  else if ptePpn w.scheme p % 2 ^ (w.scheme.vpnBits * level) ≠ 0 then .fault
  else if !pteA p || (w.need == .store && !pteD p) then (if w.hwAd then .update else .fault)
  else .leaf

/-- The PTE after step 7 of R206. -/
def Walk.updated (w : Walk) (p : Word) : Word :=
  let p := setBit p 6 true
  if w.need = .store then setBit p 7 true else p

/-- A successful translation: the address, and the memory type the page asks for (R211: 0 PMA, 1 NC, 2 IO). -/
structure Target where
  addr : Nat
  pbmt : Nat
deriving DecidableEq, Repr

/-- Step 8 of R206, with the substitution of R210 for a NAPOT PTE. -/
def Walk.target (w : Walk) (level : Nat) (p : Word) (va : Nat) : Target :=
  let ppn := ptePpn w.scheme p
  let ppn := if w.napot && w.scheme.pteBytes == 8 && pteN p then ppn / 16 * 16 + vpnAt w.scheme 0 va % 16 else ppn
  let inPage := va % 2 ^ (12 + w.scheme.vpnBits * level)
  { addr := ppn * 4096 + inPage
    pbmt := if w.scheme.pteBytes = 8 then (ptePbmt p).toNat else 0 }

/-! ### The cache (R25, R208, R210) -/

/-- The schemes number pages alike and have PTEs of one size: Sv39, Sv48 and Sv57 do, in one stage; Sv32 does with none of them. -/
def Scheme.alike (c d : Scheme) : Bool := c.vpnBits == d.vpnBits && c.pteBytes == d.pteBytes && c.extra == d.extra

/-- The entry's page holds the address, by the page numbers of the scheme it was read under. -/
def CacheEntry.holds (e : CacheEntry) (va : Nat) : Bool := e.vpn == vpnFrom e.scheme e.level va

/-- A cached PTE serves a walk at a level for an address (R208): one read for that address, under the walk's scheme or one that numbers
pages alike, since R254 lets a translation that was valid be used until a fence (DESIGN CHOICE, notes/assumptions/8.md). -/
def CacheEntry.serves (e : CacheEntry) (w : Walk) (level va : Nat) : Bool :=
  decide (e.stage = w.stage) && e.scheme.alike w.scheme && e.vmid == w.vmid && (e.asid == w.asid || e.global) && e.level == level
    && e.holds va

/-- A number for a walk's stage and level, for whether it is speculative, and for the kind of access: each kind of walk chooses by itself,
so that the fetch, a load and a store of one step may take different copies (R254). DESIGN CHOICE: within one step the walks of one kind
for one address choose alike, which are those of one access, and in G-stage that for a load and those that read VS-stage tables
(notes/assumptions/8.md). -/
def Walk.choiceCode (w : Walk) (level : Nat) : Nat :=
  8 * stageCode w.stage + level + (if w.speculative then 24 else 0) + 48 * w.need.index

/-- The cached entry that step 2 of a walk takes, if it takes one: which of several, or none, is open (R208, R254). -/
def State.cachedEntry (s : State) (w : Walk) (level va : Nat) : Option CacheEntry :=
  match s.cache.filter (fun e => e.serves w level va) with
  | [] => none
  | e :: es => (e :: es)[Config.cacheChoice s.draws (w.choiceCode level) va]?

/-- The PTE copy of that entry. -/
def State.cachedPte (s : State) (w : Walk) (level va : Nat) : Option Word := (s.cachedEntry w level va).map (·.pte)

/-! ### The algorithm (R206) -/

/-- How a walk reaches its page tables: where a PTE is in physical memory, and of which memory type its page is, which G-stage
translation decides for VS-stage tables (R215, R222). -/
abbrev Resolver := State → Nat → Need → Except Abort (Target × State)

/-- Page tables named by physical addresses: `satp` and `hgatp` tables. -/
def physicalTables : Resolver := fun s a _ => .ok (⟨a, 0⟩, s)

/-- Step 2: the PTE in memory. A speculative walk ends before memory that is not idempotent (R181, R183). -/
def Walk.readPte (w : Walk) (resolve : Resolver) (s : State) (a : Nat) : Except Abort (Word × State) :=
  match resolve s a .load with
  | .error e => .error e
  | .ok (t, s) =>
    match s.checkPhys (.tableRead w.stage w.speculative) .s t.addr w.scheme.pteBytes with
    | .error e => .error e
    | .ok rs =>
      if w.speculative && !effIdempotent t.pbmt rs .load then .error .access
      else .ok (valueOfBytes w.big (s.physRead t.addr w.scheme.pteBytes), s)

/-- Step 7 with hardware update: the whole PTE is written (R206). One hart: the comparison holds. -/
def Walk.writePte (w : Walk) (resolve : Resolver) (s : State) (a : Nat) (p : Word) : Except Abort State :=
  match resolve s a .store with
  | .error e => .error e
  | .ok (t, s) =>
    match s.checkPhys (.tableWrite w.stage) .s t.addr w.scheme.pteBytes with
    | .error e => .error e
    | .ok _ => .ok (s.physWrite t.addr (bytesOfValue w.big w.scheme.pteBytes p))

/-- Step 7 on the PTE in memory at address a. -/
def Walk.finishLeaf (w : Walk) (resolve : Resolver) (s : State) (a level va : Nat) (p : Word) :
    Except Abort (Target × State) :=
  match w.writePte resolve s a (w.updated p) with
  | .error e => .error e
  | .ok s => .ok (w.target level p va, s)

/-- Steps 2 to 8: `n` levels are left, the table is at address `table`. A cached PTE serves step 2 only; where A or D
must be set the PTE in memory is read (R208). What PBMTE and ADUE are is asked for each walk: a change of `menvcfg` or `henvcfg` acts
at once, on cached copies too, though R85, R209 and R356 let the old setting stay until a fence (DESIGN CHOICE,
notes/assumptions/49.md). -/
def Walk.go (w : Walk) (resolve : Resolver) (va : Nat) : Nat → Nat → State → Except Abort (Target × State)
  | 0, _, _ => .error .page
  | level + 1, table, s =>
    let a := table + vpnAt w.scheme level va * w.scheme.pteBytes
    let fromMemory : Except Abort (Target × State) :=
      match w.readPte resolve s a with
      | .error e => .error e
      | .ok (p, s) =>
        match w.inspect level p with
        | .fault => .error .page
        | .pointer next => w.go resolve va level next s
        | .leaf => .ok (w.target level p va, s)
        | .update => w.finishLeaf resolve s a level va p
    match s.cachedPte w level va with
    | none => fromMemory
    | some p =>
      match w.inspect level p with
      | .fault => .error .page
      | .pointer next => w.go resolve va level next s
      | .leaf => .ok (w.target level p va, s)
      | .update => fromMemory

/-- A walk from its root (step 1). -/
def Walk.run (w : Walk) (resolve : Resolver) (va : Nat) (s : State) : Except Abort (Target × State) :=
  w.go resolve va w.scheme.levels (w.root * 4096) s

/-! ### The stages -/

/-- Hardware A/D update is in effect where the switch has the given value (R209). On a hart that always updates there is nothing to
switch: ADUE reads 0 in `menvcfg` and `henvcfg` (State.menvcfgWritable), and VS-stage updates too (DESIGN CHOICE, R153,
notes/assumptions/43.md). -/
def State.adUpdates (s : State) (adue : Bool) : Bool :=
  match s.cfg.adScheme with
  | .svade => false
  | .svadu => true
  | .switchable => adue

/-- The `satp` walk of a scheme (R206). Like those below it takes ADUE and PBMTE as they are now, without waiting for the fence that R356
names (DESIGN CHOICE, R209, R211, notes/assumptions/49.md). -/
def State.walkS (s : State) (c : Scheme) (need : Need) (p : Priv) : Walk where
  stage := .s
  scheme := c
  root := atpPpn s.sxlen s.sc.satp
  asid := atpAsid s.sxlen s.sc.satp
  vmid := 0
  user := p == .u
  sum := s.mstatusSUM
  mxr := s.mstatusMXR
  hwAd := s.adUpdates s.menvcfgADUE
  pbmte := s.cfg.svpbmt && s.menvcfgPBMTE
  napot := s.cfg.svnapot
  big := s.mstatusSBE
  need := need
  speculative := false

/-- The G-stage walk of a scheme (R217). -/
def State.walkG (s : State) (c : Scheme) (need : Need) : Walk where
  stage := .g
  scheme := c.x4
  root := atpPpn s.sxlen s.hc.hgatp
  asid := 0
  vmid := s.vmid
  user := true
  sum := false
  mxr := s.mstatusMXR
  hwAd := s.adUpdates s.menvcfgADUE
  pbmte := s.cfg.svpbmt && s.menvcfgPBMTE
  napot := s.cfg.svnapot
  big := s.mstatusSBE
  need := need
  speculative := false

/-- The VS-stage walk of a scheme (R215, R218). -/
def State.walkVS (s : State) (c : Scheme) (need : Need) (p : Priv) : Walk where
  stage := .vs
  scheme := c
  root := atpPpn s.vsxlen s.vc.vsatp
  asid := atpAsid s.vsxlen s.vc.vsatp
  vmid := s.vmid
  user := p == .u
  sum := s.vsstatusSUM
  mxr := s.vsstatusMXR || s.mstatusMXR
  hwAd := s.adUpdates s.henvcfgADUE
  pbmte := s.cfg.svpbmt && s.henvcfgPBMTE
  napot := s.cfg.svnapot
  big := s.hstatusVSBE
  need := need
  speculative := false

/-- The walk made speculatively: no PTE is updated and only idempotent memory is read (R181, R208). -/
def Walk.quiet (w : Walk) : Walk := { w with hwAd := false, speculative := true }

/-- Translation with MODE Bare: the identity (R102, R168, R216); what it is with the other fields not 0 is open (R102). -/
def bareTarget (xl : Xlen) (atp va : Word) : Option Nat :=
  if atp &&& (match xl with | .rv32 => 0x7FFFFFFF | .rv64 => 0x0FFFFFFFFFFFFFFF) = 0 then some va.toNat
  else Config.satpBareTarget atp va

/-- A page fault of G-stage is a guest-page fault at the guest physical address (R217). -/
def asGuestFault (gpa : Nat) (implicit : Option Bool) : Abort → Abort
  | .page => .guestPage gpa implicit
  | e => e

/-- G-stage translation of a guest physical address by a walk of each scheme (R216, R217). -/
def State.translateGBy (s : State) (walk : Scheme → Walk) (gpa : Nat) (implicit : Option Bool) :
    Except Abort (Target × State) :=
  match schemeOf s.sxlen s.hc.hgatp with
  | none => .ok (⟨gpa, 0⟩, s)
  | some c =>
    if gpa < 2 ^ c.x4.bits then
      match (walk c).run physicalTables gpa s with
      | .ok r => .ok r
      | .error e => .error (asGuestFault gpa implicit e)
    else .error (.guestPage gpa implicit)

/-- G-stage translation of a guest physical address (R216, R217). -/
def State.translateG (s : State) (gpa : Nat) (need : Need) (implicit : Option Bool) : Except Abort (Target × State) :=
  s.translateGBy (s.walkG · need) gpa implicit

/-- VS-stage page tables are at guest physical addresses (R215). -/
def guestTables : Resolver := fun s a need => s.translateG a need (some (need == .store))

/-- One-stage translation (R206): Bare is the identity (R168). -/
def State.translateS (s : State) (va : Word) (need : Need) (p : Priv) : Except Abort (Target × State) :=
  match schemeOf s.sxlen s.sc.satp with
  | none =>
    match bareTarget s.sxlen s.sc.satp va with
    | some pa => .ok (⟨pa, 0⟩, s)
    | none => .error .page
  | some c =>
    if canonical c va then (s.walkS c need p).run physicalTables va.toNat s else .error .page

/-- VS-stage translation to a guest physical address (R215). -/
def State.translateVS (s : State) (va : Word) (need : Need) (p : Priv) : Except Abort (Target × State) :=
  match schemeOf s.vsxlen s.vc.vsatp with
  | none =>
    match bareTarget s.vsxlen s.vc.vsatp va with
    | some pa => .ok (⟨pa, 0⟩, s)
    | none => .error .page
  | some c =>
    if canonical c va then (s.walkVS c need p).run guestTables va.toNat s else .error .page

/-- The memory type after two stages: a non-zero VS-stage type overrides the G-stage type (R222). -/
def combinePbmt (vs g : Nat) : Nat := if vs = 0 then g else vs

/-- Two-stage translation (R215). -/
def State.translateTwoStage (s : State) (va : Word) (need : Need) (p : Priv) : Except Abort (Target × State) :=
  match s.translateVS va need p with
  | .error e => .error e
  | .ok (g, s) =>
    match s.translateG g.addr need none with
    | .error e => .error e
    | .ok (t, s) => .ok (⟨t.addr, combinePbmt g.pbmt t.pbmt⟩, s)

/-- Translation at an effective privilege and virtualisation mode (R171). -/
def State.translate (s : State) (va : Word) (need : Need) (p : Priv) (v : Bool) : Except Abort (Target × State) :=
  if p = .m then .ok (⟨va.toNat, 0⟩, s)
  else if v then s.translateTwoStage va need p
  else s.translateS va need p

/-! ### Speculative walks (R208, R219) -/

/-- The PTE is a valid pointer to the next table (R204, R206 step 4). -/
def Walk.points (w : Walk) (level : Nat) (p : Word) : Bool := pteV p && !w.reserved level p && !pteLeaf p

/-- The copies kept of a PTE that was read: of a NAPOT PTE one for any or all of the 16 pages of its range (R210), each a page of its
own to a fence. -/
def Walk.copies (w : Walk) (s : State) (va : Nat) (e : CacheEntry) : List CacheEntry :=
  if pteV e.pte && pteN e.pte && !w.reserved e.level e.pte then
    ((List.range 16).filter (Config.napotAliases s.draws va).getLsbD).map fun j => { e with vpn := e.vpn / 16 * 16 + j }
  else [e]

/-- The PTE copies a speculative walk puts into the cache: read from memory, with no A or D update, no exception, and,
with Svvptc, no invalid PTE (R208, R212). Step 2 may take a cached entry, as in every walk, so that what is read may lie in a table
that a cached pointer names though memory holds another by now: R208 lets the results of every step 2 be kept, and R254 has what is
reachable from valid entries read. A cached entry at which the walk ends adds nothing. -/
def Walk.spec (w : Walk) (resolve : Resolver) (keepInvalid : Bool) (s : State) (va : Nat) (global : Bool) :
    Nat → Nat → List CacheEntry
  | 0, _ => []
  | level + 1, table =>
    let g (p : Word) : Bool := global || (pteG p && w.stage != .g)
    match s.cachedEntry w level va with
    | some e =>
      if w.points level e.pte then
        w.spec resolve keepInvalid s va (e.global || g e.pte) level (ptePpn w.scheme e.pte * 4096)
      else []
    | none =>
      match w.readPte resolve s (table + vpnAt w.scheme level va * w.scheme.pteBytes) with
      | .error _ => []
      | .ok (p, _) =>
        let e : CacheEntry :=
          { stage := w.stage, scheme := w.scheme, vmid := w.vmid, asid := w.asid, level := level, vpn := vpnFrom w.scheme level va, pte := p
            leaf := !w.points level p, global := g p && pteV p }
        if !pteV p && !keepInvalid then []
        else w.copies s va e ++ (if w.points level p then w.spec resolve keepInvalid s va (g p) level (ptePpn w.scheme p * 4096) else [])

/-- The address is one that the scheme translates: sign-extended as R201 asks, or, without such a test (Sv32 and G-stage, R201, R216),
of the scheme's width. -/
def Walk.translates (w : Walk) (va : Nat) : Bool :=
  if w.stage = .g ∨ w.scheme.pteBytes = 4 then decide (va < 2 ^ w.scheme.bits)
  else decide (va < 2 ^ 64) && canonical w.scheme (BitVec.ofNat 64 va)

/-- The entries that walks of one stage at the drawn addresses add, at those that are valid: an address that is none has no translation
to cache (R201, R254). -/
def State.specEntries (s : State) (w : Walk) (resolve : Resolver) (vas : List Nat) : List CacheEntry :=
  ((vas.filter w.translates).map fun va => w.spec resolve (!s.cfg.svvptc) s va false w.scheme.levels (w.root * 4096)).flatten

/-- G-stage translation for a speculative VS-stage walk, itself speculative (R181, R208). -/
def quietGuestTables : Resolver := fun s a need => s.translateGBy (fun c => (s.walkG c need).quiet) a none

/-- What the hart may add to its cache before an instruction (R25, R208, R219): walks of the active stages at drawn
addresses. Which are active goes by the effective mode of explicit accesses, that is under MPRV too: `satp` in S and U with
V=0 (R103); `vsatp` and `hgatp` unless in U with V=0 and HU=0 (R219). -/
def State.speculate (s : State) : State :=
  if s.cfg.tlb then
    let sWalks :=
      match s.effVirt, s.effPriv, schemeOf s.sxlen s.sc.satp with
      | false, .m, _ => []
      | false, p, some c => s.specEntries (s.walkS c .load p).quiet physicalTables (Config.specWalks s.draws 0)
      | _, _, _ => []
    let guest := s.hasH && (s.effVirt || s.effPriv != .u || s.hstatusHU)
    let vsWalks :=
      match guest, schemeOf s.vsxlen s.vc.vsatp with
      | true, some c => s.specEntries (s.walkVS c .load .s).quiet quietGuestTables (Config.specWalks s.draws 1)
      | _, _ => []
    let gWalks :=
      match guest, schemeOf s.sxlen s.hc.hgatp with
      | true, some c => s.specEntries (s.walkG c .load).quiet physicalTables (Config.specWalks s.draws 2)
      | _, _ => []
    { s with cache := sWalks ++ vsWalks ++ gWalks ++ s.cache }
  else s

/-! ### Fences on the cache (R253, R274, R275) -/

/-- An entry at which a walk for the address ends, a leaf or an invalid PTE (R253): a fence that names the address orders stores
to that PTE, so the copy goes. The page is that of the scheme the entry was read under, whatever the current one is. -/
def CacheEntry.leafFor (e : CacheEntry) (va : Nat) : Bool := e.leaf && e.holds va

/-- SFENCE.VMA's selection (R253): an entry of the address space, the address and the ASID that the operands name. -/
def CacheEntry.fenced (e : CacheEntry) (st : Stage) (vmid : Nat) (va asid : Option Nat) : Bool :=
  decide (e.stage = st) && e.vmid == vmid
    && (match va with | none => true | some a => e.leafFor a)
    && (match asid with | none => true | some n => e.asid == n && !e.global)

/-- The address is a valid virtual address under the current MODE (R201, R253): with Bare every one is. -/
def validAddress (xl : Xlen) (atp va : Word) : Bool :=
  match schemeOf xl atp with
  | none => true
  | some c => canonical c va

/-- A fence over VS-level or S-level translations (R253, R274). With an address that is no valid virtual address it has
no effect. -/
def State.fenceVa (s : State) (st : Stage) (vmid : Nat) (xl : Xlen) (atp : Word) (va : Option Word)
    (asid : Option Nat) : State :=
  if va.all (validAddress xl atp) then
    { s with cache := s.cache.filter fun e => !e.fenced st vmid (va.map (·.toNat)) asid }
  else s

/-- HFENCE.GVMA's selection: G-stage entries for a guest physical address and a virtual machine (R275). The entries for an address are
those of every level that a walk for it can use, pointers as well as the leaf: R275 orders all implicit reads for G-stage, where R253
names the leaf alone. -/
def CacheEntry.fencedG (e : CacheEntry) (gpa vmid : Option Nat) : Bool :=
  decide (e.stage = .g)
    && (match vmid with | none => true | some n => e.vmid == n)
    && (match gpa with | none => true | some a => e.holds a)

/-- A fence over G-stage translations (R275). -/
def State.fenceGpa (s : State) (gpa vmid : Option Nat) : State :=
  { s with cache := s.cache.filter fun e => !e.fencedG gpa vmid }

end Sys2Proof.Machine
end

