-- ==== Sys2Proof/Machine/Access.lean ====
section
/-! DEFINITION. Explicit loads and stores and instruction fetch: alignment, translation, PMP and PMA, byte order, split
accesses, and the exception an access ends in (20_memory.md R170-R177; 60_exceptions.md R342-R345). -/

namespace Sys2Proof.Machine

/-- An explicit access or a fetch, at an effective mode (R171). -/
structure Access where
  need : Need
  /-- the width in bytes -/
  width : Nat
  /-- the virtual address -/
  va : Word
  p : Priv
  v : Bool
  /-- the trapping instruction in the format of R231, its address offset 0; 0 for a fetch -/
  form : Word
deriving DecidableEq, Repr

/-! ### Exceptions of an access -/

/-- Page faults by original type (R205). -/
def Need.pageExc : Need → Exc
  | .fetch => .instrPage
  | .load | .execLoad => .loadPage
  | .store => .storePage

/-- Access faults by original type (R172). -/
def Need.accessExc : Need → Exc
  | .fetch => .instrAccess
  | .load | .execLoad => .loadAccess
  | .store => .storeAccess

/-- Guest-page faults by original type (R217). -/
def Need.guestExc : Need → Exc
  | .fetch => .instrGuest
  | .load | .execLoad => .loadGuest
  | .store => .storeGuest

/-- Address-misaligned exceptions of loads and stores (R175). -/
def Need.misalignedExc : Need → Exc
  | .fetch => .instrMisaligned
  | .load | .execLoad => .loadMisaligned
  | .store => .storeMisaligned

/-- The transformed instruction with its address offset, where the hart writes it for the exception (R231, R345, D12). -/
def State.transformed (s : State) (a : Access) (part : Word) (e : Exc) : Word :=
  if bit s.cfg.tinstTransformed e.code && a.form != 0 then setField a.form 15 (field (part - a.va) 0 5) else 0

/-- The pseudoinstruction of a fault on an implicit VS-stage access (R231, R345). -/
def State.pseudoInstr (s : State) (write : Bool) : Word :=
  (match s.vsxlen with | .rv32 => 0x2000 | .rv64 => 0x3000) ||| (if write then 0x20 else 0)

/-- The pseudoinstruction of a guest-page fault on an implicit access is written: it must be where `tval2` is not 0, and may be
elsewhere (R345, D12). -/
def State.writesPseudo (s : State) (a : Access) (gpa : Nat) : Bool :=
  (bit s.cfg.tval2Info a.need.guestExc.code && gpa / 4 != 0) || bit s.cfg.tinstPseudo a.need.guestExc.code

/-- The guest physical address of a guest-page fault that is not on an implicit access, shifted right by 2: written only where
the virtual address it corresponds to is written to `tval` (R220, R344). -/
def State.guestTval2 (s : State) (a : Access) (gpa : Nat) : Word :=
  if s.writesTval a.need.guestExc then BitVec.ofNat 64 (gpa / 4) else 0

/-- A faulting access ends in its exception; `part` is the address of the part that faulted (R342-R345). -/
def State.abort (s : State) (a : Access) (part : Word) : Abort → Result
  | .page => raise ⟨a.need.pageExc, part, a.v, 0, s.transformed a part a.need.pageExc⟩ s
  | .access => raise ⟨a.need.accessExc, part, a.v, 0, s.transformed a part a.need.accessExc⟩ s
  | .guestPage gpa none =>
    raise ⟨a.need.guestExc, part, a.v, s.guestTval2 a gpa, s.transformed a part a.need.guestExc⟩ s
  | .guestPage gpa (some write) =>
    raise ⟨a.need.guestExc, part, a.v, BitVec.ofNat 64 (gpa / 4),
      if s.writesPseudo a gpa then s.pseudoInstr write else 0⟩ s
  | .stop f => .fault f

/-! ### The parts of an access (R176) -/

/-- A virtual address as an address of an effective mode: bits above its XLEN, and above the current one, are ignored
(R57, R58). -/
def State.effAddress (s : State) (p : Priv) (v : Bool) (addr : Word) : Word :=
  zx (s.xlenAt p v) (zx s.xlen addr)

/-- The address is a multiple of the width (R175). -/
def Access.aligned (a : Access) : Bool := a.va.toNat % a.width == 0

/-- The width of the part in the first page: all of it unless a page boundary is crossed (R176). -/
def Access.firstWidth (a : Access) : Nat := Nat.min a.width (4096 - a.va.toNat % 4096)

/-- The access as the PMAs judge a part of it, `others` being the physical addresses of the bytes in its other part: support is
the region's, so it is asked of the whole access (notes/assumptions/15.md). -/
def Access.shape (a : Access) (others : List Nat) : Shape := { guest := a.v, width := a.width, aligned := a.aligned, others := others }

/-- A misaligned access may be made (R175, R180, R183): to idempotent memory, or within one misaligned atomicity granule. -/
def misalignedOk (sh : Shape) (pbmt : Nat) (rs : List Region) (need : Need) (pa n : Nat) : Bool :=
  sh.aligned || effIdempotent pbmt rs need || rs.all (inGranule · sh pa n)

/-- Translation, then PMP and PMA, of one part (R171), the bytes of the other part being at `others`: the physical address and the
regions of its bytes. A misaligned access to non-idempotent memory is an access fault (R175), whatever the region holds. -/
def State.reachPart (s : State) (a : Access) (va : Word) (n : Nat) (others : List Nat) :
    Except Abort (Nat × List Region × State) :=
  match s.translate va a.need a.p a.v with
  | .error e => .error e
  | .ok (t, s) =>
    match s.checkRegions (.explicit a.need (a.shape others)) a.p t.addr n with
    | .error e => .error e
    | .ok rs =>
      if misalignedOk (a.shape others) t.pbmt rs a.need t.addr n then
        match reachRegions t.addr rs with
        | .error e => .error e
        | .ok rs => .ok (t.addr, rs, s)
      else .error .access

/-- The same for an access made in one part. -/
def State.reach (s : State) (a : Access) (va : Word) (n : Nat) : Except Abort (Nat × List Region × State) :=
  s.reachPart a va n []

/-- The address of the second part: the next page, modulo 2^XLEN. -/
def State.secondAddress (s : State) (a : Access) : Word :=
  s.effAddress a.p a.v (a.va + BitVec.ofNat 64 a.firstWidth)

/-- Where the n bytes of the part at an address are; where its translation fails they are nowhere. -/
def State.partBytes (s : State) (a : Access) (va : Word) (n : Nat) : List Nat :=
  match s.translate va a.need a.p a.v with
  | .error _ => []
  | .ok (t, _) => bytesAt t.addr n

/-- Where the bytes of the second part are, as far as the first part's check can know: where its translation fails its own fault
follows (R180, notes/assumptions/15.md). -/
def State.secondBytes (s : State) (a : Access) : List Nat := s.partBytes a (s.secondAddress a) (a.width - a.firstWidth)

/-! ### Where an access faults (R176, R342) -/

/-- All bytes of an access lie in one misaligned atomicity granule of their regions, so that it is a single memory operation (R180).
Bytes of a part whose translation fails are nowhere, and in no granule. -/
def State.oneGranule (s : State) (a : Access) : Bool :=
  match s.partBytes a a.va a.firstWidth ++ s.secondBytes a with
  | [] => false
  | pa :: others =>
    others.length + 1 == a.width &&
    match (pa :: others).mapM s.regionAt with
    | none => false
    | some rs => rs.all (inGranule · (a.shape others) pa 1)

/-- The access may be made in portions finer than its parts: it is misaligned, and not atomic (R176, R180). -/
def State.splits (s : State) (a : Access) : Bool := !a.aligned && !s.oneGranule a

/-- The abort of a portion k bytes further on in the same page: a guest physical address is its own. -/
def Abort.shift (k : Nat) : Abort → Abort
  | .guestPage gpa none => .guestPage (gpa + k) none
  | e => e

/-- A guest-page fault: where it is of the second page of an access, its address is the page boundary (R220, R342). -/
def Abort.isGuestPage : Abort → Bool
  | .guestPage _ _ => true
  | _ => false

/-- The part of an access that faulted, or the portion of it. -/
structure PartFault where
  /-- its virtual address -/
  addr : Word
  why : Abort
  /-- its first byte in the access -/
  first : Nat
  width : Nat
deriving DecidableEq, Repr

/-- The m bytes at va, a portion of an access, fault in the way e. -/
def State.faultsAlike (s : State) (a : Access) (va : Word) (m : Nat) (others : List Nat) (e : Abort) : Bool :=
  match s.reachPart a va m others with
  | .ok _ => false
  | .error e' => e' == e

/-- Where the part of n bytes at va, whose first byte is the i-th of the access, faults with e: in all of it, or, where the access may
be made in finer portions, in any portion that faults by itself (R176: the address of the part that faulted; which is open). A
guest-page fault of the second page, which no part at byte 0 is, is at the page boundary, where that part begins (R220, R342). -/
def State.faultIn (s : State) (splits : Bool) (a : Access) (va : Word) (i n : Nat) (others : List Nat) (e : Abort) : PartFault :=
  let p := Config.faultPortion s.draws i
  let q := if splits && !(decide (0 < i) && e.isGuestPage) && decide (0 < p.2 ∧ p.1 + p.2 ≤ n)
      && s.faultsAlike a (va + BitVec.ofNat 64 p.1) p.2 (s.partBytes a va n ++ others) (e.shift p.1) then p else (0, n)
  ⟨va + BitVec.ofNat 64 q.1, e.shift q.1, i + q.1, q.2⟩

/-! ### Loads and stores -/

/-- A load: the bytes, and the state after the walks; or why not, and for which part. -/
def State.readBytes (s : State) (a : Access) : Except PartFault (List Byte × State) :=
  let k := a.firstWidth
  if k = a.width then
    match s.reach a a.va k with
    | .error e => .error (s.faultIn (s.splits a) a a.va 0 k [] e)
    | .ok (pa, _, t) => .ok (t.physRead pa k, t)
  else
    match s.reachPart a a.va k (s.secondBytes a) with
    | .error e => .error (s.faultIn (s.splits a) a a.va 0 k (s.secondBytes a) e)
    | .ok (pa, _, t) =>
      match t.reachPart a (s.secondAddress a) (a.width - k) (bytesAt pa k) with
      | .error e => .error (t.faultIn (s.splits a) a (s.secondAddress a) k (a.width - k) (bytesAt pa k) e)
      | .ok (qa, _, u) => .ok (t.physRead pa k ++ u.physRead qa (a.width - k), u)

/-- The byte at pa of a misaligned store that faults can stay: PMP permits the byte, and its region is memory or a register that takes
writes as wide as the access or narrower, of which it may have been one (R176). -/
def State.byteCanStay (s : State) (a : Access) (pa : Nat) : Bool :=
  (match s.regionAt pa with
    | none => false
    | some r => r.kind != .io && r.writes.any (· ≤ a.width))
    && s.pmpPasses (.explicit .store (a.shape [])) a.p pa 1

/-- Byte i of the access stays: of those that can, any may, but for those of the portion that faulted (R176, Config.splitVisible). -/
def State.byteStays (s : State) (a : Access) (f : PartFault) (pa i : Nat) : Bool :=
  s.byteCanStay a pa && Config.splitVisible s.draws i && !decide (f.first ≤ i ∧ i < f.first + f.width)

/-- The bytes from the i-th on, at pa: those that stay are stored. -/
def State.leaveBytes (s : State) (a : Access) (f : PartFault) (pa i : Nat) : List Byte → State
  | [] => s
  | b :: bs => (if s.byteStays a f pa i then s.setPhysByte pa b else s).leaveBytes a f (pa + 1) (i + 1) bs

/-- What the part at va, whose bytes are the access's from the i-th on, leaves: its bytes that stay, with the updates of A and D of
its walk if any stays, and nothing if none does or its translation fails (R176, notes/assumptions/15.md). -/
def State.leavePart (s : State) (a : Access) (f : PartFault) (va : Word) (i : Nat) (bs : List Byte) : State :=
  match s.translate va a.need a.p a.v with
  | .error _ => s
  | .ok (t, u) =>
    if (List.range bs.length).any fun j => u.byteStays a f (t.addr + j) (i + j) then u.leaveBytes a f t.addr i bs else s

/-- What a store that faults leaves: nothing if it is aligned, or atomic because its bytes lie in one granule (R180); else some of its
bytes, which of those that can be stored being open (R176; 93_implementation_defined.md: any subset). -/
def State.leftBy (s : State) (a : Access) (f : PartFault) (bs : List Byte) : State :=
  if s.splits a then
    (s.leavePart a f a.va 0 (bs.take a.firstWidth)).leavePart a f (s.secondAddress a) a.firstWidth (bs.drop a.firstWidth)
  else s

/-- A store; where a part faults, the state that the bytes stored so far leave goes with the fault (R176). -/
def State.writeBytes (s : State) (a : Access) (bs : List Byte) : Except (PartFault × State) State :=
  let k := a.firstWidth
  let fails (u : State) (va : Word) (i n : Nat) (others : List Nat) (e : Abort) : Except (PartFault × State) State :=
    let f := u.faultIn (s.splits a) a va i n others e
    .error (f, s.leftBy a f bs)
  if k = a.width then
    match s.reach a a.va k with
    | .error e => fails s a.va 0 k [] e
    | .ok (pa, _, t) => .ok (t.physWrite pa bs)
  else
    match s.reachPart a a.va k (s.secondBytes a) with
    | .error e => fails s a.va 0 k (s.secondBytes a) e
    | .ok (pa, _, t) =>
      let t := t.physWrite pa (bs.take k)
      match t.reachPart a (s.secondAddress a) (a.width - k) (bytesAt pa k) with
      | .error e => fails t (s.secondAddress a) k (a.width - k) (bytesAt pa k) e
      | .ok (qa, _, u) => .ok (u.physWrite qa (bs.drop k))

/-- An access the hart does not attempt because it is misaligned (R175, D10). -/
def State.refusesMisaligned (s : State) (a : Access) : Bool := !s.cfg.misaligned && !a.aligned

/-- The address-misaligned exception of a load or store (R175, R342). -/
def State.raiseMisaligned (s : State) (a : Access) : Result :=
  raise ⟨a.need.misalignedExc, a.va, a.v, 0, s.transformed a a.va a.need.misalignedExc⟩ s

/-- A load of `a.width` bytes into x[rd], `ext` extending the value (R171, R289-R295). -/
def State.load (s : State) (a : Access) (rd : Reg) (ext : Word → Word) : Result :=
  if s.refusesMisaligned a then s.raiseMisaligned a
  else
    match s.readBytes a with
    | .error f => s.abort a f.addr f.why
    | .ok (bs, t) => .next (t.finish rd (ext (valueOfBytes (s.bigEndian a.p a.v) bs)))

/-- A store of the low `a.width` bytes of a value (R171, R296-R299). -/
def State.store (s : State) (a : Access) (value : Word) : Result :=
  if s.refusesMisaligned a then s.raiseMisaligned a
  else
    match s.writeBytes a (bytesOfValue (s.bigEndian a.p a.v) a.width value) with
    | .error (f, t) => t.abort a f.addr f.why
    | .ok t => .next t.next

/-- The access an ordinary load or store makes (R58, R165). `form` is its R231 format. -/
def State.plainAccess (s : State) (need : Need) (n : Nat) (addr form : Word) : Access :=
  { need := need, width := n, va := s.effAddress s.effPriv s.effVirt addr, p := s.effPriv, v := s.effVirt, form := form }

/-- The effective privilege of HLV, HLVX and HSV (R144, R260). -/
def State.guestPriv (s : State) : Priv := Priv.ofBit s.hstatusSPVP

/-- The access HLV, HLVX and HSV make: virtualisation mode 1, privilege SPVP (R260). -/
def State.guestAccess (s : State) (need : Need) (n : Nat) (addr form : Word) : Access :=
  { need := need, width := n, va := s.effAddress s.guestPriv true addr, p := s.guestPriv, v := true, form := form }

/-- The R231 format of a load: funct3, rd and opcode of the instruction. -/
def loadForm (i : Instr) : Word := instrBits i &&& 0x7FFF

/-- The R231 format of a store: rs2, funct3 and opcode of the instruction. -/
def storeForm (i : Instr) : Word := instrBits i &&& 0x1F0707F

/-- The R231 format of HLV, HLVX and HSV: all but bits 19:15. -/
def guestForm (i : Instr) : Word := instrBits i &&& 0xFFF07FFF

/-! ### Fetch (R23, R173) -/

/-- The fetch at the pc: the current mode, never MPRV (R23). -/
def State.fetchAccess (s : State) : Access :=
  { need := .fetch, width := 4, va := zx s.xlen s.pc, p := s.priv, v := s.virt, form := 0 }

/-- The word at the pc, little-endian, and the state after the walk. -/
def State.fetch (s : State) : Except Abort (BitVec 32 × State) :=
  match s.reach s.fetchAccess s.fetchAccess.va 4 with
  | .error e => .error e
  | .ok (pa, _, t) => .ok ((valueOfBytes false (t.physRead pa 4)).setWidth 32, t)

end Sys2Proof.Machine
end

