-- ==== Sys2Proof/Machine/Control.lean ====
section
/-! DEFINITION. Jumps and conditional branches (45_base_integer_assumed.md R281-R288). -/

namespace Sys2Proof.Machine

/-- The instruction-address-misaligned exception, raised by the jump or branch itself (R177, R342). -/
def raiseMisalignedTarget (t : Word) (s : State) : Result := raise ⟨.instrMisaligned, zx s.xlen t, s.virt, 0, 0⟩ s

/-- x[rd] <- the address of the next instruction; pc <- t (R281, R282). -/
def jumpTo (rd : Reg) (t : Word) (s : State) : Result :=
  if misalignedTarget t then raiseMisalignedTarget t s
  else .next (((s.setX rd (s.pc + 4)).goto t).retire s)

/-- A conditional branch: a branch not taken never raises (45_base_integer_assumed.md section 3). -/
def branchIf (taken : Bool) (offset : BitVec 13) (s : State) : Result :=
  if taken then
    if misalignedTarget (s.pc + immB offset) then raiseMisalignedTarget (s.pc + immB offset) s
    else .next ((s.goto (s.pc + immB offset)).retire s)
  else .next s.next

/-- JAL (R281). -/
def execJal (rd : Reg) (offset : BitVec 21) (s : State) : Result := jumpTo rd (s.pc + immJ offset) s

/-- JALR (R282): bit 0 of the sum is cleared first. -/
def execJalr (rd rs1 : Reg) (imm : BitVec 12) (s : State) : Result := jumpTo rd (s.address rs1 imm &&& ~~~1#64) s

/-- BEQ (R283). -/
def execBeq (rs1 rs2 : Reg) (offset : BitVec 13) (s : State) : Result :=
  branchIf (s.x rs1 == s.x rs2) offset s

/-- BNE (R284). -/
def execBne (rs1 rs2 : Reg) (offset : BitVec 13) (s : State) : Result :=
  branchIf (s.x rs1 != s.x rs2) offset s

/-- BLT (R285). -/
def execBlt (rs1 rs2 : Reg) (offset : BitVec 13) (s : State) : Result :=
  branchIf ((s.x rs1).slt (s.x rs2)) offset s

/-- BGE (R286). -/
def execBge (rs1 rs2 : Reg) (offset : BitVec 13) (s : State) : Result :=
  branchIf (!(s.x rs1).slt (s.x rs2)) offset s

/-- BLTU (R287). -/
def execBltu (rs1 rs2 : Reg) (offset : BitVec 13) (s : State) : Result :=
  branchIf ((zx s.xlen (s.x rs1)).ult (zx s.xlen (s.x rs2))) offset s

/-- BGEU (R288). -/
def execBgeu (rs1 rs2 : Reg) (offset : BitVec 13) (s : State) : Result :=
  branchIf (!(zx s.xlen (s.x rs1)).ult (zx s.xlen (s.x rs2))) offset s

end Sys2Proof.Machine
end

