-- ==== Sys2Proof/Machine/Alu.lean ====
section
/-! DEFINITION. Integer arithmetic (45_base_integer_assumed.md R279, R280, R300-R327): modulo 2^XLEN, no flags and no
exceptions but that of an RV64 word with XLEN=32. -/

namespace Sys2Proof.Machine

/-- A 64-bit truth value. -/
def truth (b : Bool) : Word := if b then 1 else 0

/-- A 32-bit result, sign-extended (R319-R327). -/
def word32 (v : BitVec 32) : Word := v.signExtend 64

/-- The low word of a register (R319-R327). -/
def low32 (v : Word) : BitVec 32 := v.setWidth 32

/-- An RV64 instruction: with XLEN=32 its word is reserved (R230, R278, 45_base_integer_assumed.md section 7). -/
def rv64Only (i : Instr) (s : State) (run : Result) : Result :=
  match s.xlen with
  | .rv32 => raiseIllegal i s
  | .rv64 => run

/-- A shift by an immediate: with XLEN=32 the amount has five bits (R306-R308). -/
def shiftImm (i : Instr) (shamt : BitVec 6) (s : State) (run : Result) : Result :=
  if decide (s.xlen = .rv32) && shamt.getLsbD 5 then raiseIllegal i s else run

/-- LUI (R279). -/
def execLui (rd : Reg) (imm : BitVec 20) (s : State) : Result := .next (s.finish rd (immU imm))

/-- AUIPC (R280). -/
def execAuipc (rd : Reg) (imm : BitVec 20) (s : State) : Result := .next (s.finish rd (s.pc + immU imm))

/-- ADDI (R300). -/
def execAddi (rd rs1 : Reg) (imm : BitVec 12) (s : State) : Result :=
  .next (s.finish rd (s.x rs1 + imm12 imm))

/-- SLTI (R301). -/
def execSlti (rd rs1 : Reg) (imm : BitVec 12) (s : State) : Result :=
  .next (s.finish rd (truth ((s.x rs1).slt (imm12 imm))))

/-- SLTIU (R302). -/
def execSltiu (rd rs1 : Reg) (imm : BitVec 12) (s : State) : Result :=
  .next (s.finish rd (truth ((zx s.xlen (s.x rs1)).ult (zx s.xlen (imm12 imm)))))

/-- XORI (R303). -/
def execXori (rd rs1 : Reg) (imm : BitVec 12) (s : State) : Result :=
  .next (s.finish rd (s.x rs1 ^^^ imm12 imm))

/-- ORI (R304). -/
def execOri (rd rs1 : Reg) (imm : BitVec 12) (s : State) : Result :=
  .next (s.finish rd (s.x rs1 ||| imm12 imm))

/-- ANDI (R305). -/
def execAndi (rd rs1 : Reg) (imm : BitVec 12) (s : State) : Result :=
  .next (s.finish rd (s.x rs1 &&& imm12 imm))

/-- SLLI (R306). -/
def execSlli (rd rs1 : Reg) (shamt : BitVec 6) (s : State) : Result :=
  shiftImm (.slli rd rs1 shamt) shamt s (.next (s.finish rd (s.x rs1 <<< shamt.toNat)))

/-- SRLI (R307). -/
def execSrli (rd rs1 : Reg) (shamt : BitVec 6) (s : State) : Result :=
  shiftImm (.srli rd rs1 shamt) shamt s (.next (s.finish rd (zx s.xlen (s.x rs1) >>> shamt.toNat)))

/-- SRAI (R308). -/
def execSrai (rd rs1 : Reg) (shamt : BitVec 6) (s : State) : Result :=
  shiftImm (.srai rd rs1 shamt) shamt s (.next (s.finish rd ((s.x rs1).sshiftRight shamt.toNat)))

/-- ADD (R309). -/
def execAdd (rd rs1 rs2 : Reg) (s : State) : Result :=
  .next (s.finish rd (s.x rs1 + s.x rs2))

/-- SUB (R310). -/
def execSub (rd rs1 rs2 : Reg) (s : State) : Result :=
  .next (s.finish rd (s.x rs1 - s.x rs2))

/-- SLL (R311). -/
def execSll (rd rs1 rs2 : Reg) (s : State) : Result :=
  .next (s.finish rd (s.x rs1 <<< shiftAmount s.xlen (s.x rs2)))

/-- SLT (R312). -/
def execSlt (rd rs1 rs2 : Reg) (s : State) : Result :=
  .next (s.finish rd (truth ((s.x rs1).slt (s.x rs2))))

/-- SLTU (R313). -/
def execSltu (rd rs1 rs2 : Reg) (s : State) : Result :=
  .next (s.finish rd (truth ((zx s.xlen (s.x rs1)).ult (zx s.xlen (s.x rs2)))))

/-- XOR (R314). -/
def execXor (rd rs1 rs2 : Reg) (s : State) : Result :=
  .next (s.finish rd (s.x rs1 ^^^ s.x rs2))

/-- SRL (R315). -/
def execSrl (rd rs1 rs2 : Reg) (s : State) : Result :=
  .next (s.finish rd (zx s.xlen (s.x rs1) >>> shiftAmount s.xlen (s.x rs2)))

/-- SRA (R316). -/
def execSra (rd rs1 rs2 : Reg) (s : State) : Result :=
  .next (s.finish rd ((s.x rs1).sshiftRight (shiftAmount s.xlen (s.x rs2))))

/-- OR (R317). -/
def execOr (rd rs1 rs2 : Reg) (s : State) : Result :=
  .next (s.finish rd (s.x rs1 ||| s.x rs2))

/-- AND (R318). -/
def execAnd (rd rs1 rs2 : Reg) (s : State) : Result :=
  .next (s.finish rd (s.x rs1 &&& s.x rs2))

/-- ADDIW (R319). -/
def execAddiw (rd rs1 : Reg) (imm : BitVec 12) (s : State) : Result :=
  rv64Only (.addiw rd rs1 imm) s (.next (s.finish rd (word32 (low32 (s.x rs1 + imm12 imm)))))

/-- SLLIW (R320). -/
def execSlliw (rd rs1 : Reg) (shamt : BitVec 5) (s : State) : Result :=
  rv64Only (.slliw rd rs1 shamt) s (.next (s.finish rd (word32 (low32 (s.x rs1) <<< shamt.toNat))))

/-- SRLIW (R321). -/
def execSrliw (rd rs1 : Reg) (shamt : BitVec 5) (s : State) : Result :=
  rv64Only (.srliw rd rs1 shamt) s (.next (s.finish rd (word32 (low32 (s.x rs1) >>> shamt.toNat))))

/-- SRAIW (R322). -/
def execSraiw (rd rs1 : Reg) (shamt : BitVec 5) (s : State) : Result :=
  rv64Only (.sraiw rd rs1 shamt) s (.next (s.finish rd (word32 ((low32 (s.x rs1)).sshiftRight shamt.toNat))))

/-- ADDW (R323). -/
def execAddw (rd rs1 rs2 : Reg) (s : State) : Result :=
  rv64Only (.addw rd rs1 rs2) s (.next (s.finish rd (word32 (low32 (s.x rs1) + low32 (s.x rs2)))))

/-- SUBW (R324). -/
def execSubw (rd rs1 rs2 : Reg) (s : State) : Result :=
  rv64Only (.subw rd rs1 rs2) s (.next (s.finish rd (word32 (low32 (s.x rs1) - low32 (s.x rs2)))))

/-- SLLW (R325). -/
def execSllw (rd rs1 rs2 : Reg) (s : State) : Result :=
  rv64Only (.sllw rd rs1 rs2) s (.next (s.finish rd (word32 (low32 (s.x rs1) <<< ((s.x rs2).toNat % 32)))))

/-- SRLW (R326). -/
def execSrlw (rd rs1 rs2 : Reg) (s : State) : Result :=
  rv64Only (.srlw rd rs1 rs2) s (.next (s.finish rd (word32 (low32 (s.x rs1) >>> ((s.x rs2).toNat % 32)))))

/-- SRAW (R327). -/
def execSraw (rd rs1 rs2 : Reg) (s : State) : Result :=
  rv64Only (.sraw rd rs1 rs2) s (.next (s.finish rd (word32 ((low32 (s.x rs1)).sshiftRight ((s.x rs2).toNat % 32)))))

end Sys2Proof.Machine
end

