-- ==== Sys2Proof/Machine/CsrMap.lean ====
section
/-! DEFINITION. The CSR address space: numbers (10_state.md R28, R38-R42), existence (R43) and the substitution of VS CSRs
(14_hypervisor_csrs.md R138). -/

namespace Sys2Proof.Machine

/-- The CSRs (R38-R42). The alias registers of a window are numbered 1 to 6 (R112). -/
inductive CsrReg where
  | mvendorid | marchid | mimpid | mhartid | mconfigptr
  | mstatus | misa | medeleg | mideleg | mie | mtvec | mcounteren | menvcfg | mstateen (n : Fin 4)
  | mcountinhibit | mcyclecfg | minstretcfg | mhpmevent (i : Fin 32)
  | mscratch | mepc | mcause | mtval | mip | mtinst | mtval2
  | miselect | mireg (k : Nat) | pmpcfg (k : Nat) | pmpaddr (i : Nat) | mseccfg
  | mnscratch | mnepc | mncause | mnstatus
  | mcycle | minstret | mhpmcounter (i : Fin 32)
  | sstatus | sie | stvec | scounteren | senvcfg | sstateen (n : Fin 4) | scountinhibit
  | sscratch | sepc | scause | stval | sip | stimecmp | siselect | sireg (k : Nat) | satp | scountovf
  | hstatus | hedeleg | hideleg | hie | htimedelta | hcounteren | hgeie | henvcfg | hstateen (n : Fin 4)
  | htval | hip | hvip | htinst | hgatp | hgeip
  | vsstatus | vsie | vstvec | vsscratch | vsepc | vscause | vstval | vsip | vstimecmp
  | vsiselect | vsireg (k : Nat) | vsatp
  | cycle | time | instret | hpmcounter (i : Fin 32)
deriving DecidableEq, Repr

/-- What a CSR number names: a register, or the high half of one (R37). -/
structure CsrRef where
  reg : CsrReg
  high : Bool
deriving DecidableEq, Repr

/-- The supervisor-level numbers (R38). -/
def csrSupervisor : List (Nat × CsrReg) :=
  [(0x100, .sstatus), (0x104, .sie), (0x105, .stvec), (0x106, .scounteren), (0x10A, .senvcfg), (0x120, .scountinhibit),
   (0x140, .sscratch), (0x141, .sepc), (0x142, .scause), (0x143, .stval), (0x144, .sip), (0x14D, .stimecmp),
   (0x150, .siselect), (0x180, .satp), (0xDA0, .scountovf)]

/-- The hypervisor-level numbers (R39). -/
def csrHypervisor : List (Nat × CsrReg) :=
  [(0x600, .hstatus), (0x602, .hedeleg), (0x603, .hideleg), (0x604, .hie), (0x605, .htimedelta), (0x606, .hcounteren),
   (0x607, .hgeie), (0x60A, .henvcfg), (0x643, .htval), (0x644, .hip), (0x645, .hvip), (0x64A, .htinst),
   (0x680, .hgatp), (0xE12, .hgeip)]

/-- The VS numbers (R39). -/
def csrVirtualSupervisor : List (Nat × CsrReg) :=
  [(0x200, .vsstatus), (0x204, .vsie), (0x205, .vstvec), (0x240, .vsscratch), (0x241, .vsepc), (0x242, .vscause),
   (0x243, .vstval), (0x244, .vsip), (0x24D, .vstimecmp), (0x250, .vsiselect), (0x280, .vsatp)]

/-- The machine-level numbers of identity and setup (R40, R41). -/
def csrMachineSetup : List (Nat × CsrReg) :=
  [(0xF11, .mvendorid), (0xF12, .marchid), (0xF13, .mimpid), (0xF14, .mhartid), (0xF15, .mconfigptr),
   (0x300, .mstatus), (0x301, .misa), (0x302, .medeleg), (0x303, .mideleg), (0x304, .mie), (0x305, .mtvec),
   (0x306, .mcounteren), (0x30A, .menvcfg), (0x320, .mcountinhibit), (0x321, .mcyclecfg), (0x322, .minstretcfg)]

/-- The machine-level numbers of traps, windows, RNMI and counters (R40, R41). -/
def csrMachineTraps : List (Nat × CsrReg) :=
  [(0x340, .mscratch), (0x341, .mepc), (0x342, .mcause), (0x343, .mtval), (0x344, .mip), (0x34A, .mtinst),
   (0x34B, .mtval2), (0x350, .miselect), (0x747, .mseccfg), (0x740, .mnscratch), (0x741, .mnepc), (0x742, .mncause),
   (0x744, .mnstatus), (0xB00, .mcycle), (0xB02, .minstret)]

/-- The counters that U-mode may read (R42). -/
def csrCounters : List (Nat × CsrReg) :=
  [(0xC00, .cycle), (0xC01, .time), (0xC02, .instret)]

/-- The single numbers (R38-R42). -/
def csrNumbers : List (Nat × CsrReg) :=
  csrSupervisor ++ csrHypervisor ++ csrVirtualSupervisor ++ csrMachineSetup ++ csrMachineTraps ++ csrCounters

/-- The single numbers of high halves (R38-R42, R250). -/
def csrHighNumbers : List (Nat × CsrReg) :=
  [(0x15D, .stimecmp), (0x25D, .vstimecmp), (0x310, .mstatus), (0x312, .medeleg), (0x31A, .menvcfg),
   (0x612, .hedeleg), (0x615, .htimedelta), (0x61A, .henvcfg), (0x721, .mcyclecfg), (0x722, .minstretcfg),
   (0x757, .mseccfg), (0xB80, .mcycle), (0xB82, .minstret), (0xC80, .cycle), (0xC81, .time), (0xC82, .instret)]

/-- The alias register a window offset names: 4 belongs to AIA and is no alias (R112). -/
def windowAlias (off : Nat) : Option Nat :=
  if off = 1 ∨ off = 2 ∨ off = 3 then some off
  else if off = 5 ∨ off = 6 ∨ off = 7 then some (off - 1)
  else none

/-- The numbers that come in rows: state enables, events, counters, PMP, windows (R38-R42). -/
def csrRow (n : Nat) : Option CsrRef :=
  let i32 : Fin 32 := ⟨n % 32, Nat.mod_lt _ (by decide)⟩
  let i4 : Fin 4 := ⟨n % 4, Nat.mod_lt _ (by decide)⟩
  if 0x30C ≤ n ∧ n ≤ 0x30F then some ⟨.mstateen i4, false⟩
  else if 0x31C ≤ n ∧ n ≤ 0x31F then some ⟨.mstateen i4, true⟩
  else if 0x10C ≤ n ∧ n ≤ 0x10F then some ⟨.sstateen i4, false⟩
  else if 0x60C ≤ n ∧ n ≤ 0x60F then some ⟨.hstateen i4, false⟩
  else if 0x61C ≤ n ∧ n ≤ 0x61F then some ⟨.hstateen i4, true⟩
  else if 0x323 ≤ n ∧ n ≤ 0x33F then some ⟨.mhpmevent i32, false⟩
  else if 0x723 ≤ n ∧ n ≤ 0x73F then some ⟨.mhpmevent i32, true⟩
  else if 0xB03 ≤ n ∧ n ≤ 0xB1F then some ⟨.mhpmcounter i32, false⟩
  else if 0xB83 ≤ n ∧ n ≤ 0xB9F then some ⟨.mhpmcounter i32, true⟩
  else if 0xC03 ≤ n ∧ n ≤ 0xC1F then some ⟨.hpmcounter i32, false⟩
  else if 0xC83 ≤ n ∧ n ≤ 0xC9F then some ⟨.hpmcounter i32, true⟩
  else if 0x3A0 ≤ n ∧ n ≤ 0x3AF then some ⟨.pmpcfg (n - 0x3A0), false⟩
  else if 0x3B0 ≤ n ∧ n ≤ 0x3EF then some ⟨.pmpaddr (n - 0x3B0), false⟩
  else if 0x351 ≤ n ∧ n ≤ 0x357 then (windowAlias (n - 0x350)).map fun k => ⟨.mireg k, false⟩
  else if 0x151 ≤ n ∧ n ≤ 0x157 then (windowAlias (n - 0x150)).map fun k => ⟨.sireg k, false⟩
  else if 0x251 ≤ n ∧ n ≤ 0x257 then (windowAlias (n - 0x250)).map fun k => ⟨.vsireg k, false⟩
  else none

/-- What a CSR number names, if anything in scope (R38-R42). -/
def csrOf (n : BitVec 12) : Option CsrRef :=
  match csrNumbers.lookup n.toNat with
  | some r => some ⟨r, false⟩
  | none =>
    match csrHighNumbers.lookup n.toNat with
    | some r => some ⟨r, true⟩
    | none => csrRow n.toNat

/-- The lowest level that may access a number: 0 U, 1 S, 2 hypervisor, 3 M (R28). -/
def csrLevel (n : BitVec 12) : BitVec 2 := n.extractLsb' 8 2

/-- The number is read-only (R28). -/
def csrReadOnly (n : BitVec 12) : Bool := n.extractLsb' 10 2 == 3#2

/-- The substitution of VS CSRs when V=1 (R138). -/
def csrTarget (v : Bool) (r : CsrReg) : CsrReg :=
  if v then
    match r with
    | .sstatus => .vsstatus
    | .sie => .vsie
    | .stvec => .vstvec
    | .sscratch => .vsscratch
    | .sepc => .vsepc
    | .scause => .vscause
    | .stval => .vstval
    | .sip => .vsip
    | .stimecmp => .vstimecmp
    | .siselect => .vsiselect
    | .sireg k => .vsireg k
    | .satp => .vsatp
    | r => r
  else r

/-- The register is implemented (R43). -/
def State.hasCsr (s : State) : CsrReg → Bool
  | .mvendorid | .marchid | .mimpid | .mhartid | .mconfigptr => true
  | .mstatus | .misa | .mie | .mtvec | .mscratch | .mepc | .mcause | .mtval | .mip => true
  | .mcycle | .minstret | .mhpmcounter _ | .mhpmevent _ => true
  | .cycle | .instret | .hpmcounter _ => true
  | .pmpaddr _ => true
  | .pmpcfg k => k % 2 == 0 || decide (s.cfg.mxlen = .rv32)
  | .medeleg | .mideleg => s.hasS
  | .mcounteren | .menvcfg => s.hasU
  | .mstateen _ => s.cfg.smstateen
  | .mcountinhibit => s.cfg.mcountinhibitImpl
  | .mcyclecfg | .minstretcfg => s.cfg.smcntrpmf
  | .mtinst | .mtval2 => s.hasH
  | .miselect | .mireg _ => s.cfg.smcsrind
  | .mseccfg => s.cfg.smepmp
  | .mnscratch | .mnepc | .mncause | .mnstatus => s.cfg.smrnmi
  | .sstatus | .sie | .stvec | .scounteren | .senvcfg | .sscratch | .sepc | .scause | .stval | .sip | .satp => s.hasS
  | .sstateen _ => s.cfg.smstateen && s.hasS
  | .scountinhibit => s.cfg.smcdeleg && s.hasS && s.menvcfgCDE
  | .stimecmp => s.cfg.sstc && s.hasS
  | .siselect | .sireg _ => s.cfg.sscsrind && s.hasS
  | .scountovf => s.cfg.sscofpmf && s.hasS
  | .hstatus | .hedeleg | .hideleg | .hie | .hcounteren | .hgeie | .henvcfg | .htval | .hip | .hvip | .htinst
  | .hgatp | .hgeip => s.hasH
  | .htimedelta => s.hasH && s.cfg.timeCsr
  | .hstateen _ => s.cfg.smstateen && s.hasH
  | .vsstatus | .vsie | .vstvec | .vsscratch | .vsepc | .vscause | .vstval | .vsip | .vsatp => s.hasH
  | .vstimecmp => s.cfg.sstc && s.hasH
  | .vsiselect | .vsireg _ => s.cfg.sscsrind && s.hasH
  | .time => s.cfg.timeCsr

/-- A number names an implemented CSR: high halves exist only with XLEN=32, and those of the events only with Sscofpmf
(R43, R76, R250). -/
def State.csrExists (s : State) (c : CsrRef) : Bool :=
  s.hasCsr c.reg &&
  (if c.high then
    decide (s.xlen = .rv32) && (match c.reg with | .mhpmevent _ => s.cfg.sscofpmf | _ => true)
  else true)

end Sys2Proof.Machine
end

