-- ==== Sys2Proof/Machine/CsrCheck.lean ====
section
/-! DEFINITION. The CSR access check (41_csr_access.md R247-R250; 13_extension_csrs.md R105-R117, R124-R129; 60_exceptions.md
R346, R347). -/

namespace Sys2Proof.Machine

/-- What the access check answers (R247). -/
inductive Verdict where
  | allowed | illegal | virtual
deriving DecidableEq, Repr

/-- The enable bit of a counter CSR (R249). -/
def counterIndex : CsrReg → Option Nat
  | .cycle => some 0
  | .time => some 1
  | .instret => some 2
  | .hpmcounter i => some i.val
  | _ => none

/-- Blockers that M-mode owns, for an access from below M (R248). They come before the high half's partner: `hedelegh` with V=1 and
P1P13 clear is an illegal instruction, though `hedeleg` is a virtual one (DESIGN CHOICE, R250, notes/assumptions/48.md). -/
def State.blockedByM (s : State) (c : CsrRef) : Bool :=
  (match counterIndex c.reg with
   | some i => !s.mcounteren.getLsbD i
   | none => false) ||
  (match c.reg with
   | .stimecmp | .vstimecmp => !s.mcounteren.getLsbD 1 || !s.menvcfgSTCE
   | _ => false) ||
  (s.cfg.smstateen &&
   match c.reg with
   | .senvcfg | .henvcfg => !bit (s.mstateen 0) 62
   | .sstateen n | .hstateen n => !bit (s.mstateen n) 63
   | .siselect | .sireg _ | .vsiselect | .vsireg _ => !bit (s.mstateen 0) 60
   | .hedeleg => c.high && !bit (s.mstateen 0) 56
   | _ => false)

/-- The blockers of a counter that HS-mode or S-mode owns (R249). -/
def State.counterBlocked (s : State) (i : Nat) : Bool :=
  match s.priv, s.virt with
  | .m, _ => false
  | .s, false => false
  | .u, false => s.hasS && !s.scounteren.getLsbD i
  | .s, true => !s.hcounteren.getLsbD i
  | .u, true => !s.hcounteren.getLsbD i || !s.scounteren.getLsbD i

/-- Blockers that HS-mode or S-mode owns (R249, R128, R129). -/
def State.blockedByHS (s : State) (r : CsrReg) : Bool :=
  (match counterIndex r with
   | some i => s.counterBlocked i
   | none => false) ||
  (s.virt &&
   match r with
   | .stimecmp => !s.henvcfgSTCE || (s.priv == .s && !s.hcounteren.getLsbD 1)
   | .senvcfg => s.cfg.smstateen && !bit (s.hstateen 0) 62
   | .sstateen n => s.cfg.smstateen && !bit (s.hstateen n) 63
   | .siselect | .sireg _ => s.cfg.smstateen && !bit (s.hstateen 0) 60
   | .scountovf => s.cfg.smcdeleg && s.menvcfgCDE
   | .scountinhibit => true
   | _ => false)

/-- HS-qualified: the access would be allowed in HS-mode with TVM = 0, a high half judged by its low half (R247, R346). -/
def State.hsWouldAllow (s : State) (c : CsrRef) (n : BitVec 12) (write : Bool) : Bool :=
  s.hasCsr c.reg && !s.blockedByM ⟨c.reg, false⟩ && csrLevel n != 3#2 && !(write && csrReadOnly n)

/-- Step 3 of R247: privilege by number. -/
def State.levelVerdict (s : State) (c : CsrRef) (n : BitVec 12) (write : Bool) : Verdict :=
  let lvl := csrLevel n
  let qualified := if s.hsWouldAllow c n write then .virtual else .illegal
  match s.priv, s.virt with
  | .m, _ => .allowed
  | .s, false => if lvl = 3#2 then .illegal else .allowed
  | .u, false => if lvl = 0#2 then .allowed else .illegal
  | .s, true => if lvl = 3#2 then .illegal else if lvl = 2#2 then qualified else .allowed
  | .u, true => if lvl = 3#2 then .illegal else if lvl = 0#2 then .allowed else qualified

/-- Step 5 of R247: TVM and VTVM. -/
def State.trapBits (s : State) (r : CsrReg) : Verdict :=
  match r, s.priv, s.virt with
  | .satp, .s, false => if s.mstatusTVM then .illegal else .allowed
  | .hgatp, .s, false => if s.mstatusTVM then .illegal else .allowed
  | .satp, .s, true => if s.hstatusVTVM then .virtual else .allowed
  | _, _, _ => .allowed

/-- The select values of delegated counters, 0x40 + i (R124). -/
def selectedCounter (sel : Word) : Option (Fin 32) :=
  if sel.toNat / 32 = 2 then some ⟨sel.toNat % 32, Nat.mod_lt _ (by decide)⟩ else none

/-- The cell (siselect, sireg k) exists and its counter is delegated (R124, R125). -/
def State.windowCell (s : State) (sel : Word) (k : Nat) : Bool :=
  match selectedCounter sel with
  | none => false
  | some i =>
    s.menvcfgCDE && i != 1 && s.mcounteren.getLsbD i.val &&
    (if k = 1 then true
     else if k = 2 then decide (3 ≤ i.val) || s.cfg.smcntrpmf
     else if k = 4 then decide (s.xlen = .rv32)
     else if k = 5 then decide (s.xlen = .rv32) && (if 3 ≤ i.val then s.cfg.sscofpmf else s.cfg.smcntrpmf)
     else false)

/-- Step 7 of R247: the windows (R112-R114, R125, R126, D17). -/
def State.windowVerdict (s : State) (r : CsrReg) : Verdict :=
  match r with
  | .mireg _ => .illegal
  | .vsireg _ => .illegal
  | .sireg k =>
    if s.virt then
      (if (selectedCounter s.vc.vsiselect).isSome && s.menvcfgCDE then .virtual else .illegal)
    else if s.windowCell s.sc.siselect k then .allowed
    else .illegal
  | _ => .allowed

/-- Steps 2 to 6 of R247. -/
def State.checkSteps (s : State) (c : CsrRef) (n : BitVec 12) (write : Bool) : Verdict :=
  if s.priv ≠ .m ∧ s.blockedByM c = true then .illegal
  else
    match s.levelVerdict c n write with
    | .allowed =>
      if write && csrReadOnly n then .illegal
      else
        match s.trapBits c.reg with
        | .allowed =>
          if s.blockedByHS c.reg then (if s.virt then .virtual else .illegal) else .allowed
        | v => v
    | v => v

/-- The access check (R247). An absent high half with V=1 is judged by its low half (R250). -/
def State.csrCheck (s : State) (n : BitVec 12) (write : Bool) : Verdict :=
  match csrOf n with
  | none => .illegal
  | some c =>
    if s.csrExists c then
      match s.checkSteps c n write with
      | .allowed => s.windowVerdict c.reg
      | v => v
    else if s.virt && decide (s.xlen = .rv32) && c.high && s.hasCsr c.reg
        && decide (s.checkSteps ⟨c.reg, false⟩ n write = .virtual) then .virtual
    else .illegal

end Sys2Proof.Machine
end

