-- ==== Sys2Proof/Machine/Fences.lean ====
section
/-! DEFINITION. Memory-management fences (42_memory_management_fences.md R253-R258), FENCE and FENCE.I
(45_base_integer_assumed.md R328, R329; 20_memory.md R185). -/

namespace Sys2Proof.Machine

/-- What a hart may do with SFENCE.VMA and SINVAL.VMA where the mode permits them: without paging at SXLEN they may be illegal
instructions all the same (R253). -/
def State.sfenceAllowed (s : State) : Verdict :=
  if s.cfg.sfenceIllegalWithoutVm && !s.hasPaging then .illegal else .allowed

/-- The permission of SFENCE.VMA and SINVAL.VMA (R253, R256), in the order of R253: the mode, TVM and VTVM first, so that VU-mode, and
VS-mode under VTVM, have the virtual instruction also where there is no paging (R347). -/
def State.sfenceVerdict (s : State) : Verdict :=
  if !s.hasS then .illegal
  else
    match s.priv, s.virt with
    | .m, _ => s.sfenceAllowed
    | .u, false => .illegal
    | .u, true => .virtual
    | .s, false => if s.mstatusTVM then .illegal else s.sfenceAllowed
    | .s, true => if s.hstatusVTVM then .virtual else s.sfenceAllowed

/-- The permission of SFENCE.W.INVAL and SFENCE.INVAL.IR: TVM and VTVM play no part (R257, R258). -/
def State.invalOrderVerdict (s : State) : Verdict :=
  if !(s.cfg.svinval && s.hasS) then .illegal
  else
    match s.priv, s.virt with
    | .u, false => .illegal
    | .u, true => .virtual
    | _, _ => .allowed

/-- A fence: its permission, then its effect. -/
def fenceWith (i : Instr) (v : Verdict) (effect : State → State) (s : State) : Result :=
  match v with
  | .illegal => raiseIllegal i s
  | .virtual => raiseVirtual i s
  | .allowed => .next (effect s).next

/-- The address operand: none for x0, by the register's number (R253). It is an address of the mode whose translations the fence
names: from M-mode, MXLEN being 64 and SXLEN 32, the low 32 bits count (DESIGN CHOICE, notes/assumptions/33.md). -/
def State.fenceAddress (s : State) (xl : Xlen) (rs1 : Reg) : Option Word :=
  if rs1 = 0#5 then none else some (zx xl (s.x rs1))

/-- The ASID operand: none for x0; bits from ASIDLEN up are ignored (R253). -/
def State.fenceAsid (s : State) (xl : Xlen) (rs2 : Reg) : Option Nat :=
  if rs2 = 0#5 then none
  else some ((s.x rs2).toNat % 2 ^ (match xl with | .rv32 => Nat.min s.cfg.asidLen 9 | .rv64 => s.cfg.asidLen))

/-- What SFENCE.VMA drops (R253, R221): with V=0 S-level entries, with V=1 VS-level entries of the current virtual
machine. With V=0 and both operands x0 it ends the keeping of PMP results too (R199). Copies of PTEs that were read under an old byte
order go as all others of their stage do: those read under an old SBE of `satp` tables here, of G-stage tables at HFENCE.GVMA, and
those of VS-stage tables, read under an old VSBE, at HFENCE.VVMA or here with V=1 (DESIGN CHOICE, R61, R356, notes/assumptions/8.md). -/
def State.sfence (s : State) (rs1 rs2 : Reg) : State :=
  if s.virt then
    s.fenceVa .vs s.vmid s.vsxlen s.vc.vsatp (s.fenceAddress s.vsxlen rs1) (s.fenceAsid s.vsxlen rs2)
  else (s.fenceVa .s 0 s.sxlen s.sc.satp (s.fenceAddress s.sxlen rs1) (s.fenceAsid s.sxlen rs2)).fencePmp rs1 rs2 false

/-- SFENCE.VMA (R253). -/
def execSfenceVma (rs1 rs2 : Reg) (s : State) : Result :=
  fenceWith (.sfenceVma rs1 rs2) s.sfenceVerdict (fun t => t.sfence rs1 rs2) s

/-- SINVAL.VMA (R256): it drops what SFENCE.VMA would. -/
def execSinvalVma (rs1 rs2 : Reg) (s : State) : Result :=
  fenceWith (.sinvalVma rs1 rs2) (if s.cfg.svinval then s.sfenceVerdict else .illegal) (fun t => t.sfence rs1 rs2) s

/-- Ordering between this hart's own accesses: one hart in program order keeps it already (R184, D20). -/
def State.order (s : State) : State := s

/-- SFENCE.W.INVAL (R257). -/
def execSfenceWInval (s : State) : Result := fenceWith .sfenceWInval s.invalOrderVerdict State.order s

/-- SFENCE.INVAL.IR (R258). -/
def execSfenceInvalIr (s : State) : Result := fenceWith .sfenceInvalIr s.invalOrderVerdict State.order s

/-- The effective FIOM of a FENCE in the current mode (R185). -/
def State.fiom (s : State) : Bool :=
  match s.priv, s.virt with
  | .m, _ => false
  | .s, false => s.menvcfgFIOM
  | .u, false => s.menvcfgFIOM || bit s.senvcfg 0
  | .s, true => s.menvcfgFIOM || s.henvcfgFIOM
  | .u, true => s.menvcfgFIOM || s.henvcfgFIOM || bit s.senvcfg 0

/-- A set I, O, R, W (bits 3 to 0) widened by FIOM: I brings R, O brings W (R185, R328). -/
def widenSet (fiom : Bool) (set : BitVec 4) : BitVec 4 :=
  if fiom then set ||| (set >>> 2) else set

/-- The accesses of the predecessor set before those of the successor set (R184, R328): on one hart in program order
nothing changes (D20). -/
def State.orderSets (s : State) (_pred _succ : BitVec 4) : State := s.order

/-- FENCE (R185, R328): rd, rs1 and fm are ignored. -/
def execFence (_rd _rs1 : Reg) (_fm pred succ : BitVec 4) (s : State) : Result :=
  .next (s.orderSets (widenSet s.fiom pred) (widenSet s.fiom succ)).next

/-- FENCE.I (R329): fetch reads the memory that stores write, so there is nothing to flush. -/
def execFenceI (_rd _rs1 : Reg) (_imm : BitVec 12) (s : State) : Result := .next s.order.next

end Sys2Proof.Machine
end

