-- ==== Sys2Proof/Machine/Hypervisor.lean ====
section
/-! DEFINITION. The hypervisor instructions (43_hypervisor_instructions.md R260-R277). -/

namespace Sys2Proof.Machine

/-- The permission of HLV, HLVX and HSV (R260); without the extension the words are reserved. -/
def State.hvVerdict (s : State) : Verdict :=
  if !s.hasH then .illegal
  else if s.virt then .virtual
  else if s.priv = .u ∧ s.hstatusHU = false then .illegal
  else .allowed

/-- A virtual-machine load or store: its permission, then the access (R260). -/
def hvWith (i : Instr) (s : State) (run : Result) : Result :=
  match s.hvVerdict with
  | .illegal => raiseIllegal i s
  | .virtual => raiseVirtual i s
  | .allowed => run

/-- HLV and HLVX (R260). -/
def hvLoad (i : Instr) (need : Need) (n : Nat) (ext : Word → Word) (rd rs1 : Reg) (s : State) : Result :=
  hvWith i s (s.load (s.guestAccess need n (s.x rs1) (guestForm i)) rd ext)

/-- HSV (R260). -/
def hvStore (i : Instr) (n : Nat) (rs1 rs2 : Reg) (s : State) : Result :=
  hvWith i s (s.store (s.guestAccess .store n (s.x rs1) (guestForm i)) (s.x rs2))

/-- An RV64 instruction of the hypervisor extension. With V=1 its word is judged by HSXLEN: a hypervisor instruction, and so a virtual
instruction, where HS-mode has it, whatever the XLEN of the guest is (R346, R347 case 5); reserved, and so illegal, where HSXLEN is 32
(R230). With V=0 it is as every RV64 word (DEDUCED, R266, R267, R273, R348, notes/assumptions/47.md). -/
def hvRv64Only (i : Instr) (s : State) (run : Result) : Result :=
  if s.virt && decide (s.sxlen = .rv64) then run else rv64Only i s run

/-- HLV.B (R261). -/
def execHlvB (rd rs1 : Reg) (s : State) : Result :=
  hvLoad (.hlvB rd rs1) .load 1 (sextBytes 1) rd rs1 s

/-- HLV.BU (R262). -/
def execHlvBu (rd rs1 : Reg) (s : State) : Result :=
  hvLoad (.hlvBu rd rs1) .load 1 (zextBytes 1) rd rs1 s

/-- HLV.H (R263). -/
def execHlvH (rd rs1 : Reg) (s : State) : Result :=
  hvLoad (.hlvH rd rs1) .load 2 (sextBytes 2) rd rs1 s

/-- HLV.HU (R264). -/
def execHlvHu (rd rs1 : Reg) (s : State) : Result :=
  hvLoad (.hlvHu rd rs1) .load 2 (zextBytes 2) rd rs1 s

/-- HLV.W (R265). -/
def execHlvW (rd rs1 : Reg) (s : State) : Result :=
  hvLoad (.hlvW rd rs1) .load 4 (sextBytes 4) rd rs1 s

/-- HLV.WU (R266). -/
def execHlvWu (rd rs1 : Reg) (s : State) : Result :=
  hvRv64Only (.hlvWu rd rs1) s (hvLoad (.hlvWu rd rs1) .load 4 (zextBytes 4) rd rs1 s)

/-- HLV.D (R267). -/
def execHlvD (rd rs1 : Reg) (s : State) : Result :=
  hvRv64Only (.hlvD rd rs1) s (hvLoad (.hlvD rd rs1) .load 8 (zextBytes 8) rd rs1 s)

/-- HLVX.HU (R268). -/
def execHlvxHu (rd rs1 : Reg) (s : State) : Result :=
  hvLoad (.hlvxHu rd rs1) .execLoad 2 (zextBytes 2) rd rs1 s

/-- HLVX.WU (R269). -/
def execHlvxWu (rd rs1 : Reg) (s : State) : Result :=
  hvLoad (.hlvxWu rd rs1) .execLoad 4 (zextBytes 4) rd rs1 s

/-- HSV.B (R270). -/
def execHsvB (rs1 rs2 : Reg) (s : State) : Result :=
  hvStore (.hsvB rs1 rs2) 1 rs1 rs2 s

/-- HSV.H (R271). -/
def execHsvH (rs1 rs2 : Reg) (s : State) : Result :=
  hvStore (.hsvH rs1 rs2) 2 rs1 rs2 s

/-- HSV.W (R272). -/
def execHsvW (rs1 rs2 : Reg) (s : State) : Result :=
  hvStore (.hsvW rs1 rs2) 4 rs1 rs2 s

/-- HSV.D (R273). -/
def execHsvD (rs1 rs2 : Reg) (s : State) : Result :=
  hvRv64Only (.hsvD rs1 rs2) s (hvStore (.hsvD rs1 rs2) 8 rs1 rs2 s)

/-- The permission of HFENCE.VVMA and HINVAL.VVMA: neither TVM nor VTVM plays a part (R274). -/
def State.hfenceVvmaVerdict (s : State) : Verdict :=
  if !s.hasH then .illegal
  else if s.virt then .virtual
  else if s.priv = .u then .illegal
  else .allowed

/-- The permission of HFENCE.GVMA and HINVAL.GVMA (R275). -/
def State.hfenceGvmaVerdict (s : State) : Verdict :=
  if s.hfenceVvmaVerdict = .allowed ∧ s.priv = .s ∧ s.mstatusTVM = true then .illegal else s.hfenceVvmaVerdict

/-- What HFENCE.VVMA drops: as SFENCE.VMA executed in VS-mode now (R274). -/
def State.hfenceVvma (s : State) (rs1 rs2 : Reg) : State :=
  s.fenceVa .vs s.vmid s.vsxlen s.vc.vsatp (s.fenceAddress s.vsxlen rs1) (s.fenceAsid s.vsxlen rs2)

/-- What HFENCE.GVMA drops: the address operand is a guest physical address shifted right by 2 (R275). With both operands x0 it ends the
keeping of PMP results for virtual machines too (R199). -/
def State.hfenceGvma (s : State) (rs1 rs2 : Reg) : State :=
  (s.fenceGpa (if rs1 = 0#5 then none else some ((zx s.xlen (s.x rs1)).toNat * 4))
    (if rs2 = 0#5 then none else some ((s.x rs2).toNat % 2 ^ (match s.sxlen with | .rv32 => Nat.min s.cfg.vmidLen 7 | .rv64 => s.cfg.vmidLen)))).fencePmp rs1 rs2 true

/-- HFENCE.VVMA (R274). -/
def execHfenceVvma (rs1 rs2 : Reg) (s : State) : Result :=
  fenceWith (.hfenceVvma rs1 rs2) s.hfenceVvmaVerdict (fun t => t.hfenceVvma rs1 rs2) s

/-- HFENCE.GVMA (R275). -/
def execHfenceGvma (rs1 rs2 : Reg) (s : State) : Result :=
  fenceWith (.hfenceGvma rs1 rs2) s.hfenceGvmaVerdict (fun t => t.hfenceGvma rs1 rs2) s

/-- HINVAL.VVMA (R276). -/
def execHinvalVvma (rs1 rs2 : Reg) (s : State) : Result :=
  fenceWith (.hinvalVvma rs1 rs2) (if s.cfg.svinval then s.hfenceVvmaVerdict else .illegal)
    (fun t => t.hfenceVvma rs1 rs2) s

/-- HINVAL.GVMA (R277). -/
def execHinvalGvma (rs1 rs2 : Reg) (s : State) : Result :=
  fenceWith (.hinvalGvma rs1 rs2) (if s.cfg.svinval then s.hfenceGvmaVerdict else .illegal)
    (fun t => t.hfenceGvma rs1 rs2) s

end Sys2Proof.Machine
end

