-- ==== Sys2Proof/Machine/LoadStore.lean ====
section
/-! DEFINITION. Loads and stores (45_base_integer_assumed.md R289-R299). -/

namespace Sys2Proof.Machine

/-- A load: address, effective mode, access, extension (R171). -/
def loadInto (i : Instr) (n : Nat) (ext : Word → Word) (rd rs1 : Reg) (imm : BitVec 12) (s : State) : Result :=
  s.load (s.plainAccess .load n (s.address rs1 imm) (loadForm i)) rd ext

/-- A store: address, effective mode, access (R171). -/
def storeFrom (i : Instr) (n : Nat) (rs1 rs2 : Reg) (imm : BitVec 12) (s : State) : Result :=
  s.store (s.plainAccess .store n (s.address rs1 imm) (storeForm i)) (s.x rs2)

/-- LB (R289). -/
def execLb (rd rs1 : Reg) (imm : BitVec 12) (s : State) : Result :=
  loadInto (.lb rd rs1 imm) 1 (sextBytes 1) rd rs1 imm s

/-- LH (R290). -/
def execLh (rd rs1 : Reg) (imm : BitVec 12) (s : State) : Result :=
  loadInto (.lh rd rs1 imm) 2 (sextBytes 2) rd rs1 imm s

/-- LW (R291). -/
def execLw (rd rs1 : Reg) (imm : BitVec 12) (s : State) : Result :=
  loadInto (.lw rd rs1 imm) 4 (sextBytes 4) rd rs1 imm s

/-- LBU (R292). -/
def execLbu (rd rs1 : Reg) (imm : BitVec 12) (s : State) : Result :=
  loadInto (.lbu rd rs1 imm) 1 (zextBytes 1) rd rs1 imm s

/-- LHU (R293). -/
def execLhu (rd rs1 : Reg) (imm : BitVec 12) (s : State) : Result :=
  loadInto (.lhu rd rs1 imm) 2 (zextBytes 2) rd rs1 imm s

/-- LWU (R294). -/
def execLwu (rd rs1 : Reg) (imm : BitVec 12) (s : State) : Result :=
  rv64Only (.lwu rd rs1 imm) s (loadInto (.lwu rd rs1 imm) 4 (zextBytes 4) rd rs1 imm s)

/-- LD (R295). -/
def execLd (rd rs1 : Reg) (imm : BitVec 12) (s : State) : Result :=
  rv64Only (.ld rd rs1 imm) s (loadInto (.ld rd rs1 imm) 8 (zextBytes 8) rd rs1 imm s)

/-- SB (R296). -/
def execSb (rs1 rs2 : Reg) (imm : BitVec 12) (s : State) : Result :=
  storeFrom (.sb rs1 rs2 imm) 1 rs1 rs2 imm s

/-- SH (R297). -/
def execSh (rs1 rs2 : Reg) (imm : BitVec 12) (s : State) : Result :=
  storeFrom (.sh rs1 rs2 imm) 2 rs1 rs2 imm s

/-- SW (R298). -/
def execSw (rs1 rs2 : Reg) (imm : BitVec 12) (s : State) : Result :=
  storeFrom (.sw rs1 rs2 imm) 4 rs1 rs2 imm s

/-- SD (R299). -/
def execSd (rs1 rs2 : Reg) (imm : BitVec 12) (s : State) : Result :=
  rv64Only (.sd rs1 rs2 imm) s (storeFrom (.sd rs1 rs2 imm) 8 rs1 rs2 imm s)

end Sys2Proof.Machine
end

