-- ==== Sys2Proof/Machine/System.lean ====
section
/-! DEFINITION. Environment call, breakpoint, trap returns and wait for interrupt (40_trap_and_interrupt_instructions.md R232-R238). -/

namespace Sys2Proof.Machine

/-- ECALL (R232): the cause names the mode; the trap value is 0. -/
def execEcall (s : State) : Result :=
  match s.priv, s.virt with
  | .u, _ => raise (.plain .ecallU 0) s
  | .s, false => raise (.plain .ecallS 0) s
  | .s, true => raise (.plain .ecallVS 0) s
  | .m, _ => raise (.plain .ecallM 0) s

/-- EBREAK (R233): the trap value is its own address (R342). -/
def execEbreak (s : State) : Result := raise ⟨.breakpoint, zx s.xlen s.pc, s.virt, 0, 0⟩ s

/-- MRET (R235). -/
def execMret (s : State) : Result :=
  if s.priv = .m then .next (s.returnM.retire s) else raiseIllegal .mret s

/-- SRET (R236). -/
def execSret (s : State) : Result :=
  if s.hasS then
    match s.priv, s.virt with
    | .u, false => raiseIllegal .sret s
    | .u, true => raiseVirtual .sret s
    | .s, false => if s.mstatusTSR then raiseIllegal .sret s else .next (s.returnS.retire s)
    | .s, true => if s.hstatusVTSR then raiseVirtual .sret s else .next (s.returnVS.retire s)
    | .m, _ => .next (s.returnS.retire s)
  else raiseIllegal .sret s

/-- MNRET (R237): reserved without Smrnmi. -/
def execMnret (s : State) : Result :=
  if s.cfg.smrnmi ∧ s.priv = .m then .next (s.returnMN.retire s) else raiseIllegal .mnret s

/-- WFI keeps the hart stalled: the hart stalls in a WFI at all, and no enabled interrupt is pending (R238, D8). -/
def State.stalls (s : State) : Bool := !s.cfg.wfiIsNop && !s.wakes

/-- The wait ends within the bound, as far as it has come: the bound is not 0, and a stall has not yet lasted so many steps (R238,
D7). -/
def State.completesWithin (s : State) : Bool :=
  s.cfg.wfiTimeout != 0 && (!s.stalls || decide (s.waited < s.cfg.wfiTimeout))

/-- WFI where it is permitted: the hart stalls for a step, or goes on behind the WFI (R238). -/
def State.wait (s : State) : State :=
  if s.stalls then { s with waited := s.waited + 1 } else { s.next with waited := 0 }

/-- The exception of a WFI ends its stall. -/
def State.raiseWfi (s : State) (trap : Instr → State → Result) : Result := trap .wfi { s with waited := 0 }

/-- WFI (R238): where it is permitted it is a NOP, or stalls the hart (D8), for as long as the bound allows where one applies; a
stalled hart executes it again. In VU-mode it ends in an exception: under TW the illegal instruction of a wait that misses the bound,
for which it stalls as long; else the virtual instruction. -/
def execWfi (s : State) : Result :=
  match s.priv, s.virt with
  | .m, _ => .next s.wait
  | .s, false => if s.mstatusTW && !s.completesWithin then s.raiseWfi raiseIllegal else .next s.wait
  | .u, false =>
    if (s.mstatusTW || s.hasS) && !s.completesWithin then s.raiseWfi raiseIllegal else .next s.wait
  | .s, true =>
    if s.mstatusTW && !s.completesWithin then s.raiseWfi raiseIllegal
    else if s.hstatusVTW && !s.completesWithin then s.raiseWfi raiseVirtual
    else .next s.wait
  | .u, true =>
    if s.mstatusTW && !s.completesWithin then s.raiseWfi raiseIllegal
    else if s.mstatusTW && s.stalls then .next s.wait
    else s.raiseWfi raiseVirtual

end Sys2Proof.Machine
end

