-- ==== Sys2Proof/Machine/CsrRead.lean ====
section
/-! DEFINITION. What a CSR reads as (41_csr_access.md R246, R252): the view of each register, 64 bits wide. -/

namespace Sys2Proof.Machine

/-- The bits of `mstatus` that exist, SD and the width fields apart (R52). Without F and V, FS and VS can be writable only where
S-mode exists (R65). -/
def State.mstatusMask (s : State) : Word :=
  0x1888 ||| (if s.hasS then 0x580122 else 0) ||| bitAt 18 (s.hasS && s.hasPaging) ||| bitAt 17 s.hasU ||| bitAt 21 s.hasU
    ||| bitAt 6 s.hasU ||| bitAt 36 s.hasS ||| bitAt 37 true ||| (if s.hasH then 0xC000000000 else 0)
    ||| (if s.hasS && s.cfg.fsWritable then 0x6000 else 0) ||| (if s.hasS && s.cfg.vsWritable then 0x600 else 0)

/-- SXL and UXL, on RV64 only (R56). -/
def State.xlMask (s : State) : Word :=
  match s.cfg.mxlen with
  | .rv32 => 0
  | .rv64 => (if s.hasS then 0xC00000000 else 0) ||| (if s.hasU then 0x300000000 else 0)

/-- The fields of `mstatus` that `sstatus` shows, SD apart (R87). -/
def sstatusMask (xl : Xlen) : Word :=
  0xDE762 ||| (match xl with | .rv32 => 0 | .rv64 => 0x300000000)

/-- `mstatus` with `mstatush` above it on RV32 (R52). -/
def State.viewMstatus (s : State) : Word :=
  withSD s.cfg.mxlen (s.mc.mstatus &&& (s.mstatusMask ||| s.xlMask))

/-- `sstatus` at HS level (R87). -/
def State.viewSstatus (s : State) : Word :=
  withSD s.sxlen (s.mc.mstatus &&& (s.mstatusMask ||| s.xlMask) &&& sstatusMask s.sxlen)

/-- `vsstatus` (R159): its own register. -/
def State.viewVsstatus (s : State) : Word := withSD s.vsxlen (s.vc.vsstatus &&& sstatusMask s.vsxlen)

/-- `misa` (R44). -/
def State.viewMisa (s : State) : Word :=
  if s.cfg.misaImpl then
    (match s.cfg.mxlen with | .rv32 => 1#64 <<< 30 | .rv64 => 2#64 <<< 62) ||| s.mc.misa.setWidth 64
  else 0

/-- The supervisor's subset of an interrupt register: what `mideleg` delegates, of the SXLEN bits `sip` and `sie` have (R73,
R91). -/
def State.sSubset (s : State) (w : Word) : Word := zx s.sxlen (w &&& s.mideleg &&& s.sInts)

/-- VS-mode's subset, of the VSXLEN bits `vsip` and `vsie` have: what `hideleg` delegates, VS-level interrupts renumbered; platform
interrupts keep their numbers (R147, R160; the last is a DESIGN CHOICE, notes/assumptions/39.md). -/
def State.vsSubset (s : State) (w : Word) : Word :=
  zx s.vsxlen (((w &&& s.hideleg &&& 0x444) >>> 1) ||| (w &&& s.hideleg &&& s.sInts))

/-- The entries of a `pmpcfg` register from entry j on, `n` of them (R190). -/
def State.viewPmpcfg (s : State) (j : Nat) : Nat → Word
  | 0 => 0
  | n + 1 => (s.pmpcfg j).setWidth 64 ||| (s.viewPmpcfg (j + 1) n <<< 8)

/-- mhpmcounter i: read-only 0 where it is not implemented (R75). -/
def State.hpmcounter (s : State) (i : Fin 32) : Word := if s.hpmExists i then s.cnt.hpmcounter[i] else 0

/-- `scountovf` from X up, by mode (R122). -/
def State.viewScountovf (s : State) : Word :=
  (List.finRange 32).foldl
    (fun w i =>
      w ||| bitAt i.val (bit (s.hpmevent i) 63 && (s.priv == .m || s.mcounteren.getLsbD i.val)
        && (!s.virt || s.hcounteren.getLsbD i.val)))
    0

/-- `time` (R252): with V=1 the guest's. -/
def State.viewTime (s : State) : Word := if s.virt then s.guestTime else s.mtime

/-- `mnstatus` (R134). -/
def State.viewMnstatus (s : State) : Word := s.mc.mnstatus &&& (0x1808 ||| bitAt 7 s.hasH)

/-- The machine register behind a cell of the supervisor's window; bit 62 of the selectors is hidden (R124, R127). -/
def State.viewCell (s : State) (i : Fin 32) (selector : Bool) : Word :=
  if selector then
    setBit
      (if i = 0 then s.counterFilter s.cnt.mcyclecfg
       else if i = 2 then s.counterFilter s.cnt.minstretcfg
       else s.hpmevent i) 62 false
  else if i = 0 then s.cnt.mcycle
  else if i = 2 then s.cnt.minstret
  else s.hpmcounter i

/-- A cell (select value, alias k) of the supervisor's window (R124): 4 and 5 are the high halves. -/
def State.viewWindow (s : State) (sel : Word) (k : Nat) : Word :=
  match selectedCounter sel with
  | none => 0
  | some i =>
    let w := s.viewCell i (k == 2 || k == 5)
    if k = 4 ∨ k = 5 then w >>> 32 else w

/-- The view of each register (R246). -/
def State.csrView (s : State) : CsrReg → Word
  | .mvendorid => s.cfg.mvendorid.setWidth 64
  | .marchid => zx s.cfg.mxlen s.cfg.marchid
  | .mimpid => zx s.cfg.mxlen s.cfg.mimpid
  | .mhartid => zx s.cfg.mxlen s.cfg.mhartid
  | .mconfigptr => zx s.cfg.mxlen s.cfg.mconfigptr
  | .mstatus => s.viewMstatus
  | .misa => s.viewMisa
  | .medeleg => s.medeleg
  | .mideleg => s.mideleg
  | .mie => s.mie
  | .mtvec => s.mc.mtvec
  | .mcounteren => s.mcounteren.setWidth 64
  | .menvcfg => s.menvcfg
  | .mstateen n => s.mstateen n
  | .mcountinhibit => s.mcountinhibit.setWidth 64
  | .mcyclecfg => s.counterFilter s.cnt.mcyclecfg
  | .minstretcfg => s.counterFilter s.cnt.minstretcfg
  | .mhpmevent i => s.hpmevent i
  | .mscratch => s.mc.mscratch
  | .mepc => align4 s.mc.mepc
  | .mcause => s.mc.mcause
  | .mtval => if s.cfg.hasMtval then s.mc.mtval else 0
  | .mip => s.mip
  | .mtinst => s.mc.mtinst
  | .mtval2 => s.mc.mtval2
  | .miselect => s.mc.miselect
  | .mireg _ => 0
  | .pmpcfg k => zx s.cfg.mxlen (s.viewPmpcfg (4 * k) 8)
  | .pmpaddr i => s.pmpaddr i
  | .mseccfg => s.mc.mseccfg &&& 7
  | .mnscratch => s.mc.mnscratch
  | .mnepc => align4 s.mc.mnepc
  | .mncause => s.mc.mncause
  | .mnstatus => s.viewMnstatus
  | .mcycle | .cycle => s.cnt.mcycle
  | .minstret | .instret => s.cnt.minstret
  | .mhpmcounter i | .hpmcounter i => s.hpmcounter i
  | .sstatus => s.viewSstatus
  | .sie => s.sSubset s.mie
  | .stvec => s.sc.stvec
  | .scounteren => s.scounteren.setWidth 64
  | .senvcfg => s.senvcfg
  | .sstateen n => (s.sstateen n).setWidth 64
  | .scountinhibit => (s.mcountinhibit &&& s.mcounteren).setWidth 64
  | .sscratch => s.sc.sscratch
  | .sepc => align4 s.sc.sepc
  | .scause => s.sc.scause
  | .stval => s.sc.stval
  | .sip => s.sSubset s.mip
  | .stimecmp => s.sc.stimecmp
  | .siselect => s.sc.siselect
  | .sireg k => s.viewWindow s.sc.siselect k
  | .satp => s.sc.satp
  | .scountovf => s.viewScountovf
  | .hstatus => zx s.sxlen s.hc.hstatus
  | .hedeleg => s.hedeleg
  | .hideleg => s.hideleg
  | .hie => s.mie &&& s.hInts
  | .htimedelta => s.hc.htimedelta
  | .hcounteren => s.hcounteren.setWidth 64
  | .hgeie => s.hgeie
  | .henvcfg => s.henvcfg
  | .hstateen n => s.hstateen n
  | .htval => s.hc.htval
  | .hip => s.mip &&& s.hInts
  | .hvip => s.hc.hvip &&& 0x444
  | .htinst => s.hc.htinst
  | .hgatp => s.hc.hgatp
  | .hgeip => s.hgeip
  | .vsstatus => s.viewVsstatus
  | .vsie => s.vsSubset s.mie
  | .vstvec => s.vc.vstvec
  | .vsscratch => s.vc.vsscratch
  | .vsepc => align4 s.vc.vsepc
  | .vscause => s.vc.vscause
  | .vstval => s.vc.vstval
  | .vsip => s.vsSubset s.mip
  | .vstimecmp => s.vc.vstimecmp
  | .vsiselect => s.vc.vsiselect
  | .vsireg _ => 0
  | .vsatp => s.vc.vsatp
  | .time => s.viewTime

/-- csr_read (R246): the low XLEN bits of the view, or of its high half, zero-extended (R37). -/
def State.csrRead (s : State) (c : CsrRef) : Word :=
  let w := s.csrView (csrTarget s.virt c.reg)
  zx s.xlen (if c.high then w >>> 32 else w)

/-- The value CSRRS and CSRRC modify: `mip.SEIP` without the platform's signal (R71, R246). -/
def State.csrRmwOld (s : State) (c : CsrRef) : Word :=
  match c.reg with
  | .mip => zx s.xlen (setBit s.mip 9 (s.hasS && bit s.mc.mip 9))
  | _ => s.csrRead c

end Sys2Proof.Machine
end

