-- ==== Sys2Proof/Machine/CsrWrite.lean ====
section
/-! DEFINITION. What writing a CSR does (41_csr_access.md R246): the legal values of its fields (10_state.md R31-R33), and
what a write changes elsewhere (R34, R36). An illegal value written to a WARL field leaves the field as it was
(notes/assumptions/14.md). -/

namespace Sys2Proof.Machine

/-! ### Legal values -/

/-- A trap vector with the legal values `t`: MODE 2 and 3 leave MODE as it was; a value that would be Vectored with a BASE not so
aligned leaves the register as it was (R67, R90, D6, notes/assumptions/19.md). -/
def legalTvec (t : TvecLegal) (xl : Xlen) (old w : Word) : Word :=
  let v := zx xl (t.fill (align4 w ||| ((if bit w 1 then old else w) &&& 1)))
  if t.aligned v then v else old

/-- A cause register: the codes 0 to 31 and the platform's interrupts are legal; another code leaves a value that is
open (WLRL, R32, R81, R96). -/
def State.legalCause (s : State) (xl : Xlen) (old w : Word) : Word :=
  let top := xl.bits - 1
  let code := (setBit (zx xl w) top false).toNat
  if code < 32 || (bit w top && s.hasPlatformInt code) then zx xl w
  else setBit (zx xl (Config.wlrlCause w old)) top (bit w top)

/-- The supported values of `satp.MODE` and `vsatp.MODE` (R101). -/
def State.satpModeOk (s : State) (xl : Xlen) (w : Word) : Bool :=
  match xl with
  | .rv32 => !bit w 31 || s.cfg.sv32
  | .rv64 =>
    match field w 60 4 with
    | 0#4 => true
    | 8#4 => s.cfg.sv39
    | 9#4 => s.cfg.sv48
    | 10#4 => s.cfg.sv57
    | _ => false

/-- The bits of `satp` below MODE that exist: ASIDLEN bits of ASID, and PPN, all of it whatever physical address width is
implemented (R101, R102; the last is a DESIGN CHOICE, notes/assumptions/42.md). -/
def State.satpRest (s : State) (xl : Xlen) : Word :=
  match xl with
  | .rv32 => 0x3FFFFF ||| BitVec.ofNat 64 ((2 ^ Nat.min s.cfg.asidLen 9 - 1) * 2 ^ 22)
  | .rv64 => 0xFFFFFFFFFFF ||| BitVec.ofNat 64 ((2 ^ Nat.min s.cfg.asidLen 16 - 1) * 2 ^ 44)

/-- The MODE bits of an address-translation register. -/
def modeBits : Xlen → Word
  | .rv32 => 0x80000000
  | .rv64 => 0xF000000000000000

/-- `satp` and `vsatp`: an unsupported MODE drops the write whole; Bare with other bits set leaves them open (R102). -/
def State.legalSatp (s : State) (xl : Xlen) (old w : Word) : Word :=
  let w := zx xl w
  if s.satpModeOk xl w then
    if w &&& modeBits xl = 0 ∧ w ≠ 0 then Config.satpBareRest w &&& s.satpRest xl
    else w &&& (modeBits xl ||| s.satpRest xl)
  else old

/-- The supported values of `hgatp.MODE` (R158). -/
def State.hgatpModeOk (s : State) (w : Word) : Bool :=
  match s.sxlen with
  | .rv32 => !bit w 31 || s.cfg.sv32x4
  | .rv64 =>
    match field w 60 4 with
    | 0#4 => true
    | 8#4 => s.cfg.sv39x4
    | 9#4 => s.cfg.sv48x4
    | 10#4 => s.cfg.sv57x4
    | _ => false

/-- The bits of `hgatp` below MODE that exist: VMIDLEN bits of VMID, and PPN but its two low bits (R158), whatever physical
address width is implemented (DESIGN CHOICE, notes/assumptions/42.md). -/
def State.hgatpRest (s : State) : Word :=
  match s.sxlen with
  | .rv32 => 0x3FFFFC ||| BitVec.ofNat 64 ((2 ^ Nat.min s.cfg.vmidLen 7 - 1) * 2 ^ 22)
  | .rv64 => 0xFFFFFFFFFFC ||| BitVec.ofNat 64 ((2 ^ Nat.min s.cfg.vmidLen 14 - 1) * 2 ^ 44)

/-- `hgatp`: an unsupported MODE leaves MODE alone, VMID and PPN are written (R158, D18). -/
def State.legalHgatp (s : State) (old w : Word) : Word :=
  (w &&& s.hgatpRest) ||| ((if s.hgatpModeOk w then w else old) &&& modeBits s.sxlen)

/-- The code of a width: 1 is 32, 2 is 64 (R44). -/
def xlenCode : Xlen → BitVec 2
  | .rv32 => 1
  | .rv64 => 2

/-- A two-bit width field: 1 and, where allowed, 2 are legal (R44, R56). DESIGN CHOICE: each of SXL, UXL, VSXL and vsstatus.UXL is fixed
or holds both widths up to the widest, where D4 allows any WARL subset (notes/assumptions/58.md). -/
def legalXl (writable : Bool) (widest : Xlen) (old w : BitVec 2) : BitVec 2 :=
  let ok (f : BitVec 2) : Bool := f == 1#2 || (f == 2#2 && decide (widest = .rv64))
  if writable && ok w then w else if ok old then old else 1#2

/-- xPP of M-mode holds implemented modes only (R54). -/
def State.legalPP (s : State) (old w : BitVec 2) : BitVec 2 :=
  if w = 2#2 then old else if s.supports (Priv.ofCode w) then w else old

/-! ### Status registers (R52, R87, R139, R159) -/

/-- The fields of `mstatus` a write can set to any value (R52, R61). -/
def State.mstatusWritable (s : State) : Word :=
  (s.mstatusMask &&& ~~~(0x3000001840 : Word)) ||| bitAt 6 (s.hasU && s.cfg.ube == .writable)
    ||| bitAt 36 (s.hasS && s.cfg.sbe == .writable) ||| bitAt 37 (s.cfg.mbe == .writable)

/-- SXL after a write of w, the register being `old` before (R56). -/
def State.newSxl (s : State) (old w : Word) : BitVec 2 :=
  if s.hasS then legalXl s.cfg.sxlWritable .rv64 (field old 34 2) (field w 34 2) else 0

/-- UXL after a write of w: never wider than SXL; read-only it is SXLEN, or MXLEN without S-mode (R56, R89). -/
def State.newUxl (s : State) (old w : Word) : BitVec 2 :=
  let widest := if s.hasS then xlenOf (s.newSxl old w) else .rv64
  if !s.hasU then 0
  else if s.cfg.uxlWritable then legalXl true widest (field old 32 2) (field w 32 2)
  else xlenCode widest

/-- `mstatus` with the fields in `mask` written (R52). -/
def State.legalMstatus (s : State) (mask w : Word) : Word :=
  let old := s.mc.mstatus
  let w := merge old w mask
  let r := merge old w s.mstatusWritable
  let r := setField r 11 (s.legalPP (field old 11 2) (field w 11 2))
  match s.cfg.mxlen with
  | .rv32 => r
  | .rv64 => setField (setField r 34 (s.newSxl old w)) 32 (s.newUxl old w)

/-- `hstatus` with w written (R139-R145). -/
def State.legalHstatus (s : State) (w : Word) : Word :=
  let old := s.hc.hstatus
  let r := merge old w (0x7003C0 ||| bitAt 5 (s.cfg.vsbe == .writable))
  let g := field w 12 6
  let r := setField r 12 (if g.toNat ≤ s.cfg.geilen then g else Config.wlrlVgein g (field old 12 6))
  match s.sxlen with
  | .rv32 => r
  | .rv64 => setField r 32 (legalXl s.cfg.vsxlWritable .rv64 (field old 32 2) (field w 32 2))

/-- `vsstatus` with w written (R159). SUM is writable also where `vsatp.MODE` is read-only 0, of which R159 says nothing (DESIGN
CHOICE, notes/assumptions/51.md). -/
def State.legalVsstatus (s : State) (w : Word) : Word :=
  let old := s.vc.vsstatus
  let r := merge old w
    (0xC0122 ||| bitAt 6 (s.cfg.vube == .writable) ||| (if s.cfg.fsWritable then 0x6000 else 0)
      ||| (if s.cfg.vsWritable then 0x600 else 0))
  match s.vsxlen with
  | .rv32 => r
  | .rv64 => setField r 32 (legalXl s.cfg.vuxlWritable .rv64 (field old 32 2) (field w 32 2))

/-! ### Width modulation (R36, R140, R159) -/

/-- `satp` or `vsatp` in the layout of 32 bits: ASID and PPN take the bits at their places, MODE the bit at its own where Sv32 is
supported, else 0 (R36, notes/assumptions/44.md). -/
def State.narrowSatp (s : State) (w : Word) : Word :=
  zx .rv32 w &&& (s.satpRest .rv32 ||| if s.cfg.sv32 then modeBits .rv32 else 0)

/-- `hgatp` in the layout of 32 bits, the same way (R36). -/
def State.narrowHgatp (s : State) (w : Word) : Word :=
  zx .rv32 w &&& (s.hgatpRest ||| if s.cfg.sv32x4 then modeBits .rv32 else 0)

/-- The S-level and HS-level registers narrowed to 32 bits (R36). -/
def State.narrowS (s : State) : State :=
  let n := zx .rv32
  { s with
    sc := { s.sc with
      stvec := n s.sc.stvec, senvcfg := n s.sc.senvcfg, sscratch := n s.sc.sscratch, sepc := n s.sc.sepc
      scause := n s.sc.scause, stval := n s.sc.stval, satp := s.narrowSatp s.sc.satp }
    hc := { s.hc with
      hstatus := n s.hc.hstatus, hideleg := n s.hc.hideleg, hvip := n s.hc.hvip, hgeie := n s.hc.hgeie
      htval := n s.hc.htval, htinst := n s.hc.htinst, hgatp := s.narrowHgatp s.hc.hgatp } }

/-- The VS-level registers narrowed to 32 bits (R36). -/
def State.narrowVS (s : State) : State :=
  let n := zx .rv32
  { s with
    vc := { s.vc with
      vsstatus := n s.vc.vsstatus, vstvec := n s.vc.vstvec, vsscratch := n s.vc.vsscratch, vsepc := n s.vc.vsepc
      vscause := n s.vc.vscause, vstval := n s.vc.vstval, vsatp := s.narrowSatp s.vc.vsatp } }

/-- The bits above bit 31 that a trap vector has read-only (R36, R67). -/
def upperFixed (t : TvecLegal) : Word := t.fill 0 &&& 0xFFFFFFFF00000000

/-- The S-level registers widened to 64 bits: zeros come in above, but for read-only bits (R36), and VSXL is at its widest
(R140). -/
def State.widenS (s : State) : State :=
  { s with
    sc := { s.sc with stvec := s.sc.stvec ||| upperFixed s.cfg.stvecLegal }
    hc := { s.hc with hstatus := if s.cfg.hasH then setField s.hc.hstatus 32 2#2 else s.hc.hstatus } }

/-- The VS-level registers widened to 64 bits: UXL is at its widest (R36, R159). -/
def State.widenVS (s : State) : State :=
  { s with vc := { s.vc with
      vsstatus := setField s.vc.vsstatus 32 2#2, vstvec := s.vc.vstvec ||| upperFixed s.cfg.vstvecLegal } }

/-- The change of VSXLEN between two states (R36, R159), of a hart that has the hypervisor extension, also while `misa.H` is 0: its
registers have their widths when H is set again. -/
def State.modulateVS (before after : State) : State :=
  match before.cfg.hasH, before.vsxlen, after.vsxlen with
  | true, .rv64, .rv32 => after.narrowVS
  | true, .rv32, .rv64 => after.widenVS
  | _, _, _ => after

/-- The registers of S, HS and VS level in the widths that these have now, with VSXL and UXL at their widest, whatever widths they were
left in: as they stand before they take open values, when `misa` enables S or H again (R36, R140, R159). -/
def State.fitWidths (s : State) : State :=
  match s.sxlen with
  | .rv32 => s.narrowS.narrowVS
  | .rv64 => s.widenS.widenVS

/-- SUM where it becomes writable, `satp` having a paged MODE at the new SXLEN and none at the old (R34, R60). -/
def State.openSum (before after : State) : State :=
  if before.hasPaging || !after.hasPaging then after
  else { after with mc := { after.mc with
      mstatus := merge after.mc.mstatus (Config.freeWord before.draws 0x300) (bitAt 18 true) } }

/-- The change of SXLEN between two states; then of VSXLEN (R36, R140). -/
def State.modulate (before after : State) : State :=
  match before.sxlen, after.sxlen with
  | .rv64, .rv32 => before.modulateVS (before.openSum after.narrowS)
  | .rv32, .rv64 => before.modulateVS (before.openSum after.widenS)
  | _, _ => after

/-! ### PMP (R189-R194, R196, R198) -/

/-- The configuration field of entry i is locked (R194, R196). -/
def State.pmpLocked (s : State) (i : Nat) : Bool := (s.pmpcfg i).getLsbD 7 && !s.mseccfgRLB

/-- Permissions with which M-mode could execute: L=1 with X=1 and W=0, or L=1 with R=0 and W=1 (R198). -/
def machineExecutes (c : BitVec 8) : Bool :=
  c.getLsbD 7 && ((c.getLsbD 2 && !c.getLsbD 1) || (!c.getLsbD 0 && c.getLsbD 1))

/-- With the configuration c entry i would be a rule: it would encode a valid region (R196). -/
def State.pmpIsRule (s : State) (i : Nat) (c : BitVec 8) : Bool :=
  match c.extractLsb' 3 2 with
  | 0#2 => false
  | 1#2 => decide (s.pmpBase i < (s.pmpStored i).toNat / 2 ^ s.cfg.pmpG * 2 ^ s.cfg.pmpG)
  | _ => true

/-- The address mode after a write of the configuration w over `old`: NA4 exists at the finest granularity only, and elsewhere
leaves the mode as it was (PRESUMED, R193, notes/assumptions/17.md). -/
def State.legalPmpMode (s : State) (old w : BitVec 8) : BitVec 8 :=
  if s.cfg.pmpG != 0 && w.extractLsb' 3 2 == 2#2 then (w &&& 0xE7#8) ||| (old &&& 0x18#8) else w

/-- A configuration field after a write (R192, R194, R198): R=0 with W=1 leaves R, W, X as they were unless MML is 1. Every field of an
entry that exists is writable: harts on which some field of it is read-only 0, as R189 allows of each, are left out (DESIGN CHOICE,
notes/assumptions/56.md). -/
def State.legalPmpcfg (s : State) (i : Nat) (w : BitVec 8) : BitVec 8 :=
  let old := s.pmpcfg i
  let w := s.legalPmpMode old w
  if s.pmpLocked i then old
  else if s.mseccfgMML && !s.mseccfgRLB && machineExecutes w && s.pmpIsRule i w then old
  else if !s.mseccfgMML && !w.getLsbD 0 && w.getLsbD 1 then (w &&& 0x98#8) ||| (old &&& 0x07#8)
  else w &&& 0x9F#8

/-- Entries from j on take the bytes of w, `n` of them (R190). -/
def State.writePmpcfg (s : State) (j : Nat) (w : Word) : Nat → State
  | 0 => s
  | n + 1 =>
    let s' :=
      if h : j < 64 then
        if j < s.cfg.pmpCount then
          { s with mc := { s.mc with pmpcfg := s.mc.pmpcfg.set j (s.legalPmpcfg j (w.setWidth 8)) } }
        else s
      else s
    s'.writePmpcfg (j + 1) (w >>> 8) n

/-- The address register of entry i is locked: by itself, or by a locked TOR entry above it (R194). -/
def State.pmpaddrLocked (s : State) (i : Nat) : Bool :=
  s.pmpLocked i || (s.pmpLocked (i + 1) && (s.pmpcfg (i + 1)).extractLsb' 3 2 == 1#2)

/-- The bits of a `pmpaddr` register that exist: physical address bits from 2 up, of those implemented (R168, R191). -/
def State.pmpaddrMask (s : State) : Word :=
  (match s.cfg.mxlen with | .rv32 => 0xFFFFFFFF | .rv64 => 0x3FFFFFFFFFFFFF) &&& BitVec.ofNat 64 (2 ^ (s.cfg.paBits - 2) - 1)

/-- A `pmpaddr` register after a write (R191, R194): all of an entry that exists is writable (DESIGN CHOICE, R189,
notes/assumptions/56.md). -/
def State.writePmpaddr (s : State) (i : Nat) (w : Word) : State :=
  if h : i < 64 then
    if decide (i < s.cfg.pmpCount) && !s.pmpaddrLocked i then
      { s with mc := { s.mc with
          pmpaddr := s.mc.pmpaddr.set i (w &&& s.pmpaddrMask) } }
    else s
  else s

/-- Some entry is locked, disabled ones included (R196). -/
def State.anyPmpLocked (s : State) : Bool := (List.range 64).any fun i => (s.pmpcfg i).getLsbD 7

/-- `mseccfg` after a write: MML and MMWP are sticky; RLB stays 0 while an entry is locked (R86, R196). With Smepmp RLB is writable on
every hart, where R196 lets it be hardwired to 0 (DESIGN CHOICE, notes/assumptions/53.md). -/
def State.legalMseccfg (s : State) (w : Word) : Word :=
  let old := s.mc.mseccfg &&& 7
  (old &&& 3) ||| (w &&& 3) ||| bitAt 2 (bit w 2 && (bit old 2 || !s.anyPmpLocked))

/-- The configuration field of entry i where a write of `mseccfg` sets MML: R, W and X get another set of legal values, so those
of an entry that is not locked take open ones, legal now whichever they are (R34, R197); a locked entry stays as it is until
the hart is reset (R194). -/
def State.freePmpcfg (s : State) (i : Nat) : BitVec 8 :=
  let old := s.pmpcfg i
  if s.pmpLocked i || !decide (i < s.cfg.pmpCount) then old
  else (old &&& 0xF8#8) ||| ((Config.freeWord s.draws (0x3A0 + i)).setWidth 8 &&& 0x07#8)

/-- `mseccfg` written. It acts at once, also on the configuration fields: R356 names writes of `pmpcfg` and `pmpaddr` alone (DEDUCED,
notes/assumptions/57.md). RLB cannot rise while an entry is locked (R196), so it changes no field's legal values. -/
def State.writeMseccfg (s : State) (w : Word) : State :=
  let t : State := { s with mc := { s.mc with mseccfg := s.legalMseccfg w } }
  if t.mseccfgMML && !s.mseccfgMML then
    { t with mc := { t.mc with pmpcfg := Vector.ofFn fun i : Fin 64 => s.freePmpcfg i } }
  else t

/-! ### Interrupt registers (R70, R71, R91, R147-R149, R160) -/

/-- `mie` with the bits in `mask` written. -/
def State.writeMie (s : State) (mask w : Word) : State :=
  { s with mc := { s.mc with mie := merge s.mc.mie w (mask &&& s.mieMask) } }

/-- The writable bits of `mip` that stand in its own storage (R71). The bits of platform interrupts, 16 and up, are the platform's signals
and read-only on every hart, though R70 and D14 let them be writable (DESIGN CHOICE, notes/assumptions/39.md). -/
def State.mipWritable (s : State) : Word :=
  (if s.hasS then 0x202 else 0) ||| bitAt 5 (s.hasS && !s.menvcfgSTCE) ||| bitAt 13 s.cfg.sscofpmf

/-- `mip` with the bits in `mask` written; VSSIP stands in `hvip` (R71, R150). -/
def State.writeMip (s : State) (mask w : Word) : State :=
  { s with
    mc := { s.mc with mip := merge s.mc.mip w (mask &&& s.mipWritable) }
    hc := { s.hc with hvip := merge s.hc.hvip w (mask &&& bitAt 2 s.hasH) } }

/-- What `sip` can write: SSIP and LCOFIP where delegated (R91). -/
def State.sipWritable (s : State) : Word := s.sSubset 0x2002

/-- VS-level numbering back to HS-level numbering (R160). -/
def State.unVs (s : State) (w : Word) : Word := ((w <<< 1) &&& 0x444) ||| (w &&& s.sInts)

/-- The bits of an interrupt register `vsip` and `vsie`, VSXLEN bits wide, reach (R160). -/
def State.vsReach (s : State) : Word := zx s.vsxlen (s.hideleg &&& (0x444 ||| s.sInts))

/-! ### Free values of fields that become writable (R34) -/

/-- `menvcfg` written: bits of `henvcfg` that become writable take open values (R34, R85), and so does the software bit of
`mip.STIP` when it becomes writable, that is when STCE falls (R34, R99). -/
def State.writeMenvcfg (s : State) (w : Word) : State :=
  let t : State := { s with mc := { s.mc with menvcfg := merge s.mc.menvcfg w s.menvcfgWritable } }
  let rise := t.menvcfg &&& ~~~s.menvcfg &&& 0xE000000000000000
  { t with
    hc := { t.hc with henvcfg := merge t.hc.henvcfg (Config.freeWord s.draws 0x60A) rise }
    mc := { t.mc with
      mip := merge t.mc.mip (Config.freeWord s.draws 0x344) (bitAt 5 (s.menvcfgSTCE && !t.menvcfgSTCE)) } }

/-- `mideleg` written: bits of `hideleg` that become writable take open values (R34, R166). -/
def State.writeMideleg (s : State) (w : Word) : State :=
  let t : State := { s with mc := { s.mc with mideleg := merge s.mc.mideleg w s.midelegWritable } }
  let rise := t.hidelegWritable &&& ~~~s.hidelegWritable
  { t with hc := { t.hc with hideleg := merge t.hc.hideleg (Config.freeWord s.draws 0x603) rise } }

/-! ### Counters (R74, R75, R124, R127) -/

/-- A select register holds the values up to `max`; another value leaves it (R112-R114). -/
def legalSelect (max : Nat) (old w : Word) : Word := if w.toNat ≤ max then w else old

/-- mhpmcounter i written: all 64 bits of one that exists are implemented (R75; DESIGN CHOICE, notes/assumptions/41.md). -/
def State.writeHpmcounter (s : State) (i : Fin 32) (w : Word) : State :=
  if s.hpmExists i then { s with cnt := { s.cnt with hpmcounter := s.cnt.hpmcounter.set i w } } else s

/-- mhpmevent i with the bits in `mask` written (R75, R120). -/
def State.writeHpmevent (s : State) (i : Fin 32) (mask w : Word) : State :=
  if s.hpmExists i then
    { s with cnt := { s.cnt with
        hpmevent := s.cnt.hpmevent.set i (merge s.cnt.hpmevent[i] w (s.hpmeventWritable &&& mask)) } }
  else s

/-- The machine register behind a cell of the supervisor's window written; bit 62 of a selector stays (R124, R127). -/
def State.writeCell (s : State) (i : Fin 32) (selector : Bool) (w : Word) : State :=
  if selector then
    if i = 0 then
      { s with cnt := { s.cnt with mcyclecfg := merge s.cnt.mcyclecfg w (s.filterMask &&& ~~~(1#64 <<< 62)) } }
    else if i = 2 then
      { s with cnt := { s.cnt with minstretcfg := merge s.cnt.minstretcfg w (s.filterMask &&& ~~~(1#64 <<< 62)) } }
    else s.writeHpmevent i (~~~(1#64 <<< 62)) w
  else if i = 0 then { s with cnt := { s.cnt with mcycle := w } }
  else if i = 2 then { s with cnt := { s.cnt with minstret := w } }
  else s.writeHpmcounter i w

/-- A cell written through alias k: the low XLEN bits of the register, or its high half (R124). -/
def State.writeWindow (s : State) (sel : Word) (k : Nat) (v : Word) : State :=
  match selectedCounter sel with
  | none => s
  | some i =>
    let old := s.viewCell i (k == 2 || k == 5)
    s.writeCell i (k == 2 || k == 5) (if k = 4 ∨ k = 5 then writeHigh old v else writeLow s.xlen old v)

/-! ### The write of each register (R246) -/

/-- The register takes w, its whole new value before legalisation; `misa` and the windows apart. `mepc`, `sepc`, `vsepc` and
`mnepc` convert no address to another: each holds what is written but for bits 1:0 (R80, R95, R132; DESIGN CHOICE,
notes/assumptions/40.md). `htval`, `mtval2`, `htinst` and `mtinst`, `mtval` where it is not read-only 0, and `stval` and `vstval`, also
where no exception informs, hold every value written, where R156, R157, R82, R97 and R161 ask for fewer (DESIGN CHOICE,
notes/assumptions/50.md). Bits 16 and up of `hvip` are read-only 0, also with platform interrupts (DESIGN CHOICE, R148,
notes/assumptions/39.md). -/
def State.csrSet (s : State) (r : CsrReg) (w : Word) : State :=
  match r with
  | .mstatus =>
    s.modulate { s with mc := { s.mc with mstatus := s.legalMstatus (BitVec.allOnes 64) w } }
  | .sstatus =>
    { s with mc := { s.mc with mstatus := s.legalMstatus (sstatusMask s.sxlen) w } }
  | .medeleg => { s with mc := { s.mc with medeleg := merge s.mc.medeleg w s.cfg.medelegMask } }
  | .mideleg => s.writeMideleg w
  | .mie => s.writeMie (BitVec.allOnes 64) w
  | .mtvec => { s with mc := { s.mc with mtvec := legalTvec s.cfg.mtvecLegal s.cfg.mxlen s.mc.mtvec w } }
  | .mcounteren => { s with mc := { s.mc with mcounteren := w.setWidth 32 &&& s.cfg.mcounterenMask } }
  | .menvcfg => s.writeMenvcfg w
  | .mstateen n =>
    { s with mc := { s.mc with mstateen := s.mc.mstateen.set n (merge s.mc.mstateen[n] w (s.mstateenWritable n)) } }
  | .mcountinhibit => { s with mc := { s.mc with mcountinhibit := w.setWidth 32 &&& s.cfg.mcountinhibitMask } }
  | .mcyclecfg => { s with cnt := { s.cnt with mcyclecfg := merge s.cnt.mcyclecfg w s.filterMask } }
  | .minstretcfg => { s with cnt := { s.cnt with minstretcfg := merge s.cnt.minstretcfg w s.filterMask } }
  | .mhpmevent i => s.writeHpmevent i (BitVec.allOnes 64) w
  | .mscratch => { s with mc := { s.mc with mscratch := zx s.cfg.mxlen w } }
  | .mepc => { s with mc := { s.mc with mepc := zx s.cfg.mxlen (align4 w) } }
  | .mcause => { s with mc := { s.mc with mcause := s.legalCause s.cfg.mxlen s.mc.mcause w } }
  | .mtval => { s with mc := { s.mc with mtval := if s.cfg.hasMtval then zx s.cfg.mxlen w else s.mc.mtval } }
  | .mip => s.writeMip (BitVec.allOnes 64) w
  | .mtinst => { s with mc := { s.mc with mtinst := zx s.cfg.mxlen w } }
  | .mtval2 => { s with mc := { s.mc with mtval2 := zx s.cfg.mxlen w } }
  | .miselect => { s with mc := { s.mc with miselect := legalSelect 0xFFF s.mc.miselect w } }
  | .pmpcfg k => s.keepPmp.writePmpcfg (4 * k) w (match s.cfg.mxlen with | .rv32 => 4 | .rv64 => 8)
  | .pmpaddr i => s.keepPmp.writePmpaddr i w
  | .mseccfg => s.writeMseccfg w
  | .mnscratch => { s with mc := { s.mc with mnscratch := zx s.cfg.mxlen w } }
  | .mnepc => { s with mc := { s.mc with mnepc := zx s.cfg.mxlen (align4 w) } }
  | .mncause => { s with mc := { s.mc with mncause := zx s.cfg.mxlen w } }
  | .mnstatus =>
    let old := s.mc.mnstatus
    let r := setField old 11 (s.legalPP (field old 11 2) (field w 11 2))
    let r := if s.hasH then setBit r 7 (bit w 7) else r
    { s with mc := { s.mc with mnstatus := setBit r 3 (bit old 3 || bit w 3) } }
  | .mcycle => { s with cnt := { s.cnt with mcycle := w } }
  | .minstret => { s with cnt := { s.cnt with minstret := w } }
  | .mhpmcounter i => s.writeHpmcounter i w
  | .sie => s.writeMie (s.sSubset (BitVec.allOnes 64)) w
  | .stvec => { s with sc := { s.sc with stvec := legalTvec s.cfg.stvecLegal s.sxlen s.sc.stvec w } }
  | .scounteren => { s with sc := { s.sc with scounteren := w.setWidth 32 &&& s.cfg.scounterenMask } }
  | .senvcfg => { s with sc := { s.sc with senvcfg := merge s.sc.senvcfg w (bitAt 0 s.cfg.fiomWritable) } }
  | .sstateen n =>
    { s with sc := { s.sc with
        sstateen := s.sc.sstateen.set n
          ((s.sc.sstateen[n] &&& ~~~s.sstateenWritable n) ||| (w.setWidth 32 &&& s.sstateenWritable n)) } }
  | .scountinhibit =>
    { s with mc := { s.mc with
        mcountinhibit := ((s.mc.mcountinhibit &&& ~~~s.mcounteren) ||| (w.setWidth 32 &&& s.mcounteren))
          &&& s.cfg.mcountinhibitMask } }
  | .sscratch => { s with sc := { s.sc with sscratch := zx s.sxlen w } }
  | .sepc => { s with sc := { s.sc with sepc := zx s.sxlen (align4 w) } }
  | .scause => { s with sc := { s.sc with scause := s.legalCause s.sxlen s.sc.scause w } }
  | .stval => { s with sc := { s.sc with stval := zx s.sxlen w } }
  | .sip => s.writeMip s.sipWritable w
  | .stimecmp => { s with sc := { s.sc with stimecmp := w } }
  | .siselect => { s with sc := { s.sc with siselect := legalSelect 0xFFF s.sc.siselect w } }
  | .satp => { s with sc := { s.sc with satp := s.legalSatp s.sxlen s.sc.satp w } }
  | .hstatus => s.modulateVS { s with hc := { s.hc with hstatus := s.legalHstatus w } }
  | .hedeleg => { s with hc := { s.hc with hedeleg := merge s.hc.hedeleg w s.cfg.hedelegMask } }
  | .hideleg => { s with hc := { s.hc with hideleg := merge s.hc.hideleg w s.hidelegWritable } }
  | .hie => s.writeMie s.hInts w
  | .htimedelta => { s with hc := { s.hc with htimedelta := w } }
  | .hcounteren => { s with hc := { s.hc with hcounteren := w.setWidth 32 &&& s.cfg.hcounterenMask } }
  | .hgeie => { s with hc := { s.hc with hgeie := w &&& s.geiMask } }
  | .henvcfg => { s with hc := { s.hc with henvcfg := merge s.hc.henvcfg w s.henvcfgWritable } }
  | .hstateen n =>
    { s with hc := { s.hc with hstateen := s.hc.hstateen.set n (merge s.hc.hstateen[n] w (s.hstateenWritable n)) } }
  | .htval => { s with hc := { s.hc with htval := zx s.sxlen w } }
  | .hip => s.writeMip s.hInts w
  | .hvip => { s with hc := { s.hc with hvip := w &&& 0x444 } }
  | .htinst => { s with hc := { s.hc with htinst := zx s.sxlen w } }
  | .hgatp => { s with hc := { s.hc with hgatp := s.legalHgatp s.hc.hgatp w } }
  | .vsstatus => { s with vc := { s.vc with vsstatus := s.legalVsstatus w } }
  | .vsie => s.writeMie s.vsReach (s.unVs w)
  | .vstvec => { s with vc := { s.vc with vstvec := legalTvec s.cfg.vstvecLegal s.vsxlen s.vc.vstvec w } }
  | .vsscratch => { s with vc := { s.vc with vsscratch := zx s.vsxlen w } }
  | .vsepc => { s with vc := { s.vc with vsepc := zx s.vsxlen (align4 w) } }
  | .vscause => { s with vc := { s.vc with vscause := s.legalCause s.vsxlen s.vc.vscause w } }
  | .vstval => { s with vc := { s.vc with vstval := zx s.vsxlen w } }
  | .vsip => s.writeMip (s.vsReach &&& 0x2004) (s.unVs w)
  | .vstimecmp => { s with vc := { s.vc with vstimecmp := w } }
  | .vsiselect => { s with vc := { s.vc with vsiselect := legalSelect 0xFFFF s.vc.vsiselect w } }
  | .vsatp => { s with vc := { s.vc with vsatp := s.legalSatp s.vsxlen s.vc.vsatp w } }
  | .misa | .mireg _ | .sireg _ | .vsireg _ => s
  | .mvendorid | .marchid | .mimpid | .mhartid | .mconfigptr | .scountovf | .hgeip => s
  | .cycle | .time | .instret | .hpmcounter _ => s

/-! ### Extensions switched off and on by `misa` (R34, R46, notes/assumptions/18.md) -/

/-- The registers written with open values, by number from k on; each takes a legal one. -/
def State.openRegs (s : State) : List CsrReg → Nat → State
  | [], _ => s
  | r :: rs, k => (s.csrSet r (Config.freeWord s.draws k)).openRegs rs (k + 1)

/-- The fields of the counter selectors that `mask` names take open values. -/
def State.openFilters (s : State) (mask : Word) : State :=
  let free := Config.freeWord s.draws
  { s with cnt := { s.cnt with
      mcyclecfg := merge s.cnt.mcyclecfg (free 0x321) mask
      minstretcfg := merge s.cnt.minstretcfg (free 0x322) mask
      hpmevent := Vector.ofFn fun i : Fin 32 => merge s.cnt.hpmevent[i] (free (0x400 + i)) mask } }

/-- The registers whose state belongs to the hypervisor extension alone (R46, R136). -/
def hypervisorRegs : List CsrReg :=
  [.hstatus, .hedeleg, .hideleg, .hie, .htimedelta, .hcounteren, .hgeie, .henvcfg, .hstateen 0, .hstateen 1, .hstateen 2,
   .hstateen 3, .htval, .hvip, .htinst, .hgatp,
   .vsstatus, .vstvec, .vsscratch, .vsepc, .vscause, .vstval, .vstimecmp, .vsiselect, .vsatp, .mtinst, .mtval2]

/-- Every register of the hypervisor extension, and every field that exists with it only, takes an open, legal value of its width as
it is now; VSXL and UXL, where they are read-only, are at their widest (R140, R159): H is enabled again (R34, R46). -/
def State.openHypervisor (s : State) : State :=
  let t := (s.fitWidths.openRegs hypervisorRegs 0).openFilters 0xC00000000000000
  let free := Config.freeWord s.draws
  { t with
    mc := { t.mc with
      mstatus := merge t.mc.mstatus (free 0x301) 0xC000000000
      mnstatus := merge t.mc.mnstatus (free 0x744) 0x80
      medeleg := merge t.mc.medeleg (free 0x302) (s.cfg.medelegMask &&& 0xF00400)
      mstateen := t.mc.mstateen.set 0 (merge t.mc.mstateen[0] (free 0x30C) (bitAt 56 true)) } }

/-- The registers whose state belongs to S-mode alone. -/
def supervisorRegs : List CsrReg :=
  [.stvec, .scounteren, .senvcfg, .sscratch, .sepc, .scause, .stval, .stimecmp, .siselect, .satp, .medeleg, .mideleg,
   .sstateen 0, .sstateen 1, .sstateen 2, .sstateen 3]

/-- The fields of `mstatus` that exist with S-mode only, SXL among them. -/
def supervisorStatus : Word := 0x1C005C6722

/-- The fields of `mstatus` in `mask` take open, legal values, those that are read-only their own: a width the widest, a byte order
the parameter's. -/
def State.openStatus (s : State) (mask : Word) : State :=
  let wide : Word := match s.cfg.mxlen with
    | .rv32 => 0
    | .rv64 => if bit mask 34 then 0x800000000 else 0x200000000
  let fixed := wide ||| (EndianBit.atReset s.cfg.sbe <<< 36) ||| (EndianBit.atReset s.cfg.ube <<< 6)
  let t : State := { s with mc := { s.mc with mstatus := merge s.mc.mstatus fixed (mask &&& (s.mstatusMask ||| s.xlMask)) } }
  { t with mc := { t.mc with mstatus := t.legalMstatus mask (Config.freeWord s.draws 0x300) } }

/-- S-mode is enabled again: its registers, and every field that exists with it only, take open, legal values. SXL may be among
them, so that the registers of every width that goes by SXLEN are fitted to it first (R36, R140). -/
def State.openSupervisor (s : State) : State :=
  let t := ((s.openStatus supervisorStatus).fitWidths.openRegs supervisorRegs 0x100).openFilters 0x2000000000000000
  let free := Config.freeWord s.draws
  { t with
    mc := { t.mc with
      mstatus := merge t.mc.mstatus (free 0x305) (bitAt 18 t.hasPaging)
      mie := merge t.mc.mie (free 0x304) 0x222
      mip := merge t.mc.mip (free 0x344) 0x222
      menvcfg := merge t.mc.menvcfg (free 0x30A) 0xF000000000000000
      mstateen := Vector.ofFn fun n : Fin 4 => merge t.mc.mstateen[n] (free (0x310 + n)) 0xD000000000000000 } }

/-- The fields of `mstatus` that exist with U-mode only, MPP apart. -/
def userStatus : Word := 0x300220040

/-- U-mode is enabled again. -/
def State.openUser (s : State) : State :=
  let t := ((s.openStatus userStatus).openRegs [.mcounteren] 0x120).openFilters 0x1000000000000000
  { t with mc := { t.mc with menvcfg := merge t.mc.menvcfg (Config.freeWord s.draws 0x306) 1 } }

/-- S-mode, or U-mode with it, is switched off: the fields of `mstatus` that go read 0, UXL is legal, and `satp`, which is no more,
translates nothing. -/
def State.closeModes (s : State) : State :=
  let t : State := { s with
    mc := { s.mc with mstatus := s.mc.mstatus &&& (s.mstatusMask ||| s.xlMask) }
    sc := { s.sc with satp := if s.hasS then s.sc.satp else 0 } }
  { t with mc := { t.mc with mstatus := t.legalMstatus 0 0 } }

/-- MPP and MNPP, whose legal values change with the modes, take open ones (R34, R54, R134). -/
def State.openPrior (s : State) : State :=
  let free := Config.freeWord s.draws
  { s with mc := { s.mc with
      mstatus := setField s.mc.mstatus 11 (s.legalPP 3 (field (free 0x303) 0 2))
      mnstatus := setField s.mc.mnstatus 11 (s.legalPP 3 (field (free 0x303) 2 2)) } }

/-- `misa.Extensions` after a write: S depends on U, and H on S, so that each is left enabled only with what it depends on (R46). It
is judged by the bits the fields take: where S is read-only 1, a 0 written to it disables nothing, and H takes bit 7 (DESIGN CHOICE,
notes/assumptions/18.md). -/
def State.newMisa (s : State) (w : Word) : BitVec 26 :=
  let v := (s.mc.misa &&& ~~~s.cfg.misaWritable) ||| (w.setWidth 26 &&& s.cfg.misaWritable)
  let u := v.getLsbD 20
  let sv := v.getLsbD 18 && u
  let h := v.getLsbD 7 && sv
  (v &&& 0x3EBFF7F) ||| (if u then 1#26 <<< 20 else 0) ||| (if sv then 1#26 <<< 18 else 0) ||| (if h then 1#26 <<< 7 else 0)

/-- `misa` written, by M-mode: U, S and H can be writable (R46, D2). What goes with an extension is closed, what comes back with it
is open. -/
def State.writeMisa (s : State) (w : Word) : State :=
  if s.cfg.misaImpl && s.cfg.misaWritable != 0 && s.priv == .m then
    let t : State := { s with mc := { s.mc with misa := s.newMisa w } }
    let gone := (s.hasS && !t.hasS) || (s.hasU && !t.hasU)
    let t := if gone then t.closeModes else t
    let t := if t.hasS && !s.hasS then t.openSupervisor else t
    let t := if t.hasU && !s.hasU then t.openUser else t
    let t := if t.hasH && !s.hasH then t.openHypervisor else t
    if gone || (t.hasS && !s.hasS) || (t.hasU && !s.hasU) then t.openPrior else t
  else s

/-- csr_write (R246): the low XLEN bits, or the high half, of the register the number reaches. -/
def State.csrWrite (s : State) (c : CsrRef) (v : Word) : State :=
  match csrTarget s.virt c.reg with
  | .sireg k => s.writeWindow s.sc.siselect k v
  | r =>
    let old := s.csrView r
    let w := if c.high then writeHigh old v else writeLow s.xlen old v
    match r with
    | .misa => s.writeMisa w
    | r => s.csrSet r w

/-- The write reaches `minstret`, which the writing instruction then does not increment (R74, R245). -/
def State.writesMinstret (s : State) (c : CsrRef) : Bool :=
  match csrTarget s.virt c.reg with
  | .minstret => true
  | .sireg k => decide (selectedCounter s.sc.siselect = some 2) && (k == 1 || k == 4)
  | _ => false

end Sys2Proof.Machine
end

