-- ==== Sys2Proof/Machine/Zicsr.lean ====
section
/-! DEFINITION. The CSR instructions (41_csr_access.md R239-R246). -/

namespace Sys2Proof.Machine

/-- The instruction completes after a CSR write: x[rd] takes the old value; `minstret` is not incremented where it was
written (R74, R245). `before` is the state the instruction started in. -/
def State.csrFinish (s : State) (before : State) (rd : Reg) (old : Word) (wroteMinstret : Bool) : State :=
  let t := (s.setX rd old).goto (before.pc + 4)
  if wroteMinstret then t else t.retire before

/-- A CSR instruction: the access check with its kind, then the read, the write if there is one, and x[rd]
(R239-R244, R247). `value` maps the value a read-modify-write starts from to what is written. -/
def csrAccess (i : Instr) (n : BitVec 12) (rd : Reg) (write : Bool) (value : Word → Word) (s : State) : Result :=
  match s.csrCheck n write with
  | .illegal => raiseIllegal i s
  | .virtual => raiseVirtual i s
  | .allowed =>
    match csrOf n with
    | none => raiseIllegal i s
    | some c =>
      if write then
        .next ((s.csrWrite c (value (s.csrRmwOld c))).csrFinish s rd (s.csrRead c) (s.writesMinstret c))
      else .next (s.csrFinish s rd (s.csrRead c) false)

/-- CSRRW (R239). -/
def execCsrrw (rd : Reg) (csr : BitVec 12) (rs1 : Reg) (s : State) : Result :=
  csrAccess (.csrrw rd csr rs1) csr rd true (fun _ => s.x rs1) s

/-- CSRRS (R240): no write with rs1 = x0. -/
def execCsrrs (rd : Reg) (csr : BitVec 12) (rs1 : Reg) (s : State) : Result :=
  csrAccess (.csrrs rd csr rs1) csr rd (rs1 != 0) (fun old => old ||| s.x rs1) s

/-- CSRRC (R241): no write with rs1 = x0. -/
def execCsrrc (rd : Reg) (csr : BitVec 12) (rs1 : Reg) (s : State) : Result :=
  csrAccess (.csrrc rd csr rs1) csr rd (rs1 != 0) (fun old => old &&& ~~~(s.x rs1)) s

/-- CSRRWI (R242). -/
def execCsrrwi (rd : Reg) (csr : BitVec 12) (u : BitVec 5) (s : State) : Result :=
  csrAccess (.csrrwi rd csr u) csr rd true (fun _ => uimm u) s

/-- CSRRSI (R243): no write with uimm = 0. -/
def execCsrrsi (rd : Reg) (csr : BitVec 12) (u : BitVec 5) (s : State) : Result :=
  csrAccess (.csrrsi rd csr u) csr rd (u != 0) (fun old => old ||| uimm u) s

/-- CSRRCI (R244): no write with uimm = 0. -/
def execCsrrci (rd : Reg) (csr : BitVec 12) (u : BitVec 5) (s : State) : Result :=
  csrAccess (.csrrci rd csr u) csr rd (u != 0) (fun old => old &&& ~~~(uimm u)) s

end Sys2Proof.Machine
end

