-- ==== Sys2Proof/Machine/Fetch.lean ====
section
/-! DEFINITION. What happens between two instructions and how the next one is fetched: the platform's inputs (R26, R359,
R362), interrupts (R338), fetch (R23) and decoding (R230). -/

namespace Sys2Proof.Machine

/-- Bytes that other harts and devices store at physical addresses: to memory, and to this hart's memory-mapped registers, as
when another hart raises a software interrupt (R187, R357, R359). -/
def State.writeCells (s : State) : List Host.Cell → State
  | [] => s
  | (a, b) :: rest => (s.setPhysByte a b).writeCells rest

/-- Time passes, and `cycles` + 1 cycles: `mcycle` advances by a positive amount unless inhibited (R74, R78, R83, R119, R358). The
cycles of a step that changes the mode all count in the mode held before it, where R119 lets the change take effect at any of them
(DESIGN CHOICE, notes/assumptions/7.md). -/
def State.advance (s : State) (time cycles : Nat) : State :=
  { s with
    mtime := s.mtime + BitVec.ofNat 64 time
    cnt := { s.cnt with mcycle := if s.countsCycle then s.cnt.mcycle + BitVec.ofNat 64 (cycles + 1) else s.cnt.mcycle } }

/-- The input levels change; an NMI or RNMI not yet taken stays (R349, R350), but for a newer one, whose code replaces its own: one
event at a time is pending (DESIGN CHOICE, R362, notes/assumptions/6.md). -/
def Pins.after (old new : Pins) : Pins :=
  { new with
    nmi := match new.nmi with | some c => some c | _ => old.nmi
    rnmi := match new.rnmi with | some c => some c | _ => old.rnmi }

/-- The input signals of the hart, and SSIP where the interrupt controller sets it (R26, R71). -/
def State.signal (s : State) (e : EnvInput) : State :=
  { s with
    pins := s.pins.after e.pins
    mc := { s.mc with mip := if e.setSsip && s.hasS then setBit s.mc.mip 1 true else s.mc.mip } }

/-- One input of the platform (R26, R71, R75, R359). -/
def State.accept (s : State) (e : EnvInput) : State :=
  e.events.foldl State.countEvent (((s.advance e.timeTicks e.cycleTicks).signal e).writeCells e.stores)

/-- What happens before an instruction: the next input of the platform, or, where none is queued, time and cycles pass by
open amounts; then the hart may walk page tables speculatively (R25, R358, R359). -/
def State.tick (s : State) : State :=
  let s :=
    match s.env with
    | [] => s.advance (Config.timeAdvance s.draws) (Config.cycleTicks s.draws)
    | e :: rest => State.accept { s with env := rest } e
  State.speculate { s with draws := s.draws + 1 }

/-- The illegal-instruction exception on a word that is no instruction (R230, R348, D23). -/
def raiseReserved (w : BitVec 32) (s : State) : Result := raise (.plain .illegal (w.setWidth 64)) s

/-- How a step begins. -/
inductive Begin where
  /-- no instruction runs: the step ends so -/
  | taken (r : Result)
  /-- an instruction runs in a state -/
  | run (i : Instr) (s : State)

/-- The fetch and what the word is. The A bit that a fetch with hardware updating sets stays when the instruction, or the word that is
none, then raises an exception: R206 step 7 makes the update, and the clauses of R330 and R331 that memory is as before are read as of
the instruction's own stores (DESIGN CHOICE, notes/assumptions/16.md). -/
def State.beginFetch (s : State) : Begin :=
  match s.fetch with
  | .error e => .taken (s.abort s.fetchAccess s.fetchAccess.va e)
  | .ok (w, t) =>
    match decode (bytesOfWord w) with
    | .ok (i, _) => .run i t
    | .error _ => .taken (raiseReserved w t)

/-- Non-maskable interrupts, then interrupts, then the fetch (R338, R350, D24). -/
def State.beginNext (s : State) : Begin :=
  match s.nonMaskable with
  | some t => .taken (.next t)
  | none =>
    match s.interrupt with
    | some (d, code) => .taken (.next (s.takeInterrupt d code))
    | none => s.beginFetch

/-- The WFI that the hart executes can only end in an exception: VU-mode (R238). -/
def State.wfiTraps (s : State) : Bool := s.virt && s.priv == .u

/-- The step goes on with the WFI that stalls the hart (R238): until the stall ends, and in VU-mode once more when it has ended, for
there the WFI ends in its exception, which comes before an interrupt (DESIGN CHOICE, notes/assumptions/24.md) but after a non-maskable
one, whose priority is above every exception (R135, R350). -/
def State.stalled (s : State) : Bool := s.waited != 0 && (!s.wakes || (s.wfiTraps && s.nonMaskable.isNone))

/-- The stall of a WFI ends: the WFI is complete (R238), but in VU-mode, where a non-maskable interrupt finds it not executed. -/
def State.woken (s : State) : State :=
  if s.waited = 0 then s else if s.wfiTraps then { s with waited := 0 } else { s.next with waited := 0 }

/-- A stalled hart goes on with its WFI until the stall ends; an interrupt then finds the pc after the WFI, and a non-maskable one in
VU-mode that of the WFI (R238, R338, R350). -/
def State.boundary (s : State) : Begin :=
  if s.stalled then .run .wfi s else s.woken.beginNext

/-- The physical address the next fetch reads, of a hart that is not stalled. -/
def State.fetchAddress (s : State) : Nat :=
  match s.tick.translate s.fetchAccess.va .fetch s.priv s.virt with
  | .ok (t, _) => t.addr
  | .error _ => s.fetchAccess.va.toNat

end Sys2Proof.Machine
end

