-- ==== Sys2Proof/Machine/Step.lean ====
section
/-! DEFINITION. One step: what happens between two instructions, then one instruction. -/

namespace Sys2Proof.Machine

/-- One step of the hart (R23, R338, R359). -/
def step (s : State) : Host.Outcome State Fault Refusal :=
  match s.tick.boundary with
  | .taken r => r
  | .run i t => exec i t

/-- s with the instruction of the table word w at the address the next fetch reads, little-endian (R173); not stalled. -/
def State.withFetchWord (s : State) (nbits w : Nat) : State :=
  let s := { s with waited := 0 }
  { s with mem := s.mem.writeBytes s.fetchAddress (bytesOfWord (BitVec.ofNat 32 (w % 2 ^ nbits))) }

end Sys2Proof.Machine
end

