-- ==== Sys2Proof/Machine/Run.lean ====
section
/-! DEFINITION. The end of a run (R361, D26). The hardware has none: a hart executes for ever. Where a run of the model ends is a
parameter, a predicate on states; nothing that a step does depends on it. -/

namespace Sys2Proof.Machine

/-- How a run of at most so many steps comes out. -/
inductive RunEnd where
  /-- the end-of-run predicate holds of the state: its next instruction is not executed -/
  | ended (s : State)
  /-- the steps are used up -/
  | unfinished (s : State)
  | fault (f : Fault)
  | refused (r : Refusal)
deriving DecidableEq, Repr

/-- The machine run for at most n steps, until the predicate holds (R361). -/
def runUntil (ends : State → Bool) : Nat → State → RunEnd
  | 0, s => if ends s then .ended s else .unfinished s
  | n + 1, s =>
    if ends s then .ended s
    else
      match step s with
      | .next t => runUntil ends n t
      | .fault f => .fault f
      | .refused r => .refused r

/-- The predicate D26 suggests: the next step executes ECALL in M-mode. It is asked before the trap is taken. -/
def State.callsFromM (s : State) : Bool :=
  match s.tick.boundary with
  | .run .ecall t => t.priv == .m
  | _ => false

/-- The exit value D26 suggests: x10. -/
def State.exitValue (s : State) : Word := s.x 10#5

end Sys2Proof.Machine
end

