-- ==== Sys2Proof/Safety.lean ====
section
/-! DEFINITION. The terms statements about the machine use: values at the current XLEN, what an instruction changed and what
it left, the states a run stays in. -/

namespace Sys2Proof.Machine

/-! ### Values at the current XLEN (R18, R57) -/

/-- x[r] as an unsigned number of XLEN bits. -/
def State.xNat (s : State) (r : Reg) : Nat := (zx s.xlen (s.x r)).toNat

/-- x[r] as a signed number of XLEN bits. -/
def State.xInt (s : State) (r : Reg) : Int := (s.x r).toInt

/-- 2^XLEN. -/
def State.modulus (s : State) : Nat := 2 ^ s.xlen.bits

/-- The low XLEN bits of a value, as a number. -/
def State.low (s : State) (v : Word) : Nat := v.toNat % s.modulus

/-! ### Frames -/

/-- t is s after an instruction that completes with x[rd] <- v and goes on at `target`: the value takes all of rd, sign-extended from
XLEN to the widest XLEN (R57; also for the HINT forms, of which R57 leaves it open, log 10), x0 reads 0, `minstret` counts the
instruction unless inhibited, and nothing else differs: no bit of another register, no CSR, no byte of memory. -/
structure State.WritesReg (s t : State) (rd : Reg) (v target : Word) : Prop where
  written : rd ≠ 0#5 → t.regs[rd.toNat] = sx s.xlen v
  zero : t.x 0#5 = 0
  others : ∀ r, r ≠ rd ∨ rd = 0#5 → t.regs[r.toNat] = s.regs[r.toNat]
  pc : t.pc = sx s.xlen target
  counted : t.cnt.minstret = if s.countsInstret then s.cnt.minstret + 1 else s.cnt.minstret
  rest : t = { s with regs := t.regs, pc := t.pc, cnt := { s.cnt with minstret := t.cnt.minstret } }

/-- t is s after an instruction that completes and changes nothing but the pc and `minstret`. -/
structure State.Advances (s t : State) (target : Word) : Prop where
  pc : t.pc = sx s.xlen target
  counted : t.cnt.minstret = if s.countsInstret then s.cnt.minstret + 1 else s.cnt.minstret
  rest : t = { s with pc := t.pc, cnt := { s.cnt with minstret := t.cnt.minstret } }

/-- The word of i has the bits `m` under `mask` (the match and mask of the spec's encoding). -/
def Encodes (i : Instr) (mask m : BitVec 32) : Prop := encode i &&& mask = m

/-- i completes in s, writes to x[rd] a value with the property P, and the next instruction follows it. -/
def State.Yields (s : State) (i : Instr) (rd : Reg) (P : Word → Prop) : Prop :=
  ∃ t v, exec i s = .next t ∧ s.WritesReg t rd v (s.pc + 4) ∧ P v

/-- i ends in s in the exception t, whose entry (R340) finds the registers, CSRs and memory of s. -/
def State.Raises (s : State) (i : Instr) (t : Trap) : Prop := exec i s = .next (s.takeException t)

/-- i ends in s in the illegal-instruction exception, with its own bits as the trap value. -/
def State.IsIllegal (s : State) (i : Instr) : Prop := s.Raises i ⟨.illegal, (encode i).setWidth 64, false, 0, 0⟩

/-- i ends in s in the virtual-instruction exception, with its own bits as the trap value. -/
def State.IsVirtual (s : State) (i : Instr) : Prop := s.Raises i ⟨.virtualInstr, (encode i).setWidth 64, false, 0, 0⟩

/-! ### Memory -/

/-- t differs from s at most in what memory and the memory-mapped registers hold. -/
def State.OnlyMemory (s t : State) : Prop :=
  t = { s with mem := t.mem, mtime := t.mtime, mtimecmp := t.mtimecmp, msip := t.msip }

/-- The bytes of memory outside [a, a + n) are the same. -/
def Memory.SameOutside (m m' : Memory) (a n : Nat) : Prop := ∀ k, k < a ∨ a + n ≤ k → m'.read k = m.read k

/-- No page-table walk of this state writes memory: A and D are not updated by hardware (R209). -/
def State.wellKeptTables (s : State) : Bool := !s.adUpdates s.menvcfgADUE && !s.adUpdates s.henvcfgADUE

/-- The access is attempted, and lies in one page: it is aligned, or the hart attempts misaligned accesses (R175, R176). -/
def State.InOnePart (s : State) (a : Access) : Prop :=
  a.va.toNat % a.width = 0 ∨ (s.cfg.misaligned = true ∧ a.va.toNat % 4096 + a.width ≤ 4096)

/-- The number that bytes listed by rising address stand for (R173). -/
def orderedValue (big : Bool) (bs : List Byte) : Nat := natOfBytes (if big then bs.reverse else bs)

/-- What a load does (R171, R289-R295): the access `a` reaches `a.width` bytes at pa, and t is s after the page-table walks. The
load then completes: x[rd] takes a value that `P` relates to the number the bytes stand for. The walks change at most memory,
and nothing where A and D are not updated by hardware. -/
def State.LoadsBy (s : State) (i : Instr) (a : Access) (rd : Reg) (P : Nat → Word → Prop) : Prop :=
  ∀ pa rs t, s.InOnePart a → s.reach a a.va a.width = .ok (pa, rs, t) →
    ∃ u v, exec i s = .next u ∧ s.OnlyMemory t ∧ (s.wellKeptTables = true → t = s) ∧ t.WritesReg u rd v (s.pc + 4)
      ∧ P (orderedValue (s.bigEndian a.p a.v) (t.physRead pa a.width)) v

/-- What a store does (R171, R296-R299), where it reaches memory: the bytes at pa take the low bytes of the value in the byte
order of the access, every other byte of memory is as the walks left it, and nothing else changes but the pc and `minstret`.
Where it reaches bytes of a memory-mapped register (R187), these take the value (of `msip` only the lowest bit exists, log 20,
and the value it takes is not stated), the register's other bytes and memory stay. -/
def State.StoresBy (s : State) (i : Instr) (a : Access) (value : Word) : Prop :=
  ∀ pa rs t, s.mem.wf = true → s.InOnePart a → s.reach a a.va a.width = .ok (pa, rs, t) →
    ∃ u, exec i s = .next u ∧ s.OnlyMemory t ∧ (s.wellKeptTables = true → t = s)
      ∧ u.pc = sx s.xlen (s.pc + 4)
      ∧ u = { t with
          pc := u.pc, mem := u.mem, mtime := u.mtime, mtimecmp := u.mtimecmp, msip := u.msip
          cnt := { s.cnt with minstret := if s.countsInstret then s.cnt.minstret + 1 else s.cnt.minstret } }
      ∧ t.mem.SameOutside u.mem pa a.width
      ∧ ((∀ j, j < a.width → t.deviceAt (pa + j) = none) →
          orderedValue (s.bigEndian a.p a.v) (u.mem.readBytes pa a.width) = value.toNat % 256 ^ a.width
            ∧ u.mtime = t.mtime ∧ u.mtimecmp = t.mtimecmp ∧ u.msip = t.msip)
      ∧ (∀ d k, (∀ j, j < a.width → t.deviceAt (pa + j) = some (d, k + j)) →
          u.mem = t.mem ∧ (∀ d', d' ≠ d → u.deviceValue d' = t.deviceValue d')
          ∧ (d ≠ .msip → k + a.width ≤ 8 →
              orderedValue (s.bigEndian a.p a.v) ((List.range a.width).map fun j => field (u.deviceValue d) (8 * (k + j)) 8)
                = value.toNat % 256 ^ a.width
              ∧ ∀ j, j < 8 → j < k ∨ k + a.width ≤ j →
                  field (u.deviceValue d) (8 * j) 8 = field (t.deviceValue d) (8 * j) 8))

/-- Loads of n bytes: the value read, sign-extended. -/
def signedOf (n v : Nat) (w : Word) : Prop := w.toInt = Int.bmod v (2 ^ (8 * n))

/-- Loads of n bytes: the value read, zero-extended. -/
def unsignedOf (v : Nat) (w : Word) : Prop := w.toNat = v

/-- i ends in s because the part of its access at `part` does not reach memory, for the reason given: in the exception of the
access's type, whose entry finds the state u, or in the stop of an I/O region that the spec does not describe (R172, R205,
R217, R220, R342-R345). -/
def State.EndsBy (s u : State) (i : Instr) (a : Access) (part : Word) (page access guest : Exc) : Abort → Prop
  | .page => exec i s = .next (u.takeException ⟨page, part, a.v, 0, u.transformed a part page⟩)
  | .access => exec i s = .next (u.takeException ⟨access, part, a.v, 0, u.transformed a part access⟩)
  | .guestPage gpa none =>
    exec i s = .next (u.takeException ⟨guest, part, a.v,
      if bit u.cfg.tvalInfo guest.code then BitVec.ofNat 64 (gpa / 4) else 0, u.transformed a part guest⟩)
  | .guestPage gpa (some write) =>
    exec i s = .next (u.takeException ⟨guest, part, a.v, BitVec.ofNat 64 (gpa / 4),
      if bit u.cfg.tval2Info guest.code = true ∧ gpa / 4 ≠ 0 ∨ bit u.cfg.tinstPseudo guest.code = true then
        u.pseudoInstr write
      else 0⟩)
  | .stop f => exec i s = .fault f

/-- Where the part of n bytes at va, reached from u, faults with e (R176): the whole part, or, where the access may be made in finer
portions, the m bytes from its k-th on, which fault in the same way by themselves. Which of them is open (log 15). -/
def State.FaultsAt (u : State) (splits : Prop) (a : Access) (va : Word) (n : Nat) (others : List Nat) (e : Abort) (k m : Nat) : Prop :=
  (k = 0 ∧ m = n) ∨ (splits ∧ 0 < m ∧ k + m ≤ n
    ∧ u.reachPart a (va + BitVec.ofNat 64 k) m (u.partBytes a va n ++ others) = .error (e.shift k))

/-- The access may be made in finer portions: it is misaligned and not within one misaligned atomicity granule (R176, R180). -/
def State.MayDivide (s : State) (a : Access) : Prop := a.va.toNat % a.width ≠ 0 ∧ s.oneGranule a = false

/-- The second part of the access, which begins at the page boundary, may fault with e in a portion of it: not with a guest-page fault,
whose address is the boundary (R220, R342). -/
def State.MayDivideSecond (s : State) (a : Access) (e : Abort) : Prop :=
  s.MayDivide a ∧ ∀ gpa implicit, e ≠ .guestPage gpa implicit

/-- What a load in one part does when it does not reach memory. The exception finds the state before the access: what the walk has
updated is undone (log 16). -/
def State.LoadFaultsBy (s : State) (i : Instr) (a : Access) : Prop :=
  ∀ e, s.InOnePart a → s.reach a a.va a.width = .error e →
    ∃ k m, s.FaultsAt (s.MayDivide a) a a.va a.width [] e k m
      ∧ s.EndsBy s i a (a.va + BitVec.ofNat 64 k) .loadPage .loadAccess .loadGuest (e.shift k)

/-- u is s with some bytes of a part stored, `bs` being the part's bytes, va its address and `away` the bytes of it that a fault turned
away, or s itself (R176): the part is translated, and w is the state its walk leaves; every byte of memory outside it is as in w; each of
its bytes in memory is as in w or as stored, the latter only where it is not away and PMP permits it, by registers the hart may go by; the
memory-mapped registers stay if none of its bytes lies in one. -/
def State.LeavesPart (s u : State) (a : Access) (va : Word) (bs : List Byte) (away : Nat → Prop) : Prop :=
  u = s ∨ bs ≠ [] ∧ ∃ t w, s.translate va a.need a.p a.v = .ok (t, w) ∧ s.OnlyMemory w ∧ (s.wellKeptTables = true → w = s)
    ∧ s.OnlyMemory u ∧ w.mem.SameOutside u.mem t.addr bs.length
    ∧ (∀ j, j < bs.length → w.deviceAt (t.addr + j) = none →
        u.mem.read (t.addr + j) = w.mem.read (t.addr + j)
        ∨ (¬ away j ∧ (∃ x ∈ w.pmpViews a.v, x.pmpAllows (t.addr + j) 1 a.p .store = true) ∧ (s.mem.wf = true → u.mem.read (t.addr + j) = bs.getD j 0)))
    ∧ ((∀ j, j < bs.length → w.deviceAt (t.addr + j) = none) → u.mtime = w.mtime ∧ u.mtimecmp = w.mtimecmp ∧ u.msip = w.msip)

/-- u is s after a store of `bytes` that faults in the m of them from the k-th on: s itself, or, where the store is misaligned and not
within one misaligned atomicity granule (R180), s with some of the other bytes stored, which of them being open (R176, log 15). -/
def State.LeavesSome (s u : State) (a : Access) (bytes : List Byte) (k m : Nat) : Prop :=
  u = s ∨ s.MayDivide a ∧ ∃ v,
    s.LeavesPart v a a.va (bytes.take a.firstWidth) (fun j => k ≤ j ∧ j < k + m)
      ∧ v.LeavesPart u a (s.secondAddress a) (bytes.drop a.firstWidth) (fun j => k ≤ a.firstWidth + j ∧ a.firstWidth + j < k + m)

/-- What a store in one part does when it does not reach memory: the exception finds the state before the store, or, where it is
misaligned, one in which some of its bytes are stored. -/
def State.StoreFaultsBy (s : State) (i : Instr) (a : Access) (value : Word) : Prop :=
  ∀ e, s.InOnePart a → s.reach a a.va a.width = .error e →
    ∃ u k m, s.FaultsAt (s.MayDivide a) a a.va a.width [] e k m
      ∧ s.LeavesSome u a (bytesOfValue (s.bigEndian a.p a.v) a.width value) k m
      ∧ s.EndsBy u i a (a.va + BitVec.ofNat 64 k) .storePage .storeAccess .storeGuest (e.shift k)

/-- What an access does that is misaligned on a hart that does not attempt such accesses (R175). -/
def State.MisalignsBy (s : State) (i : Instr) (a : Access) (e : Exc) : Prop :=
  s.cfg.misaligned = false → a.va.toNat % a.width ≠ 0 → s.Raises i ⟨e, a.va, a.v, 0, s.transformed a a.va e⟩

/-- A load that crosses into the next page (R176): the bytes of its two parts are joined; where a part does not reach memory the
load ends with the address of that part, or of a portion of it that faults, in the state before it (logs 15, 16); of a guest-page fault
of the second part it is the page boundary (R220). Each part is judged with the addresses of the other's bytes, which share a misaligned
atomicity granule or not (R180). -/
def State.SplitLoadsBy (s : State) (i : Instr) (a : Access) (rd : Reg) (P : Nat → Word → Prop) : Prop :=
  ∀ k, s.cfg.misaligned = true → k = 4096 - a.va.toNat % 4096 → k < a.width →
    let ends (u : State) (divides : Prop) (va : Word) (n : Nat) (others : List Nat) (e : Abort) : Prop :=
      ∃ j m, u.FaultsAt divides a va n others e j m
        ∧ s.EndsBy s i a (va + BitVec.ofNat 64 j) .loadPage .loadAccess .loadGuest (e.shift j)
    let first := s.reachPart a a.va k (s.secondBytes a)
    (∀ e, first = .error e → ends s (s.MayDivide a) a.va k (s.secondBytes a) e)
    ∧ ∀ pa₁ rs₁ t₁, first = .ok (pa₁, rs₁, t₁) →
        let second := t₁.reachPart a (s.secondAddress a) (a.width - k) (bytesAt pa₁ k)
        (∀ e, second = .error e → ends t₁ (s.MayDivideSecond a e) (s.secondAddress a) (a.width - k) (bytesAt pa₁ k) e)
        ∧ ∀ pa₂ rs₂ t₂, second = .ok (pa₂, rs₂, t₂) →
            ∃ u v, exec i s = .next u ∧ s.OnlyMemory t₂ ∧ t₂.WritesReg u rd v (s.pc + 4)
              ∧ P (orderedValue (s.bigEndian a.p a.v) (t₁.physRead pa₁ k ++ t₂.physRead pa₂ (a.width - k))) v

/-- A store that crosses into the next page (R176): its two parts are stored one after the other, each where it is translated;
where one does not reach memory the store ends with the address of that part, or of a portion of it that faults, as in SplitLoadsBy, in
the state before the store or in one in which some of its bytes are stored: which, of both parts, is open (log 15), but that none of the
portion named is, and that a store within one misaligned atomicity granule leaves nothing (R180). Each part is judged as in SplitLoadsBy. -/
def State.SplitStoresBy (s : State) (i : Instr) (a : Access) (value : Word) : Prop :=
  ∀ k, s.cfg.misaligned = true → k = 4096 - a.va.toNat % 4096 → k < a.width →
    let bytes := bytesOfValue (s.bigEndian a.p a.v) a.width value
    orderedValue (s.bigEndian a.p a.v) bytes = value.toNat % 256 ^ a.width
    ∧ let ends (t : State) (divides : Prop) (va : Word) (lo n : Nat) (others : List Nat) (e : Abort) : Prop :=
        ∃ u j m, t.FaultsAt divides a va n others e j m ∧ s.LeavesSome u a bytes (lo + j) m
          ∧ s.EndsBy u i a (va + BitVec.ofNat 64 j) .storePage .storeAccess .storeGuest (e.shift j)
      let first := s.reachPart a a.va k (s.secondBytes a)
      (∀ e, first = .error e → ends s (s.MayDivide a) a.va 0 k (s.secondBytes a) e)
    ∧ ∀ pa₁ rs₁ t₁, first = .ok (pa₁, rs₁, t₁) →
        let w := t₁.physWrite pa₁ (bytes.take k)
        let second := w.reachPart a (s.secondAddress a) (a.width - k) (bytesAt pa₁ k)
        (∀ e, second = .error e →
          ends w (s.MayDivideSecond a e) (s.secondAddress a) k (a.width - k) (bytesAt pa₁ k) e)
        ∧ ∀ pa₂ rs₂ t₂, second = .ok (pa₂, rs₂, t₂) →
            ∃ u, exec i s = .next u ∧ (t₂.physWrite pa₂ (bytes.drop k)).Advances u (s.pc + 4)
              ∧ (s.mem.wf = true → s.wellKeptTables = true → (∀ j, j < k → s.deviceAt (pa₁ + j) = none) →
                  (∀ j, j < a.width - k → s.deviceAt (pa₂ + j) = none) →
                  u.mem.readBytes pa₂ (a.width - k) = bytes.drop k
                  ∧ (pa₁ + k ≤ pa₂ ∨ pa₂ + (a.width - k) ≤ pa₁ → u.mem.readBytes pa₁ k = bytes.take k)
                  ∧ ∀ b, (b < pa₁ ∨ pa₁ + k ≤ b) → (b < pa₂ ∨ pa₂ + (a.width - k) ≤ b) → u.mem.read b = s.mem.read b)

/-! ### Page-table walks (R203-R207) -/

/-- Where the PTE at a table address is in physical memory, and the state that finding it leaves: tables of `satp` and `hgatp` are named
by physical addresses. -/
def physically (s : State) (a pa : Nat) (t : State) : Prop := pa = a ∧ t = s

/-- Tables of `vsatp` are named by guest physical addresses, which G-stage translates (R215), perhaps setting the A bit of its own
leaf (R209). -/
def throughGuest (s : State) (a pa : Nat) (t : State) : Prop :=
  ∃ pbmt, s.translateG a .load (some false) = .ok (⟨pa, pbmt⟩, t)

/-- In s the PTE at a table address reads as p (R206 step 2), `place` saying where tables are; reading it leaves t. -/
def Walk.Holds (w : Walk) (place : State → Nat → Nat → State → Prop) (s : State) (a : Nat) (p : Word) (t : State) : Prop :=
  ∃ pa, place s a pa t ∧ (∃ rs, t.checkPhys (.tableRead w.stage w.speculative) .s pa w.scheme.pteBytes = .ok rs)
    ∧ orderedValue w.big (t.physRead pa w.scheme.pteBytes) = p.toNat

/-- A valid pointer: V alone of the bits 7 to 0 but G, and on RV64 bits 63:54 clear (R203, R204). -/
def Scheme.isPointer (c : Scheme) (p : Word) : Bool :=
  p &&& (if c.pteBytes = 4 then 0xDF else 0xFFC00000000000DF) == 1

/-- A valid leaf: V set, R or X set, not W without R, and on RV64 bits 63:54 clear (R203, R204). -/
def Scheme.isLeaf (c : Scheme) (p : Word) : Bool :=
  p.getLsbD 0 && (p.getLsbD 1 || p.getLsbD 3) && (p.getLsbD 1 || !p.getLsbD 2)
    && (c.pteBytes == 4 || p &&& 0xFFC0000000000000 == 0)

/-- From the table at `table`, `n` levels left, the walk for va comes through valid pointers to the PTE p, at `level` and
at address `spot`. -/
def Walk.findsFrom (w : Walk) (place : State → Nat → Nat → State → Prop) (va level spot : Nat) (p : Word) (t : State) :
    Nat → Nat → State → Prop
  | 0, _, _ => False
  | n + 1, table, s =>
    let a := table + vpnAt w.scheme n va * w.scheme.pteBytes
    if n = level then a = spot ∧ w.Holds place s a p t
    else
      ∃ q u, w.Holds place s a q u ∧ w.scheme.isPointer q = true
        ∧ w.findsFrom place va level spot p t n (ptePpn w.scheme q * 4096) u

/-- The walk for va, begun in s, comes through valid pointers to the PTE p, at `level` and at address `spot` (R206 steps 1, 2, 4); the
reads of the PTEs leave t, which is s unless G-stage has set A bits on the way. -/
def Walk.Finds (w : Walk) (place : State → Nat → Nat → State → Prop) (s : State) (va level spot : Nat) (p : Word) (t : State) :
    Prop :=
  w.findsFrom place va level spot p t w.scheme.levels (w.root * 4096) s

/-- A PTE with A set, and for a store D (R206 step 7). -/
def marked (need : Need) (p : Word) : Word := setBit (setBit p 6 true) 7 (p.getLsbD 7 || need == .store)

/-- The page permits the access (R207, for G-stage R217; HLVX needs X, R268). -/
def Walk.Permits (w : Walk) (p : Word) : Prop :=
  (w.user = true → p.getLsbD 4 = true)
    ∧ (w.user = false → p.getLsbD 4 = true → w.need ≠ .fetch ∧ w.sum = true)
    ∧ (w.need = .fetch → p.getLsbD 3 = true)
    ∧ (w.need = .load → p.getLsbD 1 = true ∨ (w.mxr = true ∧ p.getLsbD 3 = true))
    ∧ (w.need = .store → p.getLsbD 2 = true)
    ∧ (w.need = .execLoad → p.getLsbD 3 = true)

/-- A superpage is aligned to its size (R206 step 6). -/
def Walk.AlignedLeaf (w : Walk) (level : Nat) (p : Word) : Prop :=
  ptePpn w.scheme p % 2 ^ (w.scheme.vpnBits * level) = 0

/-- A is set, and D for a store (R206 step 7). -/
def Walk.Recorded (w : Walk) (p : Word) : Prop := p.getLsbD 6 = true ∧ (w.need = .store → p.getLsbD 7 = true)

/-- What a walk is made with: the root page number, that it counts as a U-mode access, SUM, MXR, hardware updates of A and D,
the byte order of the tables, whether PBMT is enabled. -/
structure Walk.MadeWith (w : Walk) (root : Nat) (user sum mxr hwAd big pbmte : Bool) : Prop where
  root : w.root = root
  user : w.user = user
  sum : w.sum = sum
  mxr : w.mxr = mxr
  hwAd : w.hwAd = hwAd
  big : w.big = big
  pbmte : w.pbmte = pbmte

/-- PPN of an address-translation register: bits 21:0 with 32 bits, else 43:0 (R101, R158). -/
def rootOf (xl : Xlen) (atp : Word) : Nat :=
  match xl with
  | .rv32 => atp.toNat % 2 ^ 22
  | .rv64 => atp.toNat % 2 ^ 44

/-- Hardware updates A and D: never, always, or as ADUE says (R209). -/
def State.UpdatesIf (s : State) (adue : Bool) : Bool :=
  s.cfg.adScheme == .svadu || (s.cfg.adScheme == .switchable && adue)

/-! ### Control and status registers -/

/-- What a CSR instruction that writes does (R239-R245): the CSR is written with `v`, x[rd] takes the value read before, all of it as in
WritesReg (log 10), the next instruction follows, and `minstret` counts the instruction unless it is inhibited or was itself written. -/
def State.CsrWrites (s : State) (i : Instr) (rd : Reg) (c : CsrRef) (v : Word) : Prop :=
  ∃ t, exec i s = .next t
    ∧ (rd ≠ 0#5 → t.regs[rd.toNat] = sx t.xlen (s.csrRead c))
    ∧ (∀ r, r ≠ rd ∨ rd = 0#5 → t.regs[r.toNat] = s.regs[r.toNat])
    ∧ t.pc = sx t.xlen (s.pc + 4)
    ∧ t = { s.csrWrite c v with
        regs := t.regs, pc := t.pc
        cnt := { (s.csrWrite c v).cnt with
          minstret := if s.countsInstret = true ∧ s.writesMinstret c = false then (s.csrWrite c v).cnt.minstret + 1
            else (s.csrWrite c v).cnt.minstret } }
    ∧ t.mem = s.mem ∧ t.priv = s.priv ∧ t.virt = s.virt ∧ t.cfg = s.cfg ∧ t.cache = s.cache
    ∧ t.reservation = s.reservation ∧ t.mtime = s.mtime ∧ t.mtimecmp = s.mtimecmp ∧ t.msip = s.msip

/-- The bits of two words agree but for those listed. -/
def SameBitsBut (w v : Word) (l : List Nat) : Prop := ∀ k, k ∉ l → bit v k = bit w k

/-- t is s after an xRET: what it leaves (R234). -/
structure State.Returns (s t : State) (p : Priv) (v : Bool) (target : Word) : Prop where
  priv : t.priv = p
  virt : t.virt = v
  pc : t.pc = sx (t.xlenAt p v) (align4 target)
  reservation : t.reservation = if s.cfg.xretClearsReservation then none else s.reservation
  counted : t.cnt.minstret = if s.countsInstret then s.cnt.minstret + 1 else s.cnt.minstret
  rest : t = { s with
    priv := t.priv, virt := t.virt, pc := t.pc, reservation := t.reservation
    mc := { s.mc with mstatus := t.mc.mstatus, mnstatus := t.mc.mnstatus }
    hc := { s.hc with hstatus := t.hc.hstatus }, vc := { s.vc with vsstatus := t.vc.vsstatus }
    cnt := { s.cnt with minstret := t.cnt.minstret } }

/-! ### Fences -/

/-- The entry is one that a walk for the address can use: same page number at the entry's level, in the scheme it was read under (R208);
a copy of a NAPOT PTE is kept for single pages of its range (R210). -/
def CacheEntry.IsFor (e : CacheEntry) (va : Nat) : Prop := e.vpn = va / 2 ^ (12 + e.scheme.vpnBits * e.level)

/-- The entry is the one at which a walk for the address ends, a leaf or an invalid PTE (R253). -/
def CacheEntry.MapsPage (e : CacheEntry) (va : Nat) : Prop := e.leaf = true ∧ e.IsFor va

/-- t is s after a fence that completes: only cache entries are dropped, exactly those that `dropped` names, and PMP results kept since
before a write of the PMP registers, exactly those that `checked` names. -/
def State.Fences (s : State) (i : Instr) (dropped : CacheEntry → Prop) (checked : PmpCopy → Prop) : Prop :=
  ∃ t, exec i s = .next t ∧ (∀ e, e ∈ t.cache ↔ e ∈ s.cache ∧ ¬ dropped e)
    ∧ (∀ c, c ∈ t.pmpCopies ↔ c ∈ s.pmpCopies ∧ ¬ checked c)
    ∧ t.pc = sx s.xlen (s.pc + 4)
    ∧ t = { s with pc := t.pc, cache := t.cache, pmpCopies := t.pmpCopies, cnt := { s.cnt with
        minstret := if s.countsInstret then s.cnt.minstret + 1 else s.cnt.minstret } }

/-- What a fence over S-level or VS-level translations drops (R253, R274): by stage, virtual machine, page and ASID; a
register number other than x0 selects; nothing for an address that is no valid virtual address. -/
def State.DropsVa (s : State) (st : Stage) (vmid : Nat) (xl : Xlen) (atp : Word) (rs1 rs2 : Reg) (e : CacheEntry) : Prop :=
  let va := zx xl (s.x rs1)
  (rs1 = 0#5 ∨ ∀ c, schemeOf xl atp = some c → canonical c va = true)
    ∧ e.stage = st ∧ e.vmid = vmid
    ∧ (rs1 = 0#5 ∨ e.MapsPage va.toNat)
    ∧ (rs2 = 0#5 ∨ ((e.asid : Nat) = (s.x rs2).toNat
          % 2 ^ (match xl with | .rv32 => Nat.min s.cfg.asidLen 9 | .rv64 => s.cfg.asidLen) ∧ e.global = false))

/-- What a fence over G-stage translations drops (R275): by guest physical address, given shifted right by 2, the entries of every
level, and by VMID. -/
def State.DropsGpa (s : State) (rs1 rs2 : Reg) (e : CacheEntry) : Prop :=
  e.stage = .g
    ∧ (rs1 = 0#5 ∨ e.IsFor (s.xNat rs1 * 4))
    ∧ (rs2 = 0#5 ∨ (e.vmid : Nat) = (s.x rs2).toNat
          % 2 ^ (match s.sxlen with | .rv32 => Nat.min s.cfg.vmidLen 7 | .rv64 => s.cfg.vmidLen))

/-- The PMP results that SFENCE.VMA and SINVAL.VMA end: with V=0 and both operands x0, those for the hart's own accesses (R199). -/
def State.EndsOwnChecks (s : State) (rs1 rs2 : Reg) (c : PmpCopy) : Prop := s.virt = false ∧ rs1 = 0#5 ∧ rs2 = 0#5 ∧ c.guest = false

/-- The PMP results that HFENCE.GVMA and HINVAL.GVMA end: with both operands x0, those for virtual machines (R199). -/
def endsGuestChecks (rs1 rs2 : Reg) (c : PmpCopy) : Prop := rs1 = 0#5 ∧ rs2 = 0#5 ∧ c.guest = true

/-! ### The states a run stays in -/

/-- What every reachable state satisfies. -/
structure State.Inv (s : State) : Prop where
  /-- the parameters obey the spec's constraints -/
  config : s.cfg.wf = true
  /-- memory is in canonical form -/
  memory : s.mem.wf = true
  /-- the pc is aligned to IALIGN = 32 (R22) -/
  pcAligned : misalignedTarget s.pc = false
  /-- the mode is implemented (R15) -/
  mode : s.supports s.priv = true
  /-- V=1 only with the hypervisor extension and never in M-mode (R16) -/
  virtual : s.virt = true → s.priv ≠ .m ∧ s.hasH = true
  /-- MPP holds an implemented mode (R54) -/
  mpp : s.mstatusMPP ≠ 2#2 ∧ s.supports (Priv.ofCode s.mstatusMPP) = true
  /-- MNPP holds an implemented mode (R134) -/
  mnpp : s.mnstatusMNPP ≠ 2#2 ∧ s.supports (Priv.ofCode s.mnstatusMNPP) = true
  /-- the saved pcs are aligned (R80, R95) -/
  epcs : align4 s.mc.mepc = s.mc.mepc ∧ align4 s.sc.sepc = s.sc.sepc ∧ align4 s.vc.vsepc = s.vc.vsepc
    ∧ align4 s.mc.mnepc = s.mc.mnepc
  /-- the vector modes are Direct or Vectored (R67, R90) -/
  tvecs : bit s.mc.mtvec 1 = false ∧ bit s.sc.stvec 1 = false ∧ bit s.vc.vstvec 1 = false

/-- The machine-level state that no instruction executed below M-mode may change, whether it completes or traps. -/
def State.SameMachineControl (s t : State) : Prop :=
  t.cfg = s.cfg ∧ t.mc.misa = s.mc.misa ∧ t.mc.medeleg = s.mc.medeleg ∧ t.mc.mideleg = s.mc.mideleg
    ∧ t.mc.mtvec = s.mc.mtvec ∧ t.mc.mcounteren = s.mc.mcounteren ∧ t.mc.mscratch = s.mc.mscratch
    ∧ t.mc.menvcfg = s.mc.menvcfg ∧ t.mc.mseccfg = s.mc.mseccfg ∧ t.mc.mstateen = s.mc.mstateen
    ∧ t.mc.miselect = s.mc.miselect ∧ t.mc.pmpcfg = s.mc.pmpcfg ∧ t.mc.pmpaddr = s.mc.pmpaddr
    ∧ t.mc.mnscratch = s.mc.mnscratch ∧ t.mc.mnepc = s.mc.mnepc ∧ t.mc.mncause = s.mc.mncause
    ∧ t.mc.mnstatus = s.mc.mnstatus

end Sys2Proof.Machine
end

