-- ==== Sys2Proof/Certificates/Slice0/Obligations.lean ====
section
/-! DEFINITION. The statements for the provers. Each formalises rules of spec/, or says so where it is the model's choice. -/

open Sys2Proof Sys2Proof.Machine

/-! ### Encoding -/

/-- Decoding an encoded well-formed instruction gives it back, whatever bytes follow (R224-R227, R278). -/
def Obligations.DecodeInvertsEncode : Prop :=
  ∀ (i : Instr) (rest : List Byte), i.wf = true → decode (bytesOfWord (encode i) ++ rest) = .ok (i, rest)

/-- A word that decodes is the encoding of the well-formed instruction it decodes to: no word has two readings, no bit of a
word is dropped (R224-R230, R278). -/
def Obligations.EncodeInvertsDecode : Prop :=
  ∀ (w : BitVec 32) (i : Instr), decodeWord w = .ok i → encode i = w ∧ i.wf = true

/-- Words written out from the spec's examples decode to the instructions they stand for. -/
def Obligations.WrittenWordsDecode : Prop :=
  decodeWord 0x00000073 = .ok .ecall ∧ decodeWord 0x30200073 = .ok .mret ∧ decodeWord 0x34029373 = .ok (.csrrw 6 0x340 5)
    ∧ decodeWord 0x12B50073 = .ok (.sfenceVma 10 11) ∧ decodeWord 0x62B54073 = .ok (.hsvB 10 11)
    ∧ decodeWord 0x62B50073 = .ok (.hfenceGvma 10 11) ∧ decodeWord 0x0082A303 = .ok (.lw 6 5 8)
    ∧ decodeWord 0x0062A623 = .ok (.sw 5 6 12) ∧ decodeWord 0xFE009EE3 = .ok (.bne 1 0 0x1FFC)
    ∧ decodeWord 0x800002B7 = .ok (.lui 5 0x80000) ∧ decodeWord 0x406283B3 = .ok (.sub 7 5 6)
    ∧ decodeWord 0x0330000F = .ok (.fence 0 0 0 3 3)

/-! ### One step -/

/-- Where no interrupt is taken and the four bytes the fetch reaches decode to i, the step is i, executed in the state after
time has passed, a WFI that stalled the hart has ended, and the fetch has walked the page tables; with no hardware A/D updates and
no stall that is the state `s.tick` itself. A hart that goes on with a WFI is in WaitForInterruptByMode. -/
def Obligations.StepRunsDecodedInstruction : Prop :=
  ∀ (s t : State) (pa : Nat) (rs : List Region) (i : Instr) (rest : List Byte), s.tick.stalled = false →
    let u := s.tick.woken
    u.nonMaskable = none → u.interrupt = none →
    u.reach u.fetchAccess u.fetchAccess.va 4 = .ok (pa, rs, t) →
    decode (t.physRead pa 4) = .ok (i, rest) →
    step s = exec i t ∧ u.OnlyMemory t ∧ (s.waited = 0 → u = s.tick) ∧ (u.wellKeptTables = true → t = u)

/-- Every next state satisfies the invariant if the state before does: memory in canonical form, the pc and the saved pcs
aligned, the mode implemented, V only with the hypervisor extension, MPP and MNPP legal, vector modes legal. -/
def Obligations.EveryStepKeepsInvariant : Prop :=
  ∀ s t : State, s.Inv → step s = .next t → t.Inv

/-- The machine right after reset satisfies the invariant. -/
def Obligations.ResetSatisfiesInvariant : Prop := State.reset.Inv

/-! ### Integer arithmetic -/

/-- LUI and AUIPC (R279, R280). The result fills rd up to the widest XLEN (R57), as in the statements below. -/
def Obligations.UpperImmediates : Prop :=
  ∀ (s : State) (rd : Reg) (imm : BitVec 20),
    (Encodes (.lui rd imm) 0x0000007F 0x00000037 ∧ s.Yields (.lui rd imm) rd fun v =>
        v.toInt = Int.bmod (imm.toNat * 2 ^ 12 : Nat) (2 ^ 32))
    ∧ (Encodes (.auipc rd imm) 0x0000007F 0x00000017 ∧ s.Yields (.auipc rd imm) rd fun v =>
        (s.low v : Int) = (s.pc.toInt + Int.bmod (imm.toNat * 2 ^ 12 : Nat) (2 ^ 32)) % s.modulus)

/-- ADDI, SLTI, SLTIU, XORI, ORI, ANDI, modulo 2^XLEN (R300-R305); SLLI, SRLI, SRAI, where with XLEN=32 an amount with bit 5 set is
an illegal instruction (R306-R308). The result fills rd up to the widest XLEN (R57); that it does so for the HINT forms too, which
R57 leaves open, is the model's choice (log 10). -/
def Obligations.ImmediateArithmetic : Prop :=
  ∀ (s : State) (rd rs1 : Reg) (imm : BitVec 12) (sh : BitVec 6),
    (Encodes (.addi rd rs1 imm) 0x0000707F 0x00000013 ∧ s.Yields (.addi rd rs1 imm) rd fun v =>
        (s.low v : Int) = (s.xInt rs1 + imm.toInt) % s.modulus)
    ∧ (Encodes (.slti rd rs1 imm) 0x0000707F 0x00002013 ∧ s.Yields (.slti rd rs1 imm) rd fun v =>
        v.toNat = if s.xInt rs1 < imm.toInt then 1 else 0)
    ∧ (Encodes (.sltiu rd rs1 imm) 0x0000707F 0x00003013 ∧ s.Yields (.sltiu rd rs1 imm) rd fun v =>
        v.toNat = if (s.xNat rs1 : Int) < imm.toInt % s.modulus then 1 else 0)
    ∧ (Encodes (.xori rd rs1 imm) 0x0000707F 0x00004013 ∧ s.Yields (.xori rd rs1 imm) rd fun v =>
        ∀ k, k < 64 → v.getLsbD k = ((s.x rs1).getLsbD k ^^ imm.getLsbD (min k 11)))
    ∧ (Encodes (.ori rd rs1 imm) 0x0000707F 0x00006013 ∧ s.Yields (.ori rd rs1 imm) rd fun v =>
        ∀ k, k < 64 → v.getLsbD k = ((s.x rs1).getLsbD k || imm.getLsbD (min k 11)))
    ∧ (Encodes (.andi rd rs1 imm) 0x0000707F 0x00007013 ∧ s.Yields (.andi rd rs1 imm) rd fun v =>
        ∀ k, k < 64 → v.getLsbD k = ((s.x rs1).getLsbD k && imm.getLsbD (min k 11)))
    ∧ Encodes (.slli rd rs1 sh) 0xFC00707F 0x00001013 ∧ Encodes (.srli rd rs1 sh) 0xFC00707F 0x00005013
    ∧ Encodes (.srai rd rs1 sh) 0xFC00707F 0x40005013
    ∧ if s.xlen = .rv32 ∧ 32 ≤ sh.toNat then
        s.IsIllegal (.slli rd rs1 sh) ∧ s.IsIllegal (.srli rd rs1 sh) ∧ s.IsIllegal (.srai rd rs1 sh)
      else
        (s.Yields (.slli rd rs1 sh) rd fun v => s.low v = s.xNat rs1 * 2 ^ sh.toNat % s.modulus)
        ∧ (s.Yields (.srli rd rs1 sh) rd fun v => s.low v = s.xNat rs1 / 2 ^ sh.toNat)
        ∧ (s.Yields (.srai rd rs1 sh) rd fun v => v.toInt = s.xInt rs1 / 2 ^ sh.toNat)

/-- ADD, SUB, SLL, SLT, SLTU, XOR, SRL, SRA, OR, AND, modulo 2^XLEN, shift amounts modulo XLEN (R309-R318). As in ImmediateArithmetic,
that the HINT forms fill rd up to the widest XLEN is the model's choice (R57, log 10). -/
def Obligations.RegisterArithmetic : Prop :=
  ∀ (s : State) (rd rs1 rs2 : Reg),
    (Encodes (.add rd rs1 rs2) 0xFE00707F 0x00000033 ∧ s.Yields (.add rd rs1 rs2) rd fun v =>
        s.low v = (s.xNat rs1 + s.xNat rs2) % s.modulus)
    ∧ (Encodes (.sub rd rs1 rs2) 0xFE00707F 0x40000033 ∧ s.Yields (.sub rd rs1 rs2) rd fun v =>
        (s.low v : Int) = ((s.xNat rs1 : Int) - s.xNat rs2) % s.modulus)
    ∧ (Encodes (.sll rd rs1 rs2) 0xFE00707F 0x00001033 ∧ s.Yields (.sll rd rs1 rs2) rd fun v =>
        s.low v = s.xNat rs1 * 2 ^ (s.xNat rs2 % s.xlen.bits) % s.modulus)
    ∧ (Encodes (.slt rd rs1 rs2) 0xFE00707F 0x00002033 ∧ s.Yields (.slt rd rs1 rs2) rd fun v =>
        v.toNat = if s.xInt rs1 < s.xInt rs2 then 1 else 0)
    ∧ (Encodes (.sltu rd rs1 rs2) 0xFE00707F 0x00003033 ∧ s.Yields (.sltu rd rs1 rs2) rd fun v =>
        v.toNat = if s.xNat rs1 < s.xNat rs2 then 1 else 0)
    ∧ (Encodes (.xor rd rs1 rs2) 0xFE00707F 0x00004033 ∧ s.Yields (.xor rd rs1 rs2) rd fun v =>
        ∀ k, k < 64 → v.getLsbD k = ((s.x rs1).getLsbD k ^^ (s.x rs2).getLsbD k))
    ∧ (Encodes (.srl rd rs1 rs2) 0xFE00707F 0x00005033 ∧ s.Yields (.srl rd rs1 rs2) rd fun v =>
        s.low v = s.xNat rs1 / 2 ^ (s.xNat rs2 % s.xlen.bits))
    ∧ (Encodes (.sra rd rs1 rs2) 0xFE00707F 0x40005033 ∧ s.Yields (.sra rd rs1 rs2) rd fun v =>
        v.toInt = s.xInt rs1 / 2 ^ (s.xNat rs2 % s.xlen.bits))
    ∧ (Encodes (.or rd rs1 rs2) 0xFE00707F 0x00006033 ∧ s.Yields (.or rd rs1 rs2) rd fun v =>
        ∀ k, k < 64 → v.getLsbD k = ((s.x rs1).getLsbD k || (s.x rs2).getLsbD k))
    ∧ (Encodes (.and rd rs1 rs2) 0xFE00707F 0x00007033 ∧ s.Yields (.and rd rs1 rs2) rd fun v =>
        ∀ k, k < 64 → v.getLsbD k = ((s.x rs1).getLsbD k && (s.x rs2).getLsbD k))

/-- The RV64I word instructions: the result of the low 32 bits, sign-extended (R319-R327). -/
def Obligations.WordArithmetic : Prop :=
  ∀ (s : State) (rd rs1 rs2 : Reg) (imm : BitVec 12) (sh : BitVec 5), s.xlen = .rv64 →
    (Encodes (.addiw rd rs1 imm) 0x0000707F 0x0000001B ∧ s.Yields (.addiw rd rs1 imm) rd fun v =>
        v.toInt = Int.bmod (s.xInt rs1 + imm.toInt) (2 ^ 32))
    ∧ (Encodes (.slliw rd rs1 sh) 0xFE00707F 0x0000101B ∧ s.Yields (.slliw rd rs1 sh) rd fun v =>
        v.toInt = Int.bmod (s.xNat rs1 % 2 ^ 32 * 2 ^ sh.toNat : Nat) (2 ^ 32))
    ∧ (Encodes (.srliw rd rs1 sh) 0xFE00707F 0x0000501B ∧ s.Yields (.srliw rd rs1 sh) rd fun v =>
        v.toInt = Int.bmod (s.xNat rs1 % 2 ^ 32 / 2 ^ sh.toNat : Nat) (2 ^ 32))
    ∧ (Encodes (.sraiw rd rs1 sh) 0xFE00707F 0x4000501B ∧ s.Yields (.sraiw rd rs1 sh) rd fun v =>
        v.toInt = Int.bmod (s.xNat rs1) (2 ^ 32) / 2 ^ sh.toNat)
    ∧ (Encodes (.addw rd rs1 rs2) 0xFE00707F 0x0000003B ∧ s.Yields (.addw rd rs1 rs2) rd fun v =>
        v.toInt = Int.bmod (s.xInt rs1 + s.xInt rs2) (2 ^ 32))
    ∧ (Encodes (.subw rd rs1 rs2) 0xFE00707F 0x4000003B ∧ s.Yields (.subw rd rs1 rs2) rd fun v =>
        v.toInt = Int.bmod (s.xInt rs1 - s.xInt rs2) (2 ^ 32))
    ∧ (Encodes (.sllw rd rs1 rs2) 0xFE00707F 0x0000103B ∧ s.Yields (.sllw rd rs1 rs2) rd fun v =>
        v.toInt = Int.bmod (s.xNat rs1 % 2 ^ 32 * 2 ^ (s.xNat rs2 % 32) : Nat) (2 ^ 32))
    ∧ (Encodes (.srlw rd rs1 rs2) 0xFE00707F 0x0000503B ∧ s.Yields (.srlw rd rs1 rs2) rd fun v =>
        v.toInt = Int.bmod (s.xNat rs1 % 2 ^ 32 / 2 ^ (s.xNat rs2 % 32) : Nat) (2 ^ 32))
    ∧ (Encodes (.sraw rd rs1 rs2) 0xFE00707F 0x4000503B ∧ s.Yields (.sraw rd rs1 rs2) rd fun v =>
        v.toInt = Int.bmod (s.xNat rs1) (2 ^ 32) / 2 ^ (s.xNat rs2 % 32))

/-- With XLEN=32 the RV64-only words raise illegal instruction (R230 and the RV64-only clauses of R266, R267, R273, R294,
R295, R299, and of section 7 of 45_base_integer_assumed.md), but that HLV.WU, HLV.D and HSV.D with V=1 are judged by HSXLEN: illegal
where it is 32 too, and virtual instructions where it is 64, as HypervisorPermissions says (R230, R347, read together: log 47). -/
def Obligations.WordsOfRv64AreIllegalOnRv32 : Prop :=
  ∀ (s : State) (rd rs1 rs2 : Reg) (imm : BitVec 12) (sh : BitVec 5), s.xlen = .rv32 →
    ∀ i ∈ [Instr.addiw rd rs1 imm, .slliw rd rs1 sh, .srliw rd rs1 sh, .sraiw rd rs1 sh, .addw rd rs1 rs2,
        .subw rd rs1 rs2, .sllw rd rs1 rs2, .srlw rd rs1 rs2, .sraw rd rs1 rs2, .lwu rd rs1 imm, .ld rd rs1 imm,
        .sd rs1 rs2 imm]
        ++ (if s.virt = false ∨ s.sxlen = .rv32 then [Instr.hlvWu rd rs1, .hlvD rd rs1, .hsvD rs1 rs2] else []),
      s.IsIllegal i

/-! ### Control flow -/

/-- JAL and JALR: an aligned target is jumped to with the link; a misaligned one raises instruction-address-misaligned on
the jump, which then writes nothing of its own (R281, R282). The link fills rd up to the widest XLEN (R57). -/
def Obligations.Jumps : Prop :=
  ∀ (s : State) (rd rs1 : Reg) (off : BitVec 21) (imm : BitVec 12),
    (Encodes (.jal rd off) 0x0000007F 0x0000006F ∧
      let target := s.pc + off.signExtend 64
      if target.toNat % 4 = 0 then ∃ t, exec (.jal rd off) s = .next t ∧ s.WritesReg t rd (s.pc + 4) target
      else s.Raises (.jal rd off) ⟨.instrMisaligned, zx s.xlen target, s.virt, 0, 0⟩)
    ∧ (Encodes (.jalr rd rs1 imm) 0x0000707F 0x00000067 ∧
      let target := setBit (s.x rs1 + imm.signExtend 64) 0 false
      if target.toNat % 4 = 0 then ∃ t, exec (.jalr rd rs1 imm) s = .next t ∧ s.WritesReg t rd (s.pc + 4) target
      else s.Raises (.jalr rd rs1 imm) ⟨.instrMisaligned, zx s.xlen target, s.virt, 0, 0⟩)

/-- The conditional branches: taken on their condition, to an aligned target, or raising instruction-address-misaligned; not
taken, they never raise (R283-R288). -/
def Obligations.Branches : Prop :=
  ∀ (s : State) (rs1 rs2 : Reg) (off : BitVec 13),
    let target := s.pc + off.signExtend 64
    let does (i : Instr) (m : BitVec 32) (taken : Prop) : Prop :=
      Encodes i 0x0000707F m
      ∧ (taken → target.toNat % 4 = 0 → ∃ t, exec i s = .next t ∧ s.Advances t target)
      ∧ (taken → target.toNat % 4 ≠ 0 → s.Raises i ⟨.instrMisaligned, zx s.xlen target, s.virt, 0, 0⟩)
      ∧ (¬ taken → ∃ t, exec i s = .next t ∧ s.Advances t (s.pc + 4))
    does (.beq rs1 rs2 off) 0x00000063 (s.xNat rs1 = s.xNat rs2)
    ∧ does (.bne rs1 rs2 off) 0x00001063 (s.xNat rs1 ≠ s.xNat rs2)
    ∧ does (.blt rs1 rs2 off) 0x00004063 (s.xInt rs1 < s.xInt rs2)
    ∧ does (.bge rs1 rs2 off) 0x00005063 (s.xInt rs1 ≥ s.xInt rs2)
    ∧ does (.bltu rs1 rs2 off) 0x00006063 (s.xNat rs1 < s.xNat rs2)
    ∧ does (.bgeu rs1 rs2 off) 0x00007063 (s.xNat rs1 ≥ s.xNat rs2)

/-! ### Loads and stores -/

/-- What an explicit access is made with: without MPRV the current mode, under MPRV that of MPP and MPV (R58, R165; MPRV is
ignored while NMIE is 0, R134), for HLV and HSV VS or VU by SPVP (R260); a fetch always in the current mode (R23). The address
is one of that mode's XLEN (log 33); the byte order is that of the table of R173. -/
def Obligations.AccessesAreMadeInTheirMode : Prop :=
  ∀ (s : State) (need : Need) (n : Nat) (addr form : Word),
    let a := s.plainAccess need n addr form
    let g := s.guestAccess need n addr form
    let f := s.fetchAccess
    let relocated := s.priv = .m ∧ bit s.mc.mstatus 17 = true ∧ (s.cfg.smrnmi = true → bit s.mc.mnstatus 3 = true)
    (a.need = need ∧ a.width = n ∧ g.need = need ∧ g.width = n ∧ f.need = .fetch ∧ f.width = 4)
    ∧ (¬ relocated → a.p = s.priv ∧ a.v = s.virt ∧ a.va = zx s.xlen addr)
    ∧ (relocated →
        (field s.mc.mstatus 11 2 = 3#2 → a.p = .m ∧ a.v = false)
        ∧ (field s.mc.mstatus 11 2 = 1#2 → a.p = .s ∧ a.v = (s.hasH && bit s.mc.mstatus 39))
        ∧ (field s.mc.mstatus 11 2 = 0#2 → a.p = .u ∧ a.v = (s.hasH && bit s.mc.mstatus 39))
        ∧ a.va = zx (s.xlenAt a.p a.v) (zx s.xlen addr))
    ∧ (g.v = true ∧ g.p = (if bit s.hc.hstatus 8 then Priv.s else Priv.u) ∧ g.va = zx (s.xlenAt g.p true) (zx s.xlen addr))
    ∧ (f.p = s.priv ∧ f.v = s.virt ∧ f.va = zx s.xlen s.pc)
    ∧ (∀ v, s.bigEndian .m v = bit s.mc.mstatus 37)
    ∧ s.bigEndian .s false = bit s.mc.mstatus 36 ∧ s.bigEndian .u false = bit s.mc.mstatus 6
    ∧ s.bigEndian .s true = bit s.hc.hstatus 5 ∧ s.bigEndian .u true = bit s.vc.vsstatus 6

/-- The loads complete with the value of the bytes they reach, in the byte order of the access (R289-R295; where XLEN=32 LWU
and LD are illegal instructions: WordsOfRv64AreIllegalOnRv32); the value fills rd up to the widest XLEN (R57). -/
def Obligations.LoadsComplete : Prop :=
  ∀ (s : State) (rd rs1 : Reg) (imm : BitVec 12),
    let at_ (i : Instr) (n : Nat) := s.plainAccess .load n (s.x rs1 + imm.signExtend 64) (loadForm i)
    (Encodes (.lb rd rs1 imm) 0x0000707F 0x00000003 ∧
      s.LoadsBy (.lb rd rs1 imm) (at_ (.lb rd rs1 imm) 1) rd (signedOf 1))
    ∧ (Encodes (.lh rd rs1 imm) 0x0000707F 0x00001003 ∧
      s.LoadsBy (.lh rd rs1 imm) (at_ (.lh rd rs1 imm) 2) rd (signedOf 2))
    ∧ (Encodes (.lw rd rs1 imm) 0x0000707F 0x00002003 ∧
      s.LoadsBy (.lw rd rs1 imm) (at_ (.lw rd rs1 imm) 4) rd (signedOf 4))
    ∧ (Encodes (.lbu rd rs1 imm) 0x0000707F 0x00004003 ∧
      s.LoadsBy (.lbu rd rs1 imm) (at_ (.lbu rd rs1 imm) 1) rd unsignedOf)
    ∧ (Encodes (.lhu rd rs1 imm) 0x0000707F 0x00005003 ∧
      s.LoadsBy (.lhu rd rs1 imm) (at_ (.lhu rd rs1 imm) 2) rd unsignedOf)
    ∧ (Encodes (.lwu rd rs1 imm) 0x0000707F 0x00006003 ∧ (s.xlen = .rv64 →
      s.LoadsBy (.lwu rd rs1 imm) (at_ (.lwu rd rs1 imm) 4) rd unsignedOf))
    ∧ (Encodes (.ld rd rs1 imm) 0x0000707F 0x00003003 ∧ (s.xlen = .rv64 →
      s.LoadsBy (.ld rd rs1 imm) (at_ (.ld rd rs1 imm) 8) rd unsignedOf))

/-- The stores complete: the bytes they reach take the low bytes of x[rs2], every other byte stays (R296-R299). That byte k of
`mtime` and `mtimecmp` is bits 8k up of the register is the model's choice (log 20; R174 leaves the layout to the platform). -/
def Obligations.StoresComplete : Prop :=
  ∀ (s : State) (rs1 rs2 : Reg) (imm : BitVec 12),
    let at_ (i : Instr) (n : Nat) := s.plainAccess .store n (s.x rs1 + imm.signExtend 64) (storeForm i)
    (Encodes (.sb rs1 rs2 imm) 0x0000707F 0x00000023 ∧
      s.StoresBy (.sb rs1 rs2 imm) (at_ (.sb rs1 rs2 imm) 1) (s.x rs2))
    ∧ (Encodes (.sh rs1 rs2 imm) 0x0000707F 0x00001023 ∧
      s.StoresBy (.sh rs1 rs2 imm) (at_ (.sh rs1 rs2 imm) 2) (s.x rs2))
    ∧ (Encodes (.sw rs1 rs2 imm) 0x0000707F 0x00002023 ∧
      s.StoresBy (.sw rs1 rs2 imm) (at_ (.sw rs1 rs2 imm) 4) (s.x rs2))
    ∧ (Encodes (.sd rs1 rs2 imm) 0x0000707F 0x00003023 ∧ (s.xlen = .rv64 →
      s.StoresBy (.sd rs1 rs2 imm) (at_ (.sd rs1 rs2 imm) 8) (s.x rs2)))

/-- The virtual-machine loads complete, where they are permitted, with an access made with V=1 at the privilege of
hstatus.SPVP (R260-R269; HLV.WU and HLV.D with XLEN=32: WordsOfRv64AreIllegalOnRv32); the value fills rd (R57). -/
def Obligations.VirtualMachineLoadsComplete : Prop :=
  ∀ (s : State) (rd rs1 : Reg), s.hasH = true → s.virt = false → (s.priv = .u → s.hstatusHU = true) →
    let at_ (i : Instr) (need : Need) (n : Nat) := s.guestAccess need n (s.x rs1) (guestForm i)
    (Encodes (.hlvB rd rs1) 0xFFF0707F 0x60004073 ∧
      s.LoadsBy (.hlvB rd rs1) (at_ (.hlvB rd rs1) .load 1) rd (signedOf 1))
    ∧ (Encodes (.hlvBu rd rs1) 0xFFF0707F 0x60104073 ∧
      s.LoadsBy (.hlvBu rd rs1) (at_ (.hlvBu rd rs1) .load 1) rd unsignedOf)
    ∧ (Encodes (.hlvH rd rs1) 0xFFF0707F 0x64004073 ∧
      s.LoadsBy (.hlvH rd rs1) (at_ (.hlvH rd rs1) .load 2) rd (signedOf 2))
    ∧ (Encodes (.hlvHu rd rs1) 0xFFF0707F 0x64104073 ∧
      s.LoadsBy (.hlvHu rd rs1) (at_ (.hlvHu rd rs1) .load 2) rd unsignedOf)
    ∧ (Encodes (.hlvW rd rs1) 0xFFF0707F 0x68004073 ∧
      s.LoadsBy (.hlvW rd rs1) (at_ (.hlvW rd rs1) .load 4) rd (signedOf 4))
    ∧ (Encodes (.hlvWu rd rs1) 0xFFF0707F 0x68104073 ∧ (s.xlen = .rv64 →
      s.LoadsBy (.hlvWu rd rs1) (at_ (.hlvWu rd rs1) .load 4) rd unsignedOf))
    ∧ (Encodes (.hlvD rd rs1) 0xFFF0707F 0x6C004073 ∧ (s.xlen = .rv64 →
      s.LoadsBy (.hlvD rd rs1) (at_ (.hlvD rd rs1) .load 8) rd unsignedOf))
    ∧ (Encodes (.hlvxHu rd rs1) 0xFFF0707F 0x64304073 ∧
      s.LoadsBy (.hlvxHu rd rs1) (at_ (.hlvxHu rd rs1) .execLoad 2) rd unsignedOf)
    ∧ (Encodes (.hlvxWu rd rs1) 0xFFF0707F 0x68304073 ∧
      s.LoadsBy (.hlvxWu rd rs1) (at_ (.hlvxWu rd rs1) .execLoad 4) rd unsignedOf)

/-- The virtual-machine stores complete where they are permitted (R260, R270-R273). The layout of `mtime` and `mtimecmp` is the
model's choice (log 20), as in StoresComplete. -/
def Obligations.VirtualMachineStoresComplete : Prop :=
  ∀ (s : State) (rs1 rs2 : Reg), s.hasH = true → s.virt = false → (s.priv = .u → s.hstatusHU = true) →
    let at_ (i : Instr) (n : Nat) := s.guestAccess .store n (s.x rs1) (guestForm i)
    (Encodes (.hsvB rs1 rs2) 0xFE007FFF 0x62004073 ∧
      s.StoresBy (.hsvB rs1 rs2) (at_ (.hsvB rs1 rs2) 1) (s.x rs2))
    ∧ (Encodes (.hsvH rs1 rs2) 0xFE007FFF 0x66004073 ∧
      s.StoresBy (.hsvH rs1 rs2) (at_ (.hsvH rs1 rs2) 2) (s.x rs2))
    ∧ (Encodes (.hsvW rs1 rs2) 0xFE007FFF 0x6A004073 ∧
      s.StoresBy (.hsvW rs1 rs2) (at_ (.hsvW rs1 rs2) 4) (s.x rs2))
    ∧ (Encodes (.hsvD rs1 rs2) 0xFE007FFF 0x6E004073 ∧ (s.xlen = .rv64 →
      s.StoresBy (.hsvD rs1 rs2) (at_ (.hsvD rs1 rs2) 8) (s.x rs2)))

/-- What the loads and stores do when they do not complete: misaligned on a hart that does not attempt misaligned accesses, or
turned away by translation, PMP or PMA, or at a device the spec does not describe (R172, R175, R205, R217, R342-R345). The
exception finds the state before the access, so that A and D bits its walk has set are not left set: R331 and section 4 of
45_base_integer_assumed.md, read so by log 16; but a misaligned store may have stored some of its bytes (R176), none where all lie in
one misaligned atomicity granule (R180), and a misaligned access names any portion that faults by itself (R176, R342; log 15). Trap values as logs 11 and 12; the test for alignment first is log 15. -/
def Obligations.AbortedAccessesRaise : Prop :=
  ∀ (s : State) (rd rs1 rs2 : Reg) (imm : BitVec 12),
    let addr := s.x rs1 + imm.signExtend 64
    let load (i : Instr) (n : Nat) :=
      s.LoadFaultsBy i (s.plainAccess .load n addr (loadForm i))
        ∧ s.MisalignsBy i (s.plainAccess .load n addr (loadForm i)) .loadMisaligned
    let store (i : Instr) (n : Nat) :=
      s.StoreFaultsBy i (s.plainAccess .store n addr (storeForm i)) (s.x rs2)
        ∧ s.MisalignsBy i (s.plainAccess .store n addr (storeForm i)) .storeMisaligned
    load (.lb rd rs1 imm) 1 ∧ load (.lh rd rs1 imm) 2 ∧ load (.lw rd rs1 imm) 4 ∧ load (.lbu rd rs1 imm) 1
      ∧ load (.lhu rd rs1 imm) 2 ∧ store (.sb rs1 rs2 imm) 1 ∧ store (.sh rs1 rs2 imm) 2 ∧ store (.sw rs1 rs2 imm) 4
      ∧ (s.xlen = .rv64 → load (.lwu rd rs1 imm) 4 ∧ load (.ld rd rs1 imm) 8 ∧ store (.sd rs1 rs2 imm) 8)

/-- The same for the virtual-machine loads and stores, where they are permitted (R260): the exceptions are those of a load
or a store, also for HLVX (R268), and the address is a guest virtual address. The state the exception finds, the trap values and
the order of the tests are the same (R176, R331; logs 11, 12, 15, 16). -/
def Obligations.AbortedVirtualMachineAccessesRaise : Prop :=
  ∀ (s : State) (rd rs1 rs2 : Reg), s.hasH = true → s.virt = false → (s.priv = .u → s.hstatusHU = true) →
    let load (i : Instr) (need : Need) (n : Nat) :=
      s.LoadFaultsBy i (s.guestAccess need n (s.x rs1) (guestForm i))
        ∧ s.MisalignsBy i (s.guestAccess need n (s.x rs1) (guestForm i)) .loadMisaligned
    let store (i : Instr) (n : Nat) :=
      s.StoreFaultsBy i (s.guestAccess .store n (s.x rs1) (guestForm i)) (s.x rs2)
        ∧ s.MisalignsBy i (s.guestAccess .store n (s.x rs1) (guestForm i)) .storeMisaligned
    load (.hlvB rd rs1) .load 1 ∧ load (.hlvBu rd rs1) .load 1 ∧ load (.hlvH rd rs1) .load 2
      ∧ load (.hlvHu rd rs1) .load 2 ∧ load (.hlvW rd rs1) .load 4 ∧ load (.hlvxHu rd rs1) .execLoad 2
      ∧ load (.hlvxWu rd rs1) .execLoad 4 ∧ store (.hsvB rs1 rs2) 1 ∧ store (.hsvH rs1 rs2) 2 ∧ store (.hsvW rs1 rs2) 4
      ∧ (s.xlen = .rv64 → load (.hlvWu rd rs1) .load 4 ∧ load (.hlvD rd rs1) .load 8 ∧ store (.hsvD rs1 rs2) 8)

/-- An access that crosses a page boundary is made in two parts, each translated and checked on its own (R176; that the split is
there, and the first part first, is log 15), but that one misaligned atomicity granule may hold the bytes of both (R180): a load
joins their bytes in rd (R57), a store stores both; where a part faults the exception names it, or any portion of
it that faults by itself, but of a guest-page fault in the second page the page boundary (R220), in the state before the access (log 16)
or, for a store, in one in which some of its bytes are stored, which of them being open. Trap values as logs 11 and 12. -/
def Obligations.SplitAccessesHaveTwoParts : Prop :=
  ∀ (s : State) (rd rs1 rs2 : Reg) (imm : BitVec 12),
    let load (i : Instr) (n : Nat) (P : Nat → Word → Prop) :=
      s.SplitLoadsBy i (s.plainAccess .load n (s.x rs1 + imm.signExtend 64) (loadForm i)) rd P
    let store (i : Instr) (n : Nat) :=
      s.SplitStoresBy i (s.plainAccess .store n (s.x rs1 + imm.signExtend 64) (storeForm i)) (s.x rs2)
    let guestLoad (i : Instr) (need : Need) (n : Nat) (P : Nat → Word → Prop) :=
      s.SplitLoadsBy i (s.guestAccess need n (s.x rs1) (guestForm i)) rd P
    let guestStore (i : Instr) (n : Nat) :=
      s.SplitStoresBy i (s.guestAccess .store n (s.x rs1) (guestForm i)) (s.x rs2)
    load (.lh rd rs1 imm) 2 (signedOf 2) ∧ load (.lw rd rs1 imm) 4 (signedOf 4) ∧ load (.lhu rd rs1 imm) 2 unsignedOf
    ∧ store (.sh rs1 rs2 imm) 2 ∧ store (.sw rs1 rs2 imm) 4
    ∧ (s.xlen = .rv64 → load (.lwu rd rs1 imm) 4 unsignedOf ∧ load (.ld rd rs1 imm) 8 unsignedOf
        ∧ store (.sd rs1 rs2 imm) 8)
    ∧ (s.hasH = true → s.virt = false → (s.priv = .u → s.hstatusHU = true) →
        guestLoad (.hlvH rd rs1) .load 2 (signedOf 2) ∧ guestLoad (.hlvHu rd rs1) .load 2 unsignedOf
        ∧ guestLoad (.hlvW rd rs1) .load 4 (signedOf 4) ∧ guestLoad (.hlvxHu rd rs1) .execLoad 2 unsignedOf
        ∧ guestLoad (.hlvxWu rd rs1) .execLoad 4 unsignedOf
        ∧ guestStore (.hsvH rs1 rs2) 2 ∧ guestStore (.hsvW rs1 rs2) 4
        ∧ (s.xlen = .rv64 → guestLoad (.hlvWu rd rs1) .load 4 unsignedOf ∧ guestLoad (.hlvD rd rs1) .load 8 unsignedOf
            ∧ guestStore (.hsvD rs1 rs2) 8))

/-! ### Physical memory -/

/-- An access of effective privilege M is untranslated: it reaches the physical address equal to its own, where the region of
every byte supports it and PMP permits it, and raises an access fault elsewhere (R168, R171, R172, R175, R178-R180); main memory is
idempotent (R179). That
support is asked of each byte's own region is R171; which of two regions holds a byte is log 5. Only whole accesses are meant:
the parts of a split one are judged as log 15 says. The PMP registers are the current ones, but on a hart that keeps results of checks
those since before a write may decide until the fence, which being open (R199, R356; log 57). -/
def Obligations.MachineAccessesAreUntranslated : Prop :=
  ∀ (s : State) (a : Access), a.p = .m →
    let va := a.va.toNat
    let touches (b : Nat) : Prop := va ≤ b ∧ b < va + a.width
    let aligned : Prop := va % a.width = 0
    let granule (r : Region) : Prop := ∃ g, r.granule = some g ∧ va / g = (va + a.width - 1) / g
    let wide (r : Region) (widths : List Nat) : Prop := a.width ∈ widths ∧ (aligned ∨ a.width ∈ r.misaligned ∨ granule r)
    let supports (r : Region) : Prop :=
      (a.need = .fetch → a.width ∈ r.exec) ∧ (a.need = .load → wide r r.reads) ∧ (a.need = .store → wide r r.writes)
      ∧ (a.need = .execLoad → a.width ∈ r.exec ∧ wide r r.reads)
    let idempotent (r : Region) : Prop :=
      r.kind = .main ∨ (if a.need = .store then r.idempotentWrites else r.idempotentReads) = true
    let faults := s.reach a a.va a.width = .error .access
    (s.pmpCopies = [] ∨ s.cfg.tlb = false → s.pmpViews a.v = [s])
    ∧ ∃ x ∈ s.pmpViews a.v, let permitted := x.pmpAllows va a.width .m a.need = true
    ((∃ b, touches b ∧ s.regionAt b = none) → faults)
    ∧ ((∃ b r, touches b ∧ s.regionAt b = some r ∧ ¬ supports r) → faults)
    ∧ (¬ permitted → faults)
    ∧ ((∀ b, touches b → ∃ r, s.regionAt b = some r ∧ supports r) → permitted →
        (¬ aligned → (∃ b r, touches b ∧ s.regionAt b = some r ∧ ¬ idempotent r) →
          (∃ b r, touches b ∧ s.regionAt b = some r ∧ ¬ granule r) → faults)
        ∧ (aligned ∨ (∀ b r, touches b → s.regionAt b = some r → idempotent r)
              ∨ (∀ b r, touches b → s.regionAt b = some r → granule r) →
            ((∃ b r, touches b ∧ s.regionAt b = some r ∧ r.kind = .io) →
              s.reach a a.va a.width = .error (.stop (.undescribedDevice va)))
            ∧ ((∀ b r, touches b → s.regionAt b = some r → r.kind ≠ .io) → ∃ rs, s.reach a a.va a.width = .ok (va, rs, s))))

/-- PMP (R195, and with Smepmp R197 and R198): the lowest-numbered entry that matches any byte decides; it must match every byte,
and permits the access by R, W and X, an unlocked one anything to M-mode, or, under MML, as Table 6.1 says for each mode; with
no match S and U fail, and M-mode succeeds unless MMWP denies it or MML denies it execution. The accesses are those with one
type: HLVX, which needs two, is left out. -/
def Obligations.PmpFirstMatchDecides : Prop :=
  ∀ (s : State) (pa n : Nat) (p : Priv) (need : Need), need ≠ .execLoad →
    let type := match need with
      | .load | .execLoad => 2
      | .store => 1
      | .fetch => 0
    let row (c : BitVec 8) : Nat :=
      (if c.getLsbD 7 then 8 else 0) + (if c.getLsbD 0 then 4 else 0) + (if c.getLsbD 1 then 2 else 0)
        + (if c.getLsbD 2 then 1 else 0)
    let machine : List Nat := [0, 0, 6, 6, 0, 0, 0, 0, 0, 1, 1, 5, 4, 5, 6, 4]
    let user : List Nat := [0, 1, 4, 6, 4, 5, 6, 7, 0, 0, 1, 1, 0, 0, 0, 4]
    let permits (c : BitVec 8) : Bool :=
      if s.mseccfgMML then ((if p = .m then machine else user).getD (row c) 0).testBit type
      else (p = .m && !c.getLsbD 7) || (row c).testBit type
    (s.cfg.pmpCount = 0 → s.pmpAllows pa n p need = true)
    ∧ (0 < s.cfg.pmpCount → (∀ i, i < s.cfg.pmpCount → ∀ b, pa ≤ b → b < pa + n → s.pmpMatches i b = false) →
        (s.pmpAllows pa n p need = true ↔
          p = .m ∧ s.mseccfgMMWP = false ∧ (s.mseccfgMML = true → need ≠ .fetch)))
    ∧ (∀ i, i < s.cfg.pmpCount → (∀ j, j < i → ∀ b, pa ≤ b → b < pa + n → s.pmpMatches j b = false) →
        (∃ b, pa ≤ b ∧ b < pa + n ∧ s.pmpMatches i b = true) →
        (s.pmpAllows pa n p need = true ↔
          (∀ b, pa ≤ b → b < pa + n → s.pmpMatches i b = true) ∧ permits (s.pmpcfg i) = true))

/-- Which bytes an entry matches (R193): none when off, a range up to its address, a four-byte region, or a naturally aligned
power-of-two region of 2^(k+3) bytes, k the number of trailing ones of its address as it reads; the ends of a range count in
granules of 2^(G+2) bytes, and an address register reads its G low bits as 0 while the entry is off, by which software finds G.
That a range ignores those bits whatever they hold, and that they read as in log 17 in the other modes, is log 17. -/
def Obligations.PmpEntriesMatchTheirRegions : Prop :=
  ∀ (s : State) (i b : Nat),
    let mode := (s.pmpcfg i).extractLsb' 3 2
    let a := (s.pmpaddr i).toNat
    let granule := 2 ^ s.cfg.pmpG
    let bound (j : Nat) : Nat := (s.pmpStored j).toNat / granule * granule
    (mode = 0#2 → s.pmpMatches i b = false)
    ∧ (mode = 1#2 → (s.pmpMatches i b = true ↔
        (if i = 0 then 0 else bound (i - 1)) ≤ b / 4 ∧ b / 4 < bound i))
    ∧ (mode = 2#2 → (s.pmpMatches i b = true ↔ b / 4 = a))
    ∧ (∀ k, k < 64 → mode = 3#2 → (∀ j, j < k → a.testBit j = true) → a.testBit k = false →
        (s.pmpMatches i b = true ↔
          a / 2 ^ (k + 1) * 2 ^ (k + 3) ≤ b ∧ b < a / 2 ^ (k + 1) * 2 ^ (k + 3) + 2 ^ (k + 3)))
    ∧ (∀ k, k < 64 → mode = 0#2 ∨ mode = 1#2 →
        bit (s.pmpaddr i) k = (decide (s.cfg.pmpG ≤ k) && bit (s.pmpStored i) k))

/-- No step changes a locked PMP entry, the address below a locked top-of-range entry, or unlocks it; MML and MMWP are
sticky (R194, R196). That a locked entry keeps R, W and X also where a write raises MML, though they then have other legal values
(R34), is the model's inference (log 32). -/
def Obligations.PmpLocksHold : Prop :=
  ∀ (s t : State), step s = .next t →
    (∀ i, s.pmpLocked i = true →
      t.pmpLocked i = true ∧ t.pmpcfg i = s.pmpcfg i ∧ t.pmpaddr i = s.pmpaddr i
        ∧ ((s.pmpcfg i).extractLsb' 3 2 = 1#2 → 0 < i → t.pmpStored (i - 1) = s.pmpStored (i - 1)))
    ∧ (s.mseccfgMML = true → t.mseccfgMML = true) ∧ (s.mseccfgMMWP = true → t.mseccfgMMWP = true)

/-! ### Translation -/

/-- The walk of `satp` translation, for every scheme, with nothing cached (R102, R168, R201, R206, R207, R209): with `satp` zero
the identity; else a leaf found through valid pointers from the root that `satp` names maps the address if it permits the
access (as U-mode's or not, with SUM and MXR), is aligned and has A, and D for a store; every other valid leaf raises a page
fault, or, where only A or D is missing and hardware updates them, is written back whole with A set, and D for a store. That
an access with a failed update check changes nothing is log 16. -/
def Obligations.PageTableWalk : Prop :=
  (∀ (s : State) (va : Word) (need : Need) (p : Priv), zx s.sxlen s.sc.satp = 0 →
    s.translate va need p false = .ok (⟨va.toNat, 0⟩, s))
  ∧ ∀ (s : State) (c : Scheme) (va : Word) (need : Need) (p : Priv) (level spot : Nat) (pte : Word),
    schemeOf s.sxlen s.sc.satp = some c → s.cache = [] → p ≠ .m →
    let w := s.walkS c need p
    let mapped : Target := ⟨ptePpn c pte * 4096 + va.toNat % 2 ^ (12 + c.vpnBits * level), 0⟩
    let faults := s.translate va need p false = .error .page
    w.MadeWith (rootOf s.sxlen s.sc.satp) (p == .u) (bit s.mc.mstatus 18) (bit s.mc.mstatus 19)
      (s.UpdatesIf (bit s.menvcfg 61)) (bit s.mc.mstatus 36) (s.cfg.svpbmt && bit s.menvcfg 62)
    ∧ (canonical c va = false → faults)
    ∧ (canonical c va = true → w.Finds physically s va.toNat level spot pte s →
        (pte.getLsbD 0 = false → faults)
        ∧ (c.isPointer pte = true → level = 0 → faults)
        ∧ (c.isLeaf pte = true →
            (¬ (w.Permits pte ∧ w.AlignedLeaf level pte) → faults)
            ∧ (w.Permits pte → w.AlignedLeaf level pte →
                (w.Recorded pte → s.translate va need p false = .ok (mapped, s))
                ∧ (¬ w.Recorded pte → w.hwAd = false → faults)
                ∧ (¬ w.Recorded pte → w.hwAd = true →
                    (∀ rs, s.checkPhys (.tableWrite .s) .s spot c.pteBytes = .ok rs → s.translate va need p false
                      = .ok (mapped, s.physWrite spot (bytesOfValue (bit s.mc.mstatus 36) c.pteBytes (marked need pte))))
                    ∧ (∀ e, s.checkPhys (.tableWrite .s) .s spot c.pteBytes = .error e →
                        s.translate va need p false = .error e)))))

/-- The bits 63:54 of a PTE of 8 bytes, with nothing cached (R203, R204, R206 step 3, R210, R211): PBMT gives the memory type of
the page where it is enabled; N, with Svnapot, at the lowest level and with ppn[0] ending in 1000, maps 64 KiB, whose four low
page-number bits come from the address; every other use of these bits, and D, A or U in a pointer, or W without R, is a page
fault (that D, A or U in a pointer is one is decision D22, log 35). -/
def Obligations.NapotPbmtAndReservedBits : Prop :=
  ∀ (s : State) (c : Scheme) (va : Word) (need : Need) (p : Priv) (level spot : Nat) (pte : Word),
    schemeOf s.sxlen s.sc.satp = some c → c.pteBytes = 8 → s.cache = [] → p ≠ .m → canonical c va = true →
    let w := s.walkS c need p
    let type := (field pte 61 2).toNat
    let leaf := c.isLeaf (pte &&& 0x003FFFFFFFFFFFFF) = true
    let enabled := s.cfg.svpbmt = true ∧ bit s.menvcfg 62 = true
    let faults := s.translate va need p false = .error .page
    w.Finds physically s va.toNat level spot pte s →
    (field pte 54 7 ≠ 0#7 → faults)
    ∧ (type ≠ 0 → ¬ enabled → faults) ∧ (type = 3 → faults)
    ∧ (pte.getLsbD 63 = true → s.cfg.svnapot = false ∨ level ≠ 0 ∨ ptePpn c pte % 16 ≠ 8 → faults)
    ∧ (pte.getLsbD 1 = false → pte.getLsbD 2 = true → faults)
    ∧ (pte.getLsbD 1 = false → pte.getLsbD 3 = false →
        pte &&& 0xFFC00000000000D0 ≠ 0 → faults)
    ∧ (leaf → field pte 54 7 = 0#7 → type = 0 ∨ (enabled ∧ type ≠ 3) → w.Permits pte → w.Recorded pte →
        (pte.getLsbD 63 = false → w.AlignedLeaf level pte → s.translate va need p false
          = .ok (⟨ptePpn c pte * 4096 + va.toNat % 2 ^ (12 + c.vpnBits * level), type⟩, s))
        ∧ (pte.getLsbD 63 = true → s.cfg.svnapot = true → level = 0 → ptePpn c pte % 16 = 8 → s.translate va need p false
          = .ok (⟨ptePpn c pte / 16 * 65536 + va.toNat % 65536, type⟩, s)))

/-- G-stage translation of a guest physical address (R209, R216, R217), with nothing cached, for the access itself and for an implicit
one of VS-stage: the root is that of `hgatp`, every access counts as a U-mode access, and what would be a page fault is a guest-page
fault with that address. A leaf that lacks A, or D for a store, faults so, or, where hardware updates them, is written back whole with
them set, which PMP and PMA may deny. That ADUE reads 0 on a hart that always updates is log 43; that an access with a failed update
check changes nothing is log 16. -/
def Obligations.GuestPhysicalWalk : Prop :=
  ∀ (s : State) (c : Scheme) (gpa : Nat) (need : Need) (implicit : Option Bool) (level spot : Nat) (pte : Word),
    schemeOf s.sxlen s.hc.hgatp = some c → s.cache = [] →
    let w := s.walkG c need
    let mapped : Target := ⟨ptePpn c pte * 4096 + gpa % 2 ^ (12 + c.vpnBits * level), 0⟩
    let faults := s.translateG gpa need implicit = .error (.guestPage gpa implicit)
    w.MadeWith (rootOf s.sxlen s.hc.hgatp) true false (bit s.mc.mstatus 19) (s.UpdatesIf (bit s.menvcfg 61))
      (bit s.mc.mstatus 36) (s.cfg.svpbmt && bit s.menvcfg 62)
    ∧ (2 ^ (12 + c.levels * c.vpnBits + 2) ≤ gpa → faults)
    ∧ (gpa < 2 ^ (12 + c.levels * c.vpnBits + 2) → w.Finds physically s gpa level spot pte s →
        (pte.getLsbD 0 = false → faults)
        ∧ (c.isPointer pte = true → level = 0 → faults)
        ∧ (c.isLeaf pte = true →
            (pte.getLsbD 4 = false → faults)
            ∧ (¬ (w.Permits pte ∧ w.AlignedLeaf level pte) → faults)
            ∧ (w.Permits pte → w.AlignedLeaf level pte →
                (w.Recorded pte → s.translateG gpa need implicit = .ok (mapped, s))
                ∧ (¬ w.Recorded pte → w.hwAd = false → faults)
                ∧ (¬ w.Recorded pte → w.hwAd = true →
                    (∀ rs, s.checkPhys (.tableWrite .g) .s spot c.pteBytes = .ok rs → s.translateG gpa need implicit
                      = .ok (mapped, s.physWrite spot (bytesOfValue (bit s.mc.mstatus 36) c.pteBytes (marked need pte))))
                    ∧ (∀ e, s.checkPhys (.tableWrite .g) .s spot c.pteBytes = .error e →
                        s.translateG gpa need implicit = .error e)))))

/-- Translation in two stages (R209, R215, R217, R218, R222), with nothing cached: with `vsatp` zero the address is a guest physical one;
else the VS-stage walk starts at the root that `vsatp` names, made with the rights of `vsstatus` (MXR of either register), and reads
its tables through G-stage, which may set A bits of its own; the page it finds is a guest physical address, which G-stage translates
for the access itself. A leaf that lacks A, or D for a store, is a page fault, or, where hardware updates VS-stage PTEs, is written back
with them set at the address that G-stage gives for an implicit write: a guest-page fault of that write, or what PMP and PMA say, comes
first, and the page is translated after. VS-stage faults are page faults, G-stage faults keep the guest physical address they arose
at; of the two memory types a non-zero VS-stage one counts. That VS-stage PTEs are updated on a hart that always updates is log 43;
that an access which then faults changes nothing is log 16. -/
def Obligations.TwoStageTranslation : Prop :=
  (∀ (s : State) (va : Word) (need : Need) (p : Priv), p ≠ .m → zx s.vsxlen s.vc.vsatp = 0 →
    s.translate va need p true = s.translateG va.toNat need none)
  ∧ ∀ (s t : State) (c : Scheme) (va : Word) (need : Need) (p : Priv) (level spot : Nat) (pte : Word),
    schemeOf s.vsxlen s.vc.vsatp = some c → s.cache = [] → p ≠ .m →
    let w := s.walkVS c need p
    let type := (field pte 61 2).toNat
    let gpa := ptePpn c pte * 4096 + va.toNat % 2 ^ (12 + c.vpnBits * level)
    let ends (e : Abort) := s.translate va need p true = .error e
    let leaf := c.isLeaf (setField pte 61 (0 : BitVec 2)) = true
      ∧ (type = 0 ∨ (s.cfg.svpbmt = true ∧ bit s.henvcfg 62 = true ∧ type ≠ 3))
    let maps (u : State) : Prop :=
      (∀ e, u.translateG gpa need none = .error e → ends e)
      ∧ (∀ x u', u.translateG gpa need none = .ok (x, u') →
          s.translate va need p true = .ok (⟨x.addr, if type = 0 then x.pbmt else type⟩, u'))
    w.MadeWith (rootOf s.vsxlen s.vc.vsatp) (p == .u) (bit s.vc.vsstatus 18) (bit s.vc.vsstatus 19 || bit s.mc.mstatus 19)
      (s.UpdatesIf (bit s.henvcfg 61)) (bit s.hc.hstatus 5) (s.cfg.svpbmt && bit s.henvcfg 62)
    ∧ (canonical c va = false → ends .page)
    ∧ (∀ e, canonical c va = true →
        s.translateG (w.root * 4096 + vpnAt c (c.levels - 1) va.toNat * c.pteBytes) .load (some false) = .error e → ends e)
    ∧ (canonical c va = true → w.Finds throughGuest s va.toNat level spot pte t →
        (pte.getLsbD 0 = false → ends .page)
        ∧ (c.isPointer pte = true → level = 0 → ends .page)
        ∧ (leaf → ¬ (w.Permits pte ∧ w.AlignedLeaf level pte) → ends .page)
        ∧ (leaf → w.Permits pte → w.AlignedLeaf level pte →
            (w.Recorded pte → maps t)
            ∧ (¬ w.Recorded pte → w.hwAd = false → ends .page)
            ∧ (¬ w.Recorded pte → w.hwAd = true →
                (∀ e, t.translateG spot .store (some true) = .error e → ends e)
                ∧ (∀ y u, t.translateG spot .store (some true) = .ok (y, u) →
                    (∀ e, u.checkPhys (.tableWrite .vs) .s y.addr c.pteBytes = .error e → ends e)
                    ∧ (∀ rs, u.checkPhys (.tableWrite .vs) .s y.addr c.pteBytes = .ok rs →
                        maps (u.physWrite y.addr (bytesOfValue (bit s.hc.hstatus 5) c.pteBytes (marked need pte))))))))

/-! ### Whole steps -/

/-- A fetch that does not reach an instruction ends in the exception of its cause, with the pc as the trap value (R23, R172, R205,
R217, R220, R342, R344), and one that reaches a word which is no instruction in an illegal-instruction exception with that word
(R230, R348; the word as the trap value is log 11). A fetch that fails leaves the state before it: what its walk has updated is undone
(log 16). A hart that a WFI stalls fetches when the stall ends. -/
def Obligations.FetchFaultsRaise : Prop :=
  ∀ (s : State), s.tick.stalled = false → s.tick.woken.nonMaskable = none → s.tick.woken.interrupt = none →
    let u := s.tick.woken
    let pc := zx u.xlen u.pc
    let reached := u.reach u.fetchAccess u.fetchAccess.va 4
    (reached = .error .page → step s = .next (u.takeException ⟨.instrPage, pc, u.virt, 0, 0⟩))
    ∧ (reached = .error .access → step s = .next (u.takeException ⟨.instrAccess, pc, u.virt, 0, 0⟩))
    ∧ (∀ gpa, reached = .error (.guestPage gpa none) →
        step s = .next (u.takeException
          ⟨.instrGuest, pc, u.virt, if bit u.cfg.tvalInfo 20 then BitVec.ofNat 64 (gpa / 4) else 0, 0⟩))
    ∧ (∀ gpa write, reached = .error (.guestPage gpa (some write)) →
        step s = .next (u.takeException ⟨.instrGuest, pc, u.virt, BitVec.ofNat 64 (gpa / 4),
          if bit u.cfg.tval2Info 20 = true ∧ gpa / 4 ≠ 0 ∨ bit u.cfg.tinstPseudo 20 = true then u.pseudoInstr write
          else 0⟩))
    ∧ (∀ pa rs t e, reached = .ok (pa, rs, t) → decode (t.physRead pa 4) = .error e →
        u.OnlyMemory t ∧ step s = .next (t.takeException
          ⟨.illegal, BitVec.ofNat 64 (natOfBytes (t.physRead pa 4)), false, 0, 0⟩))

/-- Every step of a hart whose memory map has no undescribed device completes: no step is refused, none stops; the only
fault any hart can end in is an access to such a device (R331, R361). -/
def Obligations.EveryStepCompletes : Prop :=
  ∀ s : State,
    ((∃ t, step s = .next t) ∨ ∃ pa, step s = .fault (.undescribedDevice pa))
    ∧ ((∀ r ∈ s.cfg.pma, r.kind ≠ .io) → ∃ t, step s = .next t)

/-! ### Fences -/

/-- SFENCE.VMA and SINVAL.VMA, where they are permitted, drop the selected entries of the translation cache and nothing
else (R253, R256), whatever scheme an entry was read under. Dropping no more than the selected ones is the model's choice (log 8; the
spec allows more), and so is that the operand is an address of SXLEN bits, or VSXLEN, also from a wider M-mode (log 33). With V=0 and both
operands x0 they end the keeping of PMP results for the hart's own accesses (R199; log 57). -/
def Obligations.SupervisorFencesDropSelected : Prop :=
  ∀ (s : State) (rs1 rs2 : Reg), s.hasS = true →
    (s.priv = .m ∨ (s.priv = .s ∧ s.virt = false ∧ s.mstatusTVM = false)
      ∨ (s.priv = .s ∧ s.virt = true ∧ s.hstatusVTVM = false)) →
    let drops := if s.virt then s.DropsVa .vs s.vmid s.vsxlen s.vc.vsatp rs1 rs2
      else s.DropsVa .s 0 s.sxlen s.sc.satp rs1 rs2
    (s.cfg.sfenceIllegalWithoutVm = false ∨ s.hasPaging = true) →
      s.Fences (.sfenceVma rs1 rs2) drops (s.EndsOwnChecks rs1 rs2)
        ∧ (s.cfg.svinval = true → s.Fences (.sinvalVma rs1 rs2) drops (s.EndsOwnChecks rs1 rs2))

/-- HFENCE and HINVAL, where they are permitted, drop the selected VS-stage or G-stage entries and nothing else (R274-R277): for a
guest virtual address the entries at which its walk ends, for a guest physical address those of every level. Dropping no more than the
selected ones is the model's choice (log 8), and so is the width of the operand of HFENCE.VVMA and HINVAL.VVMA (log 33). The GVMA forms
with both operands x0 end the keeping of PMP results for virtual machines (R199; log 57). -/
def Obligations.HypervisorFencesDropSelected : Prop :=
  ∀ (s : State) (rs1 rs2 : Reg), s.hasH = true → s.virt = false → s.priv ≠ .u →
    let drops := s.DropsVa .vs s.vmid s.vsxlen s.vc.vsatp rs1 rs2
    s.Fences (.hfenceVvma rs1 rs2) drops (fun _ => False)
    ∧ (s.cfg.svinval = true → s.Fences (.hinvalVvma rs1 rs2) drops (fun _ => False))
    ∧ (¬ (s.priv = .s ∧ s.mstatusTVM = true) →
        s.Fences (.hfenceGvma rs1 rs2) (s.DropsGpa rs1 rs2) (endsGuestChecks rs1 rs2)
        ∧ (s.cfg.svinval = true → s.Fences (.hinvalGvma rs1 rs2) (s.DropsGpa rs1 rs2) (endsGuestChecks rs1 rs2)))

/-- Who may not execute the supervisor fences: U-mode, VU-mode, S-mode under TVM, VS-mode under VTVM (R253, R256-R258), each with its
own exception also where there is no paging; without paging, where the parameter says so, no other mode either; without Svinval its
words are reserved (R230). That a hart without S-mode has none of them is log 30. -/
def Obligations.SupervisorFencePermissions : Prop :=
  ∀ (s : State) (rs1 rs2 : Reg),
    (s.hasS = false → ∀ i ∈ [Instr.sfenceVma rs1 rs2, .sinvalVma rs1 rs2, .sfenceWInval, .sfenceInvalIr], s.IsIllegal i)
    ∧ (s.cfg.svinval = false →
        ∀ i ∈ [Instr.sinvalVma rs1 rs2, .sfenceWInval, .sfenceInvalIr, .hinvalVvma rs1 rs2, .hinvalGvma rs1 rs2], s.IsIllegal i)
    ∧ (s.cfg.sfenceIllegalWithoutVm = true → s.hasPaging = false →
        ¬ (s.virt = true ∧ (s.priv = .u ∨ (s.priv = .s ∧ s.hstatusVTVM = true))) →
        s.IsIllegal (.sfenceVma rs1 rs2) ∧ s.IsIllegal (.sinvalVma rs1 rs2))
    ∧ (s.hasS = true →
        let svinval := s.cfg.svinval = true
        ∀ ip ∈ [(Instr.sfenceVma rs1 rs2, True), (.sinvalVma rs1 rs2, svinval), (.sfenceWInval, svinval),
            (.sfenceInvalIr, svinval)], ip.2 →
          (s.priv = .u → s.virt = false → s.IsIllegal ip.1) ∧ (s.priv = .u → s.virt = true → s.IsVirtual ip.1)
          ∧ (ip.1 = .sfenceVma rs1 rs2 ∨ ip.1 = .sinvalVma rs1 rs2 →
              (s.priv = .s → s.virt = false → s.mstatusTVM = true → s.IsIllegal ip.1)
                ∧ (s.priv = .s → s.virt = true → s.hstatusVTVM = true → s.IsVirtual ip.1)))

/-- Who may not execute the hypervisor instructions (R260, R274-R277, R347): with V=1 they raise virtual instruction, from
U-mode illegal instruction (the loads and stores only while HU is 0), HFENCE.GVMA and HINVAL.GVMA also from HS-mode under
TVM; without the extension the words are reserved (R230). The RV64-only forms are among them with XLEN=64, and with V=1 where HSXLEN is
64, whatever XLEN is (R346, R347 case 5; log 47); the rest of them is in WordsOfRv64AreIllegalOnRv32, HINVAL without Svinval in
SupervisorFencePermissions. -/
def Obligations.HypervisorPermissions : Prop :=
  ∀ (s : State) (rd rs1 rs2 : Reg),
    let accesses := [Instr.hlvB rd rs1, .hlvBu rd rs1, .hlvH rd rs1, .hlvHu rd rs1, .hlvW rd rs1, .hlvxHu rd rs1,
      .hlvxWu rd rs1, .hsvB rs1 rs2, .hsvH rs1 rs2, .hsvW rs1 rs2]
      ++ (if s.xlen = .rv64 ∨ (s.virt = true ∧ s.sxlen = .rv64) then [Instr.hlvWu rd rs1, .hlvD rd rs1, .hsvD rs1 rs2] else [])
    let fences := [Instr.hfenceVvma rs1 rs2, .hfenceGvma rs1 rs2]
      ++ (if s.cfg.svinval then [Instr.hinvalVvma rs1 rs2, .hinvalGvma rs1 rs2] else [])
    (s.hasH = false → ∀ i ∈ accesses ++ fences, s.IsIllegal i)
    ∧ (s.hasH = true → s.virt = true → ∀ i ∈ accesses ++ fences, s.IsVirtual i)
    ∧ (s.hasH = true → s.virt = false → s.priv = .u → s.hstatusHU = false → ∀ i ∈ accesses, s.IsIllegal i)
    ∧ (s.hasH = true → s.virt = false → s.priv = .u → ∀ i ∈ fences, s.IsIllegal i)
    ∧ (s.hasH = true → s.virt = false → s.priv = .s → s.mstatusTVM = true →
        s.IsIllegal (.hfenceGvma rs1 rs2) ∧ s.IsIllegal (.hinvalGvma rs1 rs2))

/-- The instructions that only order: on one hart in program order they advance the pc (R257, R258, R328, R329). -/
def Obligations.OrderingInstructionsAdvance : Prop :=
  ∀ (s : State) (rd rs1 : Reg) (fm pred succ : BitVec 4) (imm : BitVec 12),
    (Encodes (.fence rd rs1 fm pred succ) 0x0000707F 0x0000000F
      ∧ ∃ t, exec (.fence rd rs1 fm pred succ) s = .next t ∧ s.Advances t (s.pc + 4))
    ∧ (Encodes (.fenceI rd rs1 imm) 0x0000707F 0x0000100F
      ∧ ∃ t, exec (.fenceI rd rs1 imm) s = .next t ∧ s.Advances t (s.pc + 4))
    ∧ (s.hasS = true → s.cfg.svinval = true → s.priv ≠ .u →
        (∃ t, exec .sfenceWInval s = .next t ∧ s.Advances t (s.pc + 4))
        ∧ ∃ t, exec .sfenceInvalIr s = .next t ∧ s.Advances t (s.pc + 4))

/-! ### Control and status registers -/

/-- CSRRW and CSRRWI: where the access check allows a write they write the CSR and return its old value; where it does not,
they raise what it says (R239, R242, R245). -/
def Obligations.CsrReplace : Prop :=
  ∀ (s : State) (rd rs1 : Reg) (n : BitVec 12) (u : BitVec 5),
    Encodes (.csrrw rd n rs1) 0x0000707F 0x00001073 ∧ Encodes (.csrrwi rd n u) 0x0000707F 0x00005073
    ∧ (∀ c, csrOf n = some c → s.csrCheck n true = .allowed →
        s.CsrWrites (.csrrw rd n rs1) rd c (s.x rs1) ∧ s.CsrWrites (.csrrwi rd n u) rd c (u.setWidth 64))
    ∧ (s.csrCheck n true = .illegal → s.IsIllegal (.csrrw rd n rs1) ∧ s.IsIllegal (.csrrwi rd n u))
    ∧ (s.csrCheck n true = .virtual → s.IsVirtual (.csrrw rd n rs1) ∧ s.IsVirtual (.csrrwi rd n u))

/-- CSRRS, CSRRC, CSRRSI and CSRRCI set or clear bits; with x0 or a zero immediate they are checked as reads and do not write
(R240, R241, R243-R246): the bits modified are those read, but in `mip` SEIP without the platform's signal. -/
def Obligations.CsrSetAndClear : Prop :=
  ∀ (s : State) (rd rs1 : Reg) (n : BitVec 12) (u : BitVec 5),
    let old (c : CsrRef) := if c.reg = .mip then zx s.xlen (setBit s.mip 9 (s.hasS && bit s.mc.mip 9)) else s.csrRead c
    let does (i : Instr) (m : BitVec 32) (write : Bool) (new : Word → Word) : Prop :=
      Encodes i 0x0000707F m
      ∧ (∀ c, csrOf n = some c → s.csrCheck n write = .allowed →
          if write then s.CsrWrites i rd c (new (old c))
          else ∃ t, exec i s = .next t ∧ s.WritesReg t rd (s.csrRead c) (s.pc + 4))
      ∧ (s.csrCheck n write = .illegal → s.IsIllegal i) ∧ (s.csrCheck n write = .virtual → s.IsVirtual i)
    does (.csrrs rd n rs1) 0x00002073 (rs1 != 0#5) (· ||| s.x rs1)
    ∧ does (.csrrc rd n rs1) 0x00003073 (rs1 != 0#5) (· &&& ~~~ s.x rs1)
    ∧ does (.csrrsi rd n u) 0x00006073 (u != 0#5) (· ||| u.setWidth 64)
    ∧ does (.csrrci rd n u) 0x00007073 (u != 0#5) (· &&& ~~~ u.setWidth 64)

/-- CSR accesses that trap by the number alone (R28, R43, R247): a number of nothing implemented, a machine-level number below
M-mode, a number above U-mode's from U-mode, a write of a read-only number in any mode; and with V=1 a hypervisor or VS register,
from VU-mode also a supervisor register, that HS-mode could read raises virtual instruction. -/
def Obligations.CsrPrivilege : Prop :=
  ∀ (s : State) (rd rs1 : Reg) (n : BitVec 12) (u : BitVec 5),
    let all := [Instr.csrrw rd n rs1, .csrrs rd n rs1, .csrrc rd n rs1, .csrrwi rd n u, .csrrsi rd n u, .csrrci rd n u]
    let writing := [Instr.csrrw rd n rs1, .csrrwi rd n u]
      ++ (if rs1 = 0#5 then [] else [Instr.csrrs rd n rs1, .csrrc rd n rs1])
      ++ (if u = 0#5 then [] else [Instr.csrrsi rd n u, .csrrci rd n u])
    (csrOf n = none → ∀ i ∈ all, s.IsIllegal i)
    ∧ (n.extractLsb' 8 2 = 3#2 → s.priv ≠ .m → ∀ i ∈ all, s.IsIllegal i)
    ∧ (n.extractLsb' 8 2 ≠ 0#2 → s.priv = .u → s.virt = false → ∀ i ∈ all, s.IsIllegal i)
    ∧ (n.extractLsb' 10 2 = 3#2 → ∀ i ∈ writing, s.IsIllegal i)
    ∧ (∀ c, csrOf n = some c → s.csrExists c = true → s.blockedByM c = false → s.virt = true →
        (n.extractLsb' 8 2 = 2#2 ∧ s.priv ≠ .m ∨ n.extractLsb' 8 2 = 1#2 ∧ s.priv = .u) →
        s.IsVirtual (.csrrs rd n 0#5) ∧ s.IsVirtual (.csrrsi rd n 0#5))

/-- What blocks a CSR access beside its number (R247-R249, R100, R111, R117, R125, R126, R128, R129, R163): the counter enables,
STCE and TM for the timer compare registers, TVM and VTVM for `satp` and `hgatp`, the state enables, the delegation of counters
for the windows, CDE. The blockers of M-mode make an illegal instruction; those of HS-mode, with V=1, a virtual instruction.
Where no enable is missing a counter can be read, and a delegated counter reached through the window. That a window cell which is
not implemented is an illegal instruction is decision D17 (log 29); that `hedelegh` with V=1 is one where P1P13 is clear, whatever
`hedeleg` is (R250), is the model's choice (log 48). -/
def Obligations.CsrBlockers : Prop :=
  ∀ (s : State) (rd rs1 : Reg) (u : BitVec 5),
    let all (n : BitVec 12) (P : Instr → Prop) : Prop :=
      ∀ i ∈ [Instr.csrrw rd n rs1, .csrrs rd n rs1, .csrrc rd n rs1, .csrrwi rd n u, .csrrsi rd n u, .csrrci rd n u], P i
    let reads (n : BitVec 12) (P : Instr → Prop) : Prop := ∀ i ∈ [Instr.csrrs rd n 0#5, .csrrc rd n 0#5, .csrrsi rd n 0#5], P i
    let lower := s.priv ≠ .m
    let guest := s.virt = true ∧ lower
    let mstateen (n : Fin 4) (k : Nat) := s.cfg.smstateen = true → bit (s.mstateen n) k = true
    let hstateen (n : Fin 4) (k : Nat) := s.cfg.smstateen = true → bit (s.hstateen n) k = true
    -- counters
    (∀ i, i < 32 → ∀ n ∈ [BitVec.ofNat 12 (0xC00 + i), BitVec.ofNat 12 (0xC80 + i)],
        (lower → s.mcounteren.getLsbD i = false → all n s.IsIllegal)
        ∧ (s.priv = .u → s.virt = false → s.hasS = true → s.scounteren.getLsbD i = false → all n s.IsIllegal)
        ∧ (∀ c, csrOf n = some c → s.csrExists c = true → s.mcounteren.getLsbD i = true →
            (guest → s.hcounteren.getLsbD i = false ∨ (s.priv = .u ∧ s.scounteren.getLsbD i = false) → reads n s.IsVirtual)
            ∧ ((guest → s.hcounteren.getLsbD i = true) → (s.priv = .u → s.scounteren.getLsbD i = true) →
                s.csrCheck n false = .allowed)))
    -- the timer compare registers
    ∧ (lower → s.mcounteren.getLsbD 1 = false ∨ s.menvcfgSTCE = false → all 0x14D s.IsIllegal ∧ all 0x24D s.IsIllegal)
    ∧ (guest → s.cfg.sstc = true → s.hasS = true → s.mcounteren.getLsbD 1 = true → s.menvcfgSTCE = true → s.priv = .s →
        s.henvcfgSTCE = false ∨ s.hcounteren.getLsbD 1 = false → all 0x14D s.IsVirtual)
    -- satp and hgatp
    ∧ (s.priv = .s → s.virt = false → s.mstatusTVM = true → all 0x180 s.IsIllegal ∧ all 0x680 s.IsIllegal)
    ∧ (s.priv = .s → s.virt = true → s.hasS = true → s.hstatusVTVM = true → all 0x180 s.IsVirtual)
    -- the state enables
    ∧ (lower → (¬ mstateen 0 62 → all 0x10A s.IsIllegal ∧ all 0x60A s.IsIllegal)
        ∧ (∀ k : Fin 4, ¬ mstateen k 63 →
            all (BitVec.ofNat 12 (0x10C + k.val)) s.IsIllegal ∧ all (BitVec.ofNat 12 (0x60C + k.val)) s.IsIllegal)
        ∧ (¬ mstateen 0 60 → ∀ n ∈ [(0x150 : BitVec 12), 0x151, 0x152, 0x153, 0x155, 0x156, 0x157, 0x250, 0x251, 0x252, 0x253,
            0x255, 0x256, 0x257], all n s.IsIllegal)
        ∧ (¬ mstateen 0 56 → all 0x612 s.IsIllegal))
    ∧ (guest → s.priv = .s → s.hasS = true →
        (mstateen 0 62 → ¬ hstateen 0 62 → all 0x10A s.IsVirtual)
        ∧ (∀ k : Fin 4, s.cfg.smstateen = true → mstateen k 63 → ¬ hstateen k 63 →
            all (BitVec.ofNat 12 (0x10C + k.val)) s.IsVirtual)
        ∧ (s.cfg.sscsrind = true → mstateen 0 60 → ¬ hstateen 0 60 → all 0x150 s.IsVirtual ∧ all 0x151 s.IsVirtual))
    -- the windows onto delegated counters
    ∧ (all 0x351 s.IsIllegal)
    ∧ (∀ i, i < 32 → s.sc.siselect = BitVec.ofNat 64 (0x40 + i) → s.virt = false → s.priv = .s ∨ s.priv = .m →
        (s.menvcfgCDE = false ∨ i = 1 ∨ s.mcounteren.getLsbD i = false → all 0x151 s.IsIllegal)
        ∧ all 0x153 s.IsIllegal ∧ (s.xlen = .rv64 → all 0x155 s.IsIllegal)
        ∧ (s.cfg.sscsrind = true → s.hasS = true → (s.priv = .s → mstateen 0 60) → s.menvcfgCDE = true → i ≠ 1 →
            s.mcounteren.getLsbD i = true → s.csrCheck 0x151 true = .allowed))
    ∧ (guest → s.priv = .s → s.cfg.sscsrind = true → s.hasS = true → mstateen 0 60 → hstateen 0 60 →
        ∀ i, i < 32 → s.vc.vsiselect = BitVec.ofNat 64 (0x40 + i) →
          (s.menvcfgCDE = true → all 0x151 s.IsVirtual) ∧ (s.menvcfgCDE = false → all 0x151 s.IsIllegal))
    -- scountinhibit, scountovf
    ∧ (s.menvcfgCDE = false → all 0x120 s.IsIllegal)
    ∧ (guest → s.priv = .s → s.hasS = true → s.cfg.smcdeleg = true → s.menvcfgCDE = true →
        all 0x120 s.IsVirtual ∧ (s.cfg.sscofpmf = true → reads 0xDA0 s.IsVirtual))

/-- No instruction executed below M-mode changes the machine's control state, whether it completes or traps: delegation,
the machine trap vector, PMP, counter and state enables, `misa`, `mseccfg`, the RNMI registers (R28, R29, R189, R247). -/
def Obligations.MachineStateOutOfReach : Prop :=
  ∀ (i : Instr) (s t : State), s.priv ≠ .m → exec i s = .next t → s.SameMachineControl t

/-- The scratch registers hold what is written, at their own width; with V=1 the supervisor's number reaches the VS register
and leaves the supervisor's alone (R79, R94, R138). -/
def Obligations.ScratchRegisters : Prop :=
  ∀ (s : State) (rd rs1 : Reg),
    (s.priv = .m → ∃ t, exec (.csrrw rd 0x340 rs1) s = .next t
      ∧ t.mc = { s.mc with mscratch := zx s.cfg.mxlen (s.x rs1) } ∧ t.sc = s.sc ∧ t.vc = s.vc
      ∧ (rd ≠ 0#5 → t.x rd = sx s.xlen s.mc.mscratch))
    ∧ (s.priv = .s → s.virt = false → s.hasS = true → ∃ t, exec (.csrrw rd 0x140 rs1) s = .next t
      ∧ t.sc = { s.sc with sscratch := zx s.sxlen (s.x rs1) } ∧ t.mc = s.mc ∧ t.vc = s.vc
      ∧ (rd ≠ 0#5 → t.x rd = sx s.xlen s.sc.sscratch))
    ∧ (s.priv = .s → s.virt = true → s.hasS = true → ∃ t, exec (.csrrw rd 0x140 rs1) s = .next t
      ∧ t.vc = { s.vc with vsscratch := zx s.vsxlen (s.x rs1) } ∧ t.mc = s.mc ∧ t.sc = s.sc
      ∧ (rd ≠ 0#5 → t.x rd = sx s.xlen s.vc.vsscratch))
    ∧ (s.priv = .s → s.virt = false → s.hasH = true → ∃ t, exec (.csrrw rd 0x240 rs1) s = .next t
      ∧ t.vc = { s.vc with vsscratch := zx s.vsxlen (s.x rs1) } ∧ t.mc = s.mc ∧ t.sc = s.sc
      ∧ (rd ≠ 0#5 → t.x rd = sx s.xlen s.vc.vsscratch))

/-- What M-mode writes to the saved pcs and the trap vectors: the saved pcs lose their two low bits (R80, R95, R132, R161;
that no address is converted to another is log 40); of the values a vector can hold it takes the one written, and keeps the bits that
are read-only (R67, R90); a reserved mode leaves the mode as it was, and a base not aligned as Vectored mode asks leaves the register
(the last two are decision D6 and log 19). -/
def Obligations.SavedPcsAndVectors : Prop :=
  ∀ (s : State) (rd rs1 : Reg), s.priv = .m → s.virt = false →
    let saved (xl : Xlen) := zx xl (s.x rs1 &&& ~~~3#64)
    let tvec (l : TvecLegal) (xl : Xlen) (old : Word) :=
      let want := (s.x rs1 &&& ~~~3#64) ||| (if (s.x rs1).getLsbD 1 then old &&& 1 else s.x rs1 &&& 1)
      let v := zx xl (((want &&& l.writable) ||| (l.value &&& ~~~l.writable)) &&& ~~~2#64)
      if v.getLsbD 0 = true ∧ (v &&& ~~~3#64).toNat % 2 ^ l.vectoredAlign ≠ 0 then old else v
    (∃ t, exec (.csrrw rd 0x341 rs1) s = .next t
      ∧ t.mc = { s.mc with mepc := saved s.cfg.mxlen } ∧ t.sc = s.sc ∧ t.vc = s.vc)
    ∧ (s.hasS = true → ∃ t, exec (.csrrw rd 0x141 rs1) s = .next t
      ∧ t.sc = { s.sc with sepc := saved s.sxlen } ∧ t.mc = s.mc ∧ t.vc = s.vc)
    ∧ (s.hasH = true → ∃ t, exec (.csrrw rd 0x241 rs1) s = .next t
      ∧ t.vc = { s.vc with vsepc := saved s.vsxlen } ∧ t.mc = s.mc ∧ t.sc = s.sc)
    ∧ (s.cfg.smrnmi = true → ∃ t, exec (.csrrw rd 0x741 rs1) s = .next t
      ∧ t.mc = { s.mc with mnepc := saved s.cfg.mxlen } ∧ t.sc = s.sc ∧ t.vc = s.vc)
    ∧ (∃ t, exec (.csrrw rd 0x305 rs1) s = .next t
      ∧ t.mc = { s.mc with mtvec := tvec s.cfg.mtvecLegal s.cfg.mxlen s.mc.mtvec } ∧ t.sc = s.sc ∧ t.vc = s.vc)
    ∧ (s.hasS = true → ∃ t, exec (.csrrw rd 0x105 rs1) s = .next t
      ∧ t.sc = { s.sc with stvec := tvec s.cfg.stvecLegal s.sxlen s.sc.stvec } ∧ t.mc = s.mc ∧ t.vc = s.vc)
    ∧ (s.hasH = true → ∃ t, exec (.csrrw rd 0x205 rs1) s = .next t
      ∧ t.vc = { s.vc with vstvec := tvec s.cfg.vstvecLegal s.vsxlen s.vc.vstvec } ∧ t.mc = s.mc ∧ t.sc = s.sc)

/-- Writes of `satp`, `vsatp` and `hgatp` (R101, R102, R158, R162): an unsupported MODE leaves every field of `satp` and `vsatp`,
and the MODE of `hgatp` (decision D18, log 27); a supported paged MODE takes MODE and PPN as written, but the two low bits of
`hgatp`'s, and the implemented bits of ASID or VMID; zero selects Bare. That PPN takes all its bits is log 42; that the rule of `satp`
holds for `vsatp` is an inference the spec makes itself (R162). -/
def Obligations.SatpModes : Prop :=
  ∀ (s : State) (rd rs1 : Reg), s.cfg.asidLen ≤ 16 → s.cfg.vmidLen ≤ 14 →
    let v := s.x rs1
    let paged (xl : Xlen) : Bool := match xl with
      | .rv32 => v.getLsbD 31
      | .rv64 => field v 60 4 != 0
    let supported (xl : Xlen) : Bool := match xl with
      | .rv32 => !v.getLsbD 31 || s.cfg.sv32
      | .rv64 => match (field v 60 4).toNat with
        | 0 => true
        | 8 => s.cfg.sv39
        | 9 => s.cfg.sv48
        | 10 => s.cfg.sv57
        | _ => false
    let writes (xl : Xlen) (old new : Word) : Prop :=
      (supported xl = false → new = old)
      ∧ (zx xl v = 0 → new = 0)
      ∧ (supported xl = true → paged xl = true → match xl with
          | .rv32 => new.getLsbD 31 = true ∧ field new 0 22 = field v 0 22
              ∧ (field new 22 9).toNat = (field v 22 9).toNat % 2 ^ min s.cfg.asidLen 9 ∧ field new 32 32 = 0
          | .rv64 => field new 60 4 = field v 60 4 ∧ field new 0 44 = field v 0 44
              ∧ (field new 44 16).toNat = (field v 44 16).toNat % 2 ^ s.cfg.asidLen)
    let gSupported : Bool := match s.sxlen with
      | .rv32 => !v.getLsbD 31 || s.cfg.sv32x4
      | .rv64 => match (field v 60 4).toNat with
        | 0 => true
        | 8 => s.cfg.sv39x4
        | 9 => s.cfg.sv48x4
        | 10 => s.cfg.sv57x4
        | _ => false
    (s.hasS = true → s.virt = false → s.xlen = s.sxlen → (s.priv = .m ∨ (s.priv = .s ∧ s.mstatusTVM = false)) →
      ∃ t, exec (.csrrw rd 0x180 rs1) s = .next t ∧ t.mc = s.mc ∧ t.hc = s.hc ∧ t.vc = s.vc ∧ t.cache = s.cache
        ∧ t.sc = { s.sc with satp := t.sc.satp } ∧ writes s.sxlen s.sc.satp t.sc.satp)
    ∧ (s.hasS = true → s.virt = true → s.priv = .s → s.hstatusVTVM = false →
      ∃ t, exec (.csrrw rd 0x180 rs1) s = .next t ∧ t.mc = s.mc ∧ t.sc = s.sc ∧ t.hc = s.hc ∧ t.cache = s.cache
        ∧ t.vc = { s.vc with vsatp := t.vc.vsatp } ∧ writes s.vsxlen s.vc.vsatp t.vc.vsatp)
    ∧ (s.hasH = true → s.virt = false → s.priv ≠ .u → s.xlen = s.vsxlen →
      ∃ t, exec (.csrrw rd 0x280 rs1) s = .next t ∧ t.mc = s.mc ∧ t.sc = s.sc ∧ t.hc = s.hc ∧ t.cache = s.cache
        ∧ t.vc = { s.vc with vsatp := t.vc.vsatp } ∧ writes s.vsxlen s.vc.vsatp t.vc.vsatp)
    ∧ (s.hasH = true → s.virt = false → s.xlen = s.sxlen → (s.priv = .m ∨ (s.priv = .s ∧ s.mstatusTVM = false)) →
      ∃ t, exec (.csrrw rd 0x680 rs1) s = .next t ∧ t.mc = s.mc ∧ t.sc = s.sc ∧ t.vc = s.vc ∧ t.cache = s.cache
        ∧ t.hc = { s.hc with hgatp := t.hc.hgatp }
        ∧ match s.sxlen with
          | .rv32 => t.hc.hgatp.getLsbD 31 = (if gSupported then v else s.hc.hgatp).getLsbD 31
              ∧ (field t.hc.hgatp 0 22).toNat = (field v 0 22).toNat / 4 * 4
              ∧ (field t.hc.hgatp 22 7).toNat = (field v 22 7).toNat % 2 ^ min s.cfg.vmidLen 7
              ∧ field t.hc.hgatp 29 2 = 0 ∧ field t.hc.hgatp 32 32 = 0
          | .rv64 => field t.hc.hgatp 60 4 = field (if gSupported then v else s.hc.hgatp) 60 4
              ∧ (field t.hc.hgatp 0 44).toNat = (field v 0 44).toNat / 4 * 4
              ∧ (field t.hc.hgatp 44 14).toNat = (field v 44 14).toNat % 2 ^ s.cfg.vmidLen
              ∧ field t.hc.hgatp 58 2 = 0)

/-- The supervisor's views reach only their own fields (R87, R91, R149): writing `sstatus` leaves the machine's fields of
`mstatus`, SXL among them where it holds a legal code; writing `sie` leaves the bits of `mie` that are not delegated, those above
SXLEN, and those of VS level and of guest external interrupts, which are in no `sie`, though `mideleg` reads 1 there; writing
`sip` leaves all of `mip` but SSIP and LCOFIP where delegated. That it leaves bits 16 and up also with platform interrupts, where R70,
R91 and D14 would let a platform's pending bit be writable, is the model's choice (log 39). -/
def Obligations.SupervisorViewsAreConfined : Prop :=
  ∀ (s : State) (rd rs1 : Reg), s.hasS = true → s.virt = false → s.priv ≠ .u → s.cfg.wf = true →
    (s.cfg.mxlen = .rv64 → field s.mc.mstatus 34 2 = 1#2 ∨ field s.mc.mstatus 34 2 = 2#2) →
    (∃ t, exec (.csrrw rd 0x100 rs1) s = .next t
      ∧ t = { s with regs := t.regs, pc := t.pc, cnt := t.cnt, mc := { s.mc with mstatus := t.mc.mstatus } }
      ∧ ∀ k ∈ [3, 7, 11, 12, 17, 20, 21, 22, 34, 35, 36, 37, 38, 39], bit t.mc.mstatus k = bit s.mc.mstatus k)
    ∧ (∃ t, exec (.csrrw rd 0x104 rs1) s = .next t
      ∧ t = { s with regs := t.regs, pc := t.pc, cnt := t.cnt, mc := { s.mc with mie := t.mc.mie } }
      ∧ ∀ k, k < 64 → bit s.mideleg k = false ∨ k ∈ [2, 6, 10, 12] ∨ s.sxlen.bits ≤ k →
          bit t.mc.mie k = bit s.mc.mie k)
    ∧ (∃ t, exec (.csrrw rd 0x144 rs1) s = .next t
      ∧ t = { s with regs := t.regs, pc := t.pc, cnt := t.cnt, mc := { s.mc with mip := t.mc.mip } }
      ∧ ∀ k, k < 64 → ¬ ((k = 1 ∨ k = 13) ∧ bit s.mideleg k = true) → bit t.mc.mip k = bit s.mc.mip k)

/-- What writes leave in the status registers (R52-R54, R58, R87, R134, R139-R145, R159): each field takes the bit written, MPP and
MNPP only the code of an implemented mode, NMIE only 1, a byte-order bit only where it is writable, and every other bit stays. The
widths SXL, UXL, VSXL are taken fixed here, and legal, UXL as wide as SXL. The model's choices: an illegal MPP leaves the field
(log 14); vsstatus.SUM takes the bit written also where vsatp.MODE is read-only 0 (log 51). -/
def Obligations.StatusRegisterWrites : Prop :=
  ∀ (s : State) (rd rs1 : Reg),
    let v := s.x rs1
    let takes (new : Word) (l : List Nat) : Prop := ∀ k ∈ l, k < s.xlen.bits → bit new k = bit v k
    let mode (old : BitVec 2) : BitVec 2 :=
      let w := field v 11 2
      if w ≠ 2#2 ∧ s.supports (Priv.ofCode w) = true then w else old
    let legal (w : Word) (lo : Nat) : Prop := field w lo 2 = 1#2 ∨ field w lo 2 = 2#2
    let fixed := s.cfg.sxlWritable = false ∧ s.cfg.uxlWritable = false ∧ (s.cfg.mxlen = .rv64 →
      (s.hasS = true → legal s.mc.mstatus 34)
        ∧ (s.hasU = true → field s.mc.mstatus 32 2 = if s.hasS then field s.mc.mstatus 34 2 else 2#2))
    (s.priv = .m → s.virt = false → fixed → ∃ t, exec (.csrrw rd 0x300 rs1) s = .next t
      ∧ t = { s with regs := t.regs, pc := t.pc, cnt := t.cnt, mc := { s.mc with mstatus := t.mc.mstatus } }
      ∧ takes t.mc.mstatus ([3, 7] ++ (if s.hasS then [1, 5, 8, 19, 20, 22] else [])
          ++ (if s.hasS && s.hasPaging then [18] else []) ++ (if s.hasU then [17, 21] else [])
          ++ (if s.hasH then [38, 39] else []) ++ (if s.hasU && s.cfg.ube == .writable then [6] else [])
          ++ (if s.hasS && s.cfg.sbe == .writable then [36] else []) ++ (if s.cfg.mbe == .writable then [37] else []))
      ∧ t.mstatusMPP = mode s.mstatusMPP
      ∧ (s.cfg.fsWritable = false → s.cfg.vsWritable = false → s.hasS = true → s.hasU = true →
          SameBitsBut s.mc.mstatus t.mc.mstatus ([1, 3, 5, 6, 7, 8, 11, 12, 17, 18, 19, 20, 21, 22] ++
            (if s.xlen = .rv64 then [36, 37, 38, 39] else [])))
      ∧ (s.cfg.ube ≠ .writable → bit t.mc.mstatus 6 = bit s.mc.mstatus 6)
      ∧ (s.cfg.sbe ≠ .writable → bit t.mc.mstatus 36 = bit s.mc.mstatus 36)
      ∧ (s.cfg.mbe ≠ .writable → bit t.mc.mstatus 37 = bit s.mc.mstatus 37))
    ∧ (s.hasS = true → s.virt = false → s.priv ≠ .u → ∃ t, exec (.csrrw rd 0x100 rs1) s = .next t
      ∧ takes t.mc.mstatus ([1, 5, 8, 19] ++ (if s.hasPaging then [18] else [])))
    ∧ (s.hasH = true → s.virt = false → s.priv ≠ .u → s.cfg.vsxlWritable = false →
      (s.sxlen = .rv64 → legal s.hc.hstatus 32) → ∃ t, exec (.csrrw rd 0x600 rs1) s = .next t
      ∧ t = { s with regs := t.regs, pc := t.pc, cnt := t.cnt, hc := { s.hc with hstatus := t.hc.hstatus } }
      ∧ takes t.hc.hstatus ([6, 7, 8, 9, 20, 21, 22] ++ (if s.cfg.vsbe == .writable then [5] else []))
      ∧ ((field v 12 6).toNat ≤ s.cfg.geilen → t.hstatusVGEIN = field v 12 6)
      ∧ (s.cfg.vsbe ≠ .writable → bit t.hc.hstatus 5 = bit s.hc.hstatus 5)
      ∧ SameBitsBut s.hc.hstatus t.hc.hstatus [5, 6, 7, 8, 9, 12, 13, 14, 15, 16, 17, 20, 21, 22])
    ∧ (∀ n, (n = (0x200 : BitVec 12) ∧ s.hasH = true ∧ s.virt = false ∧ s.priv ≠ .u)
        ∨ (n = 0x100 ∧ s.hasS = true ∧ s.virt = true ∧ s.priv = .s) → s.cfg.vuxlWritable = false →
      (s.vsxlen = .rv64 → legal s.vc.vsstatus 32) → ∃ t, exec (.csrrw rd n rs1) s = .next t
      ∧ t = { s with regs := t.regs, pc := t.pc, cnt := t.cnt, vc := { s.vc with vsstatus := t.vc.vsstatus } }
      ∧ takes t.vc.vsstatus ([1, 5, 8, 18, 19] ++ (if s.cfg.vube == .writable then [6] else []))
      ∧ (s.cfg.vube ≠ .writable → bit t.vc.vsstatus 6 = bit s.vc.vsstatus 6)
      ∧ (s.cfg.fsWritable = false → s.cfg.vsWritable = false →
          SameBitsBut s.vc.vsstatus t.vc.vsstatus [1, 5, 6, 8, 18, 19]))
    ∧ (s.priv = .m → s.virt = false → s.cfg.smrnmi = true → ∃ t, exec (.csrrw rd 0x744 rs1) s = .next t
      ∧ t = { s with regs := t.regs, pc := t.pc, cnt := t.cnt, mc := { s.mc with mnstatus := t.mc.mnstatus } }
      ∧ t.mnstatusMNPP = mode s.mnstatusMNPP ∧ t.mnstatusNMIE = (s.mnstatusNMIE || bit v 3)
      ∧ (s.hasH = true → t.mnstatusMNPV = bit v 7) ∧ (s.hasH = false → t.mnstatusMNPV = s.mnstatusMNPV)
      ∧ SameBitsBut s.mc.mnstatus t.mc.mnstatus [3, 7, 11, 12])

/-- What M-mode writes to the interrupt and delegation registers (R68-R71, R146-R150, R166): each bit that exists takes the value
written, every other stays: in `mie` the interrupts the hart has, in `mip` those that software may set, in the delegation registers
those the parameters allow (decision D13, log 39), `mideleg` reading 1 for every VS-level interrupt. With XLEN=32 the upper half
stays, and `hideleg` has HSXLEN bits. A bit of `hideleg` that becomes writable takes an open value (log 32). The model's choices: with
platform interrupts too, bits 16 and up of `mip` are the platform's signals and stay, though R70 and D14 would let them be writable, and
those of `hvip` are read-only 0; no bit of `mideleg` but the VS-level ones reads 1 always, though R68 would let one (log 39). Every hart
has bits 3, 7 and 11 of `mie`, MSIE though R71 would let it be read-only 0, and with S-mode bits 1, 5 and 9, though R91 would let
them be absent (log 54). -/
def Obligations.InterruptAndDelegationWrites : Prop :=
  ∀ (s : State) (rd rs1 : Reg), s.priv = .m → s.virt = false → s.cfg.wf = true →
    let v := s.x rs1
    let written (exists_ : Nat → Prop) (old new : Word) : Prop := ∀ k, k < 64 →
      (exists_ k ∧ k < s.xlen.bits → bit new k = bit v k) ∧ (¬ (exists_ k ∧ k < s.xlen.bits) → bit new k = bit old k)
    let platform (k : Nat) : Prop := k ∈ s.cfg.platformInts
    let supervisor (k : Nat) : Prop := (s.hasS = true ∧ k ∈ [1, 5, 9]) ∨ (k = 13 ∧ s.cfg.sscofpmf = true) ∨ platform k
    let vsLevel (k : Nat) : Prop := s.hasH = true ∧ (k ∈ [2, 6, 10] ∨ (k = 12 ∧ s.cfg.geilen ≠ 0))
    (∃ t, exec (.csrrw rd 0x304 rs1) s = .next t
      ∧ t = { s with regs := t.regs, pc := t.pc, cnt := t.cnt, mc := { s.mc with mie := t.mc.mie } }
      ∧ written (fun k => k ∈ [3, 7, 11] ∨ supervisor k ∨ vsLevel k) s.mie t.mie)
    ∧ (∃ t, exec (.csrrw rd 0x344 rs1) s = .next t
      ∧ t = { s with regs := t.regs, pc := t.pc, cnt := t.cnt, mc := { s.mc with mip := t.mc.mip }
                     hc := { s.hc with hvip := t.hc.hvip } }
      ∧ written (fun k => (s.hasS = true ∧ (k = 1 ∨ k = 9 ∨ (k = 5 ∧ s.menvcfgSTCE = false)))
          ∨ (k = 13 ∧ s.cfg.sscofpmf = true)) s.mc.mip t.mc.mip
      ∧ written (fun k => k = 2 ∧ s.hasH = true) s.hc.hvip t.hc.hvip)
    ∧ (s.hasS = true → ∃ t, exec (.csrrw rd 0x302 rs1) s = .next t
      ∧ t = { s with regs := t.regs, pc := t.pc, cnt := t.cnt, mc := { s.mc with medeleg := t.mc.medeleg } }
      ∧ written (fun k => bit s.cfg.medelegMask k = true ∧ (k ∈ [10, 20, 21, 22, 23] → s.hasH = true))
          s.medeleg t.medeleg)
    ∧ (s.hasS = true → ∃ t, exec (.csrrw rd 0x303 rs1) s = .next t
      ∧ t = { s with regs := t.regs, pc := t.pc, cnt := t.cnt, mc := { s.mc with mideleg := t.mc.mideleg }
                     hc := { s.hc with hideleg := t.hc.hideleg } }
      ∧ (∀ k, k < 64 → vsLevel k → bit t.mideleg k = true)
      ∧ (∀ k, k < 64 → ¬ vsLevel k → k < s.xlen.bits → bit s.cfg.midelegMask k = true → supervisor k →
          bit t.mideleg k = bit v k)
      ∧ (∀ k, k < 64 → ¬ (bit s.cfg.midelegMask k = true ∧ supervisor k ∧ k < s.xlen.bits) →
          bit t.mideleg k = bit s.mideleg k)
      ∧ (∀ k, bit s.hidelegWritable k = true ∨ bit t.hidelegWritable k = false → bit t.hc.hideleg k = bit s.hc.hideleg k))
    ∧ (s.hasH = true → ∃ t, exec (.csrrw rd 0x602 rs1) s = .next t
      ∧ t = { s with regs := t.regs, pc := t.pc, cnt := t.cnt, hc := { s.hc with hedeleg := t.hc.hedeleg } }
      ∧ written (fun k => bit s.cfg.hedelegMask k = true ∧ k ∉ [9, 10, 11, 16, 20, 21, 22, 23]) s.hedeleg t.hedeleg)
    ∧ (s.hasH = true → ∃ t, exec (.csrrw rd 0x603 rs1) s = .next t
      ∧ t = { s with regs := t.regs, pc := t.pc, cnt := t.cnt, hc := { s.hc with hideleg := t.hc.hideleg } }
      ∧ written (fun k => k < s.sxlen.bits ∧ bit s.cfg.hidelegMask k = true ∧ bit s.mideleg k = true
          ∧ (k ∈ [2, 6, 10] ∨ (k = 13 ∧ s.cfg.shlcofideleg = true) ∨ platform k)) s.hideleg t.hideleg)
    ∧ (s.hasH = true → ∃ t, exec (.csrrw rd 0x645 rs1) s = .next t
      ∧ t = { s with regs := t.regs, pc := t.pc, cnt := t.cnt, hc := { s.hc with hvip := t.hc.hvip } }
      ∧ t.hc.hvip = v &&& 0x444)

/-- The counters as they read, where the access is allowed (R252, R155): with XLEN=32 by halves, `time` with V=1 the guest's;
and a write of `minstret` is not itself counted (R74). -/
def Obligations.CounterReadsAndWrites : Prop :=
  ∀ (s : State) (rd rs1 : Reg),
    let reads (n : BitVec 12) (v : Word) := s.csrCheck n false = .allowed →
      ∃ t, exec (.csrrs rd n 0#5) s = .next t ∧ s.WritesReg t rd v (s.pc + 4)
    let time := if s.virt then s.mtime + s.hc.htimedelta else s.mtime
    reads 0xC00 s.cnt.mcycle ∧ reads 0xC01 time ∧ reads 0xC02 s.cnt.minstret
    ∧ reads 0xC80 (s.cnt.mcycle >>> 32) ∧ reads 0xC81 (time >>> 32) ∧ reads 0xC82 (s.cnt.minstret >>> 32)
    ∧ (s.priv = .m → s.cfg.mxlen = .rv64 → ∃ t, exec (.csrrw rd 0xB02 rs1) s = .next t
        ∧ t.cnt = { s.cnt with minstret := s.x rs1 })

/-! ### Calls, returns and waiting -/

/-- ECALL raises the environment call of its mode, EBREAK the breakpoint with its own address (R232, R233): the entry sees the
state before them. -/
def Obligations.EnvironmentCallsAndBreakpoints : Prop :=
  ∀ s : State,
    (s.priv = .u → exec .ecall s = .next (s.takeException ⟨.ecallU, 0, false, 0, 0⟩))
    ∧ (s.priv = .s → s.virt = false → exec .ecall s = .next (s.takeException ⟨.ecallS, 0, false, 0, 0⟩))
    ∧ (s.priv = .s → s.virt = true → exec .ecall s = .next (s.takeException ⟨.ecallVS, 0, false, 0, 0⟩))
    ∧ (s.priv = .m → exec .ecall s = .next (s.takeException ⟨.ecallM, 0, false, 0, 0⟩))
    ∧ exec .ebreak s = .next (s.takeException ⟨.breakpoint, zx s.xlen s.pc, s.virt, 0, 0⟩)
    ∧ encode .ecall = 0x00000073 ∧ encode .ebreak = 0x00100073
    ∧ Exc.ecallU.code = 8 ∧ Exc.ecallS.code = 9 ∧ Exc.ecallVS.code = 10 ∧ Exc.ecallM.code = 11
    ∧ Exc.breakpoint.code = 3

/-- MRET (R235) and MNRET (R237): below M-mode illegal instructions; in M-mode they return to the mode they saved, at the
saved pc. That MNRET to M-mode ignores MNPV is R237's own inference, marked [derived] there. -/
def Obligations.MachineReturns : Prop :=
  ∀ s : State,
    encode .mret = 0x30200073 ∧ encode .mnret = 0x70200073
    ∧ (s.priv ≠ .m → s.IsIllegal .mret ∧ s.IsIllegal .mnret) ∧ (s.cfg.smrnmi = false → s.IsIllegal .mnret)
    ∧ (s.priv = .m →
        let y := Priv.ofCode s.mstatusMPP
        ∃ t, exec .mret s = .next t ∧ s.Returns t y (s.hasH && s.mstatusMPV && y != .m) s.mc.mepc
          ∧ t.mstatusMIE = s.mstatusMPIE ∧ t.mstatusMPIE = true
          ∧ t.mstatusMPP = (if s.hasU then Priv.u.code else Priv.m.code)
          ∧ (s.hasH = true → t.mstatusMPV = false) ∧ (s.hasH = false → t.mstatusMPV = s.mstatusMPV)
          ∧ t.mstatusMPRV = (if y = .m then s.mstatusMPRV else false)
          ∧ SameBitsBut s.mc.mstatus t.mc.mstatus [3, 7, 11, 12, 17, 39]
          ∧ t.mc.mnstatus = s.mc.mnstatus ∧ t.hc = s.hc ∧ t.vc = s.vc)
    ∧ (s.priv = .m → s.cfg.smrnmi = true →
        let y := Priv.ofCode s.mnstatusMNPP
        ∃ t, exec .mnret s = .next t ∧ s.Returns t y (s.hasH && s.mnstatusMNPV && y != .m) s.mc.mnepc
          ∧ t.mnstatusNMIE = true ∧ SameBitsBut s.mc.mnstatus t.mc.mnstatus [3]
          ∧ t.mstatusMPRV = (if y = .m then s.mstatusMPRV else false)
          ∧ SameBitsBut s.mc.mstatus t.mc.mstatus [17] ∧ t.hc = s.hc ∧ t.vc = s.vc)

/-- SRET (R236): who may not execute it, and what it returns to, from M-mode and HS-mode by the supervisor's registers and
`hstatus`, from VS-mode by the VS registers. That an SRET in VS-mode clears MPRV is R236's own inference, marked [derived]
there. -/
def Obligations.SupervisorReturns : Prop :=
  ∀ s : State, encode .sret = 0x10200073
    ∧ (s.hasS = false → s.IsIllegal .sret)
    ∧ (s.hasS = true →
        (s.priv = .u → s.virt = false → s.IsIllegal .sret) ∧ (s.priv = .u → s.virt = true → s.IsVirtual .sret)
        ∧ (s.priv = .s → s.virt = false → s.mstatusTSR = true → s.IsIllegal .sret)
        ∧ (s.priv = .s → s.virt = true → s.hstatusVTSR = true → s.IsVirtual .sret)
        ∧ (s.virt = false → s.priv = .m ∨ (s.priv = .s ∧ s.mstatusTSR = false) →
            ∃ t, exec .sret s = .next t ∧ s.Returns t (Priv.ofBit s.mstatusSPP) (s.hasH && s.hstatusSPV) s.sc.sepc
              ∧ t.mstatusSIE = s.mstatusSPIE ∧ t.mstatusSPIE = true ∧ t.mstatusSPP = false ∧ t.mstatusMPRV = false
              ∧ SameBitsBut s.mc.mstatus t.mc.mstatus [1, 5, 8, 17] ∧ t.mc.mnstatus = s.mc.mnstatus
              ∧ (s.hasH = true → t.hstatusSPV = false ∧ SameBitsBut s.hc.hstatus t.hc.hstatus [7])
              ∧ (s.hasH = false → t.hc = s.hc) ∧ t.vc = s.vc)
        ∧ (s.virt = true → s.priv = .s → s.hstatusVTSR = false →
            ∃ t, exec .sret s = .next t ∧ s.Returns t (Priv.ofBit s.vsstatusSPP) true s.vc.vsepc
              ∧ t.vsstatusSIE = s.vsstatusSPIE ∧ t.vsstatusSPIE = true ∧ t.vsstatusSPP = false ∧ t.mstatusMPRV = false
              ∧ SameBitsBut s.vc.vsstatus t.vc.vsstatus [1, 5, 8] ∧ SameBitsBut s.mc.mstatus t.mc.mstatus [17]
              ∧ t.mc.mnstatus = s.mc.mnstatus ∧ t.hc = s.hc))

/-- WFI (R238): where it is permitted it advances the pc, or, on a hart that stalls in a WFI (decision D8), stalls it while no enabled
interrupt is pending; with the bound of decision D7 used up (at once, where it is 0) TW makes it illegal below M, VTW a virtual
instruction in VS-mode, U-mode may not use it where S-mode exists. VU-mode never may: there it is a virtual instruction, under TW only
if the wait ends within the bound. A stalled hart executes it again at each step, until it is behind it, or, in VU-mode, until its
exception, but for a non-maskable interrupt that can be taken, which comes before every exception (R350) and finds the pc at the WFI.
That a non-maskable interrupt ends a stall too, also while NMIE is 0, that nothing else does, and that the exception of VU-mode comes
before another interrupt, which ends the stall, is log 24. -/
def Obligations.WaitForInterruptByMode : Prop :=
  ∀ s : State,
    let fresh : State := { s with waited := 0 }
    let calls (u : State) : Prop := u.mip &&& u.mie ≠ 0 ∨ (if u.cfg.smrnmi then u.pins.rnmi else u.pins.nmi) ≠ none
    let taken := if s.cfg.smrnmi then s.mnstatusNMIE = true ∧ s.pins.rnmi ≠ none else s.pins.nmi ≠ none
    let idle := s.cfg.wfiIsNop = false ∧ ¬ calls s
    let late := s.cfg.wfiTimeout = 0 ∨ (idle ∧ s.cfg.wfiTimeout ≤ s.waited)
    let waits := (¬ idle → ∃ t, exec .wfi s = .next t ∧ fresh.Advances t (s.pc + 4))
      ∧ (idle → exec .wfi s = .next { s with waited := s.waited + 1 })
    let raises (e : Exc) := exec .wfi s = .next (fresh.takeException ⟨e, 0x10500073, false, 0, 0⟩)
    encode .wfi = 0x10500073
    ∧ (s.priv = .m → waits)
    ∧ (s.priv ≠ .m → s.mstatusTW = true → late → raises .illegal)
    ∧ (s.priv = .s → s.virt = false → ¬ (s.mstatusTW = true ∧ late) → waits)
    ∧ (s.priv = .u → s.virt = false → s.hasS = true → late → raises .illegal)
    ∧ (s.priv = .u → s.virt = false → ¬ ((s.mstatusTW = true ∨ s.hasS = true) ∧ late) → waits)
    ∧ (s.priv = .s → s.virt = true → s.mstatusTW = false → s.hstatusVTW = true → late → raises .virtualInstr)
    ∧ (s.priv = .s → s.virt = true → ¬ ((s.mstatusTW = true ∨ s.hstatusVTW = true) ∧ late) → waits)
    ∧ (s.priv = .u → s.virt = true → s.mstatusTW = false → raises .virtualInstr)
    ∧ (s.priv = .u → s.virt = true → s.mstatusTW = true → ¬ late →
        (¬ idle → raises .virtualInstr) ∧ (idle → exec .wfi s = .next { s with waited := s.waited + 1 }))
    ∧ (s.stalled = true ↔ s.waited ≠ 0 ∧ (¬ calls s ∨ (s.priv = .u ∧ s.virt = true ∧ ¬ taken)))
    ∧ (s.tick.stalled = true → step s = exec .wfi s.tick)
    ∧ (s.waited ≠ 0 → ¬ (s.priv = .u ∧ s.virt = true) → fresh.Advances s.woken (s.pc + 4))
    ∧ (s.priv = .u → s.virt = true → s.woken = fresh)

/-! ### Traps -/

/-- Where an exception is handled (R339): in M-mode unless raised below it and delegated; then in S-mode, or, raised with V=1
and delegated further, in VS-mode; and a trap never lowers the privilege. -/
def Obligations.ExceptionDestination : Prop :=
  ∀ (s : State) (e : Trap),
    let u := s.takeException e
    (s.priv = .m ∨ s.hasS = false ∨ bit s.medeleg e.exc.code = false → u.priv = .m ∧ u.virt = false)
    ∧ (s.priv ≠ .m → s.hasS = true → bit s.medeleg e.exc.code = true →
        u.priv = .s ∧ (u.virt = true ↔ s.virt = true ∧ bit s.hedeleg e.exc.code = true))

/-- An exception into M-mode (R340-R345): what is saved where, what the status becomes, where the pc goes, and that nothing else
changes. The saved pc is zero-extended from the width of the mode left (log 10) and never converted to another address, which R80
would allow for an invalid one: the model's choice (log 40). Which exceptions inform is a parameter (log 11); without a vector of
its own an exception in M-mode with NMIE clear goes to `mtvec` (log 23). -/
def Obligations.ExceptionIntoMachineMode : Prop :=
  ∀ (s : State) (e : Trap), s.priv = .m ∨ s.hasS = false ∨ bit s.medeleg e.exc.code = false →
    let u := s.takeException e
    let informs := bit s.cfg.tvalInfo e.exc.code
    u = { s with priv := .m, virt := false, pc := u.pc, mc := { s.mc with
        mstatus := u.mc.mstatus, mepc := u.mc.mepc, mcause := u.mc.mcause, mtval := u.mc.mtval, mtval2 := u.mc.mtval2,
        mtinst := u.mc.mtinst } }
    ∧ u.mc.mepc = zx s.xlen s.pc &&& ~~~3#64 ∧ u.mc.mcause.toNat = e.exc.code
    ∧ u.mc.mtval = zx s.cfg.mxlen (if informs then e.tval else 0)
    ∧ (s.hasH = true → u.mc.mtval2 = zx s.cfg.mxlen (if bit s.cfg.tval2Info e.exc.code then e.tval2 else 0) ∧ u.mc.mtinst = e.tinst
        ∧ u.mstatusMPV = s.virt ∧ u.mstatusGVA = (e.gva && informs && e.tval != 0))
    ∧ (s.hasH = false → u.mc.mtval2 = s.mc.mtval2 ∧ u.mc.mtinst = s.mc.mtinst ∧ u.mstatusMPV = s.mstatusMPV
        ∧ u.mstatusGVA = s.mstatusGVA)
    ∧ u.mstatusMPIE = s.mstatusMIE ∧ u.mstatusMIE = false ∧ u.mstatusMPP = s.priv.code
    ∧ SameBitsBut s.mc.mstatus u.mc.mstatus [3, 7, 11, 12, 38, 39]
    ∧ u.pc = sx s.cfg.mxlen
        (match s.cfg.rnmiExcVector with
        | some v => if s.cfg.smrnmi = true ∧ s.mnstatusNMIE = false ∧ s.priv = .m then v else s.mc.mtvec &&& ~~~3#64
        | none => s.mc.mtvec &&& ~~~3#64)

/-- An exception delegated to S-mode, and one delegated further to VS-mode (R340-R345): the machine's trap registers stay, and
for VS-mode the supervisor's and hypervisor's as well. The saved pc is zero-extended from the width of the mode left (log 10) and
never converted to another address, which R95 would allow for an invalid one: the model's choice (log 40). Which exceptions
inform is a parameter (log 11). -/
def Obligations.DelegatedExceptions : Prop :=
  ∀ (s : State) (e : Trap), s.priv ≠ .m → s.hasS = true → bit s.medeleg e.exc.code = true →
    let u := s.takeException e
    let informs := bit s.cfg.tvalInfo e.exc.code
    (¬ (s.virt = true ∧ bit s.hedeleg e.exc.code = true) →
      u = { s with
            priv := .s, virt := false, pc := u.pc, mc := { s.mc with mstatus := u.mc.mstatus }
            sc := { s.sc with sepc := u.sc.sepc, scause := u.sc.scause, stval := u.sc.stval }
            hc := { s.hc with hstatus := u.hc.hstatus, htval := u.hc.htval, htinst := u.hc.htinst } }
      ∧ u.sc.sepc = zx s.xlen s.pc &&& ~~~3#64 ∧ u.sc.scause.toNat = e.exc.code
      ∧ u.sc.stval = zx s.sxlen (if informs then e.tval else 0)
      ∧ u.mstatusSPIE = s.mstatusSIE ∧ u.mstatusSIE = false ∧ u.mstatusSPP = (s.priv == .s)
      ∧ SameBitsBut s.mc.mstatus u.mc.mstatus [1, 5, 8]
      ∧ (s.hasH = false → u.hc = s.hc)
      ∧ (s.hasH = true → u.hstatusSPV = s.virt ∧ u.hstatusGVA = (e.gva && informs && e.tval != 0)
          ∧ u.hstatusSPVP = (if s.virt then s.priv == .s else s.hstatusSPVP)
          ∧ SameBitsBut s.hc.hstatus u.hc.hstatus [6, 7, 8]
          ∧ u.hc.htval = zx s.sxlen (if bit s.cfg.tval2Info e.exc.code then e.tval2 else 0) ∧ u.hc.htinst = e.tinst)
      ∧ u.pc = sx s.sxlen (s.sc.stvec &&& ~~~3#64))
    ∧ (s.virt = true → bit s.hedeleg e.exc.code = true →
      u = { s with priv := .s, virt := true, pc := u.pc, vc := { s.vc with
            vsstatus := u.vc.vsstatus, vsepc := u.vc.vsepc, vscause := u.vc.vscause, vstval := u.vc.vstval } }
      ∧ u.vc.vsepc = zx s.xlen s.pc &&& ~~~3#64 ∧ u.vc.vscause.toNat = e.exc.code
      ∧ u.vc.vstval = zx s.vsxlen (if informs then e.tval else 0)
      ∧ u.vsstatusSPIE = s.vsstatusSIE ∧ u.vsstatusSIE = false ∧ u.vsstatusSPP = (s.priv == .s)
      ∧ SameBitsBut s.vc.vsstatus u.vc.vsstatus [1, 5, 8]
      ∧ u.pc = sx s.vsxlen (s.vc.vstvec &&& ~~~3#64))

/-! ### Interrupts -/

/-- The bits of `mip` (R150, R163, R335): what makes each interrupt pending, and that `mip` shows exactly the pending ones. That
MSIP is bit 0 of the software-interrupt register is log 20. While henvcfg.STCE is 1 VSTIP has the comparison with `vstimecmp`
(R163); that it has a signal of the platform while STCE is 0, which R335 and a table of 93_implementation_defined.md do not name, is
the model's choice (log 6), and so is that the comparison adds the stored `htimedelta` also on a hart that has no such register, for
want of the `time` CSR (log 59). -/
def Obligations.PendingInterrupts : Prop :=
  ∀ s : State, s.cfg.wf = true →
    (∀ i, i < 64 → bit s.mip i = s.pending i)
    ∧ bit s.mip 11 = s.pins.meip ∧ (bit s.mip 7 = true ↔ s.mtimecmp.toNat ≤ s.mtime.toNat)
    ∧ bit s.mip 3 = s.msip.getLsbD 0
    ∧ (s.hasS = true → bit s.mip 9 = (bit s.mc.mip 9 || s.pins.seip) ∧ bit s.mip 1 = bit s.mc.mip 1
        ∧ (s.menvcfgSTCE = false → bit s.mip 5 = bit s.mc.mip 5)
        ∧ (s.menvcfgSTCE = true → (bit s.mip 5 = true ↔ s.sc.stimecmp.toNat ≤ s.mtime.toNat)))
    ∧ (s.hasH = true → bit s.mip 2 = bit s.hc.hvip 2
        ∧ (bit s.mip 12 = true ↔ ∃ k, bit s.hgeip k = true ∧ bit s.hgeie k = true)
        ∧ bit s.mip 10 = (bit s.hc.hvip 10 || bit s.hgeip s.hstatusVGEIN.toNat || s.pins.vsei)
        ∧ (s.henvcfgSTCE = false → bit s.mip 6 = (bit s.hc.hvip 6 || s.pins.vsti))
        ∧ (s.henvcfgSTCE = true → (bit s.mip 6 = true ↔
            bit s.hc.hvip 6 = true ∨ s.vc.vstimecmp.toNat ≤ (s.mtime + s.hc.htimedelta).toNat)))
    ∧ (s.cfg.sscofpmf = true → bit s.mip 13 = bit s.mc.mip 13)

/-- Which interrupt is taken (R92, R336, R337): only one that is pending, enabled, and globally enabled at its destination, whose
registers have a bit for it; one if there is any; of a more privileged destination before one of a less privileged; and within a
destination, without platform interrupts, in the order of R337: M-mode's, S-mode's without the hypervisor extension, HS-mode's, and
VS-mode's. That LCOFI comes last in HS-mode, whose list omits it, is decision D24 (log 21). -/
def Obligations.InterruptSelection : Prop :=
  ∀ s : State, s.cfg.wf = true →
    let ready (d : Dest) (i : Nat) : Prop :=
      s.pending i = true ∧ bit s.mie i = true ∧ (s.cfg.smrnmi = true → s.mnstatusNMIE = true)
      ∧ match d with
        | .m => (s.hasS = false ∨ bit s.mideleg i = false) ∧ (s.priv = .m → s.mstatusMIE = true)
        | .s => s.hasS = true ∧ bit s.mideleg i = true ∧ ¬ (s.hasH = true ∧ bit s.hideleg i = true) ∧ s.priv ≠ .m
            ∧ i < s.sxlen.bits ∧ (s.priv = .s → s.virt = false → s.mstatusSIE = true)
        | .vs => s.hasS = true ∧ bit s.mideleg i = true ∧ s.hasH = true ∧ bit s.hideleg i = true ∧ s.virt = true
            ∧ i < s.vsxlen.bits ∧ (s.priv ≠ .u → s.vsstatusSIE = true)
    (∀ d i, s.interrupt = some (d, i) → ready d i)
    ∧ (∀ d i, ready d i → s.interrupt ≠ none)
    ∧ (∀ d i j, s.interrupt = some (d, i) → (ready .m j → d = .m) ∧ (ready .s j → d ≠ .vs))
    ∧ (s.cfg.platformInts = [] → ∀ d i j, s.interrupt = some (d, i) → ready d j →
        let order := match d with
          | .m => [11, 3, 7, 9, 1, 5, 13]
          | .s => if s.hasH then [9, 1, 5, 12, 10, 2, 6, 13] else [9, 1, 5, 13]
          | .vs => [10, 2, 6, 13]
        i ∈ order ∧ j ∈ order ∧ order.idxOf i ≤ order.idxOf j)

/-- A step at whose boundary an interrupt is taken, the hart not going on with a WFI (R338, R340, R341): it enters the handler of
its destination with the pc saved and the cause marked as an interrupt, in Vectored mode at 4 times the cause, the trap values 0,
and runs no instruction: nothing else changes; a WFI that stalled the hart has ended (R238). The model's choices: the saved pc is
zero-extended from the width of the mode left (log 10) and never converted to another address (log 40); a platform interrupt keeps
its number in `vscause` and in the vector address (log 39). -/
def Obligations.InterruptEntry : Prop :=
  ∀ (s : State) (d : Dest) (i : Nat), s.tick.stalled = false → s.tick.woken.nonMaskable = none →
    s.tick.woken.interrupt = some (d, i) → i < 64 →
    let u := s.tick.woken
    let target (xl : Xlen) (tvec : Word) (c : Nat) : Word :=
      sx xl ((tvec &&& ~~~3#64) + if tvec.getLsbD 0 then BitVec.ofNat 64 (4 * c) else 0)
    let saved := zx u.xlen u.pc &&& ~~~3#64
    ∃ t, step s = .next t
      ∧ match d with
        | .m =>
            t = { u with
              priv := .m, virt := false, pc := target u.cfg.mxlen u.mc.mtvec i
              mc := { u.mc with
                mstatus := t.mc.mstatus, mepc := saved, mcause := t.mc.mcause, mtval := 0
                mtval2 := if u.hasH then 0 else u.mc.mtval2, mtinst := if u.hasH then 0 else u.mc.mtinst } }
            ∧ t.mc.mcause.toNat = 2 ^ (u.cfg.mxlen.bits - 1) + i
            ∧ t.mstatusMPIE = u.mstatusMIE ∧ t.mstatusMIE = false ∧ t.mstatusMPP = u.priv.code
            ∧ (u.hasH = true → t.mstatusMPV = u.virt ∧ t.mstatusGVA = false)
            ∧ SameBitsBut u.mc.mstatus t.mc.mstatus ([3, 7, 11, 12] ++ if u.hasH then [38, 39] else [])
        | .s =>
            t = { u with
              priv := .s, virt := false, pc := target u.sxlen u.sc.stvec i
              mc := { u.mc with mstatus := t.mc.mstatus }
              sc := { u.sc with sepc := saved, scause := t.sc.scause, stval := 0 }
              hc := if u.hasH then { u.hc with hstatus := t.hc.hstatus, htval := 0, htinst := 0 } else u.hc }
            ∧ t.sc.scause.toNat = 2 ^ (u.sxlen.bits - 1) + i
            ∧ t.mstatusSPIE = u.mstatusSIE ∧ t.mstatusSIE = false ∧ t.mstatusSPP = (u.priv == .s)
            ∧ SameBitsBut u.mc.mstatus t.mc.mstatus [1, 5, 8]
            ∧ (u.hasH = true → t.hstatusSPV = u.virt ∧ t.hstatusGVA = false
                ∧ t.hstatusSPVP = (if u.virt then u.priv == .s else u.hstatusSPVP)
                ∧ SameBitsBut u.hc.hstatus t.hc.hstatus [6, 7, 8])
        | .vs =>
            let c := if i = 2 ∨ i = 6 ∨ i = 10 then i - 1 else i
            t = { u with
              priv := .s, virt := true, pc := target u.vsxlen u.vc.vstvec c
              vc := { u.vc with vsstatus := t.vc.vsstatus, vsepc := saved, vscause := t.vc.vscause, vstval := 0 } }
            ∧ t.vc.vscause.toNat = 2 ^ (u.vsxlen.bits - 1) + c
            ∧ t.vsstatusSPIE = u.vsstatusSIE ∧ t.vsstatusSIE = false ∧ t.vsstatusSPP = (u.priv == .s)
            ∧ SameBitsBut u.vc.vsstatus t.vc.vsstatus [1, 5, 8]

/-- A non-maskable interrupt at a step's boundary, the hart not going on with a WFI, whose stall it ends too (log 24), in VU-mode before
the WFI's exception (R350, WaitForInterruptByMode): with Smrnmi
and NMIE set the RNMI registers save the state and `mepc`, `mcause` and `mstatus` stay (R350); without Smrnmi it is taken whatever
the enables are (R349; that `mstatus` and `mtval` are written as for a trap is decision D25, log 22). The saved pc is zero-extended
from the width of the mode left (log 10) and never converted to another address, which R80 and R132 would allow for an invalid one:
the model's choice (log 40). -/
def Obligations.NonMaskableInterrupts : Prop :=
  ∀ (s : State) (code : Word), s.tick.stalled = false →
    let u := s.tick.woken
    let cause := zx u.cfg.mxlen (1#64 <<< (u.cfg.mxlen.bits - 1) ||| code)
    (u.cfg.smrnmi = true → u.mnstatusNMIE = true → u.pins.rnmi = some code →
      ∃ t, step s = .next t ∧ t.priv = .m ∧ t.virt = false ∧ t.pc = sx u.cfg.mxlen u.cfg.rnmiIntVector
        ∧ t.mc = { u.mc with mnepc := zx u.xlen u.pc &&& ~~~3#64, mncause := cause, mnstatus := t.mc.mnstatus }
        ∧ t.mnstatusMNPP = u.priv.code ∧ t.mnstatusNMIE = false ∧ (u.hasH = true → t.mnstatusMNPV = u.virt)
        ∧ t.regs = u.regs ∧ t.mem = u.mem)
    ∧ (u.cfg.smrnmi = false → u.pins.nmi = some code →
      ∃ t, step s = .next t ∧ t.priv = .m ∧ t.virt = false ∧ t.pc = sx u.cfg.mxlen u.cfg.nmiVector
        ∧ t.mc.mepc = zx u.xlen u.pc &&& ~~~3#64 ∧ t.mc.mcause = cause ∧ t.mc.mtval = 0
        ∧ t.mstatusMPIE = u.mstatusMIE ∧ t.mstatusMIE = false ∧ t.mstatusMPP = u.priv.code
        ∧ t.regs = u.regs ∧ t.mem = u.mem)

/-! ### Reset -/

/-- What reset leaves, for every hart the parameters allow (R352; `mseccfg` and the legal values as there), and that it satisfies the
invariant. That A and L are 0 for every PMP entry, where R352 lets the platform mandate other values for some, is the model's choice
(log 17), and so are the reset values of fields R352 does not list, on which the invariant rests in part (log 2); of those no other
is stated. -/
def Obligations.ResetLeaves : Prop :=
  ∀ c : Config, c.wf = true →
    let s := State.resetWith c
    s.Inv ∧ s.cfg = c ∧ s.priv = .m ∧ s.virt = false ∧ s.mstatusMIE = false ∧ s.mstatusMPRV = false
    ∧ (c.mbe ≠ .big → s.mstatusMBE = false)
    ∧ (s.mc.misa.getLsbD 8 = true ∧ s.mc.misa.getLsbD 18 = c.hasS ∧ s.mc.misa.getLsbD 20 = c.hasU
        ∧ s.mc.misa.getLsbD 7 = c.hasH)
    ∧ s.reservation = none ∧ zx c.mxlen s.pc = zx c.mxlen c.resetVector ∧ s.mc.mcause = c.resetCause
    ∧ (∀ i, (s.pmpcfg i).getLsbD 7 = false ∧ (s.pmpcfg i).extractLsb' 3 2 = 0#2)
    ∧ s.mc.mseccfg = 0 ∧ s.mnstatusNMIE = false ∧ (∀ n, s.mstateen n = 0)
    ∧ schemeOf s.sxlen s.hc.hgatp = none ∧ schemeOf s.vsxlen s.vc.vsatp = none
end

