-- ==== Sys2Proof/Laws/Bits.lean ====
section
/-! SUPPORT. Bits, fields, alignment and width conversions: what each operation of Machine/Bits.lean does, bit by bit. -/

namespace Sys2Proof.Machine

/-! ### Bits and fields -/

theorem eq_of_bits {w v : Word} (h : ∀ i, bit w i = bit v i) : w = v := BitVec.eq_of_getLsbD_eq fun i _ => h i

theorem bit_bitAt (i j : Nat) (b : Bool) : bit (bitAt i b) j = (b && decide (i = j) && decide (j < 64)) := by
  unfold bit bitAt
  cases b
  · simp
  · simp only [if_true, BitVec.getLsbD_shiftLeft, BitVec.getLsbD_one, Bool.true_and]
    by_cases h : i = j
    · subst h; simp
    · by_cases hj : j < 64 <;> by_cases hlt : j < i <;> simp [h, hj, hlt] <;> omega

theorem bit_and (w v : Word) (j : Nat) : bit (w &&& v) j = (bit w j && bit v j) := BitVec.getLsbD_and

theorem bit_or (w v : Word) (j : Nat) : bit (w ||| v) j = (bit w j || bit v j) := BitVec.getLsbD_or

theorem bit_not (w : Word) (j : Nat) : bit (~~~w) j = (decide (j < 64) && !bit w j) := BitVec.getLsbD_not

theorem bit_of_ge (w : Word) {j : Nat} (h : 64 ≤ j) : bit w j = false := BitVec.getLsbD_of_ge w j h

/-- A bit after another, or the same, is replaced. -/
theorem bit_setBit (w : Word) (i : Nat) (b : Bool) (j : Nat) :
    bit (setBit w i b) j = if i = j ∧ j < 64 then b else bit w j := by
  have h1 : bit (1#64 <<< i) j = (decide (i = j) && decide (j < 64)) := by
    simpa [bitAt] using bit_bitAt i j true
  rw [setBit, bit_or, bit_and, bit_not, bit_bitAt, h1]
  by_cases h : i = j <;> by_cases hj : j < 64 <;> simp [h, hj, bit_of_ge, Nat.not_lt.mp]

/-- A bit after a merge under a mask. -/
theorem bit_merge (w v mask : Word) (j : Nat) : bit (merge w v mask) j = if bit mask j then bit v j else bit w j := by
  rw [merge, bit_or, bit_and, bit_and, bit_not]
  by_cases hj : j < 64
  · cases bit mask j <;> simp [hj]
  · simp [hj, bit_of_ge, Nat.not_lt.mp hj]

/-- A bit after a field is replaced. -/
theorem bit_setField (w : Word) (lo : Nat) {n : Nat} (v : BitVec n) (j : Nat) :
    bit (setField w lo v) j = if lo ≤ j ∧ j < lo + n ∧ j < 64 then v.getLsbD (j - lo) else bit w j := by
  have hm : bit ((BitVec.allOnes n).setWidth 64 <<< lo) j = (decide (j < 64) && decide (lo ≤ j) && decide (j < lo + n)) := by
    simp only [bit, BitVec.getLsbD_shiftLeft, BitVec.getLsbD_setWidth, BitVec.getLsbD_allOnes]
    rw [Bool.eq_iff_iff]
    simp only [Bool.and_eq_true, Bool.not_eq_true', decide_eq_true_eq, decide_eq_false_iff_not]
    omega
  have hv : bit (v.setWidth 64 <<< lo) j = (decide (j < 64) && decide (lo ≤ j) && v.getLsbD (j - lo)) := by
    simp only [bit, BitVec.getLsbD_shiftLeft, BitVec.getLsbD_setWidth]
    by_cases h1 : j < 64
    · by_cases h2 : j < lo
      · simp [h2, show ¬ lo ≤ j by omega]
      · simp [h1, h2, show lo ≤ j by omega, show j - lo < 64 by omega]
    · simp [h1]
  rw [setField, bit_or, bit_and, bit_not, hm, hv]
  by_cases h1 : j < 64
  · by_cases h2 : lo ≤ j
    · by_cases h3 : j < lo + n
      · simp [h1, h2, h3]
      · have : v.getLsbD (j - lo) = false := BitVec.getLsbD_of_ge v _ (by omega)
        simp [h1, h2, h3, this]
    · simp [h1, h2]
  · simp [h1, bit_of_ge w (Nat.not_lt.mp h1)]

theorem getLsbD_field (w : Word) (lo n i : Nat) : (field w lo n).getLsbD i = (decide (i < n) && bit w (lo + i)) :=
  BitVec.getLsbD_extractLsb' ..

/-- Two words with the same bits in a field have the same field. -/
theorem field_congr {w v : Word} {lo n : Nat} (h : ∀ j, lo ≤ j → j < lo + n → bit w j = bit v j) :
    field w lo n = field v lo n := by
  apply BitVec.eq_of_getLsbD_eq
  intro i hi
  rw [getLsbD_field, getLsbD_field, h (lo + i) (by omega) (by omega)]

/-- The field just replaced. -/
@[simp] theorem field_setField_same (w : Word) (lo : Nat) {n : Nat} (v : BitVec n) (h : lo + n ≤ 64) :
    field (setField w lo v) lo n = v := by
  apply BitVec.eq_of_getLsbD_eq
  intro i hi
  rw [getLsbD_field, bit_setField, if_pos ⟨by omega, by omega, by omega⟩]
  simp [hi]

/-- Another field than the one replaced. -/
theorem field_setField_other (w : Word) (lo : Nat) {n : Nat} (v : BitVec n) (lo' m : Nat)
    (h : lo' + m ≤ lo ∨ lo + n ≤ lo') : field (setField w lo v) lo' m = field w lo' m := by
  refine field_congr fun j h1 h2 => ?_
  rw [bit_setField, if_neg (by omega)]

/-- A field outside the bit replaced. -/
theorem field_setBit_other (w : Word) (i : Nat) (b : Bool) (lo n : Nat) (h : i < lo ∨ lo + n ≤ i) :
    field (setBit w i b) lo n = field w lo n := by
  refine field_congr fun j h1 h2 => ?_
  rw [bit_setBit, if_neg (by omega)]

/-- A field outside the mask of a merge. -/
theorem field_merge_other (w v mask : Word) (lo n : Nat) (h : ∀ j, lo ≤ j → j < lo + n → bit mask j = false) :
    field (merge w v mask) lo n = field w lo n := by
  refine field_congr fun j h1 h2 => ?_
  rw [bit_merge, h j h1 h2]; simp

/-! ### Alignment (R22, R80) -/

theorem bit_align4 (w : Word) (j : Nat) : bit (align4 w) j = (decide (2 ≤ j) && bit w j) := by
  have h3 : bit 3#64 j = decide (j < 2) := by
    have : (3#64) = (BitVec.allOnes 2).setWidth 64 := by decide
    simp only [this, bit, BitVec.getLsbD_setWidth, BitVec.getLsbD_allOnes]
    by_cases h : j < 2 <;> simp [h] <;> omega
  rw [align4, bit_and, bit_not, h3]
  by_cases hj : j < 64
  · by_cases h2 : j < 2 <;> simp [hj, h2] <;> omega
  · simp [bit_of_ge w (Nat.not_lt.mp hj)]

@[simp] theorem align4_align4 (w : Word) : align4 (align4 w) = align4 w := by
  apply eq_of_bits; intro i; simp only [bit_align4]; cases decide (2 ≤ i) <;> simp

theorem misalignedTarget_iff (w : Word) : misalignedTarget w = (bit w 0 || bit w 1) := by
  have h : w.extractLsb' 0 2 = 0#2 ↔ bit w 0 = false ∧ bit w 1 = false := by
    constructor
    · intro h
      have h0 := congrArg (fun v => v.getLsbD 0) h
      have h1 := congrArg (fun v => v.getLsbD 1) h
      simp at h0 h1
      exact ⟨h0, h1⟩
    · rintro ⟨h0, h1⟩
      apply BitVec.eq_of_getLsbD_eq
      intro i hi
      have : i = 0 ∨ i = 1 := by omega
      rcases this with rfl | rfl
      · simpa [bit] using h0
      · simpa [bit] using h1
  unfold misalignedTarget
  by_cases hz : w.extractLsb' 0 2 = 0#2
  · obtain ⟨h0, h1⟩ := h.mp hz; simp [hz, h0, h1]
  · have := mt h.mpr hz
    have hb : (w.extractLsb' 0 2 != 0#2) = true := by simpa using hz
    rw [hb]
    cases h0 : bit w 0 <;> cases h1 : bit w 1 <;> simp_all

@[simp] theorem misalignedTarget_align4 (w : Word) : misalignedTarget (align4 w) = false := by
  simp [misalignedTarget_iff, bit_align4]

theorem misalignedTarget_toNat (w : Word) : misalignedTarget w = decide (w.toNat % 4 ≠ 0) := by
  unfold misalignedTarget
  have : (w.extractLsb' 0 2).toNat = w.toNat % 4 := by simp [BitVec.extractLsb'_toNat]
  by_cases h : w.toNat % 4 = 0
  · have : w.extractLsb' 0 2 = 0#2 := BitVec.eq_of_toNat_eq (by simp [h])
    simp [this, h]
  · have : w.extractLsb' 0 2 ≠ 0#2 := by
      intro hc; rw [hc] at this; exact h (by simpa using this.symm)
    simp [this, h]

/-- The sum of aligned addresses is aligned. -/
theorem misalignedTarget_add {w v : Word} (hw : misalignedTarget w = false) (hv : misalignedTarget v = false) :
    misalignedTarget (w + v) = false := by
  simp only [misalignedTarget_toNat, decide_eq_false_iff_not, Decidable.not_not, BitVec.toNat_add] at *
  omega

/-! ### Widths (R37, R57) -/

theorem bit_zx (xl : Xlen) (w : Word) (j : Nat) : bit (zx xl w) j = (decide (j < xl.bits) && bit w j) := by
  cases xl
  · simp only [zx, bit, BitVec.getLsbD_setWidth, Xlen.bits]
    by_cases h : j < 32
    · have : j < 64 := by omega
      simp [h, this]
    · simp [h]
  · simp only [zx, Xlen.bits]
    by_cases h : j < 64
    · simp [h]
    · simp [h, bit_of_ge w (Nat.not_lt.mp h)]

theorem bit_sx_low (xl : Xlen) (w : Word) {j : Nat} (h : j < xl.bits) : bit (sx xl w) j = bit w j := by
  cases xl
  · have h' : j < 32 := h
    simp only [sx, bit, BitVec.getLsbD_signExtend, BitVec.getLsbD_setWidth]
    simp [h', show j < 64 by omega]
  · rfl

@[simp] theorem misalignedTarget_sx (xl : Xlen) (w : Word) : misalignedTarget (sx xl w) = misalignedTarget w := by
  simp only [misalignedTarget_iff]
  rw [bit_sx_low xl w (by cases xl <;> decide), bit_sx_low xl w (by cases xl <;> decide)]

@[simp] theorem misalignedTarget_zx (xl : Xlen) (w : Word) : misalignedTarget (zx xl w) = misalignedTarget w := by
  simp only [misalignedTarget_iff, bit_zx]
  cases xl <;> simp [Xlen.bits]

@[simp] theorem zx_zx (xl : Xlen) (w : Word) : zx xl (zx xl w) = zx xl w := by
  apply eq_of_bits; intro i; simp only [bit_zx]; cases decide (i < xl.bits) <;> simp

@[simp] theorem zx_sx (xl : Xlen) (w : Word) : zx xl (sx xl w) = zx xl w := by
  apply eq_of_bits; intro i; simp only [bit_zx]
  by_cases h : i < xl.bits
  · simp [h, bit_sx_low xl w h]
  · simp [h]

@[simp] theorem sx_sx (xl : Xlen) (w : Word) : sx xl (sx xl w) = sx xl w := by
  cases xl
  · have : ((w.setWidth 32).signExtend 64).setWidth 32 = w.setWidth 32 := by
      apply BitVec.eq_of_getLsbD_eq; intro i hi
      simp only [BitVec.getLsbD_setWidth, BitVec.getLsbD_signExtend, hi, show i < 64 by omega, decide_true, if_true,
        Bool.true_and]
    simp [sx, this]
  · rfl

@[simp] theorem align4_zx_align4 (xl : Xlen) (w : Word) : align4 (zx xl (align4 w)) = zx xl (align4 w) := by
  apply eq_of_bits; intro i
  simp only [bit_align4, bit_zx]
  cases decide (2 ≤ i) <;> simp

theorem zx_toNat (xl : Xlen) (w : Word) : (zx xl w).toNat = w.toNat % 2 ^ xl.bits := by
  cases xl
  · simp only [zx, Xlen.bits, BitVec.toNat_setWidth]; omega
  · simp only [zx, Xlen.bits]; omega

/-- A handler's address is aligned (R341). -/
@[simp] theorem misalignedTarget_vector (tvec : Word) (intr : Bool) (code : Nat) :
    misalignedTarget (vector tvec intr code) = false := by
  unfold vector
  refine misalignedTarget_add (misalignedTarget_align4 _) ?_
  split
  · rw [misalignedTarget_toNat]
    simp only [BitVec.toNat_ofNat, decide_eq_false_iff_not, Decidable.not_not]
    omega
  · decide

/-- The address after the current instruction is aligned. -/
theorem misalignedTarget_pc4 {w : Word} (h : misalignedTarget w = false) : misalignedTarget (w + 4) = false :=
  misalignedTarget_add h (by decide)

end Sys2Proof.Machine
end

