-- ==== Sys2Proof/Laws/State.lean ====
section
/-! SUPPORT. One lemma per field per update of the state, so that no later proof unfolds a record update. -/

namespace Sys2Proof.Machine

/-! ### x[r] <- v -/

@[simp] theorem State.setX_cfg (s : State) (r : Reg) (v : Word) : (s.setX r v).cfg = s.cfg := by unfold State.setX; split <;> rfl
@[simp] theorem State.setX_pc (s : State) (r : Reg) (v : Word) : (s.setX r v).pc = s.pc := by unfold State.setX; split <;> rfl
@[simp] theorem State.setX_priv (s : State) (r : Reg) (v : Word) : (s.setX r v).priv = s.priv := by unfold State.setX; split <;> rfl
@[simp] theorem State.setX_virt (s : State) (r : Reg) (v : Word) : (s.setX r v).virt = s.virt := by unfold State.setX; split <;> rfl
@[simp] theorem State.setX_mc (s : State) (r : Reg) (v : Word) : (s.setX r v).mc = s.mc := by unfold State.setX; split <;> rfl
@[simp] theorem State.setX_sc (s : State) (r : Reg) (v : Word) : (s.setX r v).sc = s.sc := by unfold State.setX; split <;> rfl
@[simp] theorem State.setX_hc (s : State) (r : Reg) (v : Word) : (s.setX r v).hc = s.hc := by unfold State.setX; split <;> rfl
@[simp] theorem State.setX_vc (s : State) (r : Reg) (v : Word) : (s.setX r v).vc = s.vc := by unfold State.setX; split <;> rfl
@[simp] theorem State.setX_cnt (s : State) (r : Reg) (v : Word) : (s.setX r v).cnt = s.cnt := by unfold State.setX; split <;> rfl
@[simp] theorem State.setX_mtime (s : State) (r : Reg) (v : Word) : (s.setX r v).mtime = s.mtime := by unfold State.setX; split <;> rfl
@[simp] theorem State.setX_mtimecmp (s : State) (r : Reg) (v : Word) : (s.setX r v).mtimecmp = s.mtimecmp := by unfold State.setX; split <;> rfl
@[simp] theorem State.setX_msip (s : State) (r : Reg) (v : Word) : (s.setX r v).msip = s.msip := by unfold State.setX; split <;> rfl
@[simp] theorem State.setX_mem (s : State) (r : Reg) (v : Word) : (s.setX r v).mem = s.mem := by unfold State.setX; split <;> rfl
@[simp] theorem State.setX_cache (s : State) (r : Reg) (v : Word) : (s.setX r v).cache = s.cache := by unfold State.setX; split <;> rfl
@[simp] theorem State.setX_pmpCopies (s : State) (r : Reg) (v : Word) : (s.setX r v).pmpCopies = s.pmpCopies := by unfold State.setX; split <;> rfl
@[simp] theorem State.setX_reservation (s : State) (r : Reg) (v : Word) : (s.setX r v).reservation = s.reservation := by unfold State.setX; split <;> rfl
@[simp] theorem State.setX_waited (s : State) (r : Reg) (v : Word) : (s.setX r v).waited = s.waited := by unfold State.setX; split <;> rfl
@[simp] theorem State.setX_pins (s : State) (r : Reg) (v : Word) : (s.setX r v).pins = s.pins := by unfold State.setX; split <;> rfl
@[simp] theorem State.setX_env (s : State) (r : Reg) (v : Word) : (s.setX r v).env = s.env := by unfold State.setX; split <;> rfl
@[simp] theorem State.setX_draws (s : State) (r : Reg) (v : Word) : (s.setX r v).draws = s.draws := by unfold State.setX; split <;> rfl

/-! ### pc <- t -/

@[simp] theorem State.goto_cfg (s : State) (t : Word) : (s.goto t).cfg = s.cfg := rfl
@[simp] theorem State.goto_regs (s : State) (t : Word) : (s.goto t).regs = s.regs := rfl
@[simp] theorem State.goto_priv (s : State) (t : Word) : (s.goto t).priv = s.priv := rfl
@[simp] theorem State.goto_virt (s : State) (t : Word) : (s.goto t).virt = s.virt := rfl
@[simp] theorem State.goto_mc (s : State) (t : Word) : (s.goto t).mc = s.mc := rfl
@[simp] theorem State.goto_sc (s : State) (t : Word) : (s.goto t).sc = s.sc := rfl
@[simp] theorem State.goto_hc (s : State) (t : Word) : (s.goto t).hc = s.hc := rfl
@[simp] theorem State.goto_vc (s : State) (t : Word) : (s.goto t).vc = s.vc := rfl
@[simp] theorem State.goto_cnt (s : State) (t : Word) : (s.goto t).cnt = s.cnt := rfl
@[simp] theorem State.goto_mtime (s : State) (t : Word) : (s.goto t).mtime = s.mtime := rfl
@[simp] theorem State.goto_mtimecmp (s : State) (t : Word) : (s.goto t).mtimecmp = s.mtimecmp := rfl
@[simp] theorem State.goto_msip (s : State) (t : Word) : (s.goto t).msip = s.msip := rfl
@[simp] theorem State.goto_mem (s : State) (t : Word) : (s.goto t).mem = s.mem := rfl
@[simp] theorem State.goto_cache (s : State) (t : Word) : (s.goto t).cache = s.cache := rfl
@[simp] theorem State.goto_pmpCopies (s : State) (t : Word) : (s.goto t).pmpCopies = s.pmpCopies := rfl
@[simp] theorem State.goto_reservation (s : State) (t : Word) : (s.goto t).reservation = s.reservation := rfl
@[simp] theorem State.goto_waited (s : State) (t : Word) : (s.goto t).waited = s.waited := rfl
@[simp] theorem State.goto_pins (s : State) (t : Word) : (s.goto t).pins = s.pins := rfl
@[simp] theorem State.goto_env (s : State) (t : Word) : (s.goto t).env = s.env := rfl
@[simp] theorem State.goto_draws (s : State) (t : Word) : (s.goto t).draws = s.draws := rfl

@[simp] theorem State.goto_pc (s : State) (t : Word) : (s.goto t).pc = sx s.xlen t := rfl

/-! ### Retirement -/

@[simp] theorem State.retire_cfg (s : State) (b : State) : (s.retire b).cfg = s.cfg := by unfold State.retire; split <;> rfl
@[simp] theorem State.retire_pc (s : State) (b : State) : (s.retire b).pc = s.pc := by unfold State.retire; split <;> rfl
@[simp] theorem State.retire_regs (s : State) (b : State) : (s.retire b).regs = s.regs := by unfold State.retire; split <;> rfl
@[simp] theorem State.retire_priv (s : State) (b : State) : (s.retire b).priv = s.priv := by unfold State.retire; split <;> rfl
@[simp] theorem State.retire_virt (s : State) (b : State) : (s.retire b).virt = s.virt := by unfold State.retire; split <;> rfl
@[simp] theorem State.retire_mc (s : State) (b : State) : (s.retire b).mc = s.mc := by unfold State.retire; split <;> rfl
@[simp] theorem State.retire_sc (s : State) (b : State) : (s.retire b).sc = s.sc := by unfold State.retire; split <;> rfl
@[simp] theorem State.retire_hc (s : State) (b : State) : (s.retire b).hc = s.hc := by unfold State.retire; split <;> rfl
@[simp] theorem State.retire_vc (s : State) (b : State) : (s.retire b).vc = s.vc := by unfold State.retire; split <;> rfl
@[simp] theorem State.retire_mtime (s : State) (b : State) : (s.retire b).mtime = s.mtime := by unfold State.retire; split <;> rfl
@[simp] theorem State.retire_mtimecmp (s : State) (b : State) : (s.retire b).mtimecmp = s.mtimecmp := by unfold State.retire; split <;> rfl
@[simp] theorem State.retire_msip (s : State) (b : State) : (s.retire b).msip = s.msip := by unfold State.retire; split <;> rfl
@[simp] theorem State.retire_mem (s : State) (b : State) : (s.retire b).mem = s.mem := by unfold State.retire; split <;> rfl
@[simp] theorem State.retire_cache (s : State) (b : State) : (s.retire b).cache = s.cache := by unfold State.retire; split <;> rfl
@[simp] theorem State.retire_pmpCopies (s : State) (b : State) : (s.retire b).pmpCopies = s.pmpCopies := by unfold State.retire; split <;> rfl
@[simp] theorem State.retire_reservation (s : State) (b : State) : (s.retire b).reservation = s.reservation := by unfold State.retire; split <;> rfl
@[simp] theorem State.retire_waited (s : State) (b : State) : (s.retire b).waited = s.waited := by unfold State.retire; split <;> rfl
@[simp] theorem State.retire_pins (s : State) (b : State) : (s.retire b).pins = s.pins := by unfold State.retire; split <;> rfl
@[simp] theorem State.retire_env (s : State) (b : State) : (s.retire b).env = s.env := by unfold State.retire; split <;> rfl
@[simp] theorem State.retire_draws (s : State) (b : State) : (s.retire b).draws = s.draws := by unfold State.retire; split <;> rfl

/-! ### The next instruction -/

@[simp] theorem State.next_cfg (s : State) : (s.next).cfg = s.cfg := by unfold State.next; simp
@[simp] theorem State.next_regs (s : State) : (s.next).regs = s.regs := by unfold State.next; simp
@[simp] theorem State.next_priv (s : State) : (s.next).priv = s.priv := by unfold State.next; simp
@[simp] theorem State.next_virt (s : State) : (s.next).virt = s.virt := by unfold State.next; simp
@[simp] theorem State.next_mc (s : State) : (s.next).mc = s.mc := by unfold State.next; simp
@[simp] theorem State.next_sc (s : State) : (s.next).sc = s.sc := by unfold State.next; simp
@[simp] theorem State.next_hc (s : State) : (s.next).hc = s.hc := by unfold State.next; simp
@[simp] theorem State.next_vc (s : State) : (s.next).vc = s.vc := by unfold State.next; simp
@[simp] theorem State.next_mtime (s : State) : (s.next).mtime = s.mtime := by unfold State.next; simp
@[simp] theorem State.next_mtimecmp (s : State) : (s.next).mtimecmp = s.mtimecmp := by unfold State.next; simp
@[simp] theorem State.next_msip (s : State) : (s.next).msip = s.msip := by unfold State.next; simp
@[simp] theorem State.next_mem (s : State) : (s.next).mem = s.mem := by unfold State.next; simp
@[simp] theorem State.next_cache (s : State) : (s.next).cache = s.cache := by unfold State.next; simp
@[simp] theorem State.next_pmpCopies (s : State) : (s.next).pmpCopies = s.pmpCopies := by unfold State.next; simp
@[simp] theorem State.next_reservation (s : State) : (s.next).reservation = s.reservation := by unfold State.next; simp
@[simp] theorem State.next_waited (s : State) : (s.next).waited = s.waited := by unfold State.next; simp
@[simp] theorem State.next_pins (s : State) : (s.next).pins = s.pins := by unfold State.next; simp
@[simp] theorem State.next_env (s : State) : (s.next).env = s.env := by unfold State.next; simp
@[simp] theorem State.next_draws (s : State) : (s.next).draws = s.draws := by unfold State.next; simp

@[simp] theorem State.next_pc (s : State) : s.next.pc = sx s.xlen (s.pc + 4) := by unfold State.next; simp

/-! ### Completion with a result -/

@[simp] theorem State.finish_cfg (s : State) (rd : Reg) (v : Word) : (s.finish rd v).cfg = s.cfg := by unfold State.finish; simp
@[simp] theorem State.finish_priv (s : State) (rd : Reg) (v : Word) : (s.finish rd v).priv = s.priv := by unfold State.finish; simp
@[simp] theorem State.finish_virt (s : State) (rd : Reg) (v : Word) : (s.finish rd v).virt = s.virt := by unfold State.finish; simp
@[simp] theorem State.finish_mc (s : State) (rd : Reg) (v : Word) : (s.finish rd v).mc = s.mc := by unfold State.finish; simp
@[simp] theorem State.finish_sc (s : State) (rd : Reg) (v : Word) : (s.finish rd v).sc = s.sc := by unfold State.finish; simp
@[simp] theorem State.finish_hc (s : State) (rd : Reg) (v : Word) : (s.finish rd v).hc = s.hc := by unfold State.finish; simp
@[simp] theorem State.finish_vc (s : State) (rd : Reg) (v : Word) : (s.finish rd v).vc = s.vc := by unfold State.finish; simp
@[simp] theorem State.finish_mtime (s : State) (rd : Reg) (v : Word) : (s.finish rd v).mtime = s.mtime := by unfold State.finish; simp
@[simp] theorem State.finish_mtimecmp (s : State) (rd : Reg) (v : Word) : (s.finish rd v).mtimecmp = s.mtimecmp := by unfold State.finish; simp
@[simp] theorem State.finish_msip (s : State) (rd : Reg) (v : Word) : (s.finish rd v).msip = s.msip := by unfold State.finish; simp
@[simp] theorem State.finish_mem (s : State) (rd : Reg) (v : Word) : (s.finish rd v).mem = s.mem := by unfold State.finish; simp
@[simp] theorem State.finish_cache (s : State) (rd : Reg) (v : Word) : (s.finish rd v).cache = s.cache := by unfold State.finish; simp
@[simp] theorem State.finish_pmpCopies (s : State) (rd : Reg) (v : Word) : (s.finish rd v).pmpCopies = s.pmpCopies := by unfold State.finish; simp
@[simp] theorem State.finish_reservation (s : State) (rd : Reg) (v : Word) : (s.finish rd v).reservation = s.reservation := by unfold State.finish; simp
@[simp] theorem State.finish_waited (s : State) (rd : Reg) (v : Word) : (s.finish rd v).waited = s.waited := by unfold State.finish; simp
@[simp] theorem State.finish_pins (s : State) (rd : Reg) (v : Word) : (s.finish rd v).pins = s.pins := by unfold State.finish; simp
@[simp] theorem State.finish_env (s : State) (rd : Reg) (v : Word) : (s.finish rd v).env = s.env := by unfold State.finish; simp
@[simp] theorem State.finish_draws (s : State) (rd : Reg) (v : Word) : (s.finish rd v).draws = s.draws := by unfold State.finish; simp

/-! ### A trap into M-mode -/

@[simp] theorem State.enterM_cfg (s : State) (intr : Bool) (code : Nat) (tval : Word) (gva : Bool) (tval2 tinst : Word) : (s.enterM intr code tval gva tval2 tinst).cfg = s.cfg := rfl
@[simp] theorem State.enterM_regs (s : State) (intr : Bool) (code : Nat) (tval : Word) (gva : Bool) (tval2 tinst : Word) : (s.enterM intr code tval gva tval2 tinst).regs = s.regs := rfl
@[simp] theorem State.enterM_sc (s : State) (intr : Bool) (code : Nat) (tval : Word) (gva : Bool) (tval2 tinst : Word) : (s.enterM intr code tval gva tval2 tinst).sc = s.sc := rfl
@[simp] theorem State.enterM_hc (s : State) (intr : Bool) (code : Nat) (tval : Word) (gva : Bool) (tval2 tinst : Word) : (s.enterM intr code tval gva tval2 tinst).hc = s.hc := rfl
@[simp] theorem State.enterM_vc (s : State) (intr : Bool) (code : Nat) (tval : Word) (gva : Bool) (tval2 tinst : Word) : (s.enterM intr code tval gva tval2 tinst).vc = s.vc := rfl
@[simp] theorem State.enterM_cnt (s : State) (intr : Bool) (code : Nat) (tval : Word) (gva : Bool) (tval2 tinst : Word) : (s.enterM intr code tval gva tval2 tinst).cnt = s.cnt := rfl
@[simp] theorem State.enterM_mtime (s : State) (intr : Bool) (code : Nat) (tval : Word) (gva : Bool) (tval2 tinst : Word) : (s.enterM intr code tval gva tval2 tinst).mtime = s.mtime := rfl
@[simp] theorem State.enterM_mtimecmp (s : State) (intr : Bool) (code : Nat) (tval : Word) (gva : Bool) (tval2 tinst : Word) : (s.enterM intr code tval gva tval2 tinst).mtimecmp = s.mtimecmp := rfl
@[simp] theorem State.enterM_msip (s : State) (intr : Bool) (code : Nat) (tval : Word) (gva : Bool) (tval2 tinst : Word) : (s.enterM intr code tval gva tval2 tinst).msip = s.msip := rfl
@[simp] theorem State.enterM_mem (s : State) (intr : Bool) (code : Nat) (tval : Word) (gva : Bool) (tval2 tinst : Word) : (s.enterM intr code tval gva tval2 tinst).mem = s.mem := rfl
@[simp] theorem State.enterM_cache (s : State) (intr : Bool) (code : Nat) (tval : Word) (gva : Bool) (tval2 tinst : Word) : (s.enterM intr code tval gva tval2 tinst).cache = s.cache := rfl
@[simp] theorem State.enterM_pmpCopies (s : State) (intr : Bool) (code : Nat) (tval : Word) (gva : Bool) (tval2 tinst : Word) : (s.enterM intr code tval gva tval2 tinst).pmpCopies = s.pmpCopies := rfl
@[simp] theorem State.enterM_reservation (s : State) (intr : Bool) (code : Nat) (tval : Word) (gva : Bool) (tval2 tinst : Word) : (s.enterM intr code tval gva tval2 tinst).reservation = s.reservation := rfl
@[simp] theorem State.enterM_waited (s : State) (intr : Bool) (code : Nat) (tval : Word) (gva : Bool) (tval2 tinst : Word) : (s.enterM intr code tval gva tval2 tinst).waited = s.waited := rfl
@[simp] theorem State.enterM_pins (s : State) (intr : Bool) (code : Nat) (tval : Word) (gva : Bool) (tval2 tinst : Word) : (s.enterM intr code tval gva tval2 tinst).pins = s.pins := rfl
@[simp] theorem State.enterM_env (s : State) (intr : Bool) (code : Nat) (tval : Word) (gva : Bool) (tval2 tinst : Word) : (s.enterM intr code tval gva tval2 tinst).env = s.env := rfl
@[simp] theorem State.enterM_draws (s : State) (intr : Bool) (code : Nat) (tval : Word) (gva : Bool) (tval2 tinst : Word) : (s.enterM intr code tval gva tval2 tinst).draws = s.draws := rfl

@[simp] theorem State.enterM_priv (s : State) (intr : Bool) (code : Nat) (tval : Word) (gva : Bool) (tval2 tinst : Word) : (s.enterM intr code tval gva tval2 tinst).priv = .m := rfl
@[simp] theorem State.enterM_virt (s : State) (intr : Bool) (code : Nat) (tval : Word) (gva : Bool) (tval2 tinst : Word) : (s.enterM intr code tval gva tval2 tinst).virt = false := rfl

/-! ### A trap into S-mode -/

@[simp] theorem State.enterS_cfg (s : State) (intr : Bool) (code : Nat) (tval : Word) (gva : Bool) (tval2 tinst : Word) : (s.enterS intr code tval gva tval2 tinst).cfg = s.cfg := rfl
@[simp] theorem State.enterS_regs (s : State) (intr : Bool) (code : Nat) (tval : Word) (gva : Bool) (tval2 tinst : Word) : (s.enterS intr code tval gva tval2 tinst).regs = s.regs := rfl
@[simp] theorem State.enterS_vc (s : State) (intr : Bool) (code : Nat) (tval : Word) (gva : Bool) (tval2 tinst : Word) : (s.enterS intr code tval gva tval2 tinst).vc = s.vc := rfl
@[simp] theorem State.enterS_cnt (s : State) (intr : Bool) (code : Nat) (tval : Word) (gva : Bool) (tval2 tinst : Word) : (s.enterS intr code tval gva tval2 tinst).cnt = s.cnt := rfl
@[simp] theorem State.enterS_mtime (s : State) (intr : Bool) (code : Nat) (tval : Word) (gva : Bool) (tval2 tinst : Word) : (s.enterS intr code tval gva tval2 tinst).mtime = s.mtime := rfl
@[simp] theorem State.enterS_mtimecmp (s : State) (intr : Bool) (code : Nat) (tval : Word) (gva : Bool) (tval2 tinst : Word) : (s.enterS intr code tval gva tval2 tinst).mtimecmp = s.mtimecmp := rfl
@[simp] theorem State.enterS_msip (s : State) (intr : Bool) (code : Nat) (tval : Word) (gva : Bool) (tval2 tinst : Word) : (s.enterS intr code tval gva tval2 tinst).msip = s.msip := rfl
@[simp] theorem State.enterS_mem (s : State) (intr : Bool) (code : Nat) (tval : Word) (gva : Bool) (tval2 tinst : Word) : (s.enterS intr code tval gva tval2 tinst).mem = s.mem := rfl
@[simp] theorem State.enterS_cache (s : State) (intr : Bool) (code : Nat) (tval : Word) (gva : Bool) (tval2 tinst : Word) : (s.enterS intr code tval gva tval2 tinst).cache = s.cache := rfl
@[simp] theorem State.enterS_pmpCopies (s : State) (intr : Bool) (code : Nat) (tval : Word) (gva : Bool) (tval2 tinst : Word) : (s.enterS intr code tval gva tval2 tinst).pmpCopies = s.pmpCopies := rfl
@[simp] theorem State.enterS_reservation (s : State) (intr : Bool) (code : Nat) (tval : Word) (gva : Bool) (tval2 tinst : Word) : (s.enterS intr code tval gva tval2 tinst).reservation = s.reservation := rfl
@[simp] theorem State.enterS_waited (s : State) (intr : Bool) (code : Nat) (tval : Word) (gva : Bool) (tval2 tinst : Word) : (s.enterS intr code tval gva tval2 tinst).waited = s.waited := rfl
@[simp] theorem State.enterS_pins (s : State) (intr : Bool) (code : Nat) (tval : Word) (gva : Bool) (tval2 tinst : Word) : (s.enterS intr code tval gva tval2 tinst).pins = s.pins := rfl
@[simp] theorem State.enterS_env (s : State) (intr : Bool) (code : Nat) (tval : Word) (gva : Bool) (tval2 tinst : Word) : (s.enterS intr code tval gva tval2 tinst).env = s.env := rfl
@[simp] theorem State.enterS_draws (s : State) (intr : Bool) (code : Nat) (tval : Word) (gva : Bool) (tval2 tinst : Word) : (s.enterS intr code tval gva tval2 tinst).draws = s.draws := rfl

@[simp] theorem State.enterS_priv (s : State) (intr : Bool) (code : Nat) (tval : Word) (gva : Bool) (tval2 tinst : Word) : (s.enterS intr code tval gva tval2 tinst).priv = .s := rfl
@[simp] theorem State.enterS_virt (s : State) (intr : Bool) (code : Nat) (tval : Word) (gva : Bool) (tval2 tinst : Word) : (s.enterS intr code tval gva tval2 tinst).virt = false := rfl

/-! ### A trap into VS-mode -/

@[simp] theorem State.enterVS_cfg (s : State) (intr : Bool) (code : Nat) (tval : Word) : (s.enterVS intr code tval).cfg = s.cfg := rfl
@[simp] theorem State.enterVS_regs (s : State) (intr : Bool) (code : Nat) (tval : Word) : (s.enterVS intr code tval).regs = s.regs := rfl
@[simp] theorem State.enterVS_mc (s : State) (intr : Bool) (code : Nat) (tval : Word) : (s.enterVS intr code tval).mc = s.mc := rfl
@[simp] theorem State.enterVS_sc (s : State) (intr : Bool) (code : Nat) (tval : Word) : (s.enterVS intr code tval).sc = s.sc := rfl
@[simp] theorem State.enterVS_hc (s : State) (intr : Bool) (code : Nat) (tval : Word) : (s.enterVS intr code tval).hc = s.hc := rfl
@[simp] theorem State.enterVS_cnt (s : State) (intr : Bool) (code : Nat) (tval : Word) : (s.enterVS intr code tval).cnt = s.cnt := rfl
@[simp] theorem State.enterVS_mtime (s : State) (intr : Bool) (code : Nat) (tval : Word) : (s.enterVS intr code tval).mtime = s.mtime := rfl
@[simp] theorem State.enterVS_mtimecmp (s : State) (intr : Bool) (code : Nat) (tval : Word) : (s.enterVS intr code tval).mtimecmp = s.mtimecmp := rfl
@[simp] theorem State.enterVS_msip (s : State) (intr : Bool) (code : Nat) (tval : Word) : (s.enterVS intr code tval).msip = s.msip := rfl
@[simp] theorem State.enterVS_mem (s : State) (intr : Bool) (code : Nat) (tval : Word) : (s.enterVS intr code tval).mem = s.mem := rfl
@[simp] theorem State.enterVS_cache (s : State) (intr : Bool) (code : Nat) (tval : Word) : (s.enterVS intr code tval).cache = s.cache := rfl
@[simp] theorem State.enterVS_pmpCopies (s : State) (intr : Bool) (code : Nat) (tval : Word) : (s.enterVS intr code tval).pmpCopies = s.pmpCopies := rfl
@[simp] theorem State.enterVS_reservation (s : State) (intr : Bool) (code : Nat) (tval : Word) : (s.enterVS intr code tval).reservation = s.reservation := rfl
@[simp] theorem State.enterVS_waited (s : State) (intr : Bool) (code : Nat) (tval : Word) : (s.enterVS intr code tval).waited = s.waited := rfl
@[simp] theorem State.enterVS_pins (s : State) (intr : Bool) (code : Nat) (tval : Word) : (s.enterVS intr code tval).pins = s.pins := rfl
@[simp] theorem State.enterVS_env (s : State) (intr : Bool) (code : Nat) (tval : Word) : (s.enterVS intr code tval).env = s.env := rfl
@[simp] theorem State.enterVS_draws (s : State) (intr : Bool) (code : Nat) (tval : Word) : (s.enterVS intr code tval).draws = s.draws := rfl

@[simp] theorem State.enterVS_priv (s : State) (intr : Bool) (code : Nat) (tval : Word) : (s.enterVS intr code tval).priv = .s := rfl
@[simp] theorem State.enterVS_virt (s : State) (intr : Bool) (code : Nat) (tval : Word) : (s.enterVS intr code tval).virt = true := rfl

/-! ### Any trap -/

@[simp] theorem State.enterTrap_cfg (s : State) (d : Dest) (intr : Bool) (code : Nat) (tval : Word) (gva : Bool) (tval2 tinst : Word) : (s.enterTrap d intr code tval gva tval2 tinst).cfg = s.cfg := by cases d <;> rfl
@[simp] theorem State.enterTrap_regs (s : State) (d : Dest) (intr : Bool) (code : Nat) (tval : Word) (gva : Bool) (tval2 tinst : Word) : (s.enterTrap d intr code tval gva tval2 tinst).regs = s.regs := by cases d <;> rfl
@[simp] theorem State.enterTrap_cnt (s : State) (d : Dest) (intr : Bool) (code : Nat) (tval : Word) (gva : Bool) (tval2 tinst : Word) : (s.enterTrap d intr code tval gva tval2 tinst).cnt = s.cnt := by cases d <;> rfl
@[simp] theorem State.enterTrap_mtime (s : State) (d : Dest) (intr : Bool) (code : Nat) (tval : Word) (gva : Bool) (tval2 tinst : Word) : (s.enterTrap d intr code tval gva tval2 tinst).mtime = s.mtime := by cases d <;> rfl
@[simp] theorem State.enterTrap_mtimecmp (s : State) (d : Dest) (intr : Bool) (code : Nat) (tval : Word) (gva : Bool) (tval2 tinst : Word) : (s.enterTrap d intr code tval gva tval2 tinst).mtimecmp = s.mtimecmp := by cases d <;> rfl
@[simp] theorem State.enterTrap_msip (s : State) (d : Dest) (intr : Bool) (code : Nat) (tval : Word) (gva : Bool) (tval2 tinst : Word) : (s.enterTrap d intr code tval gva tval2 tinst).msip = s.msip := by cases d <;> rfl
@[simp] theorem State.enterTrap_mem (s : State) (d : Dest) (intr : Bool) (code : Nat) (tval : Word) (gva : Bool) (tval2 tinst : Word) : (s.enterTrap d intr code tval gva tval2 tinst).mem = s.mem := by cases d <;> rfl
@[simp] theorem State.enterTrap_cache (s : State) (d : Dest) (intr : Bool) (code : Nat) (tval : Word) (gva : Bool) (tval2 tinst : Word) : (s.enterTrap d intr code tval gva tval2 tinst).cache = s.cache := by cases d <;> rfl
@[simp] theorem State.enterTrap_pmpCopies (s : State) (d : Dest) (intr : Bool) (code : Nat) (tval : Word) (gva : Bool) (tval2 tinst : Word) : (s.enterTrap d intr code tval gva tval2 tinst).pmpCopies = s.pmpCopies := by cases d <;> rfl
@[simp] theorem State.enterTrap_reservation (s : State) (d : Dest) (intr : Bool) (code : Nat) (tval : Word) (gva : Bool) (tval2 tinst : Word) : (s.enterTrap d intr code tval gva tval2 tinst).reservation = s.reservation := by cases d <;> rfl
@[simp] theorem State.enterTrap_waited (s : State) (d : Dest) (intr : Bool) (code : Nat) (tval : Word) (gva : Bool) (tval2 tinst : Word) : (s.enterTrap d intr code tval gva tval2 tinst).waited = s.waited := by cases d <;> rfl
@[simp] theorem State.enterTrap_pins (s : State) (d : Dest) (intr : Bool) (code : Nat) (tval : Word) (gva : Bool) (tval2 tinst : Word) : (s.enterTrap d intr code tval gva tval2 tinst).pins = s.pins := by cases d <;> rfl
@[simp] theorem State.enterTrap_env (s : State) (d : Dest) (intr : Bool) (code : Nat) (tval : Word) (gva : Bool) (tval2 tinst : Word) : (s.enterTrap d intr code tval gva tval2 tinst).env = s.env := by cases d <;> rfl
@[simp] theorem State.enterTrap_draws (s : State) (d : Dest) (intr : Bool) (code : Nat) (tval : Word) (gva : Bool) (tval2 tinst : Word) : (s.enterTrap d intr code tval gva tval2 tinst).draws = s.draws := by cases d <;> rfl

/-! ### An exception -/

@[simp] theorem State.takeException_cfg (s : State) (t : Trap) : (s.takeException t).cfg = s.cfg := by simp [State.takeException]
@[simp] theorem State.takeException_regs (s : State) (t : Trap) : (s.takeException t).regs = s.regs := by simp [State.takeException]
@[simp] theorem State.takeException_cnt (s : State) (t : Trap) : (s.takeException t).cnt = s.cnt := by simp [State.takeException]
@[simp] theorem State.takeException_mtime (s : State) (t : Trap) : (s.takeException t).mtime = s.mtime := by simp [State.takeException]
@[simp] theorem State.takeException_mtimecmp (s : State) (t : Trap) : (s.takeException t).mtimecmp = s.mtimecmp := by simp [State.takeException]
@[simp] theorem State.takeException_msip (s : State) (t : Trap) : (s.takeException t).msip = s.msip := by simp [State.takeException]
@[simp] theorem State.takeException_mem (s : State) (t : Trap) : (s.takeException t).mem = s.mem := by simp [State.takeException]
@[simp] theorem State.takeException_cache (s : State) (t : Trap) : (s.takeException t).cache = s.cache := by simp [State.takeException]
@[simp] theorem State.takeException_pmpCopies (s : State) (t : Trap) : (s.takeException t).pmpCopies = s.pmpCopies := by simp [State.takeException]
@[simp] theorem State.takeException_reservation (s : State) (t : Trap) : (s.takeException t).reservation = s.reservation := by simp [State.takeException]
@[simp] theorem State.takeException_waited (s : State) (t : Trap) : (s.takeException t).waited = s.waited := by simp [State.takeException]
@[simp] theorem State.takeException_pins (s : State) (t : Trap) : (s.takeException t).pins = s.pins := by simp [State.takeException]
@[simp] theorem State.takeException_env (s : State) (t : Trap) : (s.takeException t).env = s.env := by simp [State.takeException]
@[simp] theorem State.takeException_draws (s : State) (t : Trap) : (s.takeException t).draws = s.draws := by simp [State.takeException]

/-! ### An interrupt -/

@[simp] theorem State.takeInterrupt_cfg (s : State) (d : Dest) (code : Nat) : (s.takeInterrupt d code).cfg = s.cfg := by simp [State.takeInterrupt]
@[simp] theorem State.takeInterrupt_regs (s : State) (d : Dest) (code : Nat) : (s.takeInterrupt d code).regs = s.regs := by simp [State.takeInterrupt]
@[simp] theorem State.takeInterrupt_cnt (s : State) (d : Dest) (code : Nat) : (s.takeInterrupt d code).cnt = s.cnt := by simp [State.takeInterrupt]
@[simp] theorem State.takeInterrupt_mtime (s : State) (d : Dest) (code : Nat) : (s.takeInterrupt d code).mtime = s.mtime := by simp [State.takeInterrupt]
@[simp] theorem State.takeInterrupt_mtimecmp (s : State) (d : Dest) (code : Nat) : (s.takeInterrupt d code).mtimecmp = s.mtimecmp := by simp [State.takeInterrupt]
@[simp] theorem State.takeInterrupt_msip (s : State) (d : Dest) (code : Nat) : (s.takeInterrupt d code).msip = s.msip := by simp [State.takeInterrupt]
@[simp] theorem State.takeInterrupt_mem (s : State) (d : Dest) (code : Nat) : (s.takeInterrupt d code).mem = s.mem := by simp [State.takeInterrupt]
@[simp] theorem State.takeInterrupt_cache (s : State) (d : Dest) (code : Nat) : (s.takeInterrupt d code).cache = s.cache := by simp [State.takeInterrupt]
@[simp] theorem State.takeInterrupt_pmpCopies (s : State) (d : Dest) (code : Nat) : (s.takeInterrupt d code).pmpCopies = s.pmpCopies := by simp [State.takeInterrupt]
@[simp] theorem State.takeInterrupt_reservation (s : State) (d : Dest) (code : Nat) : (s.takeInterrupt d code).reservation = s.reservation := by simp [State.takeInterrupt]
@[simp] theorem State.takeInterrupt_waited (s : State) (d : Dest) (code : Nat) : (s.takeInterrupt d code).waited = s.waited := by simp [State.takeInterrupt]
@[simp] theorem State.takeInterrupt_pins (s : State) (d : Dest) (code : Nat) : (s.takeInterrupt d code).pins = s.pins := by simp [State.takeInterrupt]
@[simp] theorem State.takeInterrupt_env (s : State) (d : Dest) (code : Nat) : (s.takeInterrupt d code).env = s.env := by simp [State.takeInterrupt]
@[simp] theorem State.takeInterrupt_draws (s : State) (d : Dest) (code : Nat) : (s.takeInterrupt d code).draws = s.draws := by simp [State.takeInterrupt]

/-! ### A non-maskable interrupt -/

@[simp] theorem State.takeNmi_cfg (s : State) (c : Word) : (s.takeNmi c).cfg = s.cfg := rfl
@[simp] theorem State.takeNmi_regs (s : State) (c : Word) : (s.takeNmi c).regs = s.regs := rfl
@[simp] theorem State.takeNmi_sc (s : State) (c : Word) : (s.takeNmi c).sc = s.sc := rfl
@[simp] theorem State.takeNmi_hc (s : State) (c : Word) : (s.takeNmi c).hc = s.hc := rfl
@[simp] theorem State.takeNmi_vc (s : State) (c : Word) : (s.takeNmi c).vc = s.vc := rfl
@[simp] theorem State.takeNmi_cnt (s : State) (c : Word) : (s.takeNmi c).cnt = s.cnt := rfl
@[simp] theorem State.takeNmi_mtime (s : State) (c : Word) : (s.takeNmi c).mtime = s.mtime := rfl
@[simp] theorem State.takeNmi_mtimecmp (s : State) (c : Word) : (s.takeNmi c).mtimecmp = s.mtimecmp := rfl
@[simp] theorem State.takeNmi_msip (s : State) (c : Word) : (s.takeNmi c).msip = s.msip := rfl
@[simp] theorem State.takeNmi_mem (s : State) (c : Word) : (s.takeNmi c).mem = s.mem := rfl
@[simp] theorem State.takeNmi_cache (s : State) (c : Word) : (s.takeNmi c).cache = s.cache := rfl
@[simp] theorem State.takeNmi_pmpCopies (s : State) (c : Word) : (s.takeNmi c).pmpCopies = s.pmpCopies := rfl
@[simp] theorem State.takeNmi_reservation (s : State) (c : Word) : (s.takeNmi c).reservation = s.reservation := rfl
@[simp] theorem State.takeNmi_waited (s : State) (c : Word) : (s.takeNmi c).waited = s.waited := rfl
@[simp] theorem State.takeNmi_pins (s : State) (c : Word) : (s.takeNmi c).pins = s.pins := rfl
@[simp] theorem State.takeNmi_env (s : State) (c : Word) : (s.takeNmi c).env = s.env := rfl
@[simp] theorem State.takeNmi_draws (s : State) (c : Word) : (s.takeNmi c).draws = s.draws := rfl

/-! ### A resumable non-maskable interrupt -/

@[simp] theorem State.takeRnmi_cfg (s : State) (c : Word) : (s.takeRnmi c).cfg = s.cfg := rfl
@[simp] theorem State.takeRnmi_regs (s : State) (c : Word) : (s.takeRnmi c).regs = s.regs := rfl
@[simp] theorem State.takeRnmi_sc (s : State) (c : Word) : (s.takeRnmi c).sc = s.sc := rfl
@[simp] theorem State.takeRnmi_hc (s : State) (c : Word) : (s.takeRnmi c).hc = s.hc := rfl
@[simp] theorem State.takeRnmi_vc (s : State) (c : Word) : (s.takeRnmi c).vc = s.vc := rfl
@[simp] theorem State.takeRnmi_cnt (s : State) (c : Word) : (s.takeRnmi c).cnt = s.cnt := rfl
@[simp] theorem State.takeRnmi_mtime (s : State) (c : Word) : (s.takeRnmi c).mtime = s.mtime := rfl
@[simp] theorem State.takeRnmi_mtimecmp (s : State) (c : Word) : (s.takeRnmi c).mtimecmp = s.mtimecmp := rfl
@[simp] theorem State.takeRnmi_msip (s : State) (c : Word) : (s.takeRnmi c).msip = s.msip := rfl
@[simp] theorem State.takeRnmi_mem (s : State) (c : Word) : (s.takeRnmi c).mem = s.mem := rfl
@[simp] theorem State.takeRnmi_cache (s : State) (c : Word) : (s.takeRnmi c).cache = s.cache := rfl
@[simp] theorem State.takeRnmi_pmpCopies (s : State) (c : Word) : (s.takeRnmi c).pmpCopies = s.pmpCopies := rfl
@[simp] theorem State.takeRnmi_reservation (s : State) (c : Word) : (s.takeRnmi c).reservation = s.reservation := rfl
@[simp] theorem State.takeRnmi_waited (s : State) (c : Word) : (s.takeRnmi c).waited = s.waited := rfl
@[simp] theorem State.takeRnmi_pins (s : State) (c : Word) : (s.takeRnmi c).pins = s.pins := rfl
@[simp] theorem State.takeRnmi_env (s : State) (c : Word) : (s.takeRnmi c).env = s.env := rfl
@[simp] theorem State.takeRnmi_draws (s : State) (c : Word) : (s.takeRnmi c).draws = s.draws := rfl

/-! ### A return -/

@[simp] theorem State.returnTo_cfg (s : State) (p : Priv) (v : Bool) (t : Word) : (s.returnTo p v t).cfg = s.cfg := rfl
@[simp] theorem State.returnTo_regs (s : State) (p : Priv) (v : Bool) (t : Word) : (s.returnTo p v t).regs = s.regs := rfl
@[simp] theorem State.returnTo_mc (s : State) (p : Priv) (v : Bool) (t : Word) : (s.returnTo p v t).mc = s.mc := rfl
@[simp] theorem State.returnTo_sc (s : State) (p : Priv) (v : Bool) (t : Word) : (s.returnTo p v t).sc = s.sc := rfl
@[simp] theorem State.returnTo_hc (s : State) (p : Priv) (v : Bool) (t : Word) : (s.returnTo p v t).hc = s.hc := rfl
@[simp] theorem State.returnTo_vc (s : State) (p : Priv) (v : Bool) (t : Word) : (s.returnTo p v t).vc = s.vc := rfl
@[simp] theorem State.returnTo_cnt (s : State) (p : Priv) (v : Bool) (t : Word) : (s.returnTo p v t).cnt = s.cnt := rfl
@[simp] theorem State.returnTo_mtime (s : State) (p : Priv) (v : Bool) (t : Word) : (s.returnTo p v t).mtime = s.mtime := rfl
@[simp] theorem State.returnTo_mtimecmp (s : State) (p : Priv) (v : Bool) (t : Word) : (s.returnTo p v t).mtimecmp = s.mtimecmp := rfl
@[simp] theorem State.returnTo_msip (s : State) (p : Priv) (v : Bool) (t : Word) : (s.returnTo p v t).msip = s.msip := rfl
@[simp] theorem State.returnTo_mem (s : State) (p : Priv) (v : Bool) (t : Word) : (s.returnTo p v t).mem = s.mem := rfl
@[simp] theorem State.returnTo_cache (s : State) (p : Priv) (v : Bool) (t : Word) : (s.returnTo p v t).cache = s.cache := rfl
@[simp] theorem State.returnTo_pmpCopies (s : State) (p : Priv) (v : Bool) (t : Word) : (s.returnTo p v t).pmpCopies = s.pmpCopies := rfl
@[simp] theorem State.returnTo_pins (s : State) (p : Priv) (v : Bool) (t : Word) : (s.returnTo p v t).pins = s.pins := rfl
@[simp] theorem State.returnTo_env (s : State) (p : Priv) (v : Bool) (t : Word) : (s.returnTo p v t).env = s.env := rfl
@[simp] theorem State.returnTo_draws (s : State) (p : Priv) (v : Bool) (t : Word) : (s.returnTo p v t).draws = s.draws := rfl

@[simp] theorem State.returnTo_priv (s : State) (p : Priv) (v : Bool) (t : Word) : (s.returnTo p v t).priv = p := rfl
@[simp] theorem State.returnTo_virt (s : State) (p : Priv) (v : Bool) (t : Word) : (s.returnTo p v t).virt = v := rfl

/-! ### MRET -/

@[simp] theorem State.returnM_cfg (s : State) : (s.returnM).cfg = s.cfg := rfl
@[simp] theorem State.returnM_regs (s : State) : (s.returnM).regs = s.regs := rfl
@[simp] theorem State.returnM_sc (s : State) : (s.returnM).sc = s.sc := rfl
@[simp] theorem State.returnM_hc (s : State) : (s.returnM).hc = s.hc := rfl
@[simp] theorem State.returnM_vc (s : State) : (s.returnM).vc = s.vc := rfl
@[simp] theorem State.returnM_cnt (s : State) : (s.returnM).cnt = s.cnt := rfl
@[simp] theorem State.returnM_mtime (s : State) : (s.returnM).mtime = s.mtime := rfl
@[simp] theorem State.returnM_mtimecmp (s : State) : (s.returnM).mtimecmp = s.mtimecmp := rfl
@[simp] theorem State.returnM_msip (s : State) : (s.returnM).msip = s.msip := rfl
@[simp] theorem State.returnM_mem (s : State) : (s.returnM).mem = s.mem := rfl
@[simp] theorem State.returnM_cache (s : State) : (s.returnM).cache = s.cache := rfl
@[simp] theorem State.returnM_pmpCopies (s : State) : (s.returnM).pmpCopies = s.pmpCopies := rfl
@[simp] theorem State.returnM_pins (s : State) : (s.returnM).pins = s.pins := rfl
@[simp] theorem State.returnM_env (s : State) : (s.returnM).env = s.env := rfl
@[simp] theorem State.returnM_draws (s : State) : (s.returnM).draws = s.draws := rfl

/-! ### SRET with V=0 -/

@[simp] theorem State.returnS_cfg (s : State) : (s.returnS).cfg = s.cfg := rfl
@[simp] theorem State.returnS_regs (s : State) : (s.returnS).regs = s.regs := rfl
@[simp] theorem State.returnS_sc (s : State) : (s.returnS).sc = s.sc := rfl
@[simp] theorem State.returnS_vc (s : State) : (s.returnS).vc = s.vc := rfl
@[simp] theorem State.returnS_cnt (s : State) : (s.returnS).cnt = s.cnt := rfl
@[simp] theorem State.returnS_mtime (s : State) : (s.returnS).mtime = s.mtime := rfl
@[simp] theorem State.returnS_mtimecmp (s : State) : (s.returnS).mtimecmp = s.mtimecmp := rfl
@[simp] theorem State.returnS_msip (s : State) : (s.returnS).msip = s.msip := rfl
@[simp] theorem State.returnS_mem (s : State) : (s.returnS).mem = s.mem := rfl
@[simp] theorem State.returnS_cache (s : State) : (s.returnS).cache = s.cache := rfl
@[simp] theorem State.returnS_pmpCopies (s : State) : (s.returnS).pmpCopies = s.pmpCopies := rfl
@[simp] theorem State.returnS_pins (s : State) : (s.returnS).pins = s.pins := rfl
@[simp] theorem State.returnS_env (s : State) : (s.returnS).env = s.env := rfl
@[simp] theorem State.returnS_draws (s : State) : (s.returnS).draws = s.draws := rfl

/-! ### SRET in VS-mode -/

@[simp] theorem State.returnVS_cfg (s : State) : (s.returnVS).cfg = s.cfg := rfl
@[simp] theorem State.returnVS_regs (s : State) : (s.returnVS).regs = s.regs := rfl
@[simp] theorem State.returnVS_sc (s : State) : (s.returnVS).sc = s.sc := rfl
@[simp] theorem State.returnVS_hc (s : State) : (s.returnVS).hc = s.hc := rfl
@[simp] theorem State.returnVS_cnt (s : State) : (s.returnVS).cnt = s.cnt := rfl
@[simp] theorem State.returnVS_mtime (s : State) : (s.returnVS).mtime = s.mtime := rfl
@[simp] theorem State.returnVS_mtimecmp (s : State) : (s.returnVS).mtimecmp = s.mtimecmp := rfl
@[simp] theorem State.returnVS_msip (s : State) : (s.returnVS).msip = s.msip := rfl
@[simp] theorem State.returnVS_mem (s : State) : (s.returnVS).mem = s.mem := rfl
@[simp] theorem State.returnVS_cache (s : State) : (s.returnVS).cache = s.cache := rfl
@[simp] theorem State.returnVS_pmpCopies (s : State) : (s.returnVS).pmpCopies = s.pmpCopies := rfl
@[simp] theorem State.returnVS_pins (s : State) : (s.returnVS).pins = s.pins := rfl
@[simp] theorem State.returnVS_env (s : State) : (s.returnVS).env = s.env := rfl
@[simp] theorem State.returnVS_draws (s : State) : (s.returnVS).draws = s.draws := rfl

/-! ### MNRET -/

@[simp] theorem State.returnMN_cfg (s : State) : (s.returnMN).cfg = s.cfg := rfl
@[simp] theorem State.returnMN_regs (s : State) : (s.returnMN).regs = s.regs := rfl
@[simp] theorem State.returnMN_sc (s : State) : (s.returnMN).sc = s.sc := rfl
@[simp] theorem State.returnMN_hc (s : State) : (s.returnMN).hc = s.hc := rfl
@[simp] theorem State.returnMN_vc (s : State) : (s.returnMN).vc = s.vc := rfl
@[simp] theorem State.returnMN_cnt (s : State) : (s.returnMN).cnt = s.cnt := rfl
@[simp] theorem State.returnMN_mtime (s : State) : (s.returnMN).mtime = s.mtime := rfl
@[simp] theorem State.returnMN_mtimecmp (s : State) : (s.returnMN).mtimecmp = s.mtimecmp := rfl
@[simp] theorem State.returnMN_msip (s : State) : (s.returnMN).msip = s.msip := rfl
@[simp] theorem State.returnMN_mem (s : State) : (s.returnMN).mem = s.mem := rfl
@[simp] theorem State.returnMN_cache (s : State) : (s.returnMN).cache = s.cache := rfl
@[simp] theorem State.returnMN_pmpCopies (s : State) : (s.returnMN).pmpCopies = s.pmpCopies := rfl
@[simp] theorem State.returnMN_pins (s : State) : (s.returnMN).pins = s.pins := rfl
@[simp] theorem State.returnMN_env (s : State) : (s.returnMN).env = s.env := rfl
@[simp] theorem State.returnMN_draws (s : State) : (s.returnMN).draws = s.draws := rfl

/-! ### A store to a memory-mapped register -/

@[simp] theorem State.setDevice_cfg (s : State) (d : Device) (v : Word) : (s.setDevice d v).cfg = s.cfg := by cases d <;> rfl
@[simp] theorem State.setDevice_pc (s : State) (d : Device) (v : Word) : (s.setDevice d v).pc = s.pc := by cases d <;> rfl
@[simp] theorem State.setDevice_regs (s : State) (d : Device) (v : Word) : (s.setDevice d v).regs = s.regs := by cases d <;> rfl
@[simp] theorem State.setDevice_priv (s : State) (d : Device) (v : Word) : (s.setDevice d v).priv = s.priv := by cases d <;> rfl
@[simp] theorem State.setDevice_virt (s : State) (d : Device) (v : Word) : (s.setDevice d v).virt = s.virt := by cases d <;> rfl
@[simp] theorem State.setDevice_mc (s : State) (d : Device) (v : Word) : (s.setDevice d v).mc = s.mc := by cases d <;> rfl
@[simp] theorem State.setDevice_sc (s : State) (d : Device) (v : Word) : (s.setDevice d v).sc = s.sc := by cases d <;> rfl
@[simp] theorem State.setDevice_hc (s : State) (d : Device) (v : Word) : (s.setDevice d v).hc = s.hc := by cases d <;> rfl
@[simp] theorem State.setDevice_vc (s : State) (d : Device) (v : Word) : (s.setDevice d v).vc = s.vc := by cases d <;> rfl
@[simp] theorem State.setDevice_cnt (s : State) (d : Device) (v : Word) : (s.setDevice d v).cnt = s.cnt := by cases d <;> rfl
@[simp] theorem State.setDevice_mem (s : State) (d : Device) (v : Word) : (s.setDevice d v).mem = s.mem := by cases d <;> rfl
@[simp] theorem State.setDevice_cache (s : State) (d : Device) (v : Word) : (s.setDevice d v).cache = s.cache := by cases d <;> rfl
@[simp] theorem State.setDevice_pmpCopies (s : State) (d : Device) (v : Word) : (s.setDevice d v).pmpCopies = s.pmpCopies := by cases d <;> rfl
@[simp] theorem State.setDevice_reservation (s : State) (d : Device) (v : Word) : (s.setDevice d v).reservation = s.reservation := by cases d <;> rfl
@[simp] theorem State.setDevice_waited (s : State) (d : Device) (v : Word) : (s.setDevice d v).waited = s.waited := by cases d <;> rfl
@[simp] theorem State.setDevice_pins (s : State) (d : Device) (v : Word) : (s.setDevice d v).pins = s.pins := by cases d <;> rfl
@[simp] theorem State.setDevice_env (s : State) (d : Device) (v : Word) : (s.setDevice d v).env = s.env := by cases d <;> rfl
@[simp] theorem State.setDevice_draws (s : State) (d : Device) (v : Word) : (s.setDevice d v).draws = s.draws := by cases d <;> rfl

/-! ### Bytes stored at physical addresses -/

@[simp] theorem State.setPhysByte_cfg (s : State) (a : Nat) (b : Byte) : (s.setPhysByte a b).cfg = s.cfg := by unfold State.setPhysByte; split <;> simp
@[simp] theorem State.setPhysByte_pc (s : State) (a : Nat) (b : Byte) : (s.setPhysByte a b).pc = s.pc := by unfold State.setPhysByte; split <;> simp
@[simp] theorem State.setPhysByte_regs (s : State) (a : Nat) (b : Byte) : (s.setPhysByte a b).regs = s.regs := by unfold State.setPhysByte; split <;> simp
@[simp] theorem State.setPhysByte_priv (s : State) (a : Nat) (b : Byte) : (s.setPhysByte a b).priv = s.priv := by unfold State.setPhysByte; split <;> simp
@[simp] theorem State.setPhysByte_virt (s : State) (a : Nat) (b : Byte) : (s.setPhysByte a b).virt = s.virt := by unfold State.setPhysByte; split <;> simp
@[simp] theorem State.setPhysByte_mc (s : State) (a : Nat) (b : Byte) : (s.setPhysByte a b).mc = s.mc := by unfold State.setPhysByte; split <;> simp
@[simp] theorem State.setPhysByte_sc (s : State) (a : Nat) (b : Byte) : (s.setPhysByte a b).sc = s.sc := by unfold State.setPhysByte; split <;> simp
@[simp] theorem State.setPhysByte_hc (s : State) (a : Nat) (b : Byte) : (s.setPhysByte a b).hc = s.hc := by unfold State.setPhysByte; split <;> simp
@[simp] theorem State.setPhysByte_vc (s : State) (a : Nat) (b : Byte) : (s.setPhysByte a b).vc = s.vc := by unfold State.setPhysByte; split <;> simp
@[simp] theorem State.setPhysByte_cnt (s : State) (a : Nat) (b : Byte) : (s.setPhysByte a b).cnt = s.cnt := by unfold State.setPhysByte; split <;> simp
@[simp] theorem State.setPhysByte_cache (s : State) (a : Nat) (b : Byte) : (s.setPhysByte a b).cache = s.cache := by unfold State.setPhysByte; split <;> simp
@[simp] theorem State.setPhysByte_pmpCopies (s : State) (a : Nat) (b : Byte) : (s.setPhysByte a b).pmpCopies = s.pmpCopies := by unfold State.setPhysByte; split <;> simp
@[simp] theorem State.setPhysByte_reservation (s : State) (a : Nat) (b : Byte) : (s.setPhysByte a b).reservation = s.reservation := by unfold State.setPhysByte; split <;> simp
@[simp] theorem State.setPhysByte_waited (s : State) (a : Nat) (b : Byte) : (s.setPhysByte a b).waited = s.waited := by unfold State.setPhysByte; split <;> simp
@[simp] theorem State.setPhysByte_pins (s : State) (a : Nat) (b : Byte) : (s.setPhysByte a b).pins = s.pins := by unfold State.setPhysByte; split <;> simp
@[simp] theorem State.setPhysByte_env (s : State) (a : Nat) (b : Byte) : (s.setPhysByte a b).env = s.env := by unfold State.setPhysByte; split <;> simp
@[simp] theorem State.setPhysByte_draws (s : State) (a : Nat) (b : Byte) : (s.setPhysByte a b).draws = s.draws := by unfold State.setPhysByte; split <;> simp

@[simp] theorem State.physWrite_cfg (s : State) (pa : Nat) (bs : List Byte) : (s.physWrite pa bs).cfg = s.cfg := by induction bs generalizing s pa <;> simp [State.physWrite, *]
@[simp] theorem State.physWrite_pc (s : State) (pa : Nat) (bs : List Byte) : (s.physWrite pa bs).pc = s.pc := by induction bs generalizing s pa <;> simp [State.physWrite, *]
@[simp] theorem State.physWrite_regs (s : State) (pa : Nat) (bs : List Byte) : (s.physWrite pa bs).regs = s.regs := by induction bs generalizing s pa <;> simp [State.physWrite, *]
@[simp] theorem State.physWrite_priv (s : State) (pa : Nat) (bs : List Byte) : (s.physWrite pa bs).priv = s.priv := by induction bs generalizing s pa <;> simp [State.physWrite, *]
@[simp] theorem State.physWrite_virt (s : State) (pa : Nat) (bs : List Byte) : (s.physWrite pa bs).virt = s.virt := by induction bs generalizing s pa <;> simp [State.physWrite, *]
@[simp] theorem State.physWrite_mc (s : State) (pa : Nat) (bs : List Byte) : (s.physWrite pa bs).mc = s.mc := by induction bs generalizing s pa <;> simp [State.physWrite, *]
@[simp] theorem State.physWrite_sc (s : State) (pa : Nat) (bs : List Byte) : (s.physWrite pa bs).sc = s.sc := by induction bs generalizing s pa <;> simp [State.physWrite, *]
@[simp] theorem State.physWrite_hc (s : State) (pa : Nat) (bs : List Byte) : (s.physWrite pa bs).hc = s.hc := by induction bs generalizing s pa <;> simp [State.physWrite, *]
@[simp] theorem State.physWrite_vc (s : State) (pa : Nat) (bs : List Byte) : (s.physWrite pa bs).vc = s.vc := by induction bs generalizing s pa <;> simp [State.physWrite, *]
@[simp] theorem State.physWrite_cnt (s : State) (pa : Nat) (bs : List Byte) : (s.physWrite pa bs).cnt = s.cnt := by induction bs generalizing s pa <;> simp [State.physWrite, *]
@[simp] theorem State.physWrite_cache (s : State) (pa : Nat) (bs : List Byte) : (s.physWrite pa bs).cache = s.cache := by induction bs generalizing s pa <;> simp [State.physWrite, *]
@[simp] theorem State.physWrite_pmpCopies (s : State) (pa : Nat) (bs : List Byte) : (s.physWrite pa bs).pmpCopies = s.pmpCopies := by induction bs generalizing s pa <;> simp [State.physWrite, *]
@[simp] theorem State.physWrite_reservation (s : State) (pa : Nat) (bs : List Byte) : (s.physWrite pa bs).reservation = s.reservation := by induction bs generalizing s pa <;> simp [State.physWrite, *]
@[simp] theorem State.physWrite_waited (s : State) (pa : Nat) (bs : List Byte) : (s.physWrite pa bs).waited = s.waited := by induction bs generalizing s pa <;> simp [State.physWrite, *]
@[simp] theorem State.physWrite_pins (s : State) (pa : Nat) (bs : List Byte) : (s.physWrite pa bs).pins = s.pins := by induction bs generalizing s pa <;> simp [State.physWrite, *]
@[simp] theorem State.physWrite_env (s : State) (pa : Nat) (bs : List Byte) : (s.physWrite pa bs).env = s.env := by induction bs generalizing s pa <;> simp [State.physWrite, *]
@[simp] theorem State.physWrite_draws (s : State) (pa : Nat) (bs : List Byte) : (s.physWrite pa bs).draws = s.draws := by induction bs generalizing s pa <;> simp [State.physWrite, *]

@[simp] theorem State.writeCells_cfg (s : State) (l : List Host.Cell) : (s.writeCells l).cfg = s.cfg := by induction l generalizing s <;> simp [State.writeCells, *]
@[simp] theorem State.writeCells_pc (s : State) (l : List Host.Cell) : (s.writeCells l).pc = s.pc := by induction l generalizing s <;> simp [State.writeCells, *]
@[simp] theorem State.writeCells_regs (s : State) (l : List Host.Cell) : (s.writeCells l).regs = s.regs := by induction l generalizing s <;> simp [State.writeCells, *]
@[simp] theorem State.writeCells_priv (s : State) (l : List Host.Cell) : (s.writeCells l).priv = s.priv := by induction l generalizing s <;> simp [State.writeCells, *]
@[simp] theorem State.writeCells_virt (s : State) (l : List Host.Cell) : (s.writeCells l).virt = s.virt := by induction l generalizing s <;> simp [State.writeCells, *]
@[simp] theorem State.writeCells_mc (s : State) (l : List Host.Cell) : (s.writeCells l).mc = s.mc := by induction l generalizing s <;> simp [State.writeCells, *]
@[simp] theorem State.writeCells_sc (s : State) (l : List Host.Cell) : (s.writeCells l).sc = s.sc := by induction l generalizing s <;> simp [State.writeCells, *]
@[simp] theorem State.writeCells_hc (s : State) (l : List Host.Cell) : (s.writeCells l).hc = s.hc := by induction l generalizing s <;> simp [State.writeCells, *]
@[simp] theorem State.writeCells_vc (s : State) (l : List Host.Cell) : (s.writeCells l).vc = s.vc := by induction l generalizing s <;> simp [State.writeCells, *]
@[simp] theorem State.writeCells_cnt (s : State) (l : List Host.Cell) : (s.writeCells l).cnt = s.cnt := by induction l generalizing s <;> simp [State.writeCells, *]
@[simp] theorem State.writeCells_cache (s : State) (l : List Host.Cell) : (s.writeCells l).cache = s.cache := by induction l generalizing s <;> simp [State.writeCells, *]
@[simp] theorem State.writeCells_pmpCopies (s : State) (l : List Host.Cell) : (s.writeCells l).pmpCopies = s.pmpCopies := by induction l generalizing s <;> simp [State.writeCells, *]
@[simp] theorem State.writeCells_reservation (s : State) (l : List Host.Cell) : (s.writeCells l).reservation = s.reservation := by induction l generalizing s <;> simp [State.writeCells, *]
@[simp] theorem State.writeCells_waited (s : State) (l : List Host.Cell) : (s.writeCells l).waited = s.waited := by induction l generalizing s <;> simp [State.writeCells, *]
@[simp] theorem State.writeCells_pins (s : State) (l : List Host.Cell) : (s.writeCells l).pins = s.pins := by induction l generalizing s <;> simp [State.writeCells, *]
@[simp] theorem State.writeCells_env (s : State) (l : List Host.Cell) : (s.writeCells l).env = s.env := by induction l generalizing s <;> simp [State.writeCells, *]
@[simp] theorem State.writeCells_draws (s : State) (l : List Host.Cell) : (s.writeCells l).draws = s.draws := by induction l generalizing s <;> simp [State.writeCells, *]

/-! ### A fence over S-level or VS-level translations -/

@[simp] theorem State.fenceVa_cfg (s : State) (st : Stage) (vmid : Nat) (xl : Xlen) (atp : Word) (va : Option Word) (asid : Option Nat) : (s.fenceVa st vmid xl atp va asid).cfg = s.cfg := by unfold State.fenceVa; repeat (first | rfl | split)
@[simp] theorem State.fenceVa_pc (s : State) (st : Stage) (vmid : Nat) (xl : Xlen) (atp : Word) (va : Option Word) (asid : Option Nat) : (s.fenceVa st vmid xl atp va asid).pc = s.pc := by unfold State.fenceVa; repeat (first | rfl | split)
@[simp] theorem State.fenceVa_regs (s : State) (st : Stage) (vmid : Nat) (xl : Xlen) (atp : Word) (va : Option Word) (asid : Option Nat) : (s.fenceVa st vmid xl atp va asid).regs = s.regs := by unfold State.fenceVa; repeat (first | rfl | split)
@[simp] theorem State.fenceVa_priv (s : State) (st : Stage) (vmid : Nat) (xl : Xlen) (atp : Word) (va : Option Word) (asid : Option Nat) : (s.fenceVa st vmid xl atp va asid).priv = s.priv := by unfold State.fenceVa; repeat (first | rfl | split)
@[simp] theorem State.fenceVa_virt (s : State) (st : Stage) (vmid : Nat) (xl : Xlen) (atp : Word) (va : Option Word) (asid : Option Nat) : (s.fenceVa st vmid xl atp va asid).virt = s.virt := by unfold State.fenceVa; repeat (first | rfl | split)
@[simp] theorem State.fenceVa_mc (s : State) (st : Stage) (vmid : Nat) (xl : Xlen) (atp : Word) (va : Option Word) (asid : Option Nat) : (s.fenceVa st vmid xl atp va asid).mc = s.mc := by unfold State.fenceVa; repeat (first | rfl | split)
@[simp] theorem State.fenceVa_sc (s : State) (st : Stage) (vmid : Nat) (xl : Xlen) (atp : Word) (va : Option Word) (asid : Option Nat) : (s.fenceVa st vmid xl atp va asid).sc = s.sc := by unfold State.fenceVa; repeat (first | rfl | split)
@[simp] theorem State.fenceVa_hc (s : State) (st : Stage) (vmid : Nat) (xl : Xlen) (atp : Word) (va : Option Word) (asid : Option Nat) : (s.fenceVa st vmid xl atp va asid).hc = s.hc := by unfold State.fenceVa; repeat (first | rfl | split)
@[simp] theorem State.fenceVa_vc (s : State) (st : Stage) (vmid : Nat) (xl : Xlen) (atp : Word) (va : Option Word) (asid : Option Nat) : (s.fenceVa st vmid xl atp va asid).vc = s.vc := by unfold State.fenceVa; repeat (first | rfl | split)
@[simp] theorem State.fenceVa_cnt (s : State) (st : Stage) (vmid : Nat) (xl : Xlen) (atp : Word) (va : Option Word) (asid : Option Nat) : (s.fenceVa st vmid xl atp va asid).cnt = s.cnt := by unfold State.fenceVa; repeat (first | rfl | split)
@[simp] theorem State.fenceVa_mtime (s : State) (st : Stage) (vmid : Nat) (xl : Xlen) (atp : Word) (va : Option Word) (asid : Option Nat) : (s.fenceVa st vmid xl atp va asid).mtime = s.mtime := by unfold State.fenceVa; repeat (first | rfl | split)
@[simp] theorem State.fenceVa_mtimecmp (s : State) (st : Stage) (vmid : Nat) (xl : Xlen) (atp : Word) (va : Option Word) (asid : Option Nat) : (s.fenceVa st vmid xl atp va asid).mtimecmp = s.mtimecmp := by unfold State.fenceVa; repeat (first | rfl | split)
@[simp] theorem State.fenceVa_msip (s : State) (st : Stage) (vmid : Nat) (xl : Xlen) (atp : Word) (va : Option Word) (asid : Option Nat) : (s.fenceVa st vmid xl atp va asid).msip = s.msip := by unfold State.fenceVa; repeat (first | rfl | split)
@[simp] theorem State.fenceVa_mem (s : State) (st : Stage) (vmid : Nat) (xl : Xlen) (atp : Word) (va : Option Word) (asid : Option Nat) : (s.fenceVa st vmid xl atp va asid).mem = s.mem := by unfold State.fenceVa; repeat (first | rfl | split)
@[simp] theorem State.fenceVa_reservation (s : State) (st : Stage) (vmid : Nat) (xl : Xlen) (atp : Word) (va : Option Word) (asid : Option Nat) : (s.fenceVa st vmid xl atp va asid).reservation = s.reservation := by unfold State.fenceVa; repeat (first | rfl | split)
@[simp] theorem State.fenceVa_waited (s : State) (st : Stage) (vmid : Nat) (xl : Xlen) (atp : Word) (va : Option Word) (asid : Option Nat) : (s.fenceVa st vmid xl atp va asid).waited = s.waited := by unfold State.fenceVa; repeat (first | rfl | split)
@[simp] theorem State.fenceVa_pins (s : State) (st : Stage) (vmid : Nat) (xl : Xlen) (atp : Word) (va : Option Word) (asid : Option Nat) : (s.fenceVa st vmid xl atp va asid).pins = s.pins := by unfold State.fenceVa; repeat (first | rfl | split)
@[simp] theorem State.fenceVa_env (s : State) (st : Stage) (vmid : Nat) (xl : Xlen) (atp : Word) (va : Option Word) (asid : Option Nat) : (s.fenceVa st vmid xl atp va asid).env = s.env := by unfold State.fenceVa; repeat (first | rfl | split)
@[simp] theorem State.fenceVa_draws (s : State) (st : Stage) (vmid : Nat) (xl : Xlen) (atp : Word) (va : Option Word) (asid : Option Nat) : (s.fenceVa st vmid xl atp va asid).draws = s.draws := by unfold State.fenceVa; repeat (first | rfl | split)

/-! ### A fence over G-stage translations -/

@[simp] theorem State.fenceGpa_cfg (s : State) (gpa vmid : Option Nat) : (s.fenceGpa gpa vmid).cfg = s.cfg := rfl
@[simp] theorem State.fenceGpa_pc (s : State) (gpa vmid : Option Nat) : (s.fenceGpa gpa vmid).pc = s.pc := rfl
@[simp] theorem State.fenceGpa_regs (s : State) (gpa vmid : Option Nat) : (s.fenceGpa gpa vmid).regs = s.regs := rfl
@[simp] theorem State.fenceGpa_priv (s : State) (gpa vmid : Option Nat) : (s.fenceGpa gpa vmid).priv = s.priv := rfl
@[simp] theorem State.fenceGpa_virt (s : State) (gpa vmid : Option Nat) : (s.fenceGpa gpa vmid).virt = s.virt := rfl
@[simp] theorem State.fenceGpa_mc (s : State) (gpa vmid : Option Nat) : (s.fenceGpa gpa vmid).mc = s.mc := rfl
@[simp] theorem State.fenceGpa_sc (s : State) (gpa vmid : Option Nat) : (s.fenceGpa gpa vmid).sc = s.sc := rfl
@[simp] theorem State.fenceGpa_hc (s : State) (gpa vmid : Option Nat) : (s.fenceGpa gpa vmid).hc = s.hc := rfl
@[simp] theorem State.fenceGpa_vc (s : State) (gpa vmid : Option Nat) : (s.fenceGpa gpa vmid).vc = s.vc := rfl
@[simp] theorem State.fenceGpa_cnt (s : State) (gpa vmid : Option Nat) : (s.fenceGpa gpa vmid).cnt = s.cnt := rfl
@[simp] theorem State.fenceGpa_mtime (s : State) (gpa vmid : Option Nat) : (s.fenceGpa gpa vmid).mtime = s.mtime := rfl
@[simp] theorem State.fenceGpa_mtimecmp (s : State) (gpa vmid : Option Nat) : (s.fenceGpa gpa vmid).mtimecmp = s.mtimecmp := rfl
@[simp] theorem State.fenceGpa_msip (s : State) (gpa vmid : Option Nat) : (s.fenceGpa gpa vmid).msip = s.msip := rfl
@[simp] theorem State.fenceGpa_mem (s : State) (gpa vmid : Option Nat) : (s.fenceGpa gpa vmid).mem = s.mem := rfl
@[simp] theorem State.fenceGpa_reservation (s : State) (gpa vmid : Option Nat) : (s.fenceGpa gpa vmid).reservation = s.reservation := rfl
@[simp] theorem State.fenceGpa_waited (s : State) (gpa vmid : Option Nat) : (s.fenceGpa gpa vmid).waited = s.waited := rfl
@[simp] theorem State.fenceGpa_pins (s : State) (gpa vmid : Option Nat) : (s.fenceGpa gpa vmid).pins = s.pins := rfl
@[simp] theorem State.fenceGpa_env (s : State) (gpa vmid : Option Nat) : (s.fenceGpa gpa vmid).env = s.env := rfl
@[simp] theorem State.fenceGpa_draws (s : State) (gpa vmid : Option Nat) : (s.fenceGpa gpa vmid).draws = s.draws := rfl

/-! ### Time and cycles -/

@[simp] theorem State.advance_cfg (s : State) (time cycles : Nat) : (s.advance time cycles).cfg = s.cfg := rfl
@[simp] theorem State.advance_pc (s : State) (time cycles : Nat) : (s.advance time cycles).pc = s.pc := rfl
@[simp] theorem State.advance_regs (s : State) (time cycles : Nat) : (s.advance time cycles).regs = s.regs := rfl
@[simp] theorem State.advance_priv (s : State) (time cycles : Nat) : (s.advance time cycles).priv = s.priv := rfl
@[simp] theorem State.advance_virt (s : State) (time cycles : Nat) : (s.advance time cycles).virt = s.virt := rfl
@[simp] theorem State.advance_mc (s : State) (time cycles : Nat) : (s.advance time cycles).mc = s.mc := rfl
@[simp] theorem State.advance_sc (s : State) (time cycles : Nat) : (s.advance time cycles).sc = s.sc := rfl
@[simp] theorem State.advance_hc (s : State) (time cycles : Nat) : (s.advance time cycles).hc = s.hc := rfl
@[simp] theorem State.advance_vc (s : State) (time cycles : Nat) : (s.advance time cycles).vc = s.vc := rfl
@[simp] theorem State.advance_mtimecmp (s : State) (time cycles : Nat) : (s.advance time cycles).mtimecmp = s.mtimecmp := rfl
@[simp] theorem State.advance_msip (s : State) (time cycles : Nat) : (s.advance time cycles).msip = s.msip := rfl
@[simp] theorem State.advance_mem (s : State) (time cycles : Nat) : (s.advance time cycles).mem = s.mem := rfl
@[simp] theorem State.advance_cache (s : State) (time cycles : Nat) : (s.advance time cycles).cache = s.cache := rfl
@[simp] theorem State.advance_pmpCopies (s : State) (time cycles : Nat) : (s.advance time cycles).pmpCopies = s.pmpCopies := rfl
@[simp] theorem State.advance_reservation (s : State) (time cycles : Nat) : (s.advance time cycles).reservation = s.reservation := rfl
@[simp] theorem State.advance_waited (s : State) (time cycles : Nat) : (s.advance time cycles).waited = s.waited := rfl
@[simp] theorem State.advance_pins (s : State) (time cycles : Nat) : (s.advance time cycles).pins = s.pins := rfl
@[simp] theorem State.advance_env (s : State) (time cycles : Nat) : (s.advance time cycles).env = s.env := rfl
@[simp] theorem State.advance_draws (s : State) (time cycles : Nat) : (s.advance time cycles).draws = s.draws := rfl

/-! ### Speculative walks -/

@[simp] theorem State.speculate_cfg (s : State) : (s.speculate).cfg = s.cfg := by unfold State.speculate; split <;> rfl
@[simp] theorem State.speculate_pc (s : State) : (s.speculate).pc = s.pc := by unfold State.speculate; split <;> rfl
@[simp] theorem State.speculate_regs (s : State) : (s.speculate).regs = s.regs := by unfold State.speculate; split <;> rfl
@[simp] theorem State.speculate_priv (s : State) : (s.speculate).priv = s.priv := by unfold State.speculate; split <;> rfl
@[simp] theorem State.speculate_virt (s : State) : (s.speculate).virt = s.virt := by unfold State.speculate; split <;> rfl
@[simp] theorem State.speculate_mc (s : State) : (s.speculate).mc = s.mc := by unfold State.speculate; split <;> rfl
@[simp] theorem State.speculate_sc (s : State) : (s.speculate).sc = s.sc := by unfold State.speculate; split <;> rfl
@[simp] theorem State.speculate_hc (s : State) : (s.speculate).hc = s.hc := by unfold State.speculate; split <;> rfl
@[simp] theorem State.speculate_vc (s : State) : (s.speculate).vc = s.vc := by unfold State.speculate; split <;> rfl
@[simp] theorem State.speculate_cnt (s : State) : (s.speculate).cnt = s.cnt := by unfold State.speculate; split <;> rfl
@[simp] theorem State.speculate_mtime (s : State) : (s.speculate).mtime = s.mtime := by unfold State.speculate; split <;> rfl
@[simp] theorem State.speculate_mtimecmp (s : State) : (s.speculate).mtimecmp = s.mtimecmp := by unfold State.speculate; split <;> rfl
@[simp] theorem State.speculate_msip (s : State) : (s.speculate).msip = s.msip := by unfold State.speculate; split <;> rfl
@[simp] theorem State.speculate_mem (s : State) : (s.speculate).mem = s.mem := by unfold State.speculate; split <;> rfl
@[simp] theorem State.speculate_reservation (s : State) : (s.speculate).reservation = s.reservation := by unfold State.speculate; split <;> rfl
@[simp] theorem State.speculate_waited (s : State) : (s.speculate).waited = s.waited := by unfold State.speculate; split <;> rfl
@[simp] theorem State.speculate_pins (s : State) : (s.speculate).pins = s.pins := by unfold State.speculate; split <;> rfl
@[simp] theorem State.speculate_env (s : State) : (s.speculate).env = s.env := by unfold State.speculate; split <;> rfl
@[simp] theorem State.speculate_draws (s : State) : (s.speculate).draws = s.draws := by unfold State.speculate; split <;> rfl
@[simp] theorem State.speculate_pmpCopies (s : State) : (s.speculate).pmpCopies = s.pmpCopies := by unfold State.speculate; split <;> rfl

/-! ### PMP results kept, and no longer kept -/

@[simp] theorem State.keepPmp_cfg (s : State) : s.keepPmp.cfg = s.cfg := by unfold State.keepPmp; split <;> rfl
@[simp] theorem State.keepPmp_pc (s : State) : s.keepPmp.pc = s.pc := by unfold State.keepPmp; split <;> rfl
@[simp] theorem State.keepPmp_regs (s : State) : s.keepPmp.regs = s.regs := by unfold State.keepPmp; split <;> rfl
@[simp] theorem State.keepPmp_priv (s : State) : s.keepPmp.priv = s.priv := by unfold State.keepPmp; split <;> rfl
@[simp] theorem State.keepPmp_virt (s : State) : s.keepPmp.virt = s.virt := by unfold State.keepPmp; split <;> rfl
@[simp] theorem State.keepPmp_mc (s : State) : s.keepPmp.mc = s.mc := by unfold State.keepPmp; split <;> rfl
@[simp] theorem State.keepPmp_sc (s : State) : s.keepPmp.sc = s.sc := by unfold State.keepPmp; split <;> rfl
@[simp] theorem State.keepPmp_hc (s : State) : s.keepPmp.hc = s.hc := by unfold State.keepPmp; split <;> rfl
@[simp] theorem State.keepPmp_vc (s : State) : s.keepPmp.vc = s.vc := by unfold State.keepPmp; split <;> rfl
@[simp] theorem State.keepPmp_cnt (s : State) : s.keepPmp.cnt = s.cnt := by unfold State.keepPmp; split <;> rfl
@[simp] theorem State.keepPmp_mtime (s : State) : s.keepPmp.mtime = s.mtime := by unfold State.keepPmp; split <;> rfl
@[simp] theorem State.keepPmp_mtimecmp (s : State) : s.keepPmp.mtimecmp = s.mtimecmp := by unfold State.keepPmp; split <;> rfl
@[simp] theorem State.keepPmp_msip (s : State) : s.keepPmp.msip = s.msip := by unfold State.keepPmp; split <;> rfl
@[simp] theorem State.keepPmp_mem (s : State) : s.keepPmp.mem = s.mem := by unfold State.keepPmp; split <;> rfl
@[simp] theorem State.keepPmp_cache (s : State) : s.keepPmp.cache = s.cache := by unfold State.keepPmp; split <;> rfl
@[simp] theorem State.keepPmp_reservation (s : State) : s.keepPmp.reservation = s.reservation := by unfold State.keepPmp; split <;> rfl
@[simp] theorem State.keepPmp_waited (s : State) : s.keepPmp.waited = s.waited := by unfold State.keepPmp; split <;> rfl
@[simp] theorem State.keepPmp_pins (s : State) : s.keepPmp.pins = s.pins := by unfold State.keepPmp; split <;> rfl
@[simp] theorem State.keepPmp_env (s : State) : s.keepPmp.env = s.env := by unfold State.keepPmp; split <;> rfl
@[simp] theorem State.keepPmp_draws (s : State) : s.keepPmp.draws = s.draws := by unfold State.keepPmp; split <;> rfl
@[simp] theorem State.fencePmp_cfg (s : State) (rs1 rs2 : Reg) (g : Bool) : (s.fencePmp rs1 rs2 g).cfg = s.cfg := by unfold State.fencePmp; split <;> rfl
@[simp] theorem State.fencePmp_pc (s : State) (rs1 rs2 : Reg) (g : Bool) : (s.fencePmp rs1 rs2 g).pc = s.pc := by unfold State.fencePmp; split <;> rfl
@[simp] theorem State.fencePmp_regs (s : State) (rs1 rs2 : Reg) (g : Bool) : (s.fencePmp rs1 rs2 g).regs = s.regs := by unfold State.fencePmp; split <;> rfl
@[simp] theorem State.fencePmp_priv (s : State) (rs1 rs2 : Reg) (g : Bool) : (s.fencePmp rs1 rs2 g).priv = s.priv := by unfold State.fencePmp; split <;> rfl
@[simp] theorem State.fencePmp_virt (s : State) (rs1 rs2 : Reg) (g : Bool) : (s.fencePmp rs1 rs2 g).virt = s.virt := by unfold State.fencePmp; split <;> rfl
@[simp] theorem State.fencePmp_mc (s : State) (rs1 rs2 : Reg) (g : Bool) : (s.fencePmp rs1 rs2 g).mc = s.mc := by unfold State.fencePmp; split <;> rfl
@[simp] theorem State.fencePmp_sc (s : State) (rs1 rs2 : Reg) (g : Bool) : (s.fencePmp rs1 rs2 g).sc = s.sc := by unfold State.fencePmp; split <;> rfl
@[simp] theorem State.fencePmp_hc (s : State) (rs1 rs2 : Reg) (g : Bool) : (s.fencePmp rs1 rs2 g).hc = s.hc := by unfold State.fencePmp; split <;> rfl
@[simp] theorem State.fencePmp_vc (s : State) (rs1 rs2 : Reg) (g : Bool) : (s.fencePmp rs1 rs2 g).vc = s.vc := by unfold State.fencePmp; split <;> rfl
@[simp] theorem State.fencePmp_cnt (s : State) (rs1 rs2 : Reg) (g : Bool) : (s.fencePmp rs1 rs2 g).cnt = s.cnt := by unfold State.fencePmp; split <;> rfl
@[simp] theorem State.fencePmp_mtime (s : State) (rs1 rs2 : Reg) (g : Bool) : (s.fencePmp rs1 rs2 g).mtime = s.mtime := by unfold State.fencePmp; split <;> rfl
@[simp] theorem State.fencePmp_mtimecmp (s : State) (rs1 rs2 : Reg) (g : Bool) : (s.fencePmp rs1 rs2 g).mtimecmp = s.mtimecmp := by unfold State.fencePmp; split <;> rfl
@[simp] theorem State.fencePmp_msip (s : State) (rs1 rs2 : Reg) (g : Bool) : (s.fencePmp rs1 rs2 g).msip = s.msip := by unfold State.fencePmp; split <;> rfl
@[simp] theorem State.fencePmp_mem (s : State) (rs1 rs2 : Reg) (g : Bool) : (s.fencePmp rs1 rs2 g).mem = s.mem := by unfold State.fencePmp; split <;> rfl
@[simp] theorem State.fencePmp_cache (s : State) (rs1 rs2 : Reg) (g : Bool) : (s.fencePmp rs1 rs2 g).cache = s.cache := by unfold State.fencePmp; split <;> rfl
@[simp] theorem State.fencePmp_reservation (s : State) (rs1 rs2 : Reg) (g : Bool) : (s.fencePmp rs1 rs2 g).reservation = s.reservation := by unfold State.fencePmp; split <;> rfl
@[simp] theorem State.fencePmp_waited (s : State) (rs1 rs2 : Reg) (g : Bool) : (s.fencePmp rs1 rs2 g).waited = s.waited := by unfold State.fencePmp; split <;> rfl
@[simp] theorem State.fencePmp_pins (s : State) (rs1 rs2 : Reg) (g : Bool) : (s.fencePmp rs1 rs2 g).pins = s.pins := by unfold State.fencePmp; split <;> rfl
@[simp] theorem State.fencePmp_env (s : State) (rs1 rs2 : Reg) (g : Bool) : (s.fencePmp rs1 rs2 g).env = s.env := by unfold State.fencePmp; split <;> rfl
@[simp] theorem State.fencePmp_draws (s : State) (rs1 rs2 : Reg) (g : Bool) : (s.fencePmp rs1 rs2 g).draws = s.draws := by unfold State.fencePmp; split <;> rfl
@[simp] theorem State.withPmp_cfg (s : State) (c : PmpCopy) : (s.withPmp c).cfg = s.cfg := rfl
@[simp] theorem State.withPmp_pc (s : State) (c : PmpCopy) : (s.withPmp c).pc = s.pc := rfl
@[simp] theorem State.withPmp_regs (s : State) (c : PmpCopy) : (s.withPmp c).regs = s.regs := rfl
@[simp] theorem State.withPmp_priv (s : State) (c : PmpCopy) : (s.withPmp c).priv = s.priv := rfl
@[simp] theorem State.withPmp_virt (s : State) (c : PmpCopy) : (s.withPmp c).virt = s.virt := rfl
@[simp] theorem State.withPmp_sc (s : State) (c : PmpCopy) : (s.withPmp c).sc = s.sc := rfl
@[simp] theorem State.withPmp_hc (s : State) (c : PmpCopy) : (s.withPmp c).hc = s.hc := rfl
@[simp] theorem State.withPmp_vc (s : State) (c : PmpCopy) : (s.withPmp c).vc = s.vc := rfl
@[simp] theorem State.withPmp_cnt (s : State) (c : PmpCopy) : (s.withPmp c).cnt = s.cnt := rfl
@[simp] theorem State.withPmp_mtime (s : State) (c : PmpCopy) : (s.withPmp c).mtime = s.mtime := rfl
@[simp] theorem State.withPmp_mtimecmp (s : State) (c : PmpCopy) : (s.withPmp c).mtimecmp = s.mtimecmp := rfl
@[simp] theorem State.withPmp_msip (s : State) (c : PmpCopy) : (s.withPmp c).msip = s.msip := rfl
@[simp] theorem State.withPmp_mem (s : State) (c : PmpCopy) : (s.withPmp c).mem = s.mem := rfl
@[simp] theorem State.withPmp_cache (s : State) (c : PmpCopy) : (s.withPmp c).cache = s.cache := rfl
@[simp] theorem State.withPmp_reservation (s : State) (c : PmpCopy) : (s.withPmp c).reservation = s.reservation := rfl
@[simp] theorem State.withPmp_waited (s : State) (c : PmpCopy) : (s.withPmp c).waited = s.waited := rfl
@[simp] theorem State.withPmp_pins (s : State) (c : PmpCopy) : (s.withPmp c).pins = s.pins := rfl
@[simp] theorem State.withPmp_env (s : State) (c : PmpCopy) : (s.withPmp c).env = s.env := rfl
@[simp] theorem State.withPmp_draws (s : State) (c : PmpCopy) : (s.withPmp c).draws = s.draws := rfl
@[simp] theorem State.withPmp_pmpCopies (s : State) (c : PmpCopy) : (s.withPmp c).pmpCopies = s.pmpCopies := rfl

end Sys2Proof.Machine
end

