-- ==== Sys2Proof/Laws/Trap.lean ====
section
/-! SUPPORT. Traps and returns: where they go, what they save, and the invariant they keep (R54, R55, R234-R237, R336-R341). -/

namespace Sys2Proof.Machine

/-! ### Modes and parameters -/

@[simp] theorem Priv.ofCode_code (p : Priv) : Priv.ofCode p.code = p := by cases p <;> rfl

theorem Priv.code_ne_two (p : Priv) : p.code ≠ 2#2 := by cases p <;> decide

/-- S-mode brings U-mode (R15). -/
theorem Config.hasU_of_hasS {c : Config} (h : c.wf = true) (hs : c.hasS = true) : c.hasU = true := by
  cases hu : c.hasU
  · simp [Config.wf, hs, hu] at h
  · rfl

/-- The hypervisor extension brings S-mode (R136). -/
theorem Config.hasS_of_hasH {c : Config} (h : c.wf = true) (hh : c.hasH = true) : c.hasS = true := by
  cases hs : c.hasS
  · simp [Config.wf, hs, hh] at h
  · rfl

theorem Config.nmiVector_aligned {c : Config} (h : c.wf = true) : misalignedTarget c.nmiVector = false := by
  simp only [Config.wf, Bool.and_eq_true] at h
  simp [misalignedTarget, beq_iff_eq.mp h.1.1.1.1.1.2]

theorem Config.rnmiIntVector_aligned {c : Config} (h : c.wf = true) : misalignedTarget c.rnmiIntVector = false := by
  simp only [Config.wf, Bool.and_eq_true] at h
  simp [misalignedTarget, beq_iff_eq.mp h.1.1.1.1.2]

theorem Config.rnmiExcVector_aligned {c : Config} (h : c.wf = true) {v : Word} (hv : c.rnmiExcVector = some v) :
    misalignedTarget v = false := by
  simp only [Config.wf, Bool.and_eq_true] at h
  have : v.extractLsb' 0 2 = 0#2 := by
    have h' := h.1.1.1.2
    rw [hv] at h'
    simpa using h'
  simp [misalignedTarget, this]

/-- S-mode depends on U-mode, and the hypervisor extension on S-mode, also as `misa` enables them (R15, R46, R136). -/
theorem State.hasU_of_hasS {s : State} (h : s.hasS = true) : s.hasU = true := by
  simp only [State.hasS, Bool.and_eq_true] at h
  exact h.1.1

theorem State.hasS_of_hasH {s : State} (h : s.hasH = true) : s.hasS = true := by
  simp only [State.hasH, Bool.and_eq_true] at h
  exact h.1.1

/-- What is enabled is so by the parameters and `misa`. -/
theorem State.modes_congr {s t : State} (hc : t.cfg = s.cfg) (hm : t.mc.misa = s.mc.misa) :
    t.hasU = s.hasU ∧ t.hasS = s.hasS ∧ t.hasH = s.hasH ∧ t.supports = s.supports := by
  have he : t.enables = s.enables := by funext k; simp only [State.enables, hc, hm]
  have hu : t.hasU = s.hasU := by simp only [State.hasU, hc, he]
  have hs : t.hasS = s.hasS := by simp only [State.hasS, hu, hc, he]
  refine ⟨hu, hs, by simp only [State.hasH, hs, hc, he], ?_⟩
  funext p
  cases p <;> simp only [State.supports, hu, hs]

/-! ### What entries save -/

/-- MPP after a trap into M-mode is the mode left (R54). -/
@[simp] theorem State.saveStatusM_mpp (s : State) (g : Bool) : field (s.saveStatusM g) 11 2 = s.priv.code := by
  unfold State.saveStatusM
  dsimp only
  split
  · rw [field_setBit_other _ _ _ _ _ (by omega), field_setBit_other _ _ _ _ _ (by omega),
      field_setField_same _ _ _ (by omega)]
  · rw [field_setField_same _ _ _ (by omega)]

/-- A trap into S-mode leaves MPP. -/
@[simp] theorem State.saveStatusS_mpp (s : State) : field s.saveStatusS 11 2 = s.mstatusMPP := by
  unfold State.saveStatusS
  dsimp only
  rw [field_setBit_other _ _ _ _ _ (by omega), field_setBit_other _ _ _ _ _ (by omega),
    field_setBit_other _ _ _ _ _ (by omega)]
  rfl

/-- MNPP after an RNMI is the mode left (R350). -/
@[simp] theorem State.saveMnstatus_mnpp (s : State) : field s.saveMnstatus 11 2 = s.priv.code := by
  unfold State.saveMnstatus
  dsimp only
  split
  · rw [field_setBit_other _ _ _ _ _ (by omega), field_setBit_other _ _ _ _ _ (by omega),
      field_setField_same _ _ _ (by omega)]
  · rw [field_setBit_other _ _ _ _ _ (by omega), field_setField_same _ _ _ (by omega)]

@[simp] theorem State.align4_epc (s : State) : align4 s.epc = s.epc := by simp [State.epc]

/-- The handler's address for a trap into M-mode is aligned. -/
theorem State.vectorM_aligned {s : State} (h : s.cfg.wf = true) (intr : Bool) (code : Nat) :
    misalignedTarget (s.vectorM intr code) = false := by
  unfold State.vectorM
  split
  · next v hv =>
    split
    · exact Config.rnmiExcVector_aligned h hv
    · simp
  · simp

/-! ### Destinations -/

/-- An exception goes to S-mode only where it is implemented. -/
theorem State.hasS_of_destOfException {s : State} {c : Nat} (h : s.destOfException c = .s) : s.hasS = true := by
  unfold State.destOfException at h
  split at h
  · cases h
  · next hn =>
    simp only [Bool.or_eq_true, not_or, Bool.not_eq_true', Bool.not_eq_true, Bool.not_eq_false] at hn
    exact hn.1.2

/-- An exception goes to VS-mode only with V=1. -/
theorem State.virt_of_destOfException {s : State} {c : Nat} (h : s.destOfException c = .vs) : s.virt = true := by
  unfold State.destOfException at h
  split at h
  · cases h
  · split at h
    · next hv => simp only [Bool.and_eq_true] at hv; exact hv.1
    · cases h

/-- The interrupt taken is pending, enabled, and destined for where it goes (R336). -/
theorem State.interruptFor_some {s : State} {d : Dest} {i : Nat} (h : s.interruptFor d = some i) :
    bit s.mie i = true ∧ s.interruptsOn d = true ∧ s.destOfInterrupt i = d ∧ s.reaches d i = true ∧ s.pending i = true := by
  have := List.find?_some h
  simp only [Bool.and_eq_true, decide_eq_true_eq] at this
  exact ⟨this.1.1.1.1, this.1.1.1.2, this.1.1.2, this.1.2, this.2⟩

theorem State.interrupt_some {s : State} {d : Dest} {i : Nat} (h : s.interrupt = some (d, i)) :
    s.interruptFor d = some i := by
  unfold State.interrupt at h
  split at h
  · next h1 => cases h; exact h1
  · split at h
    · next h1 => cases h; exact h1
    · split at h
      · next h1 => cases h; exact h1
      · cases h

theorem State.hasS_of_destOfInterrupt {s : State} {i : Nat} (h : s.destOfInterrupt i = .s) : s.hasS = true := by
  unfold State.destOfInterrupt at h
  split at h
  · cases h
  · next hn =>
    simp only [Bool.or_eq_true, not_or, Bool.not_eq_true', Bool.not_eq_false] at hn
    exact hn.1

theorem State.virt_of_interruptsOn {s : State} (h : s.interruptsOn .vs = true) : s.virt = true := by
  simp only [State.interruptsOn, Bool.and_eq_true] at h
  exact h.2.1

/-! ### The invariant -/

/-- What the invariant says of a state that differs from another in memory, registers, counters or the cache. -/
theorem State.Inv.congr {s t : State} (h : s.Inv) (hm : t.mem.wf = true) (hp : misalignedTarget t.pc = false)
    (hc : t.cfg = s.cfg) (hpr : t.priv = s.priv) (hv : t.virt = s.virt) (hmc : t.mc = s.mc) (hsc : t.sc = s.sc)
    (hvc : t.vc = s.vc) : t.Inv where
  config := by rw [hc]; exact h.config
  memory := hm
  pcAligned := hp
  mode := by rw [(State.modes_congr hc (by rw [hmc])).2.2.2, hpr]; exact h.mode
  virtual := by rw [(State.modes_congr hc (by rw [hmc])).2.2.1, hpr, hv]; exact h.virtual
  mpp := by
    simpa only [State.mstatusMPP, (State.modes_congr hc (by rw [hmc])).2.2.2, hmc] using h.mpp
  mnpp := by
    simpa only [State.mnstatusMNPP, (State.modes_congr hc (by rw [hmc])).2.2.2, hmc] using h.mnpp
  epcs := by rw [hmc, hsc, hvc]; exact h.epcs
  tvecs := by rw [hmc, hsc, hvc]; exact h.tvecs

theorem State.Inv.enterM {s : State} (h : s.Inv) (intr : Bool) (code : Nat) (tval : Word) (gva : Bool)
    (tval2 tinst : Word) : (s.enterM intr code tval gva tval2 tinst).Inv where
  config := h.config
  memory := h.memory
  pcAligned := by simp only [State.enterM, misalignedTarget_sx]; exact State.vectorM_aligned h.config intr code
  mode := rfl
  virtual hv := by cases hv
  mpp := by
    change field (s.saveStatusM gva) 11 2 ≠ 2#2 ∧ s.supports (Priv.ofCode (field (s.saveStatusM gva) 11 2)) = true
    simp only [State.saveStatusM_mpp, Priv.ofCode_code]
    exact ⟨s.priv.code_ne_two, h.mode⟩
  mnpp := h.mnpp
  epcs := ⟨s.align4_epc, h.epcs.2⟩
  tvecs := h.tvecs

theorem State.Inv.enterS {s : State} (h : s.Inv) (hs : s.hasS = true) (intr : Bool) (code : Nat) (tval : Word)
    (gva : Bool) (tval2 tinst : Word) : (s.enterS intr code tval gva tval2 tinst).Inv where
  config := h.config
  memory := h.memory
  pcAligned := by simp [State.enterS]
  mode := hs
  virtual hv := by cases hv
  mpp := by
    change field s.saveStatusS 11 2 ≠ 2#2 ∧ s.supports (Priv.ofCode (field s.saveStatusS 11 2)) = true
    rw [State.saveStatusS_mpp]
    exact h.mpp
  mnpp := h.mnpp
  epcs := ⟨h.epcs.1, s.align4_epc, h.epcs.2.2⟩
  tvecs := h.tvecs

theorem State.Inv.enterVS {s : State} (h : s.Inv) (hv : s.virt = true) (intr : Bool) (code : Nat) (tval : Word) :
    (s.enterVS intr code tval).Inv where
  config := h.config
  memory := h.memory
  pcAligned := by simp [State.enterVS]
  mode := State.hasS_of_hasH (h.virtual hv).2
  virtual _ := ⟨by simp, (h.virtual hv).2⟩
  mpp := h.mpp
  mnpp := h.mnpp
  epcs := ⟨h.epcs.1, h.epcs.2.1, s.align4_epc, h.epcs.2.2.2⟩
  tvecs := h.tvecs

theorem State.Inv.takeException {s : State} (h : s.Inv) (t : Trap) : (s.takeException t).Inv := by
  unfold State.takeException State.enterTrap
  split
  · exact h.enterM ..
  · next hd => exact h.enterS (State.hasS_of_destOfException hd) ..
  · next hd => exact h.enterVS (State.virt_of_destOfException hd) ..

theorem State.Inv.takeInterrupt {s : State} (h : s.Inv) {d : Dest} {i : Nat} (hi : s.interrupt = some (d, i)) :
    (s.takeInterrupt d i).Inv := by
  obtain ⟨_, hon, hd, _, _⟩ := State.interruptFor_some (State.interrupt_some hi)
  unfold State.takeInterrupt State.enterTrap
  split
  · exact h.enterM ..
  · exact h.enterS (State.hasS_of_destOfInterrupt hd) ..
  · exact h.enterVS (State.virt_of_interruptsOn hon) ..

theorem State.Inv.takeNmi {s : State} (h : s.Inv) (c : Word) : (s.takeNmi c).Inv where
  config := h.config
  memory := h.memory
  pcAligned := by simp only [State.takeNmi, misalignedTarget_sx]; exact Config.nmiVector_aligned h.config
  mode := rfl
  virtual hv := by cases hv
  mpp := by
    change field (s.saveStatusM false) 11 2 ≠ 2#2 ∧ s.supports (Priv.ofCode (field (s.saveStatusM false) 11 2)) = true
    simp only [State.saveStatusM_mpp, Priv.ofCode_code]
    exact ⟨s.priv.code_ne_two, h.mode⟩
  mnpp := h.mnpp
  epcs := ⟨s.align4_epc, h.epcs.2⟩
  tvecs := h.tvecs

theorem State.Inv.takeRnmi {s : State} (h : s.Inv) (c : Word) : (s.takeRnmi c).Inv where
  config := h.config
  memory := h.memory
  pcAligned := by simp only [State.takeRnmi, misalignedTarget_sx]; exact Config.rnmiIntVector_aligned h.config
  mode := rfl
  virtual hv := by cases hv
  mpp := h.mpp
  mnpp := by
    change field s.saveMnstatus 11 2 ≠ 2#2 ∧ s.supports (Priv.ofCode (field s.saveMnstatus 11 2)) = true
    simp only [State.saveMnstatus_mnpp, Priv.ofCode_code]
    exact ⟨s.priv.code_ne_two, h.mode⟩
  epcs := ⟨h.epcs.1, h.epcs.2.1, h.epcs.2.2.1, s.align4_epc⟩
  tvecs := h.tvecs

/-! ### Returns -/

@[simp] theorem clearMprv_mpp (p : Priv) (w : Word) : field (clearMprv p w) 11 2 = field w 11 2 := by
  unfold clearMprv
  split
  · rfl
  · rw [field_setBit_other _ _ _ _ _ (by omega)]

@[simp] theorem State.supports_leastMode (s : State) : s.supports s.leastMode = true := by
  unfold State.leastMode
  split
  · next h => exact h
  · rfl

theorem State.Inv.returnM {s : State} (h : s.Inv) : s.returnM.Inv where
  config := h.config
  memory := h.memory
  pcAligned := by simp [State.returnM, State.returnTo]
  mode := h.mpp.2
  virtual hv := by
    simp only [State.returnM, State.returnTo_virt, Bool.and_eq_true, bne_iff_ne] at hv
    exact ⟨hv.1.1, hv.1.2⟩
  mpp := by
    have : field s.returnM.mc.mstatus 11 2 = s.leastMode.code := by
      simp only [State.returnM, State.returnTo, clearMprv_mpp]
      split
      · rw [field_setBit_other _ _ _ _ _ (by omega), field_setField_same _ _ _ (by omega)]
      · rw [field_setField_same _ _ _ (by omega)]
    change field s.returnM.mc.mstatus 11 2 ≠ 2#2 ∧ s.supports (Priv.ofCode (field s.returnM.mc.mstatus 11 2)) = true
    rw [this, Priv.ofCode_code]
    exact ⟨s.leastMode.code_ne_two, s.supports_leastMode⟩
  mnpp := h.mnpp
  epcs := h.epcs
  tvecs := h.tvecs

theorem State.Inv.returnS {s : State} (h : s.Inv) (hs : s.hasS = true) : s.returnS.Inv where
  config := h.config
  memory := h.memory
  pcAligned := by simp [State.returnS, State.returnTo]
  mode := by
    change s.supports (Priv.ofBit s.mstatusSPP) = true
    cases s.mstatusSPP
    · exact State.hasU_of_hasS hs
    · exact hs
  virtual hv := by
    simp only [State.returnS, State.returnTo_virt, Bool.and_eq_true] at hv
    refine ⟨?_, hv.1⟩
    change Priv.ofBit s.mstatusSPP ≠ .m
    cases s.mstatusSPP <;> decide
  mpp := by
    have : field s.returnS.mc.mstatus 11 2 = s.mstatusMPP := by
      simp only [State.returnS, State.returnTo]
      rw [field_setBit_other _ _ _ _ _ (by omega), field_setBit_other _ _ _ _ _ (by omega),
        field_setBit_other _ _ _ _ _ (by omega), field_setBit_other _ _ _ _ _ (by omega)]
      rfl
    change field s.returnS.mc.mstatus 11 2 ≠ 2#2 ∧ s.supports (Priv.ofCode (field s.returnS.mc.mstatus 11 2)) = true
    rw [this]
    exact h.mpp
  mnpp := h.mnpp
  epcs := h.epcs
  tvecs := h.tvecs

theorem State.Inv.returnVS {s : State} (h : s.Inv) (hv : s.virt = true) : s.returnVS.Inv where
  config := h.config
  memory := h.memory
  pcAligned := by simp [State.returnVS, State.returnTo]
  mode := by
    have hs := State.hasS_of_hasH (h.virtual hv).2
    change s.supports (Priv.ofBit s.vsstatusSPP) = true
    cases s.vsstatusSPP
    · exact State.hasU_of_hasS hs
    · exact hs
  virtual _ := by
    refine ⟨?_, (h.virtual hv).2⟩
    change Priv.ofBit s.vsstatusSPP ≠ .m
    cases s.vsstatusSPP <;> decide
  mpp := by
    have : field s.returnVS.mc.mstatus 11 2 = s.mstatusMPP := by
      simp only [State.returnVS, State.returnTo]
      rw [field_setBit_other _ _ _ _ _ (by omega)]
      rfl
    change field s.returnVS.mc.mstatus 11 2 ≠ 2#2 ∧ s.supports (Priv.ofCode (field s.returnVS.mc.mstatus 11 2)) = true
    rw [this]
    exact h.mpp
  mnpp := h.mnpp
  epcs := h.epcs
  tvecs := h.tvecs

theorem State.Inv.returnMN {s : State} (h : s.Inv) : s.returnMN.Inv where
  config := h.config
  memory := h.memory
  pcAligned := by simp [State.returnMN, State.returnTo]
  mode := h.mnpp.2
  virtual hv := by
    simp only [State.returnMN, State.returnTo_virt, Bool.and_eq_true, bne_iff_ne] at hv
    exact ⟨hv.1.1, hv.1.2⟩
  mpp := by
    change field (clearMprv _ s.mc.mstatus) 11 2 ≠ 2#2
      ∧ s.supports (Priv.ofCode (field (clearMprv _ s.mc.mstatus) 11 2)) = true
    rw [clearMprv_mpp]
    exact h.mpp
  mnpp := by
    have : field s.returnMN.mc.mnstatus 11 2 = s.mnstatusMNPP := by
      simp only [State.returnMN, State.returnTo]
      rw [field_setBit_other _ _ _ _ _ (by omega)]
      rfl
    change field s.returnMN.mc.mnstatus 11 2 ≠ 2#2 ∧ s.supports (Priv.ofCode (field s.returnMN.mc.mnstatus 11 2)) = true
    rw [this]
    exact h.mnpp
  epcs := h.epcs
  tvecs := h.tvecs

end Sys2Proof.Machine
end

