-- ==== Sys2Proof/Laws/Csr.lean ====
section
/-! SUPPORT. What a CSR write may change: control and status registers and counters, never the pc, the x registers, the mode
or memory; and the legal values it keeps (R31-R36, R246). -/

namespace Sys2Proof.Machine

/-- t is s with other control and status registers, counters and PMP results kept. -/
def State.OnlyCsrs (s t : State) : Prop :=
  t = { s with mc := t.mc, sc := t.sc, hc := t.hc, vc := t.vc, cnt := t.cnt, pmpCopies := t.pmpCopies }

/-- MPP holds an implemented mode. -/
def State.MppOk (s : State) : Prop := s.mstatusMPP ≠ 2#2 ∧ s.supports (Priv.ofCode s.mstatusMPP) = true

/-- MNPP holds an implemented mode. -/
def State.MnppOk (s : State) : Prop := s.mnstatusMNPP ≠ 2#2 ∧ s.supports (Priv.ofCode s.mnstatusMNPP) = true

/-- The saved pcs are aligned. -/
def State.EpcsOk (s : State) : Prop :=
  align4 s.mc.mepc = s.mc.mepc ∧ align4 s.sc.sepc = s.sc.sepc ∧ align4 s.vc.vsepc = s.vc.vsepc
    ∧ align4 s.mc.mnepc = s.mc.mnepc

/-- The vector modes are legal. -/
def State.TvecsOk (s : State) : Prop :=
  bit s.mc.mtvec 1 = false ∧ bit s.sc.stvec 1 = false ∧ bit s.vc.vstvec 1 = false

/-- What a write to any register but `misa` keeps. -/
structure State.Kept (s t : State) : Prop where
  only : s.OnlyCsrs t
  misa : t.mc.misa = s.mc.misa
  mpp : s.MppOk → t.MppOk
  mnpp : s.MnppOk → t.MnppOk
  epcs : s.EpcsOk → t.EpcsOk
  tvecs : s.TvecsOk → t.TvecsOk

theorem State.OnlyCsrs.eq {s t : State} (h : s.OnlyCsrs t) :
    ∃ a b c d e f, t = { s with mc := a, sc := b, hc := c, vc := d, cnt := e, pmpCopies := f } := ⟨_, _, _, _, _, _, h⟩

theorem State.OnlyCsrs.trans {s t u : State} (h : s.OnlyCsrs t) (h' : t.OnlyCsrs u) : s.OnlyCsrs u := by
  obtain ⟨a, b, c, d, e, f, rfl⟩ := h.eq
  obtain ⟨a', b', c', d', e', f', rfl⟩ := h'.eq
  rfl

theorem State.Kept.refl (s : State) : s.Kept s := ⟨rfl, rfl, id, id, id, id⟩

theorem State.Kept.trans {s t u : State} (h : s.Kept t) (h' : t.Kept u) : s.Kept u :=
  ⟨h.only.trans h'.only, h'.misa.trans h.misa, fun x => h'.mpp (h.mpp x), fun x => h'.mnpp (h.mnpp x),
    fun x => h'.epcs (h.epcs x), fun x => h'.tvecs (h.tvecs x)⟩

/-- A write that leaves the fields the invariant speaks of. -/
theorem State.kept_of_same {s t : State} (h : s.OnlyCsrs t) (h1 : t.mc.misa = s.mc.misa)
    (h2 : t.mc.mstatus = s.mc.mstatus) (h3 : t.mc.mnstatus = s.mc.mnstatus) (h4 : t.mc.mepc = s.mc.mepc)
    (h5 : t.mc.mnepc = s.mc.mnepc) (h6 : t.mc.mtvec = s.mc.mtvec) (h7 : t.sc.sepc = s.sc.sepc)
    (h8 : t.sc.stvec = s.sc.stvec) (h9 : t.vc.vsepc = s.vc.vsepc) (h10 : t.vc.vstvec = s.vc.vstvec) : s.Kept t := by
  have hs := (State.modes_congr (s := s) (t := t) (by rw [h]) h1).2.2.2
  refine ⟨h, h1, ?_, ?_, ?_, ?_⟩
  · simp only [State.MppOk, State.mstatusMPP, hs, h2]; exact id
  · simp only [State.MnppOk, State.mnstatusMNPP, hs, h3]; exact id
  · simp only [State.EpcsOk, h4, h5, h7, h9]; exact id
  · simp only [State.TvecsOk, h6, h8, h10]; exact id

/-! ### Legal values -/

theorem align4_zx (xl : Xlen) (w : Word) : align4 (zx xl w) = zx xl (align4 w) := by
  apply eq_of_bits; intro i
  simp only [bit_align4, bit_zx]
  cases decide (2 ≤ i) <;> simp

theorem TvecLegal.bit_fill (t : TvecLegal) (w : Word) : bit (t.fill w) 1 = false := by
  have h1 : bit (~~~2#64) 1 = false := by decide
  rw [TvecLegal.fill, bit_and, h1, Bool.and_false]

/-- A trap vector after a write is Direct or Vectored if it was before (R67). -/
theorem bit_legalTvec (t : TvecLegal) (xl : Xlen) {old : Word} (w : Word) (h : bit old 1 = false) :
    bit (legalTvec t xl old w) 1 = false := by
  unfold legalTvec
  dsimp only
  generalize align4 w ||| _ = v
  split
  · rw [bit_zx, TvecLegal.bit_fill, Bool.and_false]
  · exact h

theorem bit_upperFixed (t : TvecLegal) : bit (upperFixed t) 1 = false := by
  rw [upperFixed, bit_and, TvecLegal.bit_fill, Bool.false_and]

/-- MPP and its like after a write hold an implemented mode if they did before (R54). -/
theorem State.legalPP_ok {s : State} {old w : BitVec 2} (h : old ≠ 2#2 ∧ s.supports (Priv.ofCode old) = true) :
    s.legalPP old w ≠ 2#2 ∧ s.supports (Priv.ofCode (s.legalPP old w)) = true := by
  unfold State.legalPP
  split
  · exact h
  · next hw =>
    split
    · next hs => exact ⟨hw, hs⟩
    · exact h

/-- MPP after a write of `mstatus`. -/
theorem State.legalMstatus_mpp (s : State) (mask w : Word) :
    field (s.legalMstatus mask w) 11 2
      = s.legalPP (field s.mc.mstatus 11 2) (field (merge s.mc.mstatus w mask) 11 2) := by
  unfold State.legalMstatus
  dsimp only
  split
  · rw [field_setField_same _ _ _ (by omega)]
  · rw [field_setField_other _ _ _ _ _ (by omega), field_setField_other _ _ _ _ _ (by omega),
      field_setField_same _ _ _ (by omega)]

/-! ### The writes -/

theorem State.kept_mstatus (s : State) (mask w : Word) :
    s.Kept { s with mc := { s.mc with mstatus := s.legalMstatus mask w } } := by
  refine ⟨rfl, rfl, fun h => ?_, id, id, id⟩
  change field (s.legalMstatus mask w) 11 2 ≠ 2#2 ∧ s.supports (Priv.ofCode (field (s.legalMstatus mask w) 11 2)) = true
  rw [State.legalMstatus_mpp]
  exact State.legalPP_ok h

theorem State.kept_narrowS (s : State) : s.Kept s.narrowS := by
  refine ⟨rfl, rfl, id, id, ?_, ?_⟩
  · rintro ⟨h1, h2, h3, h4⟩
    refine ⟨h1, ?_, h3, h4⟩
    change align4 (zx .rv32 s.sc.sepc) = zx .rv32 s.sc.sepc
    rw [align4_zx, h2]
  · rintro ⟨h1, h2, h3⟩
    refine ⟨h1, ?_, h3⟩
    change bit (zx .rv32 s.sc.stvec) 1 = false
    rw [bit_zx, h2, Bool.and_false]

theorem State.kept_narrowVS (s : State) : s.Kept s.narrowVS := by
  refine ⟨rfl, rfl, id, id, ?_, ?_⟩
  · rintro ⟨h1, h2, h3, h4⟩
    refine ⟨h1, h2, ?_, h4⟩
    change align4 (zx .rv32 s.vc.vsepc) = zx .rv32 s.vc.vsepc
    rw [align4_zx, h3]
  · rintro ⟨h1, h2, h3⟩
    refine ⟨h1, h2, ?_⟩
    change bit (zx .rv32 s.vc.vstvec) 1 = false
    rw [bit_zx, h3, Bool.and_false]

theorem State.kept_widenS (s : State) : s.Kept s.widenS :=
  ⟨rfl, rfl, id, id, id, fun ⟨h1, h2, h3⟩ => ⟨h1, by
    change bit (s.sc.stvec ||| upperFixed s.cfg.stvecLegal) 1 = false
    rw [bit_or, h2, bit_upperFixed, Bool.false_or], h3⟩⟩

theorem State.kept_widenVS (s : State) : s.Kept s.widenVS :=
  ⟨rfl, rfl, id, id, id, fun ⟨h1, h2, h3⟩ => ⟨h1, h2, by
    change bit (s.vc.vstvec ||| upperFixed s.cfg.vstvecLegal) 1 = false
    rw [bit_or, h3, bit_upperFixed, Bool.false_or]⟩⟩

theorem State.kept_modulateVS (b s : State) : s.Kept (b.modulateVS s) := by
  unfold State.modulateVS
  split
  · exact s.kept_narrowVS
  · exact s.kept_widenVS
  · exact .refl s

/-- A change of `mstatus` that leaves MPP. -/
theorem State.kept_of_mpp (s : State) {w : Word} (h : field w 11 2 = field s.mc.mstatus 11 2) :
    s.Kept { s with mc := { s.mc with mstatus := w } } := by
  refine ⟨rfl, rfl, fun x => ?_, id, id, id⟩
  change field w 11 2 ≠ 2#2 ∧ s.supports (Priv.ofCode (field w 11 2)) = true
  rw [h]
  exact x

theorem State.kept_openSum (b s : State) : s.Kept (b.openSum s) := by
  unfold State.openSum
  split
  · exact .refl s
  refine s.kept_of_mpp (field_merge_other _ _ _ _ _ fun j h1 h2 => ?_)
  have : j = 11 ∨ j = 12 := by omega
  rcases this with rfl | rfl <;> decide

theorem State.kept_modulate (b s : State) : s.Kept (b.modulate s) := by
  unfold State.modulate
  split
  · exact s.kept_narrowS.trans ((State.kept_openSum b _).trans (State.kept_modulateVS b _))
  · exact s.kept_widenS.trans ((State.kept_openSum b _).trans (State.kept_modulateVS b _))
  · exact .refl s

theorem State.kept_keepPmp (s : State) : s.Kept s.keepPmp := by
  unfold State.keepPmp
  split
  · exact State.kept_of_same rfl rfl rfl rfl rfl rfl rfl rfl rfl rfl rfl
  · exact .refl s

theorem State.kept_writePmpcfg (s : State) (j : Nat) (w : Word) (n : Nat) : s.Kept (s.writePmpcfg j w n) := by
  induction n generalizing s j w with
  | zero => exact .refl s
  | succ n ih =>
    rw [State.writePmpcfg]
    refine State.Kept.trans ?_ (ih _ _ _)
    dsimp only
    split
    · split
      · exact State.kept_of_same rfl rfl rfl rfl rfl rfl rfl rfl rfl rfl rfl
      · exact .refl s
    · exact .refl s

theorem State.kept_writePmpaddr (s : State) (i : Nat) (w : Word) : s.Kept (s.writePmpaddr i w) := by
  unfold State.writePmpaddr
  split
  · split
    · exact State.kept_of_same rfl rfl rfl rfl rfl rfl rfl rfl rfl rfl rfl
    · exact .refl s
  · exact .refl s

theorem State.kept_writeMseccfg (s : State) (w : Word) : s.Kept (s.writeMseccfg w) := by
  unfold State.writeMseccfg
  dsimp only
  split <;> exact State.kept_of_same rfl rfl rfl rfl rfl rfl rfl rfl rfl rfl rfl

theorem State.kept_writeHpmevent (s : State) (i : Fin 32) (mask w : Word) : s.Kept (s.writeHpmevent i mask w) := by
  unfold State.writeHpmevent
  split
  · exact State.kept_of_same rfl rfl rfl rfl rfl rfl rfl rfl rfl rfl rfl
  · exact .refl s

theorem State.kept_writeHpmcounter (s : State) (i : Fin 32) (w : Word) : s.Kept (s.writeHpmcounter i w) := by
  unfold State.writeHpmcounter
  split
  · exact State.kept_of_same rfl rfl rfl rfl rfl rfl rfl rfl rfl rfl rfl
  · exact .refl s

theorem State.kept_writeWindow (s : State) (sel : Word) (k : Nat) (v : Word) : s.Kept (s.writeWindow sel k v) := by
  unfold State.writeWindow
  split
  · exact .refl s
  · dsimp only
    unfold State.writeCell
    repeat' split
    all_goals first
      | exact State.kept_of_same rfl rfl rfl rfl rfl rfl rfl rfl rfl rfl rfl
      | exact State.kept_writeHpmevent ..
      | exact State.kept_writeHpmcounter ..

theorem State.kept_mnstatus (s : State) (w : Word) : s.Kept (s.csrSet .mnstatus w) := by
  refine ⟨rfl, rfl, id, fun h => ?_, id, id⟩
  have : field (s.csrSet .mnstatus w).mc.mnstatus 11 2 = s.legalPP (field s.mc.mnstatus 11 2) (field w 11 2) := by
    simp only [State.csrSet]
    rw [field_setBit_other _ _ _ _ _ (by omega)]
    split
    · rw [field_setBit_other _ _ _ _ _ (by omega), field_setField_same _ _ _ (by omega)]
    · rw [field_setField_same _ _ _ (by omega)]
  change field (s.csrSet .mnstatus w).mc.mnstatus 11 2 ≠ 2#2
    ∧ s.supports (Priv.ofCode (field (s.csrSet .mnstatus w).mc.mnstatus 11 2)) = true
  rw [this]
  exact State.legalPP_ok h

/-- A write to any register keeps what the invariant asks of CSRs. -/
theorem State.kept_csrSet (s : State) (r : CsrReg) (w : Word) : s.Kept (s.csrSet r w) := by
  cases r
  case mstatus => exact (s.kept_mstatus _ w).trans (State.kept_modulate ..)
  case sstatus => exact s.kept_mstatus _ w
  case mnstatus => exact s.kept_mnstatus w
  case hstatus =>
    exact (State.kept_of_same rfl rfl rfl rfl rfl rfl rfl rfl rfl rfl rfl :
      s.Kept { s with hc := { s.hc with hstatus := s.legalHstatus w } }).trans (State.kept_modulateVS ..)
  case mtvec => exact ⟨rfl, rfl, id, id, id, fun h => ⟨bit_legalTvec _ _ _ h.1, h.2⟩⟩
  case stvec => exact ⟨rfl, rfl, id, id, id, fun h => ⟨h.1, bit_legalTvec _ _ _ h.2.1, h.2.2⟩⟩
  case vstvec => exact ⟨rfl, rfl, id, id, id, fun h => ⟨h.1, h.2.1, bit_legalTvec _ _ _ h.2.2⟩⟩
  case mepc => exact ⟨rfl, rfl, id, id, fun h => ⟨align4_zx_align4 .., h.2⟩, id⟩
  case sepc => exact ⟨rfl, rfl, id, id, fun h => ⟨h.1, align4_zx_align4 .., h.2.2⟩, id⟩
  case vsepc => exact ⟨rfl, rfl, id, id, fun h => ⟨h.1, h.2.1, align4_zx_align4 .., h.2.2.2⟩, id⟩
  case mnepc => exact ⟨rfl, rfl, id, id, fun h => ⟨h.1, h.2.1, h.2.2.1, align4_zx_align4 ..⟩, id⟩
  case pmpcfg => exact s.kept_keepPmp.trans (State.kept_writePmpcfg ..)
  case pmpaddr => exact s.kept_keepPmp.trans (State.kept_writePmpaddr ..)
  case mseccfg => exact State.kept_writeMseccfg ..
  case mhpmevent => exact State.kept_writeHpmevent ..
  case mhpmcounter => exact State.kept_writeHpmcounter ..
  all_goals exact State.kept_of_same rfl rfl rfl rfl rfl rfl rfl rfl rfl rfl rfl

/-! ### `misa` -/

theorem State.kept_openRegs (s : State) (rs : List CsrReg) (k : Nat) : s.Kept (s.openRegs rs k) := by
  induction rs generalizing s k with
  | nil => exact .refl s
  | cons r rs ih => exact (s.kept_csrSet r _).trans (ih _ _)

theorem State.kept_cnt (s : State) (c : Counters) : s.Kept { s with cnt := c } :=
  State.kept_of_same rfl rfl rfl rfl rfl rfl rfl rfl rfl rfl rfl

theorem State.kept_openFilters (s : State) (mask : Word) : s.Kept (s.openFilters mask) := s.kept_cnt _

theorem State.kept_fitWidths (s : State) : s.Kept s.fitWidths := by
  unfold State.fitWidths
  split
  · exact s.kept_narrowS.trans (State.kept_narrowVS _)
  · exact s.kept_widenS.trans (State.kept_widenVS _)

/-- Bits 12:11 are outside a mask. -/
theorem spares_mpp {m : Word} (h1 : bit m 11 = false) (h2 : bit m 12 = false) (j : Nat) (h : 11 ≤ j) (h' : j < 11 + 2) :
    bit m j = false := by
  have : j = 11 ∨ j = 12 := by omega
  rcases this with rfl | rfl
  · exact h1
  · exact h2

theorem State.kept_openHypervisor (s : State) : s.Kept s.openHypervisor := by
  have k := (s.kept_fitWidths.trans (State.kept_openRegs _ hypervisorRegs 0)).trans
    (State.kept_openFilters _ 0xC00000000000000)
  unfold State.openHypervisor
  revert k
  generalize State.openFilters _ _ = t
  refine fun k => k.trans ?_
  refine ⟨rfl, rfl, fun h => ?_, fun h => ?_, id, id⟩
  · unfold State.MppOk State.mstatusMPP
    dsimp only
    rw [field_merge_other _ _ _ _ _ (spares_mpp (by decide) (by decide))]
    exact h
  · unfold State.MnppOk State.mnstatusMNPP
    dsimp only
    rw [field_merge_other _ _ _ _ _ (spares_mpp (by decide) (by decide))]
    exact h

theorem State.kept_openStatus (s : State) {mask : Word} (h1 : bit mask 11 = false) (h2 : bit mask 12 = false) :
    s.Kept (s.openStatus mask) := by
  unfold State.openStatus
  dsimp only
  generalize (match s.cfg.mxlen with | .rv32 => (0 : Word) | .rv64 => _) ||| _ ||| _ = fixed
  refine State.Kept.trans (s.kept_of_mpp (w := merge s.mc.mstatus fixed (mask &&& (s.mstatusMask ||| s.xlMask))) ?_)
    (State.kept_mstatus _ _ _)
  exact field_merge_other _ _ _ _ _ (spares_mpp (by rw [bit_and, h1, Bool.false_and]) (by rw [bit_and, h2, Bool.false_and]))

theorem State.kept_openSupervisor (s : State) : s.Kept s.openSupervisor := by
  have k := (((s.kept_openStatus (mask := supervisorStatus) (by decide) (by decide)).trans (State.kept_fitWidths _)).trans
    (State.kept_openRegs _ supervisorRegs 0x100)).trans (State.kept_openFilters _ 0x2000000000000000)
  unfold State.openSupervisor
  revert k
  generalize State.openFilters _ _ = t
  refine fun k => k.trans ?_
  refine (t.kept_of_mpp (w := merge t.mc.mstatus (Config.freeWord s.draws 0x305) (bitAt 18 t.hasPaging)) ?_).trans
    (State.kept_of_same rfl rfl rfl rfl rfl rfl rfl rfl rfl rfl rfl)
  refine field_merge_other _ _ _ _ _ (spares_mpp ?_ ?_) <;> cases t.hasPaging <;> decide

theorem State.kept_openUser (s : State) : s.Kept s.openUser := by
  have k := ((s.kept_openStatus (mask := userStatus) (by decide) (by decide)).trans
    (State.kept_openRegs _ [.mcounteren] 0x120)).trans (State.kept_openFilters _ 0x1000000000000000)
  unfold State.openUser
  revert k
  generalize State.openFilters _ _ = t
  refine fun k => k.trans ?_
  exact State.kept_of_same rfl rfl rfl rfl rfl rfl rfl rfl rfl rfl rfl

theorem State.kept_satp (s : State) (w : Word) : s.Kept { s with sc := { s.sc with satp := w } } :=
  State.kept_of_same rfl rfl rfl rfl rfl rfl rfl rfl rfl rfl rfl

theorem State.kept_closeModes (s : State) : s.Kept s.closeModes := by
  unfold State.closeModes
  refine State.Kept.trans (s.kept_of_mpp (w := s.mc.mstatus &&& (s.mstatusMask ||| s.xlMask)) ?_)
    (State.Kept.trans (State.kept_satp _ (if s.hasS then s.sc.satp else 0)) (State.kept_mstatus _ _ _))
  refine field_congr fun j h1 h2 => ?_
  have : j = 11 ∨ j = 12 := by omega
  have hb : bit (s.mstatusMask ||| s.xlMask) j = true := by
    rw [bit_or, State.mstatusMask]
    simp only [bit_or]
    rcases this with rfl | rfl <;> simp [bit]
  rw [bit_and, hb, Bool.and_true]

/-- MPP and MNPP are legal whatever they were. -/
theorem State.openPrior_ok (s : State) : s.openPrior.MppOk ∧ s.openPrior.MnppOk := by
  have legal : ∀ w, s.legalPP 3 w ≠ 2#2 ∧ s.supports (Priv.ofCode (s.legalPP 3 w)) = true :=
    fun w => State.legalPP_ok ⟨by decide, rfl⟩
  constructor
  · change field s.openPrior.mc.mstatus 11 2 ≠ 2#2 ∧ s.supports (Priv.ofCode (field s.openPrior.mc.mstatus 11 2)) = true
    simp only [State.openPrior, field_setField_same _ _ _ (show 11 + 2 ≤ 64 by omega)]
    exact legal _
  · change field s.openPrior.mc.mnstatus 11 2 ≠ 2#2 ∧ s.supports (Priv.ofCode (field s.openPrior.mc.mnstatus 11 2)) = true
    simp only [State.openPrior, field_setField_same _ _ _ (show 11 + 2 ≤ 64 by omega)]
    exact legal _

/-- What a write to `misa` keeps: everything but `misa` itself. -/
theorem State.writeMisa_kept (s : State) (w : Word) :
    s.OnlyCsrs (s.writeMisa w) ∧ (s.MppOk → (s.writeMisa w).MppOk) ∧ (s.MnppOk → (s.writeMisa w).MnppOk)
      ∧ (s.EpcsOk → (s.writeMisa w).EpcsOk) ∧ (s.TvecsOk → (s.writeMisa w).TvecsOk) := by
  have ite : ∀ {a b c : State} {p : Bool}, a.Kept b → b.Kept c → a.Kept (if p then c else b) := by
    intro a b c p h h'
    cases p
    · exact h
    · exact h.trans h'
  unfold State.writeMisa
  split
  · dsimp only
    generalize ht : ({ s with mc := { s.mc with misa := s.newMisa w } } : State) = t
    have h0 : s.OnlyCsrs t := by subst ht; rfl
    generalize hg : ((s.hasS && !t.hasS) || (s.hasU && !t.hasU)) = gone
    generalize h1 : (if gone then t.closeModes else t) = t1
    have k1 : t.Kept t1 := h1 ▸ ite (.refl t) t.kept_closeModes
    generalize h2 : (if t1.hasS && !s.hasS then t1.openSupervisor else t1) = t2
    have k2 : t.Kept t2 := h2 ▸ ite k1 t1.kept_openSupervisor
    generalize h3 : (if t2.hasU && !s.hasU then t2.openUser else t2) = t3
    have k3 : t.Kept t3 := h3 ▸ ite k2 t2.kept_openUser
    generalize h4 : (if t3.hasH && !s.hasH then t3.openHypervisor else t3) = t4
    have k4 : t.Kept t4 := h4 ▸ ite k3 t3.kept_openHypervisor
    have epcs : s.EpcsOk → t4.EpcsOk := fun h => k4.epcs (by subst ht; exact h)
    have tvecs : s.TvecsOk → t4.TvecsOk := fun h => k4.tvecs (by subst ht; exact h)
    split
    · exact ⟨(h0.trans k4.only).trans rfl, fun _ => t4.openPrior_ok.1, fun _ => t4.openPrior_ok.2, epcs, tvecs⟩
    · next hn =>
      obtain ⟨hu, hs, -, -⟩ := State.modes_congr (s := t) (t := t4) (by rw [k4.only]) k4.misa
      rw [hu, hs] at hn
      have hS : t.hasS = s.hasS := by revert hg hn; cases t.hasS <;> cases s.hasS <;> simp <;> simp_all
      have hU : t.hasU = s.hasU := by revert hg hn; cases t.hasU <;> cases s.hasU <;> simp <;> simp_all
      have sup : t.supports = s.supports := by
        funext p
        cases p <;> simp only [State.supports, hU, hS]
      refine ⟨h0.trans k4.only, fun h => k4.mpp ?_, fun h => k4.mnpp ?_, epcs, tvecs⟩
      · rw [State.MppOk, sup]; subst ht; exact h
      · rw [State.MnppOk, sup]; subst ht; exact h
  · exact ⟨rfl, id, id, id, id⟩

/-- A CSR write changes only CSRs and counters. -/
theorem State.onlyCsrs_csrWrite (s : State) (c : CsrRef) (v : Word) : s.OnlyCsrs (s.csrWrite c v) := by
  unfold State.csrWrite
  split
  · exact (State.kept_writeWindow ..).only
  · dsimp only
    split
    · exact (State.writeMisa_kept ..).1
    · exact (State.kept_csrSet ..).only

/-- What any CSR write but one of `misa` keeps. -/
theorem State.kept_csrWrite (s : State) {c : CsrRef} (v : Word) (h : c.reg ≠ .misa) : s.Kept (s.csrWrite c v) := by
  unfold State.csrWrite
  split
  · exact State.kept_writeWindow ..
  · dsimp only
    split
    · next hr =>
      exfalso
      apply h
      unfold csrTarget at hr
      split at hr
      · split at hr <;> simp_all
      · exact hr
    · exact State.kept_csrSet ..

/-! ### Numbers -/

/-- What a number names comes from one of the tables. -/
theorem csrOf_cases {n : BitVec 12} {c : CsrRef} (h : csrOf n = some c) :
    (∃ r, c = ⟨r, false⟩ ∧ (n.toNat, r) ∈ csrNumbers) ∨ (∃ r, c = ⟨r, true⟩ ∧ (n.toNat, r) ∈ csrHighNumbers)
      ∨ csrRow n.toNat = some c := by
  have mem : ∀ (l : List (Nat × CsrReg)) (k : Nat) (r : CsrReg), l.lookup k = some r → (k, r) ∈ l := by
    intro l k r
    induction l with
    | nil => intro h; cases h
    | cons e l ih =>
      obtain ⟨k', r'⟩ := e
      intro h
      simp only [List.lookup] at h
      split at h
      · next hk => cases h; simp [beq_iff_eq.mp hk]
      · exact List.mem_cons_of_mem _ (ih h)
  unfold csrOf at h
  split at h
  · next hl => cases h; exact .inl ⟨_, rfl, mem _ _ _ hl⟩
  · split at h
    · next hl => cases h; exact .inr (.inl ⟨_, rfl, mem _ _ _ hl⟩)
    · exact .inr (.inr h)

/-- The registers of machine level, by name: their numbers have level 3. -/
def machineReg : CsrReg → Bool
  | .mvendorid | .marchid | .mimpid | .mhartid | .mconfigptr => true
  | .mstatus | .misa | .medeleg | .mideleg | .mie | .mtvec | .mcounteren | .menvcfg | .mstateen _ => true
  | .mcountinhibit | .mcyclecfg | .minstretcfg | .mhpmevent _ => true
  | .mscratch | .mepc | .mcause | .mtval | .mip | .mtinst | .mtval2 => true
  | .miselect | .mireg _ | .pmpcfg _ | .pmpaddr _ | .mseccfg => true
  | .mnscratch | .mnepc | .mncause | .mnstatus | .mcycle | .minstret | .mhpmcounter _ => true
  | _ => false

theorem csrLevel_toNat (n : BitVec 12) : (csrLevel n).toNat = n.toNat / 256 % 4 := by
  simp [csrLevel, BitVec.extractLsb'_toNat, Nat.shiftRight_eq_div_pow]

theorem csrRow_level {k : Nat} {c : CsrRef} (h : csrRow k = some c) : machineReg c.reg = true ↔ k / 256 % 4 = 3 := by
  have ite : ∀ {p : Prop} [Decidable p] {a b : Option CsrRef}, (if p then a else b) = some c →
      (p ∧ a = some c) ∨ b = some c := by
    intro p _ a b h
    by_cases hp : p
    · rw [if_pos hp] at h; exact .inl ⟨hp, h⟩
    · rw [if_neg hp] at h; exact .inr h
  unfold csrRow at h
  rcases ite h with ⟨hp, h⟩ | h
  · cases h; simp only [machineReg, true_iff]; omega
  rcases ite h with ⟨hp, h⟩ | h
  · cases h; simp only [machineReg, true_iff]; omega
  rcases ite h with ⟨hp, h⟩ | h
  · cases h; simp only [machineReg, Bool.false_eq_true, false_iff]; omega
  rcases ite h with ⟨hp, h⟩ | h
  · cases h; simp only [machineReg, Bool.false_eq_true, false_iff]; omega
  rcases ite h with ⟨hp, h⟩ | h
  · cases h; simp only [machineReg, Bool.false_eq_true, false_iff]; omega
  rcases ite h with ⟨hp, h⟩ | h
  · cases h; simp only [machineReg, true_iff]; omega
  rcases ite h with ⟨hp, h⟩ | h
  · cases h; simp only [machineReg, true_iff]; omega
  rcases ite h with ⟨hp, h⟩ | h
  · cases h; simp only [machineReg, true_iff]; omega
  rcases ite h with ⟨hp, h⟩ | h
  · cases h; simp only [machineReg, true_iff]; omega
  rcases ite h with ⟨hp, h⟩ | h
  · cases h; simp only [machineReg, Bool.false_eq_true, false_iff]; omega
  rcases ite h with ⟨hp, h⟩ | h
  · cases h; simp only [machineReg, Bool.false_eq_true, false_iff]; omega
  rcases ite h with ⟨hp, h⟩ | h
  · cases h; simp only [machineReg, true_iff]; omega
  rcases ite h with ⟨hp, h⟩ | h
  · cases h; simp only [machineReg, true_iff]; omega
  rcases ite h with ⟨hp, h⟩ | h
  · obtain ⟨j, _, rfl⟩ := Option.map_eq_some_iff.mp h
    simp only [machineReg, true_iff]; omega
  rcases ite h with ⟨hp, h⟩ | h
  · obtain ⟨j, _, rfl⟩ := Option.map_eq_some_iff.mp h
    simp only [machineReg, Bool.false_eq_true, false_iff]; omega
  rcases ite h with ⟨hp, h⟩ | h
  · obtain ⟨j, _, rfl⟩ := Option.map_eq_some_iff.mp h
    simp only [machineReg, Bool.false_eq_true, false_iff]; omega
  · cases h

/-- The number of a machine-level register has level 3, and no other number has (R28). -/
theorem csrLevel_of_machineReg {n : BitVec 12} {c : CsrRef} (h : csrOf n = some c) :
    machineReg c.reg = true ↔ csrLevel n = 3#2 := by
  have key : (machineReg c.reg = true ↔ n.toNat / 256 % 4 = 3) := by
    rcases csrOf_cases h with ⟨r, rfl, hm⟩ | ⟨r, rfl, hm⟩ | hr
    · have all : ∀ e ∈ csrNumbers, (machineReg e.2 = true ↔ e.1 / 256 % 4 = 3) := by decide
      exact all _ hm
    · have all : ∀ e ∈ csrHighNumbers, (machineReg e.2 = true ↔ e.1 / 256 % 4 = 3) := by decide
      exact all _ hm
    · exact csrRow_level hr
  rw [key, ← csrLevel_toNat]
  constructor
  · intro he; exact BitVec.eq_of_toNat_eq (by simpa using he)
  · intro he; rw [he]; rfl

end Sys2Proof.Machine
end

