-- ==== Sys2Proof/Laws/Registers.lean ====
section
/-! SUPPORT. The x registers, and what completing an instruction does: `finish`, `next` and the jumps (R18, R57, R74). -/

namespace Sys2Proof.Machine

/-! ### Registers -/

@[simp] theorem State.x_zero (s : State) : s.x 0#5 = 0 := rfl

@[simp] theorem State.xlen_setX (s : State) (r : Reg) (v : Word) : (s.setX r v).xlen = s.xlen := by
  unfold State.setX; split <;> rfl

@[simp] theorem State.xlen_goto (s : State) (t : Word) : (s.goto t).xlen = s.xlen := rfl

@[simp] theorem State.xlen_retire (s b : State) : (s.retire b).xlen = s.xlen := by
  unfold State.retire; split <;> rfl

@[simp] theorem State.xlen_next (s : State) : s.next.xlen = s.xlen := by unfold State.next; simp

@[simp] theorem State.xlen_finish (s : State) (rd : Reg) (v : Word) : (s.finish rd v).xlen = s.xlen := by
  unfold State.finish; simp

/-- A register is as wide as XLEN: its upper bits are copies of the sign (R57). -/
@[simp] theorem State.sx_x (s : State) (r : Reg) : sx s.xlen (s.x r) = s.x r := by
  unfold State.x
  split
  · cases s.xlen <;> decide
  · simp

theorem State.x_setX_same (s : State) {r : Reg} (v : Word) (h : r ≠ 0#5) : (s.setX r v).x r = sx s.xlen v := by
  have hx : (s.setX r v).xlen = s.xlen := s.xlen_setX r v
  unfold State.x
  rw [if_neg h, hx]
  simp [State.setX, h]

/-- What a register holds after it was written. -/
theorem State.regs_setX_same (s : State) {r : Reg} (v : Word) (h : r ≠ 0#5) : (s.setX r v).regs[r.toNat] = sx s.xlen v := by
  simp [State.setX, h]

/-- A write leaves every bit of every other register, and x0 takes none. -/
theorem State.regs_setX_other (s : State) {r q : Reg} (v : Word) (h : q ≠ r ∨ r = 0#5) :
    (s.setX r v).regs[q.toNat] = s.regs[q.toNat] := by
  unfold State.setX
  split
  · rfl
  · next hr =>
    have : r.toNat ≠ q.toNat := fun he => (h.resolve_right hr) (BitVec.eq_of_toNat_eq he.symm)
    simp [Vector.getElem_set_ne, this]

theorem State.x_setX_other (s : State) {r q : Reg} (v : Word) (h : q ≠ r) : (s.setX r v).x q = s.x q := by
  unfold State.x
  by_cases hq : q = 0#5
  · simp [hq]
  · rw [if_neg hq, if_neg hq, s.xlen_setX]
    unfold State.setX
    split
    · rfl
    · have : r.toNat ≠ q.toNat := fun he => h (BitVec.eq_of_toNat_eq he.symm)
      simp [Vector.getElem_set_ne, this]

@[simp] theorem State.x_goto (s : State) (t : Word) (r : Reg) : (s.goto t).x r = s.x r := rfl

@[simp] theorem State.x_retire (s b : State) (r : Reg) : (s.retire b).x r = s.x r := by
  unfold State.retire; split <;> rfl

@[simp] theorem State.x_next (s : State) (r : Reg) : s.next.x r = s.x r := by unfold State.next; simp

@[simp] theorem State.countsInstret_setX (s : State) (r : Reg) (v : Word) :
    (s.setX r v).countsInstret = s.countsInstret := by
  unfold State.setX; split <;> rfl

@[simp] theorem State.countsInstret_goto (s : State) (t : Word) : (s.goto t).countsInstret = s.countsInstret := rfl

/-! ### Completion -/

/-- `retire` changes `minstret` alone. -/
theorem State.retire_eq (s b : State) :
    s.retire b = { s with cnt := { s.cnt with
      minstret := if b.countsInstret then s.cnt.minstret + 1 else s.cnt.minstret } } := by
  unfold State.retire; split <;> simp

/-- `setX` changes the registers alone. -/
theorem State.setX_eq (s : State) (r : Reg) (v : Word) : s.setX r v = { s with regs := (s.setX r v).regs } := by
  unfold State.setX; split <;> rfl

/-- `next` is the instruction that changes only the pc and `minstret`. -/
theorem State.advances_next (s : State) : s.Advances s.next (s.pc + 4) := by
  unfold State.next
  exact ⟨by simp, by rw [State.retire_eq]; simp [State.goto], by rw [State.retire_eq]; rfl⟩

/-- A branch taken changes only the pc and `minstret`. -/
theorem State.advances_goto (s : State) (t : Word) : s.Advances ((s.goto t).retire s) t :=
  ⟨by simp, by rw [State.retire_eq]; rfl, by rw [State.retire_eq]; rfl⟩

/-- What a jump with a link does. -/
theorem State.writesReg_jump (s : State) (rd : Reg) (v t : Word) :
    s.WritesReg (((s.setX rd v).goto t).retire s) rd v t where
  written h := by simp [s.regs_setX_same v h]
  zero := by simp
  others r h := by simp [s.regs_setX_other v h]
  pc := by simp
  counted := by rw [State.retire_eq]; simp [State.goto]
  rest := by rw [State.retire_eq, State.goto, State.setX_eq]

/-- `finish` is the jump to the next instruction. -/
theorem State.finish_eq (s : State) (rd : Reg) (v : Word) :
    s.finish rd v = ((s.setX rd v).goto (s.pc + 4)).retire s := by
  unfold State.finish State.next State.retire
  simp

/-- What `finish` does. -/
theorem State.writesReg_finish (s : State) (rd : Reg) (v : Word) : s.WritesReg (s.finish rd v) rd v (s.pc + 4) := by
  rw [State.finish_eq]; exact s.writesReg_jump rd v (s.pc + 4)

/-- An instruction that completes by `finish` yields the value. -/
theorem State.yields_of_finish {s : State} {i : Instr} {rd : Reg} {v : Word} {P : Word → Prop}
    (h : exec i s = .next (s.finish rd v)) (hp : P v) : s.Yields i rd P :=
  ⟨_, v, h, s.writesReg_finish rd v, hp⟩

end Sys2Proof.Machine
end

