-- ==== Sys2Proof/Laws/Memory.lean ====
section
/-! SUPPORT. The bytes of memory: a read after a write, and the canonical form that every operation keeps (R168). -/

namespace Sys2Proof.Machine

/-! ### One byte -/

theorem Memory.read_of_lt_wfFrom {lo a : Nat} {m : Memory} (h : Memory.wfFrom lo m = true) (ha : a < lo) :
    m.read a = Memory.unlisted := by
  induction m generalizing lo with
  | nil => rfl
  | cons e rest ih =>
    obtain ⟨k, b⟩ := e
    simp only [Memory.wfFrom, Bool.and_eq_true, decide_eq_true_eq] at h
    simp only [Memory.read]
    rw [if_neg (by omega)]
    exact ih h.2 (by omega)

/-- A read at the address just written. -/
theorem Memory.read_write_same {lo : Nat} {m : Memory} (h : Memory.wfFrom lo m = true) (a : Nat) (v : Byte) :
    (m.write a v).read a = v := by
  induction m generalizing lo with
  | nil =>
    simp only [Memory.write]
    split
    · next hv => simp [Memory.read, hv]
    · simp [Memory.read]
  | cons e rest ih =>
    obtain ⟨k, b⟩ := e
    simp only [Memory.wfFrom, Bool.and_eq_true, decide_eq_true_eq] at h
    simp only [Memory.write]
    split
    · next hk =>
      subst hk
      split
      · next hv => rw [hv]; exact Memory.read_of_lt_wfFrom h.2 (by omega)
      · simp [Memory.read]
    · next hk =>
      split
      · next hlt =>
        split
        · next hv =>
          simp only [Memory.read, if_neg hk]
          rw [hv]; exact Memory.read_of_lt_wfFrom h.2 (by omega)
        · simp [Memory.read]
      · simp only [Memory.read, if_neg hk]; exact ih h.2

/-- A read at another address than the one written. -/
theorem Memory.read_write_other (m : Memory) {a k : Nat} (v : Byte) (hk : k ≠ a) : (m.write a v).read k = m.read k := by
  induction m with
  | nil =>
    simp only [Memory.write]
    split
    · rfl
    · simp [Memory.read, Ne.symm hk]
  | cons e rest ih =>
    obtain ⟨j, b⟩ := e
    simp only [Memory.write]
    split
    · next hj =>
      subst hj
      split <;> simp [Memory.read, Ne.symm hk]
    · split
      · split <;> simp [Memory.read, Ne.symm hk]
      · simp only [Memory.read, ih]

/-! ### The canonical form -/

theorem Memory.wfFrom_mono {lo lo' : Nat} {m : Memory} (h : Memory.wfFrom lo m = true) (hl : lo' ≤ lo) :
    Memory.wfFrom lo' m = true := by
  cases m with
  | nil => rfl
  | cons e rest =>
    obtain ⟨k, b⟩ := e
    simp only [Memory.wfFrom, Bool.and_eq_true, decide_eq_true_eq] at *
    exact ⟨⟨by omega, h.1.2⟩, h.2⟩

theorem Memory.wfFrom_write {lo : Nat} {m : Memory} (h : Memory.wfFrom lo m = true) {a : Nat} (ha : lo ≤ a) (v : Byte) :
    Memory.wfFrom lo (m.write a v) = true := by
  induction m generalizing lo with
  | nil =>
    simp only [Memory.write]
    split
    · rfl
    · next hv => simp [Memory.wfFrom, ha, hv]
  | cons e rest ih =>
    obtain ⟨k, b⟩ := e
    have h' := h
    simp only [Memory.wfFrom, Bool.and_eq_true, decide_eq_true_eq] at h
    simp only [Memory.write]
    split
    · next hk =>
      subst hk
      split
      · exact Memory.wfFrom_mono h.2 (by omega)
      · next hv => simp [Memory.wfFrom, ha, hv, h.2]
    · next hk =>
      split
      · next hlt =>
        split
        · exact h'
        · next hv => simp [Memory.wfFrom, ha, hv, h.1.2, h.2]; omega
      · simp only [Memory.wfFrom, Bool.and_eq_true, decide_eq_true_eq]
        exact ⟨h.1, ih h.2 (by omega)⟩

/-- A write of one byte keeps the canonical form. -/
theorem Memory.wf_write {m : Memory} (h : m.wf = true) (a : Nat) (v : Byte) : (m.write a v).wf = true :=
  Memory.wfFrom_write h (Nat.zero_le a) v

/-- A write of several bytes keeps the canonical form. -/
theorem Memory.wf_writeBytes {m : Memory} (h : m.wf = true) (a : Nat) (bs : List Byte) :
    (m.writeBytes a bs).wf = true := by
  induction bs generalizing m a with
  | nil => exact h
  | cons b bs ih => exact ih (Memory.wf_write h a b) (a + 1)

/-- Memory after reset is in canonical form. -/
theorem Memory.wf_reset : State.reset.mem.wf = true := rfl

/-! ### Several bytes -/

@[simp] theorem Memory.length_readBytes (m : Memory) (a n : Nat) : (m.readBytes a n).length = n := by
  induction n generalizing a with
  | zero => rfl
  | succ n ih => simp [Memory.readBytes, ih]

/-- Bytes outside a store are as they were. -/
theorem Memory.read_writeBytes_outside (m : Memory) (a : Nat) (bs : List Byte) {k : Nat}
    (hk : k < a ∨ a + bs.length ≤ k) : (m.writeBytes a bs).read k = m.read k := by
  induction bs generalizing m a with
  | nil => rfl
  | cons b bs ih =>
    simp only [List.length_cons] at hk
    rw [Memory.writeBytes, ih (m.write a b) (a + 1) (by omega), Memory.read_write_other m b (by omega)]

/-- A load of the bytes just stored. -/
theorem Memory.readBytes_writeBytes {m : Memory} (h : m.wf = true) (a : Nat) (bs : List Byte) :
    (m.writeBytes a bs).readBytes a bs.length = bs := by
  induction bs generalizing m a with
  | nil => rfl
  | cons b bs ih =>
    simp only [List.length_cons, Memory.readBytes, Memory.writeBytes]
    rw [Memory.read_writeBytes_outside _ _ _ (Or.inl (Nat.lt_succ_self a)), Memory.read_write_same h,
      ih (Memory.wf_write h a b)]

/-- A load that no store overlaps. -/
theorem Memory.readBytes_congr {m m' : Memory} {a n : Nat} (h : ∀ k, a ≤ k → k < a + n → m'.read k = m.read k) :
    m'.readBytes a n = m.readBytes a n := by
  induction n generalizing a with
  | zero => rfl
  | succ n ih =>
    simp only [Memory.readBytes]
    rw [h a (Nat.le_refl a) (by omega), ih fun k h1 h2 => h k (by omega) (by omega)]

/-- Equal bytes are equal memories, in canonical form. -/
theorem Memory.ext_of_wfFrom {lo : Nat} {m m' : Memory} (h : Memory.wfFrom lo m = true) (h' : Memory.wfFrom lo m' = true)
    (hr : ∀ a, m.read a = m'.read a) : m = m' := by
  induction m generalizing lo m' with
  | nil =>
    cases m' with
    | nil => rfl
    | cons e rest =>
      obtain ⟨k, b⟩ := e
      simp only [Memory.wfFrom, Bool.and_eq_true, bne_iff_ne] at h'
      have := hr k
      simp only [Memory.read, if_true] at this
      exact absurd this.symm h'.1.2
  | cons e rest ih =>
    obtain ⟨k, b⟩ := e
    have hw := h
    simp only [Memory.wfFrom, Bool.and_eq_true, bne_iff_ne, decide_eq_true_eq] at h
    cases m' with
    | nil =>
      have := hr k
      simp only [Memory.read, if_true] at this
      exact absurd this h.1.2
    | cons e' rest' =>
      obtain ⟨k', b'⟩ := e'
      have hw' := h'
      simp only [Memory.wfFrom, Bool.and_eq_true, bne_iff_ne, decide_eq_true_eq] at h'
      have hk : k = k' := by
        rcases Nat.lt_trichotomy k k' with hlt | heq | hgt
        · have := hr k
          simp only [Memory.read, if_true, if_neg (show ¬k' = k by omega)] at this
          rw [Memory.read_of_lt_wfFrom h'.2 (by omega)] at this
          exact absurd this h.1.2
        · exact heq
        · have := hr k'
          simp only [Memory.read, if_true, if_neg (show ¬k = k' by omega)] at this
          rw [Memory.read_of_lt_wfFrom h.2 (by omega)] at this
          exact absurd this.symm h'.1.2
      subst hk
      have hb : b = b' := by simpa [Memory.read] using hr k
      subst hb
      have : rest = rest' := by
        refine ih h.2 h'.2 fun a => ?_
        have := hr a
        simp only [Memory.read] at this
        by_cases ha : k = a
        · subst ha
          rw [Memory.read_of_lt_wfFrom h.2 (by omega), Memory.read_of_lt_wfFrom h'.2 (by omega)]
        · simpa [ha] using this
      rw [this]

/-! ### Byte order (R173) -/

@[simp] theorem length_lowBytes (v : Word) (n : Nat) : (lowBytes v n).length = n := by
  induction n generalizing v with
  | zero => rfl
  | succ n ih => simp [lowBytes, ih]

@[simp] theorem length_bytesOfValue (big : Bool) (n : Nat) (v : Word) : (bytesOfValue big n v).length = n := by
  cases big <;> simp [bytesOfValue]

theorem natOfBytes_lowBytes (v : Word) (n : Nat) : natOfBytes (lowBytes v n) = v.toNat % 256 ^ n := by
  induction n generalizing v with
  | zero => simp [lowBytes, natOfBytes, Nat.mod_one]
  | succ n ih =>
    simp only [lowBytes, natOfBytes, ih, BitVec.toNat_setWidth, BitVec.toNat_ushiftRight, Nat.shiftRight_eq_div_pow]
    have h : v.toNat % 256 ^ (n + 1) = v.toNat % 256 + 256 * (v.toNat / 256 % 256 ^ n) := by
      rw [Nat.pow_succ' (m := 256), Nat.mod_mul]
    rw [h]

/-- The value of the bytes of a value is its low bytes, in either byte order. -/
theorem valueOfBytes_bytesOfValue (big : Bool) (n : Nat) (v : Word) :
    valueOfBytes big (bytesOfValue big n v) = BitVec.ofNat 64 (v.toNat % 256 ^ n) := by
  cases big <;> simp [valueOfBytes, bytesOfValue, natOfBytes_lowBytes]

end Sys2Proof.Machine
end

