-- ==== Sys2Proof/Laws/Walk.lean ====
section
/-! SUPPORT. What translation and an access may change: memory and the memory-mapped registers, in canonical form; nothing at
all where A and D are not updated by hardware (R206, R209). -/

namespace Sys2Proof.Machine

/-! ### States that differ in memory -/

/-- t is s with other contents of memory, in canonical form if those of s are. -/
structure State.Walked (s t : State) : Prop where
  only : s.OnlyMemory t
  wf : s.mem.wf = true → t.mem.wf = true

theorem State.OnlyMemory.refl (s : State) : s.OnlyMemory s := rfl

/-- The other state written out. -/
theorem State.OnlyMemory.eq {s t : State} (h : s.OnlyMemory t) :
    ∃ m a b c, t = { s with mem := m, mtime := a, mtimecmp := b, msip := c } := ⟨_, _, _, _, h⟩

theorem State.OnlyMemory.trans {s t u : State} (h : s.OnlyMemory t) (h' : t.OnlyMemory u) : s.OnlyMemory u := by
  obtain ⟨m, a, b, c, rfl⟩ := h.eq
  obtain ⟨m', a', b', c', rfl⟩ := h'.eq
  rfl

theorem State.Walked.refl (s : State) : s.Walked s := ⟨.refl s, id⟩

theorem State.Walked.trans {s t u : State} (h : s.Walked t) (h' : t.Walked u) : s.Walked u :=
  ⟨h.only.trans h'.only, fun hw => h'.wf (h.wf hw)⟩

/-! ### Bytes of the physical address space -/

/-- Where the memory-mapped registers are depends on the platform alone. -/
theorem State.deviceAt_congr {s t : State} (h : t.cfg = s.cfg) (a : Nat) : t.deviceAt a = s.deviceAt a := by
  simp [State.deviceAt, State.regionAt, h]

/-- A byte stored at a physical address. -/
theorem State.walked_setPhysByte (s : State) (a : Nat) (b : Byte) : s.Walked (s.setPhysByte a b) := by
  unfold State.setPhysByte
  split
  · next d k _ => cases d <;> exact ⟨rfl, id⟩
  · exact ⟨rfl, fun h => Memory.wf_write h a b⟩

/-- Bytes stored at a physical address. -/
theorem State.walked_physWrite (s : State) (pa : Nat) (bs : List Byte) : s.Walked (s.physWrite pa bs) := by
  induction bs generalizing s pa with
  | nil => exact .refl s
  | cons b bs ih => exact (s.walked_setPhysByte pa b).trans (ih _ _)

/-- What other harts and devices store. -/
theorem State.walked_writeCells (s : State) (cs : List Host.Cell) : s.Walked (s.writeCells cs) := by
  induction cs generalizing s with
  | nil => exact .refl s
  | cons c cs ih => exact (s.walked_setPhysByte c.1 c.2).trans (ih _)

/-- Memory takes a store that reaches no memory-mapped register. -/
theorem State.physWrite_memory {s : State} {pa : Nat} {bs : List Byte}
    (h : ∀ j, j < bs.length → s.deviceAt (pa + j) = none) :
    s.physWrite pa bs = { s with mem := s.mem.writeBytes pa bs } := by
  induction bs generalizing s pa with
  | nil => rfl
  | cons b bs ih =>
    have hb : s.setPhysByte pa b = { s with mem := s.mem.write pa b } := by
      rw [State.setPhysByte, show s.deviceAt pa = none from h 0 (by simp)]
    rw [State.physWrite, hb, ih]
    · rfl
    · intro j hj
      refine (State.deviceAt_congr (s := s) (by rfl) _).trans ?_
      rw [Nat.add_assoc, Nat.add_comm 1 j]
      exact h (j + 1) (by simpa using hj)

/-- The bytes from an address on, the first of them apart. -/
theorem State.physRead_succ (s : State) (pa n : Nat) :
    s.physRead pa (n + 1) = s.physByte pa :: s.physRead (pa + 1) n := by
  simp [State.physRead, bytesAt, List.range_succ_eq_map, Function.comp_def, Nat.add_right_comm _ 1, Nat.add_assoc]

/-- Memory gives the bytes of a load that reaches no memory-mapped register. -/
theorem State.physRead_memory {s : State} {pa n : Nat} (h : ∀ j, j < n → s.deviceAt (pa + j) = none) :
    s.physRead pa n = s.mem.readBytes pa n := by
  induction n generalizing pa with
  | zero => rfl
  | succ n ih =>
    rw [State.physRead_succ, Memory.readBytes, State.physByte, show s.deviceAt pa = none from h 0 (by omega),
      ih fun j hj => by rw [Nat.add_assoc, Nat.add_comm 1 j]; exact h (j + 1) (by omega)]

/-- A store leaves every byte of memory outside its range. -/
theorem State.read_physWrite_outside (s : State) (pa : Nat) (bs : List Byte) {k : Nat} (hk : k < pa ∨ pa + bs.length ≤ k) :
    (s.physWrite pa bs).mem.read k = s.mem.read k := by
  induction bs generalizing s pa with
  | nil => rfl
  | cons b bs ih =>
    simp only [List.length_cons] at hk
    rw [State.physWrite, ih _ _ (by omega), State.setPhysByte]
    split
    · simp
    · exact Memory.read_write_other _ _ (by omega)

/-! ### Walks -/

/-- A resolver that changes at most memory. -/
def Resolver.Gentle (r : Resolver) : Prop := ∀ s a need pa t, r s a need = .ok (pa, t) → s.Walked t

/-- A resolver that changes nothing in the states of a class. -/
def Resolver.Pure (r : Resolver) (C : State → Prop) : Prop :=
  ∀ s a need pa t, C s → r s a need = .ok (pa, t) → t = s

theorem physicalTables_gentle : Resolver.Gentle physicalTables := by
  rintro s a need pa t h
  cases h
  exact .refl s

theorem physicalTables_pure (C : State → Prop) : Resolver.Pure physicalTables C := by
  rintro s a need pa t _ h
  cases h
  rfl

/-- Reading a PTE leaves the state its resolver leaves. -/
theorem Walk.readPte_ok {w : Walk} {resolve : Resolver} {s t : State} {a : Nat} {p : Word}
    (h : w.readPte resolve s a = .ok (p, t)) : ∃ pa, resolve s a .load = .ok (pa, t) := by
  unfold Walk.readPte at h
  split at h
  · cases h
  · next pa u hr =>
    split at h
    · cases h
    · split at h
      · cases h
      · cases h; exact ⟨pa, hr⟩

theorem Walk.readPte_walked {w : Walk} {resolve : Resolver} (hr : resolve.Gentle) {s t : State} {a : Nat} {p : Word}
    (h : w.readPte resolve s a = .ok (p, t)) : s.Walked t := by
  obtain ⟨pa, h⟩ := Walk.readPte_ok h
  exact hr _ _ _ _ _ h

theorem Walk.writePte_walked {w : Walk} {resolve : Resolver} (hr : resolve.Gentle) {s t : State} {a : Nat} {p : Word}
    (h : w.writePte resolve s a p = .ok t) : s.Walked t := by
  unfold Walk.writePte at h
  split at h
  · cases h
  · next pa u hres =>
    split at h
    · cases h
    · cases h
      exact (hr _ _ _ _ _ hres).trans (State.walked_physWrite ..)

theorem Walk.finishLeaf_walked {w : Walk} {resolve : Resolver} (hr : resolve.Gentle) {s t : State} {a level va : Nat}
    {p : Word} {x : Target} (h : w.finishLeaf resolve s a level va p = .ok (x, t)) : s.Walked t := by
  unfold Walk.finishLeaf at h
  split at h
  · cases h
  · next hw => cases h; exact Walk.writePte_walked hr hw

/-- A walk changes at most memory. -/
theorem Walk.go_walked {w : Walk} {resolve : Resolver} (hr : resolve.Gentle) {va n table : Nat} {s t : State}
    {x : Target} (h : w.go resolve va n table s = .ok (x, t)) : s.Walked t := by
  induction n generalizing table s with
  | zero => cases h
  | succ level ih =>
    have mem : ∀ {s : State}, (match w.readPte resolve s (table + vpnAt w.scheme level va * w.scheme.pteBytes) with
        | .error e => (.error e : Except Abort (Target × State))
        | .ok (p, s) =>
          match w.inspect level p with
          | .fault => .error .page
          | .pointer next => w.go resolve va level next s
          | .leaf => .ok (w.target level p va, s)
          | .update => w.finishLeaf resolve s (table + vpnAt w.scheme level va * w.scheme.pteBytes) level va p)
          = .ok (x, t) → s.Walked t := by
      intro s h
      split at h
      · cases h
      · next p u hp =>
        have hu := Walk.readPte_walked hr hp
        split at h
        · cases h
        · exact hu.trans (ih h)
        · cases h; exact hu
        · exact hu.trans (Walk.finishLeaf_walked hr h)
    rw [Walk.go] at h
    split at h
    · exact mem h
    · split at h
      · cases h
      · exact ih h
      · cases h; exact .refl _
      · exact mem h

/-- Without hardware updates no PTE asks for one. -/
theorem Walk.inspect_ne_update {w : Walk} (hw : w.hwAd = false) (level : Nat) (p : Word) :
    w.inspect level p ≠ .update := by
  unfold Walk.inspect
  simp only [hw]
  split
  · simp
  split
  · simp
  split
  · simp
  split
  · simp
  split <;> simp

/-- A walk without hardware updates changes nothing. -/
theorem Walk.go_pure {w : Walk} (hw : w.hwAd = false) {resolve : Resolver} {C : State → Prop} (hr : resolve.Pure C)
    {va n table : Nat} {s t : State} {x : Target} (hs : C s) (h : w.go resolve va n table s = .ok (x, t)) : t = s := by
  induction n generalizing table with
  | zero => cases h
  | succ level ih =>
    have mem : (match w.readPte resolve s (table + vpnAt w.scheme level va * w.scheme.pteBytes) with
        | .error e => (.error e : Except Abort (Target × State))
        | .ok (p, s) =>
          match w.inspect level p with
          | .fault => .error .page
          | .pointer next => w.go resolve va level next s
          | .leaf => .ok (w.target level p va, s)
          | .update => w.finishLeaf resolve s (table + vpnAt w.scheme level va * w.scheme.pteBytes) level va p)
          = .ok (x, t) → t = s := by
      clear h
      intro hm
      split at hm
      · cases hm
      · next p u hp =>
        obtain ⟨pa, hres⟩ := Walk.readPte_ok hp
        have hu : u = s := hr _ _ _ _ _ hs hres
        subst hu
        split at hm
        · cases hm
        · exact ih hm
        · cases hm; rfl
        · next hup => exact absurd hup (Walk.inspect_ne_update hw level p)
    rw [Walk.go] at h
    split at h
    · exact mem h
    · split at h
      · cases h
      · exact ih h
      · cases h; rfl
      · exact mem h

/-! ### Translation -/

theorem State.translateGBy_walked {s t : State} {walk : Scheme → Walk} {gpa : Nat} {imp : Option Bool} {x : Target}
    (h : s.translateGBy walk gpa imp = .ok (x, t)) : s.Walked t := by
  unfold State.translateGBy at h
  split at h
  · cases h; exact .refl s
  · split at h
    · split at h
      · next hr => cases h; exact Walk.go_walked physicalTables_gentle hr
      · cases h
    · cases h

theorem State.translateG_walked {s t : State} {gpa : Nat} {need : Need} {imp : Option Bool} {x : Target}
    (h : s.translateG gpa need imp = .ok (x, t)) : s.Walked t := State.translateGBy_walked h

theorem guestTables_gentle : Resolver.Gentle guestTables := fun _ _ _ _ _ h => State.translateG_walked h

theorem State.translateS_walked {s t : State} {va : Word} {need : Need} {p : Priv} {x : Target}
    (h : s.translateS va need p = .ok (x, t)) : s.Walked t := by
  unfold State.translateS at h
  split at h
  · split at h
    · cases h; exact .refl s
    · cases h
  · split at h
    · exact Walk.go_walked physicalTables_gentle h
    · cases h

theorem State.translateVS_walked {s t : State} {va : Word} {need : Need} {p : Priv} {x : Target}
    (h : s.translateVS va need p = .ok (x, t)) : s.Walked t := by
  unfold State.translateVS at h
  split at h
  · split at h
    · cases h; exact .refl s
    · cases h
  · split at h
    · exact Walk.go_walked guestTables_gentle h
    · cases h

/-- Translation changes at most memory. -/
theorem State.translate_walked {s t : State} {va : Word} {need : Need} {p : Priv} {v : Bool} {x : Target}
    (h : s.translate va need p v = .ok (x, t)) : s.Walked t := by
  unfold State.translate at h
  split at h
  · cases h; exact .refl s
  split at h
  · unfold State.translateTwoStage at h
    split at h
    · cases h
    · next h1 =>
      split at h
      · cases h
      · next h2 => cases h; exact (State.translateVS_walked h1).trans (State.translateG_walked h2)
  · exact State.translateS_walked h

theorem State.wellKeptTables_iff (s : State) :
    s.wellKeptTables = true ↔ s.adUpdates s.menvcfgADUE = false ∧ s.adUpdates s.henvcfgADUE = false := by
  simp [State.wellKeptTables]

theorem State.translateG_pure {s t : State} (hk : s.wellKeptTables = true) {gpa : Nat} {need : Need} {imp : Option Bool}
    {x : Target} (h : s.translateG gpa need imp = .ok (x, t)) : t = s := by
  unfold State.translateG State.translateGBy at h
  split at h
  · cases h; rfl
  · next c _ =>
    split at h
    · split at h
      · next hr =>
        cases h
        exact Walk.go_pure (w := s.walkG c need) (s.wellKeptTables_iff.mp hk).1 (physicalTables_pure fun _ => True)
          trivial hr
      · cases h
    · cases h

theorem guestTables_pure : Resolver.Pure guestTables fun s => s.wellKeptTables = true :=
  fun _ _ _ _ _ hk h => State.translateG_pure hk h

/-- Translation changes nothing where A and D are not updated by hardware. -/
theorem State.translate_pure {s t : State} (hk : s.wellKeptTables = true) {va : Word} {need : Need} {p : Priv} {v : Bool}
    {x : Target} (h : s.translate va need p v = .ok (x, t)) : t = s := by
  have hk' := s.wellKeptTables_iff.mp hk
  unfold State.translate at h
  split at h
  · cases h; rfl
  split at h
  · unfold State.translateTwoStage at h
    split at h
    · cases h
    · next u h1 =>
      have hu : u = s := by
        unfold State.translateVS at h1
        split at h1
        · split at h1
          · cases h1; rfl
          · cases h1
        · next c _ =>
          split at h1
          · exact Walk.go_pure (w := s.walkVS c need p) hk'.2 guestTables_pure hk h1
          · cases h1
      subst hu
      split at h
      · cases h
      · next h2 => cases h; exact State.translateG_pure hk h2
  · unfold State.translateS at h
    split at h
    · split at h
      · cases h; rfl
      · cases h
    · next c _ =>
      split at h
      · exact Walk.go_pure (w := s.walkS c need p) hk'.1 (physicalTables_pure fun _ => True) trivial h
      · cases h

/-! ### PMP results that are kept (R199, R356) -/

/-- Without copies, and without a cache, the current registers decide. -/
theorem State.pmpViews_current {s : State} (h : s.pmpCopies = [] ∨ s.cfg.tlb = false) (g : Bool) : s.pmpViews g = [s] := by
  unfold State.pmpViews State.cachesPmp
  rcases h with h | h <;> simp [h]

/-- A check goes by one of the views. -/
theorem State.pmpView_mem (s : State) (use : Use) (pa n : Nat) : s.pmpView use pa n ∈ s.pmpViews use.guest := by
  have hs : s ∈ s.pmpViews use.guest := by simp [State.pmpViews]
  unfold State.pmpView
  split
  · exact hs
  · cases h : (s.pmpViews use.guest)[Config.pmpChoice s.draws use.index pa n]? with
    | none => exact hs
    | some u => exact List.mem_of_getElem? h

/-! ### Accesses -/

/-- What reaching the memory of one part says: the walk and the check succeeded. -/
theorem State.reachPart_ok {s t : State} {a : Access} {va : Word} {n pa : Nat} {others : List Nat} {rs : List Region}
    (h : s.reachPart a va n others = .ok (pa, rs, t)) :
    ∃ x, s.translate va a.need a.p a.v = .ok (x, t) ∧ x.addr = pa
      ∧ t.checkRegions (.explicit a.need (a.shape others)) a.p pa n = .ok rs := by
  unfold State.reachPart at h
  split at h
  · cases h
  · next x u ht =>
    split at h
    · cases h
    · next hc =>
      split at h
      · unfold reachRegions at h
        split at h
        · cases h
        · next hr =>
          split at hr <;> cases hr
          cases h
          exact ⟨x, ht, rfl, hc⟩
      · cases h

theorem State.reachPart_walked {s t : State} {a : Access} {va : Word} {n pa : Nat} {others : List Nat} {rs : List Region}
    (h : s.reachPart a va n others = .ok (pa, rs, t)) : s.Walked t := by
  obtain ⟨x, ht, _⟩ := State.reachPart_ok h
  exact State.translate_walked ht

theorem State.reach_walked {s t : State} {a : Access} {va : Word} {n pa : Nat} {rs : List Region}
    (h : s.reach a va n = .ok (pa, rs, t)) : s.Walked t := State.reachPart_walked h

/-- A store to a reached part leaves a walked state. -/
theorem State.reachPart_write_walked {s t : State} {a : Access} {va : Word} {n pa : Nat} {others : List Nat}
    {rs : List Region} (h : s.reachPart a va n others = .ok (pa, rs, t)) (bs : List Byte) :
    s.Walked (t.physWrite pa bs) :=
  (State.reachPart_walked h).trans (State.walked_physWrite ..)

/-- The bytes a load reads, and the state its walks leave. -/
theorem State.readBytes_walked {s t : State} {a : Access} {bs : List Byte} (h : s.readBytes a = .ok (bs, t)) :
    s.Walked t := by
  unfold State.readBytes at h
  dsimp only at h
  split at h
  · split at h
    · cases h
    · next h1 => cases h; exact State.reach_walked h1
  · split at h
    · cases h
    · next h1 =>
      split at h
      · cases h
      · next h2 => cases h; exact (State.reachPart_walked h1).trans (State.reachPart_walked h2)

/-- What a store leaves. -/
theorem State.writeBytes_walked {s t : State} {a : Access} {bs : List Byte} (h : s.writeBytes a bs = .ok t) :
    s.Walked t := by
  unfold State.writeBytes at h
  dsimp only at h
  split at h
  · split at h
    · cases h
    · next h1 => cases h; exact State.reachPart_write_walked h1 _
  · split at h
    · cases h
    · next h1 =>
      split at h
      · cases h
      · next h2 => cases h; exact (State.reachPart_write_walked h1 _).trans (State.reachPart_write_walked h2 _)

/-! ### Where an access faults (R176) -/

theorem State.splits_iff (s : State) (a : Access) : s.splits a = true ↔ s.MayDivide a := by
  simp [State.splits, State.MayDivide, Access.aligned]

/-- Nothing is shifted by nothing. -/
@[simp] theorem Abort.shift_zero (e : Abort) : e.shift 0 = e := by
  unfold Abort.shift
  split <;> simp

/-- The same as an equation. -/
theorem State.faultsAlike_iff {s : State} {a : Access} {va : Word} {m : Nat} {others : List Nat} {e : Abort} :
    s.faultsAlike a va m others e = true ↔ s.reachPart a va m others = .error e := by
  unfold State.faultsAlike
  split <;> simp_all

theorem Abort.isGuestPage_eq_false {e : Abort} : e.isGuestPage = false ↔ ∀ gpa implicit, e ≠ .guestPage gpa implicit := by
  cases e <;> simp [Abort.isGuestPage]

/-- A part faults as a whole, or in a portion that faults the same way; with a guest-page fault of a later part than the first, as a
whole. -/
theorem State.faultIn_cases (u : State) (splits : Bool) (a : Access) (va : Word) (i n : Nat) (others : List Nat) (e : Abort) :
    ∃ k m, u.FaultsAt (splits = true ∧ (0 < i → ∀ gpa implicit, e ≠ .guestPage gpa implicit)) a va n others e k m
      ∧ u.faultIn splits a va i n others e = ⟨va + BitVec.ofNat 64 k, e.shift k, i + k, m⟩ := by
  unfold State.faultIn
  dsimp only
  split
  · next h =>
    simp only [Bool.and_eq_true, decide_eq_true_eq, State.faultsAlike_iff] at h
    obtain ⟨⟨⟨hs, hg⟩, h0, h1⟩, h2⟩ := h
    exact ⟨_, _, .inr ⟨⟨hs, fun hi => Abort.isGuestPage_eq_false.mp (by simpa [hi] using hg)⟩, h0, h1, h2⟩, rfl⟩
  · exact ⟨0, n, .inl ⟨rfl, rfl⟩, rfl⟩

/-- A guest-page fault of a second part is at its first byte, the page boundary (R220, R342). -/
theorem State.faultIn_guestPage (u : State) (splits : Bool) (a : Access) (va : Word) {i : Nat} (n : Nat) (others : List Nat) (gpa : Nat)
    (implicit : Option Bool) (hi : 0 < i) :
    u.faultIn splits a va i n others (.guestPage gpa implicit) = ⟨va, .guestPage gpa implicit, i, n⟩ := by
  simp [State.faultIn, Abort.isGuestPage, hi]

/-- An aligned access, or one within one granule, faults as a whole. -/
theorem State.faultIn_whole (u : State) (a : Access) (va : Word) (i n : Nat) (others : List Nat) (e : Abort) :
    u.faultIn false a va i n others e = ⟨va, e, i, n⟩ := by
  simp [State.faultIn]

/-- The bytes of a part that stay change at most memory. -/
theorem State.walked_leaveBytes (s : State) (a : Access) (f : PartFault) (pa i : Nat) (bs : List Byte) :
    s.Walked (s.leaveBytes a f pa i bs) := by
  induction bs generalizing s pa i with
  | nil => exact .refl s
  | cons b bs ih =>
    rw [State.leaveBytes]
    split
    · exact (s.walked_setPhysByte pa b).trans (ih ..)
    · exact ih ..

/-- What one part leaves: the state before it, or the state its walk leaves with some of its bytes stored. -/
theorem State.leavePart_cases (s : State) (a : Access) (f : PartFault) (va : Word) (i : Nat) (bs : List Byte) :
    s.leavePart a f va i bs = s
    ∨ bs ≠ [] ∧ ∃ t u, s.translate va a.need a.p a.v = .ok (t, u) ∧ s.leavePart a f va i bs = u.leaveBytes a f t.addr i bs := by
  unfold State.leavePart
  split
  · exact .inl rfl
  · next t u h =>
    split
    · next hs =>
      refine .inr ⟨?_, t, u, h, rfl⟩
      rintro rfl
      cases hs
    · exact .inl rfl

theorem State.walked_leavePart (s : State) (a : Access) (f : PartFault) (va : Word) (i : Nat) (bs : List Byte) :
    s.Walked (s.leavePart a f va i bs) := by
  rcases s.leavePart_cases a f va i bs with h | ⟨_, t, u, ht, h⟩ <;> rw [h]
  · exact .refl s
  · exact (State.translate_walked ht).trans (u.walked_leaveBytes ..)

/-- What a store that faults leaves: nothing, or, where it is misaligned and not atomic, what its two parts leave (R176, R180). -/
theorem State.leftBy_cases (s : State) (a : Access) (f : PartFault) (bs : List Byte) :
    s.leftBy a f bs = s
    ∨ s.MayDivide a ∧ s.leftBy a f bs
        = (s.leavePart a f a.va 0 (bs.take a.firstWidth)).leavePart a f (s.secondAddress a) a.firstWidth (bs.drop a.firstWidth) := by
  unfold State.leftBy
  split
  · next h => exact .inr ⟨(s.splits_iff a).mp h, rfl⟩
  · exact .inl rfl

theorem State.walked_leftBy (s : State) (a : Access) (f : PartFault) (bs : List Byte) : s.Walked (s.leftBy a f bs) := by
  rcases s.leftBy_cases a f bs with h | ⟨_, h⟩ <;> rw [h]
  · exact .refl s
  · exact (s.walked_leavePart ..).trans (State.walked_leavePart ..)

/-- The state that a store's fault finds. -/
theorem State.writeBytes_error {s t : State} {a : Access} {bs : List Byte} {f : PartFault}
    (h : s.writeBytes a bs = .error (f, t)) : t = s.leftBy a f bs := by
  unfold State.writeBytes at h
  dsimp only at h
  split at h
  · split at h
    · cases h; rfl
    · cases h
  · split at h
    · cases h; rfl
    · split at h
      · cases h; rfl
      · cases h

/-- A store that faults leaves some of its bytes at most. -/
theorem State.writeBytes_error_walked {s t : State} {a : Access} {bs : List Byte} {f : PartFault}
    (h : s.writeBytes a bs = .error (f, t)) : s.Walked t := State.writeBytes_error h ▸ s.walked_leftBy a f bs

/-- The word a fetch reads, and the state its walk leaves. -/
theorem State.fetch_walked {s t : State} {w : BitVec 32} (h : s.fetch = .ok (w, t)) : s.Walked t := by
  unfold State.fetch at h
  split at h
  · cases h
  · next hr => cases h; exact State.reach_walked hr

/-! ### Parts of an access -/

/-- An aligned access of a power-of-two width up to 8 lies in one page: it has one part (R176). -/
theorem Access.firstWidth_of_aligned {a : Access} (hw : a.width = 1 ∨ a.width = 2 ∨ a.width = 4 ∨ a.width = 8)
    (h : a.aligned = true) : a.firstWidth = a.width := by
  unfold Access.aligned at h
  unfold Access.firstWidth
  have h' : a.va.toNat % a.width = 0 := by simpa using h
  refine Nat.min_eq_left ?_
  rcases hw with h1 | h1 | h1 | h1 <;> rw [h1] at h' ⊢ <;> omega

/-- A load of one part. -/
theorem State.readBytes_one {s : State} {a : Access} (h : a.firstWidth = a.width) :
    s.readBytes a = match s.reach a a.va a.width with
      | .error e => .error (s.faultIn (s.splits a) a a.va 0 a.width [] e)
      | .ok (pa, _, t) => .ok (t.physRead pa a.width, t) := by
  unfold State.readBytes
  rcases hr : s.reach a a.va a.width with e | ⟨pa, rs, t⟩ <;> simp only [h, hr, if_true]

/-- A store of one part. -/
theorem State.writeBytes_one {s : State} {a : Access} (bs : List Byte) (h : a.firstWidth = a.width) :
    s.writeBytes a bs = match s.reach a a.va a.width with
      | .error e =>
        let f := s.faultIn (s.splits a) a a.va 0 a.width [] e
        .error (f, s.leftBy a f bs)
      | .ok (pa, _, t) => .ok (t.physWrite pa bs) := by
  unfold State.writeBytes
  rcases hr : s.reach a a.va a.width with e | ⟨pa, rs, t⟩ <;> simp only [h, hr, if_true]

/-- A load of two parts: each is judged with the addresses of the other's bytes (R176, R180). -/
theorem State.readBytes_two {s : State} {a : Access} (h : a.firstWidth ≠ a.width) :
    s.readBytes a = match s.reachPart a a.va a.firstWidth (s.secondBytes a) with
      | .error e => .error (s.faultIn (s.splits a) a a.va 0 a.firstWidth (s.secondBytes a) e)
      | .ok (pa, _, t) =>
        match t.reachPart a (s.secondAddress a) (a.width - a.firstWidth) (bytesAt pa a.firstWidth) with
        | .error e => .error (t.faultIn (s.splits a) a (s.secondAddress a) a.firstWidth (a.width - a.firstWidth)
            (bytesAt pa a.firstWidth) e)
        | .ok (qa, _, u) => .ok (t.physRead pa a.firstWidth ++ u.physRead qa (a.width - a.firstWidth), u) := by
  unfold State.readBytes
  rcases hr : s.reachPart a a.va a.firstWidth (s.secondBytes a) with e | ⟨pa, rs, t⟩
  · simp only [h, hr, if_false]
  · rcases hq : t.reachPart a (s.secondAddress a) (a.width - a.firstWidth) (bytesAt pa a.firstWidth) with e | ⟨qa, qs, u⟩ <;>
      simp only [h, hr, hq, if_false]

/-- A store of two parts (R176). -/
theorem State.writeBytes_two {s : State} {a : Access} (bs : List Byte) (h : a.firstWidth ≠ a.width) :
    s.writeBytes a bs = match s.reachPart a a.va a.firstWidth (s.secondBytes a) with
      | .error e =>
        let f := s.faultIn (s.splits a) a a.va 0 a.firstWidth (s.secondBytes a) e
        .error (f, s.leftBy a f bs)
      | .ok (pa, _, t) =>
        match (t.physWrite pa (bs.take a.firstWidth)).reachPart a (s.secondAddress a) (a.width - a.firstWidth)
          (bytesAt pa a.firstWidth) with
        | .error e =>
          let f := (t.physWrite pa (bs.take a.firstWidth)).faultIn (s.splits a) a (s.secondAddress a) a.firstWidth
            (a.width - a.firstWidth) (bytesAt pa a.firstWidth) e
          .error (f, s.leftBy a f bs)
        | .ok (qa, _, u) => .ok (u.physWrite qa (bs.drop a.firstWidth)) := by
  unfold State.writeBytes
  rcases hr : s.reachPart a a.va a.firstWidth (s.secondBytes a) with e | ⟨pa, rs, t⟩
  · simp only [h, hr, if_false]
  · rcases hq : (t.physWrite pa (bs.take a.firstWidth)).reachPart a (s.secondAddress a) (a.width - a.firstWidth)
      (bytesAt pa a.firstWidth) with e | ⟨qa, qs, u⟩ <;>
      simp only [h, hr, hq, if_false]

end Sys2Proof.Machine
end

