-- ==== Sys2Proof/Laws/Exec.lean ====
section
/-! SUPPORT. Everything an instruction can do: one lemma per shared operation, then `exec_effect` for all instructions. A
statement about every instruction is a case analysis of `State.Effect`. -/

namespace Sys2Proof.Machine

/-- The next states an instruction can answer in s. -/
inductive State.Effect (s : State) : State → Prop where
  /-- an exception, perhaps after page-table walks or the first part of a split store -/
  | trap (u : State) (h : s.Walked u) (t : Trap) : s.Effect (u.takeException t)
  /-- completion with a result: arithmetic, and a load after its walks -/
  | finish (u : State) (h : s.Walked u) (rd : Reg) (v : Word) : s.Effect (u.finish rd v)
  /-- completion without one: a store, a fence, a hint -/
  | next (u : State) (h : s.Walked u) : s.Effect u.next
  | jump (rd : Reg) (v t : Word) (h : misalignedTarget t = false) : s.Effect (((s.setX rd v).goto t).retire s)
  | branch (t : Word) (h : misalignedTarget t = false) : s.Effect ((s.goto t).retire s)
  | csrWrite (n : BitVec 12) (c : CsrRef) (h : csrOf n = some c) (ok : s.csrCheck n true = .allowed) (v : Word)
      (rd : Reg) (old : Word) (b : Bool) : s.Effect ((s.csrWrite c v).csrFinish s rd old b)
  | csrRead (rd : Reg) (v : Word) : s.Effect (s.csrFinish s rd v false)
  | mret (h : s.priv = .m) : s.Effect (s.returnM.retire s)
  | sret (hs : s.hasS = true) (h : s.priv = .m ∨ s.priv = .s ∧ s.virt = false) : s.Effect (s.returnS.retire s)
  | sretVS (h : s.priv = .s) (hv : s.virt = true) : s.Effect (s.returnVS.retire s)
  | mnret (h : s.cfg.smrnmi = true) (hp : s.priv = .m) : s.Effect (s.returnMN.retire s)
  /-- a fence -/
  | fence (c : List CacheEntry) (p : List PmpCopy) : s.Effect (State.next { s with cache := c, pmpCopies := p })
  /-- a WFI stalls the hart, or ends -/
  | wait : s.Effect s.wait
  /-- a WFI ends in an exception -/
  | waitTrap (t : Trap) : s.Effect (State.takeException { s with waited := 0 } t)

/-- A result whose next state, if it answers one, is an effect in s. -/
structure State.Does (s : State) (r : Result) : Prop where
  effect : ∀ t, r = .next t → s.Effect t

namespace State

theorem does_next {s t : State} (h : s.Effect t) : s.Does (.next t) := by
  constructor; rintro u hu; cases hu; exact h

theorem does_fault (s : State) (f : Fault) : s.Does (.fault f) := by
  constructor; rintro u hu; cases hu

theorem does_raise {s u : State} (h : s.Walked u) (t : Trap) : s.Does (raise t u) := does_next (.trap u h t)

theorem does_raiseIllegal (s : State) (i : Instr) : s.Does (raiseIllegal i s) := does_raise (.refl s) _

theorem does_raiseVirtual (s : State) (i : Instr) : s.Does (raiseVirtual i s) := does_raise (.refl s) _

theorem does_finish (s : State) (rd : Reg) (v : Word) : s.Does (.next (s.finish rd v)) :=
  does_next (.finish s (.refl s) rd v)

theorem does_here (s : State) : s.Does (.next s.next) := does_next (.next s (.refl s))

theorem does_rv64Only {s : State} {i : Instr} {r : Result} (h : s.Does r) : s.Does (rv64Only i s r) := by
  unfold rv64Only
  split
  · exact s.does_raiseIllegal i
  · exact h

theorem does_shiftImm {s : State} {i : Instr} {sh : BitVec 6} {r : Result} (h : s.Does r) :
    s.Does (shiftImm i sh s r) := by
  unfold shiftImm
  split
  · exact s.does_raiseIllegal i
  · exact h

/-! ### Loads and stores -/

/-- A faulting access ends in an exception of the state its walks left, or stops the machine. -/
theorem does_abort {s u : State} (h : s.Walked u) (a : Access) (part : Word) (e : Abort) : s.Does (u.abort a part e) := by
  unfold State.abort
  split
  · exact does_raise h _
  · exact does_raise h _
  · exact does_raise h _
  · exact does_raise h _
  · exact does_fault s _

theorem does_load (s : State) (a : Access) (rd : Reg) (ext : Word → Word) : s.Does (s.load a rd ext) := by
  unfold State.load
  split
  · exact does_raise (.refl s) _
  · split
    · exact does_abort (.refl s) _ _ _
    · next h => exact does_next (.finish _ (State.readBytes_walked h) _ _)

theorem does_store (s : State) (a : Access) (v : Word) : s.Does (s.store a v) := by
  unfold State.store
  split
  · exact does_raise (.refl s) _
  · split
    · next h => exact does_abort (State.writeBytes_error_walked h) _ _ _
    · next h => exact does_next (.next _ (State.writeBytes_walked h))

theorem does_hvWith {s : State} {i : Instr} {r : Result} (h : s.Does r) : s.Does (hvWith i s r) := by
  unfold hvWith
  split
  · exact s.does_raiseIllegal i
  · exact s.does_raiseVirtual i
  · exact h

theorem does_hvRv64Only {s : State} {i : Instr} {r : Result} (h : s.Does r) : s.Does (hvRv64Only i s r) := by
  unfold hvRv64Only
  split
  · exact h
  · exact does_rv64Only h

theorem does_hvLoad (s : State) (i : Instr) (need : Need) (n : Nat) (ext : Word → Word) (rd rs1 : Reg) :
    s.Does (hvLoad i need n ext rd rs1 s) := does_hvWith (s.does_load ..)

theorem does_hvStore (s : State) (i : Instr) (n : Nat) (rs1 rs2 : Reg) : s.Does (hvStore i n rs1 rs2 s) :=
  does_hvWith (s.does_store ..)

/-! ### Control flow -/

theorem does_jumpTo (s : State) (rd : Reg) (t : Word) : s.Does (jumpTo rd t s) := by
  unfold jumpTo
  split
  · exact does_raise (.refl s) _
  · next h => exact does_next (.jump rd _ t (by simpa using h))

theorem does_branchIf (s : State) (taken : Bool) (off : BitVec 13) : s.Does (branchIf taken off s) := by
  unfold branchIf
  split
  · split
    · exact does_raise (.refl s) _
    · next h => exact does_next (.branch _ (by simpa using h))
  · exact s.does_here

/-! ### System instructions -/

theorem does_csrAccess (s : State) (i : Instr) (n : BitVec 12) (rd : Reg) (write : Bool) (value : Word → Word) :
    s.Does (csrAccess i n rd write value s) := by
  unfold csrAccess
  split
  · exact s.does_raiseIllegal i
  · exact s.does_raiseVirtual i
  · next hok =>
    split
    · exact s.does_raiseIllegal i
    · next c hc =>
      split
      · next hw => subst hw; exact does_next (.csrWrite n c hc hok _ _ _ _)
      · exact does_next (.csrRead _ _)

theorem fenceVa_eq (s : State) (st : Stage) (vmid : Nat) (xl : Xlen) (atp : Word) (va : Option Word) (asid : Option Nat) :
    s.fenceVa st vmid xl atp va asid = { s with cache := (s.fenceVa st vmid xl atp va asid).cache } := by
  unfold State.fenceVa
  repeat (first | rfl | split)

theorem fencePmp_eq (s : State) (rs1 rs2 : Reg) (g : Bool) :
    s.fencePmp rs1 rs2 g = { s with pmpCopies := (s.fencePmp rs1 rs2 g).pmpCopies } := by
  unfold State.fencePmp
  split <;> rfl

/-- A fence over the cache, and then over the PMP results. -/
theorem fences_eq {s t : State} (h : t = { s with cache := t.cache }) (rs1 rs2 : Reg) (g : Bool) :
    t.fencePmp rs1 rs2 g
      = { s with cache := (t.fencePmp rs1 rs2 g).cache, pmpCopies := (t.fencePmp rs1 rs2 g).pmpCopies } := by
  rw [t.fencePmp_eq rs1 rs2 g, h]

theorem does_fenceWith {s : State} {i : Instr} {v : Verdict} {f : State → State}
    (h : f s = { s with cache := (f s).cache, pmpCopies := (f s).pmpCopies }) : s.Does (fenceWith i v f s) := by
  unfold fenceWith
  split
  · exact s.does_raiseIllegal i
  · exact s.does_raiseVirtual i
  · rw [h]; exact does_next (.fence _ _)

theorem sfence_eq (s : State) (rs1 rs2 : Reg) :
    s.sfence rs1 rs2 = { s with cache := (s.sfence rs1 rs2).cache, pmpCopies := (s.sfence rs1 rs2).pmpCopies } := by
  unfold State.sfence
  split
  · rw [s.fenceVa_eq]
  · exact fences_eq (s.fenceVa_eq ..) ..

theorem hfenceVvma_eq (s : State) (rs1 rs2 : Reg) :
    s.hfenceVvma rs1 rs2
      = { s with cache := (s.hfenceVvma rs1 rs2).cache, pmpCopies := (s.hfenceVvma rs1 rs2).pmpCopies } := by
  unfold State.hfenceVvma
  rw [s.fenceVa_eq]

theorem hfenceGvma_eq (s : State) (rs1 rs2 : Reg) :
    s.hfenceGvma rs1 rs2
      = { s with cache := (s.hfenceGvma rs1 rs2).cache, pmpCopies := (s.hfenceGvma rs1 rs2).pmpCopies } :=
  fences_eq rfl ..

theorem does_sret (s : State) : s.Does (execSret s) := by
  unfold execSret
  split
  · next hs =>
    split
    · exact s.does_raiseIllegal _
    · exact s.does_raiseVirtual _
    · next hp hv =>
      split
      · exact s.does_raiseIllegal _
      · exact does_next (.sret hs (.inr ⟨hp, hv⟩))
    · next hp hv =>
      split
      · exact s.does_raiseVirtual _
      · exact does_next (.sretVS hp hv)
    · next hp => exact does_next (.sret hs (.inl hp))
  · exact s.does_raiseIllegal _

theorem does_mret (s : State) : s.Does (execMret s) := by
  unfold execMret
  split
  · next h => exact does_next (.mret h)
  · exact s.does_raiseIllegal _

theorem does_mnret (s : State) : s.Does (execMnret s) := by
  unfold execMnret
  split
  · next h => exact does_next (.mnret h.1 h.2)
  · exact s.does_raiseIllegal _

theorem does_ecall (s : State) : s.Does (execEcall s) := by
  unfold execEcall
  split <;> exact does_raise (.refl s) _

theorem does_wait (s : State) : s.Does (.next s.wait) := does_next .wait

theorem does_raiseWfi_illegal (s : State) : s.Does (s.raiseWfi raiseIllegal) := does_next (.waitTrap _)

theorem does_raiseWfi_virtual (s : State) : s.Does (s.raiseWfi raiseVirtual) := does_next (.waitTrap _)

theorem does_wfi (s : State) : s.Does (execWfi s) := by
  unfold execWfi
  repeat' split
  all_goals first | exact s.does_wait | exact s.does_raiseWfi_illegal | exact s.does_raiseWfi_virtual

/-! ### All instructions -/

theorem does_ebreak (s : State) : s.Does (execEbreak s) := does_raise (.refl s) _

theorem does_csrrw (s : State) (rd : Reg) (csr : BitVec 12) (rs1 : Reg) : s.Does (execCsrrw rd csr rs1 s) := s.does_csrAccess ..

theorem does_csrrs (s : State) (rd : Reg) (csr : BitVec 12) (rs1 : Reg) : s.Does (execCsrrs rd csr rs1 s) := s.does_csrAccess ..

theorem does_csrrc (s : State) (rd : Reg) (csr : BitVec 12) (rs1 : Reg) : s.Does (execCsrrc rd csr rs1 s) := s.does_csrAccess ..

theorem does_csrrwi (s : State) (rd : Reg) (csr : BitVec 12) (u : BitVec 5) : s.Does (execCsrrwi rd csr u s) := s.does_csrAccess ..

theorem does_csrrsi (s : State) (rd : Reg) (csr : BitVec 12) (u : BitVec 5) : s.Does (execCsrrsi rd csr u s) := s.does_csrAccess ..

theorem does_csrrci (s : State) (rd : Reg) (csr : BitVec 12) (u : BitVec 5) : s.Does (execCsrrci rd csr u s) := s.does_csrAccess ..

theorem does_sfenceVma (s : State) (rs1 rs2 : Reg) : s.Does (execSfenceVma rs1 rs2 s) := does_fenceWith (s.sfence_eq ..)

theorem does_sinvalVma (s : State) (rs1 rs2 : Reg) : s.Does (execSinvalVma rs1 rs2 s) := does_fenceWith (s.sfence_eq ..)

theorem does_sfenceWInval (s : State) : s.Does (execSfenceWInval s) := does_fenceWith rfl

theorem does_sfenceInvalIr (s : State) : s.Does (execSfenceInvalIr s) := does_fenceWith rfl

theorem does_hlvB (s : State) (rd rs1 : Reg) : s.Does (execHlvB rd rs1 s) := s.does_hvLoad ..

theorem does_hlvBu (s : State) (rd rs1 : Reg) : s.Does (execHlvBu rd rs1 s) := s.does_hvLoad ..

theorem does_hlvH (s : State) (rd rs1 : Reg) : s.Does (execHlvH rd rs1 s) := s.does_hvLoad ..

theorem does_hlvHu (s : State) (rd rs1 : Reg) : s.Does (execHlvHu rd rs1 s) := s.does_hvLoad ..

theorem does_hlvW (s : State) (rd rs1 : Reg) : s.Does (execHlvW rd rs1 s) := s.does_hvLoad ..

theorem does_hlvWu (s : State) (rd rs1 : Reg) : s.Does (execHlvWu rd rs1 s) := does_hvRv64Only (s.does_hvLoad ..)

theorem does_hlvD (s : State) (rd rs1 : Reg) : s.Does (execHlvD rd rs1 s) := does_hvRv64Only (s.does_hvLoad ..)

theorem does_hlvxHu (s : State) (rd rs1 : Reg) : s.Does (execHlvxHu rd rs1 s) := s.does_hvLoad ..

theorem does_hlvxWu (s : State) (rd rs1 : Reg) : s.Does (execHlvxWu rd rs1 s) := s.does_hvLoad ..

theorem does_hsvB (s : State) (rs1 rs2 : Reg) : s.Does (execHsvB rs1 rs2 s) := s.does_hvStore ..

theorem does_hsvH (s : State) (rs1 rs2 : Reg) : s.Does (execHsvH rs1 rs2 s) := s.does_hvStore ..

theorem does_hsvW (s : State) (rs1 rs2 : Reg) : s.Does (execHsvW rs1 rs2 s) := s.does_hvStore ..

theorem does_hsvD (s : State) (rs1 rs2 : Reg) : s.Does (execHsvD rs1 rs2 s) := does_hvRv64Only (s.does_hvStore ..)

theorem does_hfenceVvma (s : State) (rs1 rs2 : Reg) : s.Does (execHfenceVvma rs1 rs2 s) := does_fenceWith (s.hfenceVvma_eq ..)

theorem does_hfenceGvma (s : State) (rs1 rs2 : Reg) : s.Does (execHfenceGvma rs1 rs2 s) := does_fenceWith (s.hfenceGvma_eq ..)

theorem does_hinvalVvma (s : State) (rs1 rs2 : Reg) : s.Does (execHinvalVvma rs1 rs2 s) := does_fenceWith (s.hfenceVvma_eq ..)

theorem does_hinvalGvma (s : State) (rs1 rs2 : Reg) : s.Does (execHinvalGvma rs1 rs2 s) := does_fenceWith (s.hfenceGvma_eq ..)

theorem does_lui (s : State) (rd : Reg) (imm : BitVec 20) : s.Does (execLui rd imm s) := s.does_finish ..

theorem does_auipc (s : State) (rd : Reg) (imm : BitVec 20) : s.Does (execAuipc rd imm s) := s.does_finish ..

theorem does_jal (s : State) (rd : Reg) (offset : BitVec 21) : s.Does (execJal rd offset s) := s.does_jumpTo ..

theorem does_jalr (s : State) (rd rs1 : Reg) (imm : BitVec 12) : s.Does (execJalr rd rs1 imm s) := s.does_jumpTo ..

theorem does_beq (s : State) (rs1 rs2 : Reg) (offset : BitVec 13) : s.Does (execBeq rs1 rs2 offset s) := s.does_branchIf ..

theorem does_bne (s : State) (rs1 rs2 : Reg) (offset : BitVec 13) : s.Does (execBne rs1 rs2 offset s) := s.does_branchIf ..

theorem does_blt (s : State) (rs1 rs2 : Reg) (offset : BitVec 13) : s.Does (execBlt rs1 rs2 offset s) := s.does_branchIf ..

theorem does_bge (s : State) (rs1 rs2 : Reg) (offset : BitVec 13) : s.Does (execBge rs1 rs2 offset s) := s.does_branchIf ..

theorem does_bltu (s : State) (rs1 rs2 : Reg) (offset : BitVec 13) : s.Does (execBltu rs1 rs2 offset s) := s.does_branchIf ..

theorem does_bgeu (s : State) (rs1 rs2 : Reg) (offset : BitVec 13) : s.Does (execBgeu rs1 rs2 offset s) := s.does_branchIf ..

theorem does_lb (s : State) (rd rs1 : Reg) (imm : BitVec 12) : s.Does (execLb rd rs1 imm s) := s.does_load ..

theorem does_lh (s : State) (rd rs1 : Reg) (imm : BitVec 12) : s.Does (execLh rd rs1 imm s) := s.does_load ..

theorem does_lw (s : State) (rd rs1 : Reg) (imm : BitVec 12) : s.Does (execLw rd rs1 imm s) := s.does_load ..

theorem does_lbu (s : State) (rd rs1 : Reg) (imm : BitVec 12) : s.Does (execLbu rd rs1 imm s) := s.does_load ..

theorem does_lhu (s : State) (rd rs1 : Reg) (imm : BitVec 12) : s.Does (execLhu rd rs1 imm s) := s.does_load ..

theorem does_lwu (s : State) (rd rs1 : Reg) (imm : BitVec 12) : s.Does (execLwu rd rs1 imm s) := does_rv64Only (s.does_load ..)

theorem does_ld (s : State) (rd rs1 : Reg) (imm : BitVec 12) : s.Does (execLd rd rs1 imm s) := does_rv64Only (s.does_load ..)

theorem does_sb (s : State) (rs1 rs2 : Reg) (imm : BitVec 12) : s.Does (execSb rs1 rs2 imm s) := s.does_store ..

theorem does_sh (s : State) (rs1 rs2 : Reg) (imm : BitVec 12) : s.Does (execSh rs1 rs2 imm s) := s.does_store ..

theorem does_sw (s : State) (rs1 rs2 : Reg) (imm : BitVec 12) : s.Does (execSw rs1 rs2 imm s) := s.does_store ..

theorem does_sd (s : State) (rs1 rs2 : Reg) (imm : BitVec 12) : s.Does (execSd rs1 rs2 imm s) := does_rv64Only (s.does_store ..)

theorem does_addi (s : State) (rd rs1 : Reg) (imm : BitVec 12) : s.Does (execAddi rd rs1 imm s) := s.does_finish ..

theorem does_slti (s : State) (rd rs1 : Reg) (imm : BitVec 12) : s.Does (execSlti rd rs1 imm s) := s.does_finish ..

theorem does_sltiu (s : State) (rd rs1 : Reg) (imm : BitVec 12) : s.Does (execSltiu rd rs1 imm s) := s.does_finish ..

theorem does_xori (s : State) (rd rs1 : Reg) (imm : BitVec 12) : s.Does (execXori rd rs1 imm s) := s.does_finish ..

theorem does_ori (s : State) (rd rs1 : Reg) (imm : BitVec 12) : s.Does (execOri rd rs1 imm s) := s.does_finish ..

theorem does_andi (s : State) (rd rs1 : Reg) (imm : BitVec 12) : s.Does (execAndi rd rs1 imm s) := s.does_finish ..

theorem does_slli (s : State) (rd rs1 : Reg) (shamt : BitVec 6) : s.Does (execSlli rd rs1 shamt s) := does_shiftImm (s.does_finish ..)

theorem does_srli (s : State) (rd rs1 : Reg) (shamt : BitVec 6) : s.Does (execSrli rd rs1 shamt s) := does_shiftImm (s.does_finish ..)

theorem does_srai (s : State) (rd rs1 : Reg) (shamt : BitVec 6) : s.Does (execSrai rd rs1 shamt s) := does_shiftImm (s.does_finish ..)

theorem does_add (s : State) (rd rs1 rs2 : Reg) : s.Does (execAdd rd rs1 rs2 s) := s.does_finish ..

theorem does_sub (s : State) (rd rs1 rs2 : Reg) : s.Does (execSub rd rs1 rs2 s) := s.does_finish ..

theorem does_sll (s : State) (rd rs1 rs2 : Reg) : s.Does (execSll rd rs1 rs2 s) := s.does_finish ..

theorem does_slt (s : State) (rd rs1 rs2 : Reg) : s.Does (execSlt rd rs1 rs2 s) := s.does_finish ..

theorem does_sltu (s : State) (rd rs1 rs2 : Reg) : s.Does (execSltu rd rs1 rs2 s) := s.does_finish ..

theorem does_xor (s : State) (rd rs1 rs2 : Reg) : s.Does (execXor rd rs1 rs2 s) := s.does_finish ..

theorem does_srl (s : State) (rd rs1 rs2 : Reg) : s.Does (execSrl rd rs1 rs2 s) := s.does_finish ..

theorem does_sra (s : State) (rd rs1 rs2 : Reg) : s.Does (execSra rd rs1 rs2 s) := s.does_finish ..

theorem does_or (s : State) (rd rs1 rs2 : Reg) : s.Does (execOr rd rs1 rs2 s) := s.does_finish ..

theorem does_and (s : State) (rd rs1 rs2 : Reg) : s.Does (execAnd rd rs1 rs2 s) := s.does_finish ..

theorem does_addiw (s : State) (rd rs1 : Reg) (imm : BitVec 12) : s.Does (execAddiw rd rs1 imm s) := does_rv64Only (s.does_finish ..)

theorem does_slliw (s : State) (rd rs1 : Reg) (shamt : BitVec 5) : s.Does (execSlliw rd rs1 shamt s) := does_rv64Only (s.does_finish ..)

theorem does_srliw (s : State) (rd rs1 : Reg) (shamt : BitVec 5) : s.Does (execSrliw rd rs1 shamt s) := does_rv64Only (s.does_finish ..)

theorem does_sraiw (s : State) (rd rs1 : Reg) (shamt : BitVec 5) : s.Does (execSraiw rd rs1 shamt s) := does_rv64Only (s.does_finish ..)

theorem does_addw (s : State) (rd rs1 rs2 : Reg) : s.Does (execAddw rd rs1 rs2 s) := does_rv64Only (s.does_finish ..)

theorem does_subw (s : State) (rd rs1 rs2 : Reg) : s.Does (execSubw rd rs1 rs2 s) := does_rv64Only (s.does_finish ..)

theorem does_sllw (s : State) (rd rs1 rs2 : Reg) : s.Does (execSllw rd rs1 rs2 s) := does_rv64Only (s.does_finish ..)

theorem does_srlw (s : State) (rd rs1 rs2 : Reg) : s.Does (execSrlw rd rs1 rs2 s) := does_rv64Only (s.does_finish ..)

theorem does_sraw (s : State) (rd rs1 rs2 : Reg) : s.Does (execSraw rd rs1 rs2 s) := does_rv64Only (s.does_finish ..)

theorem does_fence (s : State) (_rd _rs1 : Reg) (_fm pred succ : BitVec 4) : s.Does (execFence _rd _rs1 _fm pred succ s) := s.does_here

theorem does_fenceI (s : State) (_rd _rs1 : Reg) (_imm : BitVec 12) : s.Does (execFenceI _rd _rs1 _imm s) := s.does_here

/-- What an instruction can do (every arm of exec). -/
theorem does_exec (s : State) (i : Instr) : s.Does (exec i s) := by
  cases i
  case ecall => exact s.does_ecall
  case ebreak => exact s.does_ebreak ..
  case mret => exact s.does_mret
  case sret => exact s.does_sret
  case mnret => exact s.does_mnret
  case wfi => exact s.does_wfi
  case csrrw => exact s.does_csrrw ..
  case csrrs => exact s.does_csrrs ..
  case csrrc => exact s.does_csrrc ..
  case csrrwi => exact s.does_csrrwi ..
  case csrrsi => exact s.does_csrrsi ..
  case csrrci => exact s.does_csrrci ..
  case sfenceVma => exact s.does_sfenceVma ..
  case sinvalVma => exact s.does_sinvalVma ..
  case sfenceWInval => exact s.does_sfenceWInval ..
  case sfenceInvalIr => exact s.does_sfenceInvalIr ..
  case hlvB => exact s.does_hlvB ..
  case hlvBu => exact s.does_hlvBu ..
  case hlvH => exact s.does_hlvH ..
  case hlvHu => exact s.does_hlvHu ..
  case hlvW => exact s.does_hlvW ..
  case hlvWu => exact s.does_hlvWu ..
  case hlvD => exact s.does_hlvD ..
  case hlvxHu => exact s.does_hlvxHu ..
  case hlvxWu => exact s.does_hlvxWu ..
  case hsvB => exact s.does_hsvB ..
  case hsvH => exact s.does_hsvH ..
  case hsvW => exact s.does_hsvW ..
  case hsvD => exact s.does_hsvD ..
  case hfenceVvma => exact s.does_hfenceVvma ..
  case hfenceGvma => exact s.does_hfenceGvma ..
  case hinvalVvma => exact s.does_hinvalVvma ..
  case hinvalGvma => exact s.does_hinvalGvma ..
  case lui => exact s.does_lui ..
  case auipc => exact s.does_auipc ..
  case jal => exact s.does_jal ..
  case jalr => exact s.does_jalr ..
  case beq => exact s.does_beq ..
  case bne => exact s.does_bne ..
  case blt => exact s.does_blt ..
  case bge => exact s.does_bge ..
  case bltu => exact s.does_bltu ..
  case bgeu => exact s.does_bgeu ..
  case lb => exact s.does_lb ..
  case lh => exact s.does_lh ..
  case lw => exact s.does_lw ..
  case lbu => exact s.does_lbu ..
  case lhu => exact s.does_lhu ..
  case lwu => exact s.does_lwu ..
  case ld => exact s.does_ld ..
  case sb => exact s.does_sb ..
  case sh => exact s.does_sh ..
  case sw => exact s.does_sw ..
  case sd => exact s.does_sd ..
  case addi => exact s.does_addi ..
  case slti => exact s.does_slti ..
  case sltiu => exact s.does_sltiu ..
  case xori => exact s.does_xori ..
  case ori => exact s.does_ori ..
  case andi => exact s.does_andi ..
  case slli => exact s.does_slli ..
  case srli => exact s.does_srli ..
  case srai => exact s.does_srai ..
  case add => exact s.does_add ..
  case sub => exact s.does_sub ..
  case sll => exact s.does_sll ..
  case slt => exact s.does_slt ..
  case sltu => exact s.does_sltu ..
  case xor => exact s.does_xor ..
  case srl => exact s.does_srl ..
  case sra => exact s.does_sra ..
  case or => exact s.does_or ..
  case and => exact s.does_and ..
  case addiw => exact s.does_addiw ..
  case slliw => exact s.does_slliw ..
  case srliw => exact s.does_srliw ..
  case sraiw => exact s.does_sraiw ..
  case addw => exact s.does_addw ..
  case subw => exact s.does_subw ..
  case sllw => exact s.does_sllw ..
  case srlw => exact s.does_srlw ..
  case sraw => exact s.does_sraw ..
  case fence => exact s.does_here
  case fenceI => exact s.does_here

end State

/-- Every next state of an instruction is one of the effects. -/
theorem exec_effect {i : Instr} {s t : State} (h : exec i s = .next t) : s.Effect t := (s.does_exec i).effect t h

end Sys2Proof.Machine
end

