-- ==== Sys2Proof/Laws/Frames.lean ====
section
/-! SUPPORT. Which bits of a status register an operation leaves, and what a trap return leaves of the state. -/

namespace Sys2Proof.Machine

theorem SameBitsBut.refl (w : Word) (l : List Nat) : SameBitsBut w w l := fun _ _ => rfl

theorem SameBitsBut.setBit {w v : Word} {l : List Nat} (h : SameBitsBut w v l) {i : Nat} (b : Bool) (hi : i ∈ l) :
    SameBitsBut w (Machine.setBit v i b) l := by
  intro k hk
  have : i ≠ k := fun e => hk (e ▸ hi)
  rw [bit_setBit, if_neg (fun e => this e.1), h k hk]

theorem SameBitsBut.setField {w v : Word} {l : List Nat} (h : SameBitsBut w v l) {lo n : Nat} (f : BitVec n)
    (hi : ∀ i, lo ≤ i → i < lo + n → i ∈ l) : SameBitsBut w (Machine.setField v lo f) l := by
  intro k hk
  rw [bit_setField, if_neg (fun e => hk (hi k e.1 (by omega))), h k hk]

/-- Writing a mode into MPP or MNPP changes bits 11 and 12 only. -/
theorem SameBitsBut.setMode {w v : Word} {l : List Nat} (h : SameBitsBut w v l) (f : BitVec 2) (h1 : 11 ∈ l) (h2 : 12 ∈ l) :
    SameBitsBut w (Machine.setField v 11 f) l := by
  refine h.setField f fun i h3 h4 => ?_
  rcases (by omega : i = 11 ∨ i = 12) with rfl | rfl <;> assumption

theorem bit_setBit_same (w : Word) {i : Nat} (b : Bool) (h : i < 64) : bit (setBit w i b) i = b := by
  simp [bit_setBit, h]

theorem bit_setBit_other (w : Word) {i j : Nat} (b : Bool) (h : i ≠ j) : bit (setBit w i b) j = bit w j := by
  simp [bit_setBit, h]

theorem bit_setMode_other (w : Word) (v : BitVec 2) {j : Nat} (h : j ≠ 11) (h' : j ≠ 12) :
    bit (setField w 11 v) j = bit w j := by
  rw [bit_setField, if_neg (by omega)]

/-- The XLEN of a mode does not depend on where the hart is or on what has retired. -/
theorem State.xlenAt_retire (s b : State) (p : Priv) (v : Bool) : (s.retire b).xlenAt p v = s.xlenAt p v := by
  unfold State.retire; split <;> rfl

theorem State.xlenAt_returnTo (s : State) (p q : Priv) (v w : Bool) (t : Word) :
    (s.returnTo p v t).xlenAt q w = s.xlenAt q w := rfl

/-- A trap return leaves everything but the mode, the pc, the status registers, the reservation and `minstret`. -/
theorem State.returns_returnTo (s : State) {u : State} (p : Priv) (v : Bool) (t : Word)
    (hu : u = { s with
      mc := { s.mc with mstatus := u.mc.mstatus, mnstatus := u.mc.mnstatus }
      hc := { s.hc with hstatus := u.hc.hstatus }, vc := { s.vc with vsstatus := u.vc.vsstatus } }) :
    s.Returns ((u.returnTo p v t).retire s) p v t := by
  have hc : u.cfg = s.cfg := by rw [hu]
  have hr : u.reservation = s.reservation := by rw [hu]
  have hn : u.cnt = s.cnt := by rw [hu]
  refine ⟨by simp [State.returnTo], by simp [State.returnTo], ?_, by simp [State.returnTo, hc, hr], ?_, ?_⟩
  · rw [State.xlenAt_retire, State.xlenAt_returnTo]; simp [State.returnTo]
  · rw [State.retire_eq]; simp only [State.returnTo, hn]
  · rw [hu]; unfold State.retire; split <;> rfl

end Sys2Proof.Machine
end

