-- ==== Sys2Proof/Laws/Step.lean ====
section
/-! SUPPORT. Everything one step can do: what happens between two instructions, then an interrupt, an exception of the fetch, or
an instruction (R23, R338, R359); and what a run ends in (R361). -/

namespace Sys2Proof.Machine

/-! ### Between two instructions -/

/-- t is s after time has passed and the platform has acted: pins, counters, pending bits, memory, the memory-mapped registers,
cache. -/
structure State.Ticked (s t : State) : Prop where
  only : t = { s with
    mc := { s.mc with mip := t.mc.mip }, cnt := t.cnt, mtime := t.mtime, mtimecmp := t.mtimecmp, msip := t.msip
    mem := t.mem, cache := t.cache, pins := t.pins, env := t.env, draws := t.draws }
  wf : s.mem.wf = true → t.mem.wf = true

theorem State.Ticked.eq {s t : State} (h : s.Ticked t) : ∃ a b c l m d e f g k, t = { s with
    mc := { s.mc with mip := a }, cnt := b, mtime := c, mtimecmp := l, msip := m, mem := d, cache := e, pins := f, env := g
    draws := k } :=
  ⟨_, _, _, _, _, _, _, _, _, _, h.only⟩

theorem State.Ticked.refl (s : State) : s.Ticked s := ⟨rfl, id⟩

theorem State.Ticked.trans {s t u : State} (h : s.Ticked t) (h' : t.Ticked u) : s.Ticked u := by
  refine ⟨?_, fun hw => h'.wf (h.wf hw)⟩
  obtain ⟨a, b, c, l, m, d, e, f, g, k, rfl⟩ := h.eq
  obtain ⟨a', b', c', l', m', d', e', f', g', k', rfl⟩ := h'.eq
  rfl

/-- One count of a performance counter changes counters, and LCOFIP. -/
theorem State.ticked_countHpm (s : State) (i : Fin 32) : s.Ticked (s.countHpm i) := by
  unfold State.countHpm
  dsimp only
  split
  · exact ⟨rfl, id⟩
  · exact ⟨rfl, id⟩

theorem State.draws_countHpm (s : State) (i : Fin 32) : (s.countHpm i).draws = s.draws := rfl

theorem State.ticked_countEvent (s : State) (e : Word) : s.Ticked (s.countEvent e) := by
  unfold State.countEvent
  generalize List.finRange 32 = l
  suffices ∀ t : State, s.Ticked t →
      s.Ticked (l.foldl (fun t i => if s.countsEvent e i then t.countHpm i else t) t) from this s (.refl s)
  induction l with
  | nil => exact fun t h => h
  | cons i l ih =>
    intro t h
    refine ih _ ?_
    dsimp only
    split
    · exact h.trans (t.ticked_countHpm i)
    · exact h

theorem State.draws_countEvent (s : State) (e : Word) : (s.countEvent e).draws = s.draws := by
  unfold State.countEvent
  generalize List.finRange 32 = l
  suffices ∀ t : State, t.draws = s.draws →
      (l.foldl (fun t i => if s.countsEvent e i then t.countHpm i else t) t).draws = s.draws from this s rfl
  induction l with
  | nil => exact fun t h => h
  | cons i l ih =>
    intro t h
    refine ih _ ?_
    dsimp only
    split
    · rw [State.draws_countHpm]; exact h
    · exact h

theorem State.ticked_foldl_countEvent (s : State) (es : List Word) : s.Ticked (es.foldl State.countEvent s) := by
  induction es generalizing s with
  | nil => exact .refl s
  | cons e es ih => exact (s.ticked_countEvent e).trans (ih _)

theorem State.draws_foldl_countEvent (s : State) (es : List Word) : (es.foldl State.countEvent s).draws = s.draws := by
  induction es generalizing s with
  | nil => rfl
  | cons e es ih => exact (ih _).trans (s.draws_countEvent e)

/-- What other harts and devices store. -/
theorem State.Walked.ticked {s t : State} (h : s.Walked t) : s.Ticked t := by
  refine ⟨?_, h.wf⟩
  obtain ⟨m, a, b, c, rfl⟩ := h.only.eq
  rfl

/-- One input of the platform. -/
theorem State.ticked_accept (s : State) (e : EnvInput) : s.Ticked (s.accept e) := by
  unfold State.accept
  have h : s.Ticked ((s.advance e.timeTicks e.cycleTicks).signal e) := ⟨rfl, id⟩
  exact (h.trans (State.walked_writeCells _ e.stores).ticked).trans (State.ticked_foldl_countEvent ..)

theorem State.draws_accept (s : State) (e : EnvInput) : (s.accept e).draws = s.draws := by
  unfold State.accept
  rw [State.draws_foldl_countEvent, State.writeCells_draws]
  rfl

theorem State.ticked_speculate (s : State) : s.Ticked s.speculate := by
  unfold State.speculate
  split
  · exact ⟨rfl, id⟩
  · exact .refl s

/-- What happens before an instruction. -/
theorem State.ticked_tick (s : State) : s.Ticked s.tick := by
  unfold State.tick
  dsimp only
  refine State.Ticked.trans ?_ (State.ticked_speculate _)
  split
  · exact ⟨rfl, id⟩
  · next e rest _ =>
    have h1 : s.Ticked { s with env := rest } := ⟨rfl, id⟩
    have h2 := h1.trans (State.ticked_accept { s with env := rest } e)
    exact h2.trans ⟨rfl, id⟩

/-- Every step draws afresh. -/
theorem State.draws_tick (s : State) : s.tick.draws = s.draws + 1 := by
  unfold State.tick
  simp only [State.speculate_draws]
  split
  · rfl
  · rw [State.draws_accept]

/-! ### The end of a stall -/

/-- A hart that does not wait is as it was. -/
theorem State.woken_of_waited {s : State} (h : s.waited = 0) : s.woken = s := if_pos h

/-- A stall that does not go on ends: in VU-mode only where a non-maskable interrupt is taken (R350). -/
theorem State.nonMaskable_of_not_stalled {s : State} (h : s.stalled = false) (hw : s.waited ≠ 0) (ht : s.wfiTraps = true) :
    s.nonMaskable ≠ none := by
  intro hn
  simp [State.stalled, hw, ht, hn] at h

/-- A hart whose WFI ends goes on behind it, or in VU-mode at it; only the pc, `minstret` and the stall have changed (R238). -/
theorem State.woken_eq (s : State) : ∃ p n, s.woken = { s with pc := p, waited := 0, cnt := { s.cnt with minstret := n } } := by
  unfold State.woken
  split
  · next h => exact ⟨s.pc, s.cnt.minstret, by rw [← h]⟩
  split
  · exact ⟨s.pc, s.cnt.minstret, rfl⟩
  · refine ⟨s.next.pc, s.next.cnt.minstret, ?_⟩
    unfold State.next State.retire
    split <;> rfl

@[simp] theorem State.woken_cfg (s : State) : s.woken.cfg = s.cfg := by
  obtain ⟨p, n, h⟩ := s.woken_eq; rw [h]

@[simp] theorem State.woken_waited (s : State) : s.woken.waited = 0 := by
  obtain ⟨p, n, h⟩ := s.woken_eq; rw [h]

/-! ### One step -/

/-- The next states one step can answer in s. -/
inductive State.StepEffect (s : State) : State → Prop where
  | nmi (c : Word) (h : s.cfg.smrnmi = false) (hp : s.tick.woken.pins.nmi = some c) :
      s.StepEffect (State.takeNmi { s.tick.woken with pins := { s.tick.woken.pins with nmi := none } } c)
  | rnmi (c : Word) (h : s.cfg.smrnmi = true) (hn : s.tick.woken.mnstatusNMIE = true)
      (hp : s.tick.woken.pins.rnmi = some c) :
      s.StepEffect (State.takeRnmi { s.tick.woken with pins := { s.tick.woken.pins with rnmi := none } } c)
  | interrupt (d : Dest) (i : Nat) (h : s.tick.woken.interrupt = some (d, i)) :
      s.StepEffect (s.tick.woken.takeInterrupt d i)
  /-- the fetch faults, or the word is no instruction -/
  | fetchTrap (u : State) (h : s.tick.woken.Walked u) (t : Trap) : s.StepEffect (u.takeException t)
  | exec (i : Instr) (u t : State) (h : s.tick.woken.Walked u) (he : exec i u = .next t) : s.StepEffect t
  /-- the hart goes on with the WFI that stalls it -/
  | stalled (t : State) (h : s.tick.stalled = true) (he : exec .wfi s.tick = .next t) : s.StepEffect t

theorem State.Ticked.cfg {s t : State} (h : s.Ticked t) : t.cfg = s.cfg := by
  obtain ⟨a, b, c, l, m, d, e, f, g, k, rfl⟩ := h.eq; rfl

/-- Every next state of a step is one of the effects. -/
theorem step_effect {s t : State} (h : step s = .next t) : s.StepEffect t := by
  unfold step at h
  split at h
  · next r hb =>
    subst h
    unfold State.boundary at hb
    split at hb
    · cases hb
    · unfold State.beginNext at hb
      split at hb
      · next u hn =>
        cases hb
        have hc : s.tick.woken.cfg = s.cfg := by rw [State.woken_cfg]; exact s.ticked_tick.cfg
        unfold State.nonMaskable at hn
        split at hn
        · next hs =>
          split at hn
          · next hne =>
            split at hn
            · next c hp => cases hn; exact .rnmi c (by rw [← hc]; exact hs) hne hp
            · cases hn
          · cases hn
        · next hs =>
          split at hn
          · next c hp => cases hn; exact .nmi c (by rw [← hc]; simpa using hs) hp
          · cases hn
      · split at hb
        · next d i hi => cases hb; exact .interrupt d i hi
        · unfold State.beginFetch at hb
          split at hb
          · next e _ =>
            injection hb with hb
            unfold State.abort at hb
            split at hb <;> first | (cases hb; done) | (cases hb; exact .fetchTrap _ (.refl _) _)
          · next w u hf =>
            split at hb
            · cases hb
            · injection hb with hb
              cases hb
              exact .fetchTrap u (State.fetch_walked hf) _
  · next i u hb =>
    unfold State.boundary at hb
    split at hb
    · next hw =>
      cases hb
      exact .stalled t hw h
    · refine .exec i u t ?_ h
      unfold State.beginNext at hb
      split at hb
      · cases hb
      · split at hb
        · cases hb
        · unfold State.beginFetch at hb
          split at hb
          · cases hb
          · next w u' hf =>
            split at hb
            · cases hb; exact State.fetch_walked hf
            · cases hb

/-! ### Time -/

/-- `mtime` always advances again (R358). -/
theorem Config.timeAdvance_again (n : Nat) : ∃ m, n ≤ m ∧ 0 < Config.timeAdvance m := by
  suffices ∀ k n, Config.untilTick n = k → ∃ m, n ≤ m ∧ 0 < Config.timeAdvance m from this _ n rfl
  intro k
  induction k with
  | zero => exact fun n h => ⟨n, Nat.le_refl n, by rw [Config.timeAdvance, if_pos h]; exact Nat.succ_pos _⟩
  | succ k ih =>
    intro n h
    have hn : Config.untilTick (n + 1) = k := by
      rw [Config.untilTick, if_neg (by omega), h]; rfl
    obtain ⟨m, h1, h2⟩ := ih (n + 1) hn
    exact ⟨m, by omega, h2⟩

/-! ### Runs -/

/-- A run ends in a state of which its predicate holds. -/
theorem runUntil_ended {ends : State → Bool} {n : Nat} {s t : State} (h : runUntil ends n s = .ended t) : ends t = true := by
  induction n generalizing s with
  | zero =>
    unfold runUntil at h
    split at h
    · next he => cases h; exact he
    · cases h
  | succ n ih =>
    unfold runUntil at h
    split at h
    · next he => cases h; exact he
    · split at h
      · exact ih h
      · cases h
      · cases h

end Sys2Proof.Machine
end

