-- ==== Sys2Proof/Tests/Slice0.lean ====
section
/-! SUPPORT. Tests of the model, each on fixed values: the ill-formed terms, the decoding of every instruction's word, one step
of the instructions, and for every statement with hypotheses a witness that meets them. Expected values are computed by hand
from the rules named, or are those of 95_test_vectors.md. -/

namespace Sys2Proof.Tests

open Sys2Proof.Machine

/-! ### Well-formedness: each check refuses an ill-formed term (R278) -/

theorem test_wf_jal_odd : Instr.wf (.jal 1 3) = false := by decide
theorem test_wf_beq_odd : Instr.wf (.beq 1 2 5) = false := by decide
theorem test_wf_bne_odd : Instr.wf (.bne 1 2 5) = false := by decide
theorem test_wf_blt_odd : Instr.wf (.blt 1 2 5) = false := by decide
theorem test_wf_bge_odd : Instr.wf (.bge 1 2 5) = false := by decide
theorem test_wf_bltu_odd : Instr.wf (.bltu 1 2 5) = false := by decide
theorem test_wf_bgeu_odd : Instr.wf (.bgeu 1 2 5) = false := by decide

/-! ### Decoding: words assembled from the match values and fields of the spec's encodings -/

/-- Every word decodes to the instruction beside it. -/
def allDecode (l : List (BitVec 32 × Instr)) : Bool :=
  l.all fun (w, i) =>
    match decodeWord w with
    | .ok j => decide (j = i)
    | .error _ => false

/-- R232 to R238. -/
theorem test_decode_system : allDecode
    [(0x00000073, .ecall), (0x00100073, .ebreak), (0x30200073, .mret), (0x10200073, .sret), (0x70200073, .mnret),
     (0x10500073, .wfi)] = true := by decide

/-- R239 to R244. -/
theorem test_decode_csr : allDecode
    [(0x344293F3, .csrrw 7 0x344 5), (0x3442A3F3, .csrrs 7 0x344 5), (0x3442B3F3, .csrrc 7 0x344 5),
     (0x3442D3F3, .csrrwi 7 0x344 5), (0x3442E3F3, .csrrsi 7 0x344 5), (0x3442F3F3, .csrrci 7 0x344 5)] = true := by decide

/-- R253 to R258. -/
theorem test_decode_fences : allDecode
    [(0x12628073, .sfenceVma 5 6), (0x16628073, .sinvalVma 5 6), (0x18000073, .sfenceWInval),
     (0x18100073, .sfenceInvalIr)] = true := by decide

/-- R261 to R269. -/
theorem test_decode_hypervisor_loads : allDecode
    [(0x6002C3F3, .hlvB 7 5), (0x6012C3F3, .hlvBu 7 5), (0x6402C3F3, .hlvH 7 5), (0x6412C3F3, .hlvHu 7 5),
     (0x6802C3F3, .hlvW 7 5), (0x6812C3F3, .hlvWu 7 5), (0x6C02C3F3, .hlvD 7 5), (0x6432C3F3, .hlvxHu 7 5),
     (0x6832C3F3, .hlvxWu 7 5)] = true := by decide

/-- R270 to R277. -/
theorem test_decode_hypervisor_stores_and_fences : allDecode
    [(0x6262C073, .hsvB 5 6), (0x6662C073, .hsvH 5 6), (0x6A62C073, .hsvW 5 6), (0x6E62C073, .hsvD 5 6),
     (0x22628073, .hfenceVvma 5 6), (0x62628073, .hfenceGvma 5 6), (0x26628073, .hinvalVvma 5 6),
     (0x66628073, .hinvalGvma 5 6)] = true := by decide

/-- R279 to R282. -/
theorem test_decode_upper_and_jumps : allDecode
    [(0x876543B7, .lui 7 0x87654), (0x87654397, .auipc 7 0x87654), (0xBC6AB3EF, .jal 7 0x1AB3C6),
     (0x7A5283E7, .jalr 7 5 0x7A5)] = true := by decide

/-- R283 to R288. -/
theorem test_decode_branches : allDecode
    [(0xAA628EE3, .beq 5 6 0x1ABC), (0x146293E3, .bne 5 6 0x946), (0xAA62CEE3, .blt 5 6 0x1ABC),
     (0x1462D3E3, .bge 5 6 0x946), (0xAA62EEE3, .bltu 5 6 0x1ABC), (0x1462F3E3, .bgeu 5 6 0x946)] = true := by decide

/-- R289 to R295. -/
theorem test_decode_loads : allDecode
    [(0x92328383, .lb 7 5 0x923), (0x7A529383, .lh 7 5 0x7A5), (0x9232A383, .lw 7 5 0x923),
     (0x7A52C383, .lbu 7 5 0x7A5), (0x9232D383, .lhu 7 5 0x923), (0x7A52E383, .lwu 7 5 0x7A5),
     (0x9232B383, .ld 7 5 0x923)] = true := by decide

/-- R296 to R299. -/
theorem test_decode_stores : allDecode
    [(0x7A6282A3, .sb 5 6 0x7A5), (0x926291A3, .sh 5 6 0x923), (0x7A62A2A3, .sw 5 6 0x7A5),
     (0x9262B1A3, .sd 5 6 0x923)] = true := by decide

/-- R300 to R308. -/
theorem test_decode_immediates : allDecode
    [(0x7A528393, .addi 7 5 0x7A5), (0x9232A393, .slti 7 5 0x923), (0x7A52B393, .sltiu 7 5 0x7A5),
     (0x9232C393, .xori 7 5 0x923), (0x7A52E393, .ori 7 5 0x7A5), (0x9232F393, .andi 7 5 0x923),
     (0x02329393, .slli 7 5 35), (0x0232D393, .srli 7 5 35), (0x4232D393, .srai 7 5 35)] = true := by decide

/-- R309 to R318. -/
theorem test_decode_registers : allDecode
    [(0x006283B3, .add 7 5 6), (0x406283B3, .sub 7 5 6), (0x006293B3, .sll 7 5 6), (0x0062A3B3, .slt 7 5 6),
     (0x0062B3B3, .sltu 7 5 6), (0x0062C3B3, .xor 7 5 6), (0x0062D3B3, .srl 7 5 6), (0x4062D3B3, .sra 7 5 6),
     (0x0062E3B3, .or 7 5 6), (0x0062F3B3, .and 7 5 6)] = true := by decide

/-- R319 to R327. -/
theorem test_decode_words : allDecode
    [(0x9232839B, .addiw 7 5 0x923), (0x0152939B, .slliw 7 5 21), (0x0152D39B, .srliw 7 5 21),
     (0x4152D39B, .sraiw 7 5 21), (0x006283BB, .addw 7 5 6), (0x406283BB, .subw 7 5 6), (0x006293BB, .sllw 7 5 6),
     (0x0062D3BB, .srlw 7 5 6), (0x4062D3BB, .sraw 7 5 6)] = true := by decide

/-- R328 to R329. -/
theorem test_decode_ordering : allDecode
    [(0x8532838F, .fence 7 5 8 5 3), (0x9232938F, .fenceI 7 5 0x923)] = true := by decide

/-- Reserved words and words that are not 32 bits long are refused (R223, R230). -/
theorem test_decode_refuses :
    [0x00000000#32, 0x00200073, 0x04005013, 0x40001033, 0x0000702F, 0x00003063, 0x60204073, 0x12000173, 0x62004173].all
      (fun w => match decodeWord w with
        | .ok _ => false
        | .error _ => true) = true := by decide

/-- The host's reading of a table word (R173). -/
theorem test_decode_table_word : decodeTableWord 32 0x00500093 = some (.addi 1 0 5) := by decide

/-! ### Small states -/

/-- The standard hart in mode (p, v) at 0x1000, with x5 = a and x6 = b. -/
def at_ (p : Priv) (v : Bool) (a b : Word) : State :=
  { State.reset with priv := p, virt := v, pc := 0x1000, regs := ((Vector.replicate 32 0).set 5 a).set 6 b }

/-- An RV32 hart: Sv32 and Sv32x4. -/
def config32 : Config :=
  { Config.standard with
    mxlen := .rv32, paBits := 34, sv32 := true, sv32x4 := true, sv39 := false, sv48 := false, sv57 := false
    sv39x4 := false, sv48x4 := false, sv57x4 := false, svnapot := false, svpbmt := false
    pma := [Region.mainMemory 0 (2 ^ 34)] }

/-- An RV32 hart in M-mode at 0x1000, with x5 = a and x6 = b. -/
def rv32At (a b : Word) : State :=
  { State.resetWith config32 with pc := 0x1000, regs := ((Vector.replicate 32 0).set 5 a).set 6 b }

/-- The standard hart with other parameters, in mode (p, v). -/
def hart (c : Config) (p : Priv) (v : Bool) : State := { State.resetWith c with priv := p, virt := v, pc := 0x1000 }

/-- s with bytes at an address. -/
def holding (s : State) (a : Nat) (bs : List Byte) : State := { s with mem := s.mem.writeBytes a bs }

/-- One input of the platform that changes nothing: time stands still, no signal. -/
def quiet : EnvInput := ⟨Pins.none, 0, 0, [], false, []⟩

/-- x[r] after i. -/
def xAfter (i : Instr) (s : State) (r : Reg) : Option Word :=
  match exec i s with
  | .next t => some (t.x r)
  | _ => none

/-- A field of the state after i. -/
def after {α : Type} (i : Instr) (s : State) (f : State → α) : Option α :=
  match exec i s with
  | .next t => some (f t)
  | _ => none

/-- A field of the state after a step. -/
def stepped {α : Type} (s : State) (f : State → α) : Option α :=
  match step s with
  | .next t => some (f t)
  | _ => none

/-! ### Integer instructions, in M-mode with x5 = a, x6 = b, into x7 -/

/-- x7 after i with x5 = a and x6 = b. -/
def alu (i : Instr) (a b : Word) : Option Word := xAfter i (at_ .m false a b) 7

theorem test_lui : alu (.lui 7 0x80000) 0 0 = some 0xFFFFFFFF80000000 := by decide
theorem test_auipc : alu (.auipc 7 0xFFFFF) 0 0 = some 0 := by decide
theorem test_addi_wraps : alu (.addi 7 5 1) 0xFFFFFFFFFFFFFFFF 0 = some 0 := by decide
theorem test_addi_x0 : xAfter (.addi 0 5 1) (at_ .m false 7 0) 0 = some 0 := by decide
theorem test_slti : alu (.slti 7 5 0xFFF) 0xFFFFFFFFFFFFFFFE 0 = some 1 := by decide
theorem test_sltiu : alu (.sltiu 7 5 0xFFF) 5 0 = some 1 := by decide
theorem test_xori : alu (.xori 7 5 0xFFF) 5 0 = some 0xFFFFFFFFFFFFFFFA := by decide
theorem test_ori : alu (.ori 7 5 0x0F0) 0xF 0 = some 0xFF := by decide
theorem test_andi : alu (.andi 7 5 0xFF0) 0xFFFFFFFFFFFFFFFF 0 = some 0xFFFFFFFFFFFFFFF0 := by decide
theorem test_slli : alu (.slli 7 5 63) 3 0 = some 0x8000000000000000 := by decide
theorem test_srli : alu (.srli 7 5 63) 0x8000000000000000 0 = some 1 := by decide
theorem test_srai : alu (.srai 7 5 62) 0x8000000000000000 0 = some 0xFFFFFFFFFFFFFFFE := by decide
theorem test_slli_rv32 : after (.slli 7 5 32) (rv32At 1 0) (·.mc.mcause) = some 2 := by decide
theorem test_add_wraps : alu (.add 7 5 6) 0xFFFFFFFFFFFFFFFF 2 = some 1 := by decide
theorem test_add_rv32 : xAfter (.add 7 5 6) (rv32At 0x7FFFFFFF 1) 7 = some 0xFFFFFFFF80000000 := by decide
theorem test_sub : alu (.sub 7 5 6) 0 1 = some 0xFFFFFFFFFFFFFFFF := by decide
theorem test_sll_amount : alu (.sll 7 5 6) 1 65 = some 2 := by decide
theorem test_slt : alu (.slt 7 5 6) 0x8000000000000000 1 = some 1 := by decide
theorem test_sltu : alu (.sltu 7 5 6) 0x8000000000000000 1 = some 0 := by decide
theorem test_xor : alu (.xor 7 5 6) 0xF0 0xFF = some 0x0F := by decide
theorem test_srl : alu (.srl 7 5 6) 0x8000000000000000 4 = some 0x0800000000000000 := by decide
theorem test_sra : alu (.sra 7 5 6) 0x8000000000000000 4 = some 0xF800000000000000 := by decide
theorem test_sra_rv32 : xAfter (.sra 7 5 6) (rv32At 0x80000000 36) 7 = some 0xFFFFFFFFF8000000 := by decide
theorem test_or : alu (.or 7 5 6) 0xF0 0x0F = some 0xFF := by decide
theorem test_and : alu (.and 7 5 6) 0xF3 0x3F = some 0x33 := by decide
theorem test_addiw : alu (.addiw 7 5 1) 0x7FFFFFFF 0 = some 0xFFFFFFFF80000000 := by decide
theorem test_slliw : alu (.slliw 7 5 31) 1 0 = some 0xFFFFFFFF80000000 := by decide
theorem test_srliw : alu (.srliw 7 5 4) 0xFFFFFFFF80000000 0 = some 0x08000000 := by decide
theorem test_sraiw : alu (.sraiw 7 5 4) 0x80000000 0 = some 0xFFFFFFFFF8000000 := by decide
theorem test_addw : alu (.addw 7 5 6) 0x7FFFFFFF 1 = some 0xFFFFFFFF80000000 := by decide
theorem test_subw : alu (.subw 7 5 6) 0 1 = some 0xFFFFFFFFFFFFFFFF := by decide
theorem test_sllw : alu (.sllw 7 5 6) 1 33 = some 2 := by decide
theorem test_srlw : alu (.srlw 7 5 6) 0xFFFFFFFF80000000 31 = some 1 := by decide
theorem test_sraw : alu (.sraw 7 5 6) 0x80000000 31 = some 0xFFFFFFFFFFFFFFFF := by decide
theorem test_addw_rv32 : after (.addw 7 5 6) (rv32At 1 1) (·.mc.mcause) = some 2 := by decide

theorem test_jal : after (.jal 7 0x1FFFFC) (at_ .m false 0 0) (fun t => (t.pc, t.x 7)) = some (0xFFC, 0x1004) := by decide
theorem test_jal_misaligned :
    after (.jal 7 2) (at_ .m false 0 0) (fun t => (t.mc.mcause, t.mc.mtval, t.mc.mepc, t.x 7)) = some (0, 0x1002, 0x1000, 0) := by
  decide
/-- rd is also the base. -/
theorem test_jalr : after (.jalr 5 5 1) (at_ .m false 0x2000 0) (fun t => (t.pc, t.x 5)) = some (0x2000, 0x1004) := by decide

/-- The pc after a branch of offset -4 with x5 = a and x6 = b. -/
def branch (i : Reg → Reg → BitVec 13 → Instr) (a b : Word) : Option Word :=
  after (i 5 6 0x1FFC) (at_ .m false a b) (·.pc)

theorem test_beq : branch .beq 3 3 = some 0xFFC ∧ branch .beq 3 4 = some 0x1004 := by decide
theorem test_bne : branch .bne 3 4 = some 0xFFC ∧ branch .bne 3 3 = some 0x1004 := by decide
theorem test_blt : branch .blt 0xFFFFFFFFFFFFFFFF 0 = some 0xFFC ∧ branch .blt 0 0 = some 0x1004 := by decide
theorem test_bge : branch .bge 0 0 = some 0xFFC ∧ branch .bge 0xFFFFFFFFFFFFFFFF 0 = some 0x1004 := by decide
theorem test_bltu : branch .bltu 0 0xFFFFFFFFFFFFFFFF = some 0xFFC ∧ branch .bltu 0 0 = some 0x1004 := by decide
theorem test_bgeu : branch .bgeu 0xFFFFFFFFFFFFFFFF 0 = some 0xFFC ∧ branch .bgeu 0 1 = some 0x1004 := by decide

/-! ### Loads and stores: x5 = 0x3000 -/

/-- Sixteen bytes at 0x3000. -/
def bytes16 : List Byte :=
  [0x81, 0x82, 0x83, 0x84, 0x85, 0x86, 0x87, 0x88, 0x01, 0x02, 0x03, 0x04, 0x05, 0x06, 0x07, 0x08]

/-- M-mode, x5 = 0x3000, x6 = b, the sixteen bytes at 0x3000. -/
def loaded (b : Word) : State := holding (at_ .m false 0x3000 b) 0x3000 bytes16

theorem test_lb : xAfter (.lb 7 5 1) (loaded 0) 7 = some 0xFFFFFFFFFFFFFF82 := by decide
theorem test_lbu : xAfter (.lbu 7 5 1) (loaded 0) 7 = some 0x82 := by decide
theorem test_lh : xAfter (.lh 7 5 2) (loaded 0) 7 = some 0xFFFFFFFFFFFF8483 := by decide
theorem test_lhu : xAfter (.lhu 7 5 2) (loaded 0) 7 = some 0x8483 := by decide
theorem test_lw : xAfter (.lw 7 5 4) (loaded 0) 7 = some 0xFFFFFFFF88878685 := by decide
theorem test_lwu : xAfter (.lwu 7 5 4) (loaded 0) 7 = some 0x88878685 := by decide
theorem test_ld : xAfter (.ld 7 5 8) (loaded 0) 7 = some 0x0807060504030201 := by decide
/-- D10: misaligned accesses raise address-misaligned, code 4. -/
theorem test_lw_misaligned :
    after (.lw 7 5 1) (loaded 0) (fun t => (t.mc.mcause, t.mc.mtval)) = some (4, 0x3001) := by decide

/-- The eight bytes at 0x3000 after a store. -/
def storedBytes (i : Instr) (b : Word) : Option (List Byte) := after i (loaded b) (·.mem.readBytes 0x3000 8)

theorem test_sb : storedBytes (.sb 5 6 1) 0xAABB = some [0x81, 0xBB, 0x83, 0x84, 0x85, 0x86, 0x87, 0x88] := by decide
theorem test_sh : storedBytes (.sh 5 6 2) 0xAABBCC = some [0x81, 0x82, 0xCC, 0xBB, 0x85, 0x86, 0x87, 0x88] := by decide
theorem test_sw : storedBytes (.sw 5 6 0) 0x1122334455 = some [0x55, 0x44, 0x33, 0x22, 0x85, 0x86, 0x87, 0x88] := by decide
theorem test_sd : storedBytes (.sd 5 6 0) 0x1122334455667788 = some [0x88, 0x77, 0x66, 0x55, 0x44, 0x33, 0x22, 0x11] := by decide
/-- A write of the unlisted value keeps memory canonical. -/
theorem test_sb_canonical : after (.sb 5 6 0) (holding (at_ .m false 0x3000 0) 0x3000 [7]) (·.mem) = some [] := by decide
/-- `mtimecmp` is memory-mapped (R187, S6). -/
theorem test_sw_mtimecmp : after (.sw 5 6 4) (at_ .m false 0x2004000 2) (·.mtimecmp) = some 0x200000000 := by decide

/-! ### The hypervisor's loads, stores and fences, from HS-mode with hgatp and vsatp Bare -/

/-- HS-mode, x5 = 0x3000, x6 = b, the sixteen bytes at 0x3000. -/
def hs (b : Word) : State := holding (at_ .s false 0x3000 b) 0x3000 bytes16

theorem test_hlvB : xAfter (.hlvB 7 5) (hs 0) 7 = some 0xFFFFFFFFFFFFFF81 := by decide
theorem test_hlvBu : xAfter (.hlvBu 7 5) (hs 0) 7 = some 0x81 := by decide
theorem test_hlvH : xAfter (.hlvH 7 5) (hs 0) 7 = some 0xFFFFFFFFFFFF8281 := by decide
theorem test_hlvHu : xAfter (.hlvHu 7 5) (hs 0) 7 = some 0x8281 := by decide
theorem test_hlvW : xAfter (.hlvW 7 5) (hs 0) 7 = some 0xFFFFFFFF84838281 := by decide
theorem test_hlvWu : xAfter (.hlvWu 7 5) (hs 0) 7 = some 0x84838281 := by decide
theorem test_hlvD : xAfter (.hlvD 7 5) (hs 0) 7 = some 0x8887868584838281 := by decide
theorem test_hlvxHu : xAfter (.hlvxHu 7 5) (hs 0) 7 = some 0x8281 := by decide
theorem test_hlvxWu : xAfter (.hlvxWu 7 5) (hs 0) 7 = some 0x84838281 := by decide
theorem test_hsvB : after (.hsvB 5 6) (hs 0x99) (·.mem.readBytes 0x3000 2) = some [0x99, 0x82] := by decide
theorem test_hsvH : after (.hsvH 5 6) (hs 0x99AA) (·.mem.readBytes 0x3000 3) = some [0xAA, 0x99, 0x83] := by decide
theorem test_hsvW : after (.hsvW 5 6) (hs 0x11223344) (·.mem.readBytes 0x3000 5) = some [0x44, 0x33, 0x22, 0x11, 0x85] := by decide
theorem test_hsvD : after (.hsvD 5 6) (hs 1) (·.mem.readBytes 0x3000 9) = some [1, 0, 0, 0, 0, 0, 0, 0, 1] := by decide
/-- From VS-mode: virtual instruction, code 22 (R347). -/
theorem test_hlvW_virtual : after (.hlvW 7 5) (at_ .s true 0 0) (·.mc.mcause) = some 22 := by decide

/-- A hart whose S-level widths can change, without Sv32, in mode (p, v) with `mstatus`, `hstatus` and `vsstatus` as given. -/
def widths (p : Priv) (v : Bool) (m h vs : Word) : State :=
  let s := hart { Config.standard with
    sxlWritable := true, uxlWritable := true, vsxlWritable := true, vuxlWritable := true, sfenceIllegalWithoutVm := true } p v
  { s with mc := { s.mc with mstatus := m }, hc := { s.hc with hstatus := h }, vc := { s.vc with vsstatus := vs } }

/-- A guest of 32 bits, VS-mode or VU-mode: the RV64-only forms are virtual instructions where HSXLEN is 64, illegal where it is 32
(R230, R347). -/
theorem test_hlv_wide_virtual :
    let causes (s : State) := [Instr.hlvWu 7 5, .hlvD 7 5, .hsvD 5 6].map fun i => after i s (·.mc.mcause)
    causes (widths .s true 0xA00000000 0x100000000 0) = [some 22, some 22, some 22]
      ∧ causes (widths .u true 0xA00000000 0x200000000 0x100000000) = [some 22, some 22, some 22]
      ∧ causes (widths .s true 0x500000000 0 0) = [some 2, some 2, some 2] := by decide

/-- No paging at SXLEN=32, S-mode of an Sv39 hart having 32 bits: VU-mode, and VS-mode under VTVM, have the virtual instruction all the
same; U-mode, HS-mode, VS-mode without VTVM and M-mode the illegal one (R253, R256, R347). -/
theorem test_sfence_unpaged_order :
    let causes (i : Instr) := [widths .u true 0x500000000 0 0, widths .s true 0x500000000 0x100000 0, widths .u false 0x500000000 0 0,
      widths .s false 0x500000000 0 0, widths .s true 0x500000000 0 0, widths .m false 0x500000000 0 0].map
        fun s => after i s (·.mc.mcause)
    causes (.sfenceVma 0 0) = [some 22, some 22, some 2, some 2, some 2, some 2]
      ∧ causes (.sinvalVma 0 0) = [some 22, some 22, some 2, some 2, some 2, some 2] := by decide

/-- SXL read as 1 when S-mode is enabled again: `hstatus` keeps nothing above bit 31, nor do the registers of VS level, and a MODE that
has no layout of 32 bits is gone (R36, R140). -/
theorem test_fitWidths :
    let s := { widths .m false 0x500000000 0x200000180 0xA00000000 with
      vc.vsatp := 0x8000000000000001, vc.vstvec := 0x100000004, hc.hgatp := 0x8000000080000004 }
    let t := s.fitWidths
    (t.hc.hstatus, t.vc.vsstatus, t.vc.vsatp, t.vc.vstvec, t.hc.hgatp) = (0x180, 0, 1, 4, 4) := by decide

/-- A cached entry of a stage for page number 3. -/
def entry (st : Stage) : CacheEntry := ⟨st, .sv39, 0, 0, 0, 3, 0xC7, true, false⟩

/-- HS-mode, x5 = 0x3000, x6 = 1, an entry of every stage in the cache. -/
def cached : State := { at_ .s false 0x3000 1 with cache := [entry .s, entry .vs, entry .g] }

theorem test_sfenceVma : after (.sfenceVma 5 0) cached (·.cache) = some [entry .vs, entry .g] := by decide
/-- Another ASID: nothing is dropped. -/
theorem test_sfenceVma_asid : after (.sfenceVma 5 6) cached (·.cache) = some [entry .s, entry .vs, entry .g] := by decide
/-- A cached invalid PTE at which a walk for the address ended is dropped with it (R253, R254). -/
theorem test_sfenceVma_invalid :
    after (.sfenceVma 5 0) { at_ .s false 0x3000 0 with cache := [⟨.s, .sv39, 0, 0, 0, 3, 0, true, false⟩] } (·.cache)
      = some [] := by decide
/-- A megapage copy of Sv39 is dropped by its own page size also while S-mode has 32 bits (R253). -/
theorem test_sfenceVma_scheme :
    let e : CacheEntry := ⟨.s, .sv39, 0, 0, 1, 0x401, 0xC7, true, false⟩
    let s := hart { Config.standard with sxlWritable := true, uxlWritable := true, sv32 := true } .s false
    let t := { s with mc := { s.mc with mstatus := 0x500000000 }, cache := [e] }
    let drops (va : Word) := after (.sfenceVma 5 0) { t with regs := (Vector.replicate 32 0).set 5 va } (·.cache)
    drops 0x80200000 = some [] ∧ drops 0x80000000 = some [e] := by decide
/-- Copies serve walks of schemes that number pages alike (R254); none is made for an address that is not valid (R201). -/
theorem test_cache_schemes :
    let w (c : Scheme) := (at_ .s false 0 0).walkS c .load .s
    (entry .s).serves (w .sv39) 0 0x3000 = true ∧ (entry .s).serves (w .sv48) 0 0x3000 = true
      ∧ (entry .s).serves (w .sv32) 0 0x3000 = false
      ∧ [0x3FFFFFFFFF, 0x4000000000, 0xFFFFFFC000000000, 2 ^ 64].map (w .sv39).translates = [true, false, true, false]
      ∧ ((at_ .s false 0 0).walkG .sv39 .load).translates 0x20000000000 = false := by decide
theorem test_sinvalVma : after (.sinvalVma 0 0) cached (·.cache) = some [entry .vs, entry .g] := by decide
theorem test_hfenceVvma : after (.hfenceVvma 5 0) cached (·.cache) = some [entry .s, entry .g] := by decide
/-- The operand is the guest physical address shifted right by 2: 0x3000 * 4 is another page (R275). -/
theorem test_hfenceGvma : after (.hfenceGvma 5 0) cached (·.cache) = some [entry .s, entry .vs, entry .g]
    ∧ after (.hfenceGvma 0 0) cached (·.cache) = some [entry .s, entry .vs] := by decide
/-- HFENCE.GVMA by address drops a cached pointer to its page, SFENCE.VMA leaves one, and neither drops that of another page: gpa
0x40201000 has 0x201 as its upper page numbers (R253, R275). -/
theorem test_fences_pointers :
    let e (st : Stage) (vpn : Nat) : CacheEntry := ⟨st, .sv39, 0, 0, 1, vpn, 0x801, false, false⟩
    let all := [e .g 0x201, e .g 0x200, e .s 0x201]
    after (.hfenceGvma 5 0) { at_ .s false 0x10080400 0 with cache := all } (·.cache) = some [e .g 0x200, e .s 0x201]
      ∧ after (.sfenceVma 5 0) { at_ .s false 0x40201000 0 with cache := all } (·.cache) = some all := by decide
/-- Copies of one NAPOT PTE for two pages of its range: a fence by one page drops that page's (R210, R253). -/
theorem test_sfenceVma_napot :
    let e (page : Nat) : CacheEntry := ⟨.s, .sv39, 0, 0, 0, page, 0x80000000000020CF, true, false⟩
    after (.sfenceVma 5 0) { at_ .s false 0x10ABC 0 with cache := [e 0x10, e 0x11] } (·.cache) = some [e 0x11] := by decide
theorem test_hinvalVvma : after (.hinvalVvma 0 0) cached (·.cache) = some [entry .s, entry .g] := by decide
theorem test_hinvalGvma : after (.hinvalGvma 0 0) cached (·.cache) = some [entry .s, entry .vs] := by decide
theorem test_sfenceWInval : after .sfenceWInval cached (fun t => (t.pc, t.cache)) = some (0x1004, cached.cache) := by decide
theorem test_sfenceInvalIr : after .sfenceInvalIr (at_ .u false 0 0) (·.mc.mcause) = some 2 := by decide
theorem test_fence : after (.fence 0 0 0 15 15) cached (fun t => (t.pc, t.cnt.minstret)) = some (0x1004, 1) := by decide
theorem test_fenceI : after (.fenceI 0 0 0) cached (·.pc) = some 0x1004 := by decide

/-! ### CSR instructions -/

theorem test_csrrw : after (.csrrw 7 0x340 5) { at_ .m false 9 0 with mc.mscratch := 4 } (fun t => (t.x 7, t.mc.mscratch)) = some (4, 9) := by decide
/-- S5 of the test vectors: SEIP is read with the platform's signal, and set without it. -/
theorem test_csrrs_seip :
    after (.csrrs 5 0x344 6) { at_ .m false 0 0x200 with pins.seip := true } (fun t => (t.x 5, t.mc.mip)) = some (0x280, 0x200)
      ∧ after (.csrrs 5 0x344 6) { at_ .m false 0 0 with pins.seip := true } (fun t => (t.x 5, t.mc.mip)) = some (0x280, 0) := by
  decide
theorem test_csrrc : after (.csrrc 7 0x340 5) { at_ .m false 6 0 with mc.mscratch := 3 } (fun t => (t.x 7, t.mc.mscratch)) = some (3, 1) := by decide
theorem test_csrrwi : after (.csrrwi 7 0x340 31) { at_ .m false 0 0 with mc.mscratch := 3 } (fun t => (t.x 7, t.mc.mscratch)) = some (3, 31) := by decide
theorem test_csrrsi : after (.csrrsi 7 0x340 4) { at_ .m false 0 0 with mc.mscratch := 3 } (fun t => (t.x 7, t.mc.mscratch)) = some (3, 7) := by decide
theorem test_csrrci : after (.csrrci 7 0x340 2) { at_ .m false 0 0 with mc.mscratch := 3 } (fun t => (t.x 7, t.mc.mscratch)) = some (3, 1) := by decide
/-- A write of a read-only number is illegal also in M-mode; a read is not (R247). -/
theorem test_csr_read_only : after (.csrrw 7 0xF11 0) (at_ .m false 0 0) (·.mc.mcause) = some 2
    ∧ after (.csrrs 7 0xF11 0) (at_ .m false 0 0) (·.pc) = some 0x1004 := by decide

/-! ### Calls and returns -/

theorem test_ecall :
    after .ecall (at_ .u false 0 0) (fun t => (t.mc.mcause, t.mc.mepc, t.mstatusMPP, t.priv, t.cnt.minstret))
      = some (8, 0x1000, 0, .m, 0) := by decide
/-- Delegated to S-mode (S10 of the test vectors). -/
theorem test_ecall_delegated :
    after .ecall { at_ .u false 0 0 with mc.medeleg := 0x100, sc.stvec := 0x4001 } (fun t => (t.sc.scause, t.sc.sepc, t.pc, t.priv))
      = some (8, 0x1000, 0x4000, .s) := by decide
theorem test_ebreak : after .ebreak (at_ .s true 0 0) (fun t => (t.mc.mcause, t.mc.mtval, t.mstatusMPV)) = some (3, 0x1000, true) := by decide
theorem test_mret :
    after .mret { at_ .m false 0 0 with mc := { State.reset.mc with mstatus := 0xA00020880, mepc := 0x2000 } }
      (fun t => (t.pc, t.priv, t.mstatusMIE, t.mstatusMPP, t.mstatusMPRV)) = some (0x2000, .s, true, 0, false) := by decide
theorem test_sret :
    after .sret { at_ .s false 0 0 with mc.mstatus := 0xA00000120, hc.hstatus := 0x200000080, sc.sepc := 0x2000 }
      (fun t => (t.pc, t.priv, t.virt, t.mstatusSIE, t.hstatusSPV)) = some (0x2000, .s, true, true, false) := by decide
theorem test_mnret : after .mnret (at_ .m false 0 0) (·.mc.mcause) = some 2
    ∧ after .mnret (hart { Config.standard with smrnmi := true } .m false) (fun t => (t.priv, t.mnstatusNMIE, t.pc))
      = some (.u, true, 0) := by decide
theorem test_wfi : after .wfi (at_ .m false 0 0) (·.pc) = some 0x1004
    ∧ after .wfi (at_ .u false 0 0) (·.mc.mcause) = some 2 := by decide

/-! ### Steps from reset -/

theorem test_step_addi : stepped (State.reset.withFetchWord 32 0x00500093) (fun t => (t.x 1, t.pc)) = some (5, 0x80000004) := by decide
theorem test_step_reserved : stepped State.reset (fun t => (t.mc.mcause, t.mc.mepc, t.mc.mtval)) = some (2, 0x80000000, 0) := by decide
/-- Machine timer interrupt, cause 7, Vectored: BASE + 0x1C (S2 of the test vectors). -/
theorem test_step_interrupt :
    stepped { at_ .m false 0 0 with env := [quiet], mc := { State.reset.mc with mie := 0x80, mstatus := 0xA00000008, mtvec := 0x4001 } }
      (fun t => (t.pc, t.mc.mcause, t.mstatusMIE, t.mstatusMPIE)) = some (0x401C, 0x8000000000000007, false, true) := by decide

/-- Another hart's store raises a software interrupt, cause 3 (R187, R359). -/
theorem test_step_foreign_store :
    stepped { at_ .m false 0 0 with
        env := [{ quiet with stores := [(0x2000000, 1)] }], mc := { State.reset.mc with mie := 8, mstatus := 0xA00000008 } }
      (fun t => (t.msip, t.mc.mcause)) = some (1, 0x8000000000000003) := by decide
/-- GVA is 0 with a trap value of 0, though it is a guest virtual address (R343). -/
theorem test_gva_zero :
    after (.lw 7 5 0) { at_ .s true 0 0 with vc.vsatp := 0x8000000000000001 } (fun t => (t.mc.mcause, t.mc.mtval, t.mstatusGVA))
      = some (13, 0, false)
      ∧ after (.lw 7 5 0) { at_ .s true 4 0 with vc.vsatp := 0x8000000000000001 } (fun t => (t.mc.mtval, t.mstatusGVA))
      = some (4, true) := by decide
/-- A run that ends before an ECALL in M-mode, after `addi x10, x0, 5` (R361, D26). -/
theorem test_run :
    (match runUntil State.callsFromM 3
        { holding (at_ .m false 0 0) 0x1000 [0x13, 0x05, 0x50, 0x00, 0x73, 0x00, 0x00, 0x00] with env := [quiet, quiet, quiet] } with
      | .ended t => some (t.pc, t.exitValue)
      | _ => none) = some (0x1004, 5) := by decide

/-! ### Witnesses: states and operands that meet the hypotheses of the statements, one for each clause -/

theorem witness_DecodeInvertsEncode : Instr.wf (.jal 1 0x1FFFFE) = true ∧ Instr.wf (.bgeu 1 2 0xFFE) = true := by decide

theorem witness_EncodeInvertsDecode : decodeWord 0x00500093 = .ok (.addi 1 0 5) := rfl

/-- S-mode at 0x1000 with `addi x1, x0, 5` there. -/
def atAddi : State := { holding (at_ .s false 0 0) 0x1000 [0x93, 0x00, 0x50, 0x00] with env := [quiet] }

/-- The region of main memory. -/
def main_ : Region := Region.mainMemory 0 (2 ^ 56)

/-- The regions of n bytes of main memory. -/
def mains (n : Nat) : List Region := List.replicate n main_

theorem witness_StepRunsDecodedInstruction :
    let u := atAddi.tick.woken
    (atAddi.tick.stalled = false ∧ atAddi.waited = 0) ∧ u.nonMaskable = none ∧ u.interrupt = none
      ∧ u.reach u.fetchAccess u.fetchAccess.va 4 = .ok (0x1000, mains 4, u)
      ∧ decode (u.physRead 0x1000 4) = .ok (.addi 1 0 5, []) ∧ u.wellKeptTables = true :=
  ⟨⟨by decide, rfl⟩, by decide, by decide, rfl, rfl, by decide⟩

/-- The same after a WFI that an enabled interrupt has ended, which S-mode does not take. -/
theorem witness_StepRunsDecodedInstruction_stalled :
    let s := { atAddi with pc := 0xFFC, waited := 2, mc := { atAddi.mc with mie := 2, mip := 2, mideleg := 2 } }
    let u := s.tick.woken
    s.waited ≠ 0 ∧ s.tick.stalled = false ∧ u.nonMaskable = none ∧ u.interrupt = none
      ∧ u.reach u.fetchAccess u.fetchAccess.va 4 = .ok (0x1000, mains 4, u)
      ∧ decode (u.physRead 0x1000 4) = .ok (.addi 1 0 5, []) := ⟨by decide, by decide, by decide, by decide, rfl, rfl⟩

theorem witness_EveryStepKeepsInvariant : atAddi.Inv ∧ (stepped atAddi (·.pc)) = some 0x1004 :=
  ⟨⟨by decide, by decide, by decide, by decide, by decide, by decide, by decide, by decide, by decide⟩, by decide⟩

theorem witness_ImmediateArithmetic_rv32 : (rv32At 1 0).xlen = .rv32 ∧ 32 ≤ (32#6).toNat := by decide

theorem witness_WordArithmetic : (at_ .m false 0 0).xlen = .rv64 := by decide

theorem witness_WordsOfRv64AreIllegalOnRv32 : (rv32At 0 0).xlen = .rv32 := by decide

theorem witness_Jumps : ((at_ .m false 0 0).pc + (4#21).signExtend 64).toNat % 4 = 0
    ∧ ((at_ .m false 0 0).pc + (2#21).signExtend 64).toNat % 4 ≠ 0
    ∧ (setBit ((at_ .m false 0x2001 0).x 5) 0 false).toNat % 4 = 0
    ∧ (setBit ((at_ .m false 0x2003 0).x 5) 0 false).toNat % 4 ≠ 0 := by decide

/-- The conditions of the branches, met and not met, with targets aligned and not. -/
theorem witness_Branches :
    let s := at_ .m false 0xFFFFFFFFFFFFFFFF 0
    let e := at_ .m false 1 1
    e.xNat 5 = e.xNat 6 ∧ s.xNat 5 ≠ s.xNat 6 ∧ s.xInt 5 < s.xInt 6 ∧ ¬ e.xInt 5 < e.xInt 6 ∧ e.xInt 5 ≥ e.xInt 6
      ∧ ¬ s.xInt 5 ≥ s.xInt 6 ∧ s.xNat 6 < s.xNat 5 ∧ ¬ e.xNat 5 < e.xNat 6 ∧ s.xNat 5 ≥ s.xNat 6 ∧ ¬ s.xNat 6 ≥ s.xNat 5
      ∧ (s.pc + (0xFFE#13).signExtend 64).toNat % 4 ≠ 0 ∧ (s.pc + (0x1000#13).signExtend 64).toNat % 4 = 0 := by decide

/-- MPRV set with each MPP, and with NMIE clear on a hart with Smrnmi, where it is ignored. -/
theorem witness_AccessesAreMadeInTheirMode :
    let s (mstatus : Word) := { at_ .m false 0 0 with mc.mstatus := mstatus }
    let nmi := { hart { Config.standard with smrnmi := true } .m false with mc.mstatus := 0xA00020000 }
    (at_ .s false 0 0).priv ≠ .m ∧ bit (at_ .m false 0 0).mc.mstatus 17 = false
      ∧ ((s 0xA00021800).priv = .m ∧ bit (s 0xA00021800).mc.mstatus 17 = true ∧ (s 0).cfg.smrnmi = false
        ∧ field (s 0xA00021800).mc.mstatus 11 2 = 3#2 ∧ field (s 0xA00020800).mc.mstatus 11 2 = 1#2
        ∧ field (s 0xA00020000).mc.mstatus 11 2 = 0#2)
      ∧ (nmi.cfg.smrnmi = true ∧ bit nmi.mc.mnstatus 3 = false ∧ bit nmi.mc.mstatus 17 = true) := by decide

/-- MPRV with MPP = U and MPV; HLV with SPVP; NMIE clear. -/
theorem test_effective_mode :
    let a := { at_ .m false 0 0 with mc.mstatus := 0x8A00020000 }.plainAccess .load 4 0 0
    let g := { at_ .m false 0 0 with hc.hstatus := 0x200000100 }.guestAccess .load 4 0 0
    let n := { hart { Config.standard with smrnmi := true } .m false with mc.mstatus := 0xA00020000 }.plainAccess .load 4 0 0
    (a.p, a.v) = (.u, true) ∧ (g.p, g.v) = (.s, true) ∧ (n.p, n.v) = (.m, false) := by decide

/-- The access of a load or store at x5, aligned, reaching main memory; the last eight bytes of it. -/
theorem witness_LoadsComplete :
    let s := at_ .m false 0xFFFFFFFFFFFFF8 0
    let a (i : Instr) (n : Nat) := s.plainAccess .load n (s.x 5 + (0#12).signExtend 64) (loadForm i)
    (s.InOnePart (a (.lb 7 5 0) 1) ∧ s.reach (a (.lb 7 5 0) 1) 0xFFFFFFFFFFFFF8 1 = .ok (0xFFFFFFFFFFFFF8, mains 1, s))
      ∧ (s.InOnePart (a (.lh 7 5 0) 2) ∧ s.reach (a (.lh 7 5 0) 2) 0xFFFFFFFFFFFFF8 2 = .ok (0xFFFFFFFFFFFFF8, mains 2, s))
      ∧ (s.InOnePart (a (.lw 7 5 0) 4) ∧ s.reach (a (.lw 7 5 0) 4) 0xFFFFFFFFFFFFF8 4 = .ok (0xFFFFFFFFFFFFF8, mains 4, s))
      ∧ (s.InOnePart (a (.ld 7 5 0) 8) ∧ s.reach (a (.ld 7 5 0) 8) 0xFFFFFFFFFFFFF8 8 = .ok (0xFFFFFFFFFFFFF8, mains 8, s))
      ∧ s.xlen = .rv64 :=
  ⟨⟨by unfold State.InOnePart; decide, rfl⟩, ⟨by unfold State.InOnePart; decide, rfl⟩,
    ⟨by unfold State.InOnePart; decide, rfl⟩, ⟨by unfold State.InOnePart; decide, rfl⟩, rfl⟩

theorem witness_StoresComplete :
    let s := loaded 0
    let a (i : Instr) (n : Nat) := s.plainAccess .store n (s.x 5 + (0#12).signExtend 64) (storeForm i)
    s.mem.wf = true ∧ s.xlen = .rv64 ∧ (∀ j, j < 8 → s.deviceAt (0x3000 + j) = none)
      ∧ (s.InOnePart (a (.sb 5 6 0) 1) ∧ s.reach (a (.sb 5 6 0) 1) 0x3000 1 = .ok (0x3000, mains 1, s))
      ∧ (s.InOnePart (a (.sh 5 6 0) 2) ∧ s.reach (a (.sh 5 6 0) 2) 0x3000 2 = .ok (0x3000, mains 2, s))
      ∧ (s.InOnePart (a (.sw 5 6 0) 4) ∧ s.reach (a (.sw 5 6 0) 4) 0x3000 4 = .ok (0x3000, mains 4, s))
      ∧ (s.InOnePart (a (.sd 5 6 0) 8) ∧ s.reach (a (.sd 5 6 0) 8) 0x3000 8 = .ok (0x3000, mains 8, s)) :=
  ⟨by decide, rfl, by decide, ⟨by unfold State.InOnePart; decide, rfl⟩, ⟨by unfold State.InOnePart; decide, rfl⟩,
    ⟨by unfold State.InOnePart; decide, rfl⟩, ⟨by unfold State.InOnePart; decide, rfl⟩⟩

/-- A store to the upper half of `mtimecmp`. -/
theorem witness_StoresComplete_device :
    let s := at_ .m false 0x2004004 0
    let a := s.plainAccess .store 4 (s.x 5 + (0#12).signExtend 64) (storeForm (.sw 5 6 0))
    s.mem.wf = true ∧ s.InOnePart a
      ∧ s.reach a a.va 4 = .ok (0x2004004, List.replicate 4 (Region.timer .mtimecmp 0x2004000 8 [4, 8]), s)
      ∧ (∀ j, j < 4 → s.deviceAt (0x2004004 + j) = some (.mtimecmp, 4 + j)) ∧ 4 + a.width ≤ 8 :=
  ⟨rfl, by unfold State.InOnePart; decide, rfl, by decide, by decide⟩

/-- U-mode with `hstatus.HU` and SPVP, x5 = 0x3000. -/
def hu : State := { hs 0 with priv := .u, hc.hstatus := 0x200000300 }

theorem witness_VirtualMachineLoadsComplete :
    hu.hasH = true ∧ hu.virt = false ∧ (hu.priv = .u → hu.hstatusHU = true) ∧ hu.xlen = .rv64
      ∧ (let a := hu.guestAccess .load 8 (hu.x 5) (guestForm (.hlvD 7 5))
         hu.InOnePart a ∧ hu.reach a a.va a.width = .ok (0x3000, mains 8, hu))
      ∧ (let a := hu.guestAccess .load 4 (hu.x 5) (guestForm (.hlvW 7 5))
         hu.InOnePart a ∧ hu.reach a a.va a.width = .ok (0x3000, mains 4, hu))
      ∧ (let a := hu.guestAccess .load 2 (hu.x 5) (guestForm (.hlvH 7 5))
         hu.InOnePart a ∧ hu.reach a a.va a.width = .ok (0x3000, mains 2, hu))
      ∧ (let a := hu.guestAccess .load 1 (hu.x 5) (guestForm (.hlvB 7 5))
         hu.InOnePart a ∧ hu.reach a a.va a.width = .ok (0x3000, mains 1, hu))
      ∧ (let a := hu.guestAccess .execLoad 2 (hu.x 5) (guestForm (.hlvxHu 7 5))
         hu.InOnePart a ∧ hu.reach a a.va a.width = .ok (0x3000, mains 2, hu))
      ∧ (let a := hu.guestAccess .execLoad 4 (hu.x 5) (guestForm (.hlvxWu 7 5))
         hu.InOnePart a ∧ hu.reach a a.va a.width = .ok (0x3000, mains 4, hu)) :=
  ⟨by decide, by decide, by decide, by decide, ⟨by unfold State.InOnePart; decide, rfl⟩,
    ⟨by unfold State.InOnePart; decide, rfl⟩, ⟨by unfold State.InOnePart; decide, rfl⟩,
    ⟨by unfold State.InOnePart; decide, rfl⟩, ⟨by unfold State.InOnePart; decide, rfl⟩,
    ⟨by unfold State.InOnePart; decide, rfl⟩⟩

theorem witness_VirtualMachineStoresComplete :
    hu.hasH = true ∧ hu.virt = false ∧ (hu.priv = .u → hu.hstatusHU = true) ∧ hu.mem.wf = true
      ∧ (∀ j, j < 8 → hu.deviceAt (0x3000 + j) = none)
      ∧ (let a := hu.guestAccess .store 1 (hu.x 5) (guestForm (.hsvB 5 6))
         hu.InOnePart a ∧ hu.reach a a.va a.width = .ok (0x3000, mains 1, hu))
      ∧ (let a := hu.guestAccess .store 2 (hu.x 5) (guestForm (.hsvH 5 6))
         hu.InOnePart a ∧ hu.reach a a.va a.width = .ok (0x3000, mains 2, hu))
      ∧ (let a := hu.guestAccess .store 4 (hu.x 5) (guestForm (.hsvW 5 6))
         hu.InOnePart a ∧ hu.reach a a.va a.width = .ok (0x3000, mains 4, hu))
      ∧ (let a := hu.guestAccess .store 8 (hu.x 5) (guestForm (.hsvD 5 6))
         hu.InOnePart a ∧ hu.reach a a.va a.width = .ok (0x3000, mains 8, hu)) :=
  ⟨by decide, by decide, by decide, by decide, by decide, ⟨by unfold State.InOnePart; decide, rfl⟩,
    ⟨by unfold State.InOnePart; decide, rfl⟩, ⟨by unfold State.InOnePart; decide, rfl⟩,
    ⟨by unfold State.InOnePart; decide, rfl⟩⟩

/-! #### Page tables: root at page 1 -/

/-- s with a PTE in memory. -/
def withPte (s : State) (a : Nat) (p : Word) : State := holding s a (lowBytes p 8)

/-- The address whose page numbers are 1, 1, 1 under Sv39. -/
def va_ : Word := 0x40201ABC

/-- S-mode under Sv39, tables at pages 1, 2 and 3, the last holding `leaf`; A and D as `ad` says. -/
def paged (ad : AdScheme) (leaf : Word) : State :=
  withPte (withPte (withPte
    { hart { Config.standard with adScheme := ad } .s false with
      sc.satp := 0x8000000000000001, regs := (Vector.replicate 32 0).set 5 va_ } 0x1008 0x801) 0x2008 0xC01) 0x3008 leaf

/-- The same with the tables under `hgatp`. -/
def guestPagedOn (ad : AdScheme) (leaf : Word) : State :=
  withPte (withPte (withPte
    { hart { Config.standard with adScheme := ad } .s true with
      hc.hgatp := 0x8000000000000001, regs := (Vector.replicate 32 0).set 5 va_ } 0x1008 0x801) 0x2008 0xC01) 0x3008 leaf

/-- The same without hardware updates. -/
def guestPaged (leaf : Word) : State := guestPagedOn .svade leaf

/-- Two stages, every table empty. -/
def twoStage : State :=
  { hart Config.standard .s true with
    vc.vsatp := 0x8000000000000001, hc.hgatp := 0x8000000000000002, regs := (Vector.replicate 32 0).set 5 va_ }

/-- An S-mode hart at a device the spec does not describe. -/
def atDevice : State :=
  hart { Config.standard with
    pma := [{ Region.mainMemory 0x10000 0x1000 with kind := .io }, Region.mainMemory 0 0x10000] } .s false

/-- The load of a doubleword at x5. -/
def ldAccess (s : State) : Access := s.plainAccess .load 8 (s.x 5 + (4#12).signExtend 64) (loadForm (.ld 7 5 4))

/-- The store of a doubleword at x5. -/
def sdAccess (s : State) : Access := s.plainAccess .store 8 (s.x 5 + (4#12).signExtend 64) (storeForm (.sd 5 6 4))

theorem witness_AbortedAccessesRaise_page :
    let s := paged .svade 0
    s.InOnePart (ldAccess s) ∧ s.reach (ldAccess s) (ldAccess s).va 8 = .error .page
      ∧ s.InOnePart (sdAccess s) ∧ s.reach (sdAccess s) (sdAccess s).va 8 = .error .page :=
  ⟨by unfold State.InOnePart; decide, rfl, by unfold State.InOnePart; decide, rfl⟩

theorem witness_AbortedAccessesRaise_access :
    let s := at_ .s false 0xFFFFFFFFFFFFFC 0
    s.InOnePart (ldAccess s) ∧ s.reach (ldAccess s) (ldAccess s).va 8 = .error .access
      ∧ s.InOnePart (sdAccess s) ∧ s.reach (sdAccess s) (sdAccess s).va 8 = .error .access :=
  ⟨by unfold State.InOnePart; decide, rfl, by unfold State.InOnePart; decide, rfl⟩

theorem witness_AbortedAccessesRaise_guestPage :
    let s := guestPaged 0
    s.InOnePart (ldAccess s) ∧ s.reach (ldAccess s) (ldAccess s).va 8 = .error (.guestPage 0x40201AC0 none)
      ∧ s.InOnePart (sdAccess s) ∧ s.reach (sdAccess s) (sdAccess s).va 8 = .error (.guestPage 0x40201AC0 none) :=
  ⟨by unfold State.InOnePart; decide, rfl, by unfold State.InOnePart; decide, rfl⟩

/-- The read of a VS-stage PTE faults in G-stage. -/
theorem witness_AbortedAccessesRaise_implicit :
    twoStage.InOnePart (ldAccess twoStage)
      ∧ twoStage.reach (ldAccess twoStage) (ldAccess twoStage).va 8 = .error (.guestPage 0x1008 (some false)) :=
  ⟨by unfold State.InOnePart; decide, rfl⟩

theorem witness_AbortedAccessesRaise_stop :
    let s := { atDevice with regs := (Vector.replicate 32 0).set 5 0xFFFC }
    s.InOnePart (ldAccess s) ∧ s.reach (ldAccess s) (ldAccess s).va 8 = .error (.stop (.undescribedDevice 0x10000)) :=
  ⟨by unfold State.InOnePart; decide, rfl⟩

theorem witness_AbortedAccessesRaise_misaligned :
    let s := loaded 0
    s.cfg.misaligned = false ∧ (s.plainAccess .load 2 (s.x 5 + (1#12).signExtend 64) (loadForm (.lh 7 5 1))).va.toNat % 2 ≠ 0 := by
  decide

theorem witness_AbortedVirtualMachineAccessesRaise :
    let s := { guestPaged 0 with virt := false }
    let a := s.guestAccess .load 4 (s.x 5) (guestForm (.hlvW 7 5))
    let b := s.guestAccess .store 4 (s.x 5) (guestForm (.hsvW 5 6))
    s.hasH = true ∧ s.virt = false ∧ (s.priv = .u → s.hstatusHU = true)
      ∧ s.InOnePart a ∧ s.reach a a.va 4 = .error (.guestPage 0x40201ABC none)
      ∧ s.InOnePart b ∧ s.reach b b.va 4 = .error (.guestPage 0x40201ABC none) :=
  ⟨by decide, by decide, by decide, by unfold State.InOnePart; decide, rfl, by unfold State.InOnePart; decide, rfl⟩

/-- The other causes: VS-stage page fault, vacant address, implicit guest-page fault, device, misaligned. -/
theorem witness_AbortedVirtualMachineAccessesRaise_others :
    let a (s : State) := s.guestAccess .load 4 (s.x 5) (guestForm (.hlvW 7 5))
    let page := { twoStage with virt := false, hc.hgatp := 0 }
    let vacant := at_ .s false 0x100000000000000 0
    let implicit := { twoStage with virt := false }
    let device := { atDevice with regs := (Vector.replicate 32 0).set 5 0x10000 }
    (page.InOnePart (a page) ∧ page.reach (a page) (a page).va 4 = .error .page)
      ∧ (vacant.InOnePart (a vacant) ∧ vacant.reach (a vacant) (a vacant).va 4 = .error .access)
      ∧ (implicit.InOnePart (a implicit) ∧ implicit.reach (a implicit) (a implicit).va 4 = .error (.guestPage 0x1008 (some false)))
      ∧ (device.InOnePart (a device) ∧ device.reach (a device) (a device).va 4 = .error (.stop (.undescribedDevice 0x10000)))
      ∧ (a (at_ .s false 0x3002 0)).va.toNat % 4 ≠ 0 ∧ (at_ .s false 0 0).cfg.misaligned = false := by
  refine ⟨⟨?_, rfl⟩, ⟨?_, rfl⟩, ⟨?_, rfl⟩, ⟨?_, rfl⟩, by decide, by decide⟩ <;> (unfold State.InOnePart; decide)

/-- A hart that attempts misaligned accesses, x5 = 0x1FFE, with memory from 0 up to `top`. -/
def splitting (top : Nat) : State :=
  { hart { Config.standard with misaligned := true, pma := [{ Region.mainMemory 0 top with misaligned := [2, 4, 8] }] } .m false with
    regs := (Vector.replicate 32 0).set 5 0x1FFE }

/-- The regions of n bytes of the memory of `splitting`. -/
def splitMains (top n : Nat) : List Region := List.replicate n { Region.mainMemory 0 top with misaligned := [2, 4, 8] }

theorem witness_SplitAccessesHaveTwoParts_load :
    let s := splitting 0x10000
    let a := s.plainAccess .load 4 (s.x 5 + (0#12).signExtend 64) (loadForm (.lw 7 5 0))
    s.cfg.misaligned = true ∧ 2 = 4096 - a.va.toNat % 4096 ∧ 2 < a.width ∧ s.xlen = .rv64
      ∧ s.reachPart a a.va 2 (s.secondBytes a) = .ok (0x1FFE, splitMains 0x10000 2, s)
      ∧ s.reachPart a (s.secondAddress a) (a.width - 2) (bytesAt 0x1FFE 2) = .ok (0x2000, splitMains 0x10000 2, s) :=
  ⟨by decide, by decide, by decide, rfl, rfl, rfl⟩

/-- One byte in the first page, by HLV.D, whose second part lies above memory. -/
theorem witness_SplitAccessesHaveTwoParts_guest :
    let s := { splitting 0x2000 with regs := (Vector.replicate 32 0).set 5 0x1FFF }
    let a := s.guestAccess .load 8 (s.x 5) (guestForm (.hlvD 7 5))
    s.hasH = true ∧ s.virt = false ∧ (s.priv = .u → s.hstatusHU = true) ∧ 1 = 4096 - a.va.toNat % 4096 ∧ 1 < a.width
      ∧ s.reachPart a a.va 1 (s.secondBytes a) = .ok (0x1FFF, splitMains 0x2000 1, s)
      ∧ s.reachPart a (s.secondAddress a) (a.width - 1) (bytesAt 0x1FFF 1) = .error .access :=
  ⟨rfl, rfl, by decide, by decide, by decide, rfl, rfl⟩

/-- A store whose parts both reach memory, and two whose second part does not. -/
theorem witness_SplitAccessesHaveTwoParts_store :
    let s := splitting 0x10000
    let a (s : State) := s.plainAccess .store 4 (s.x 5 + (0#12).signExtend 64) (storeForm (.sw 5 6 0))
    let first (s : State) := s.reachPart (a s) (a s).va 2 (s.secondBytes (a s))
    let left (s : State) (pa : Nat) := s.physWrite pa ((bytesOfValue (s.bigEndian (a s).p (a s).v) 4 (s.x 6)).take 2)
    let second (s : State) (pa : Nat) := (left s pa).reachPart (a s) (s.secondAddress (a s)) 2 (bytesAt pa 2)
    let short := splitting 0x2000
    let page := { paged .svade 0x20C7 with
      cfg := { Config.standard with misaligned := true, pma := [{ Region.mainMemory 0 0x100000 with misaligned := [2, 4, 8] }] }
      regs := (Vector.replicate 32 0).set 5 0x40201FFE }
    (s.cfg.misaligned = true ∧ 2 = 4096 - (a s).va.toNat % 4096 ∧ 2 < (a s).width
        ∧ first s = .ok (0x1FFE, splitMains 0x10000 2, s)
        ∧ second s 0x1FFE = .ok (0x2000, splitMains 0x10000 2, left s 0x1FFE)
        ∧ s.mem.wf = true ∧ s.wellKeptTables = true
        ∧ (∀ j, j < 2 → s.deviceAt (0x1FFE + j) = none) ∧ ∀ j, j < 2 → s.deviceAt (0x2000 + j) = none)
      ∧ (first short = .ok (0x1FFE, splitMains 0x2000 2, short)
        ∧ second short 0x1FFE = .error .access)
      ∧ (first page = .ok (0x8FFE, splitMains 0x100000 2, page)
        ∧ second page 0x8FFE = .error .page) :=
  ⟨⟨rfl, by decide, by decide, rfl, rfl, rfl, by decide, by decide, by decide⟩, ⟨rfl, rfl⟩, ⟨rfl, rfl⟩⟩

/-- The first part lies in a page that is not mapped. -/
theorem witness_SplitAccessesHaveTwoParts_first :
    let s := { paged .svade 0 with
      cfg := { Config.standard with misaligned := true }, regs := (Vector.replicate 32 0).set 5 0x40201FFE }
    let a := s.plainAccess .load 4 (s.x 5 + (0#12).signExtend 64) (loadForm (.lw 7 5 0))
    2 = 4096 - a.va.toNat % 4096 ∧ s.reachPart a a.va 2 (s.secondBytes a) = .error .page := ⟨by decide, rfl⟩

/-- The second page has no G-stage leaf: the guest-page fault is at the page boundary (R220, R342). -/
def guestSplit : State :=
  { guestPaged 0x20D7 with
    cfg := { Config.standard with misaligned := true, pma := [{ Region.mainMemory 0 0x100000 with misaligned := [2, 4, 8] }] }
    regs := (Vector.replicate 32 0).set 5 0x40201FFE }

theorem witness_SplitAccessesHaveTwoParts_guestPage :
    let s := guestSplit
    let a := s.plainAccess .load 4 (s.x 5 + (0#12).signExtend 64) (loadForm (.lw 7 5 0))
    2 = 4096 - a.va.toNat % 4096 ∧ s.reachPart a a.va 2 (s.secondBytes a) = .ok (0x8FFE, splitMains 0x100000 2, s)
      ∧ s.reachPart a (s.secondAddress a) (a.width - 2) (bytesAt 0x8FFE 2) = .error (.guestPage 0x40202000 none) :=
  ⟨by decide, rfl, rfl⟩

theorem test_split_guest_page_fault :
    after (.lw 7 5 0) guestSplit (fun t => (t.mc.mcause, t.mc.mtval, t.mc.mtval2)) = some (21, 0x40202000, 0x10080800) := by decide

/-- A region that does not support misaligned accesses turns away a misaligned access also where its parts are aligned. -/
theorem test_split_unsupported :
    let s := { splitting 0x10000 with cfg.pma := [Region.mainMemory 0 0x10000] }
    after (.lw 7 5 0) s (·.mc.mcause) = some 5 := by decide

/-- What is main memory is idempotent, so that a misaligned load of it completes, also in a map that says otherwise; such a map is not
legal, nor is one with I/O under RVWMO (R178, R179, R184). -/
theorem test_main_memory_idempotent :
    let r : Region := { Region.mainMemory 0 0x10000 with misaligned := [4], idempotentReads := false }
    after (.lw 7 5 0) { splitting 0x10000 with cfg.pma := [r] } (·.mc.mcause) = some 0
      ∧ after (.lw 7 5 0) { splitting 0x10000 with cfg.pma := [{ r with kind := .ioMemory }] } (·.mc.mcause) = some 5
      ∧ r.wf = false ∧ { Region.mainMemory 0 8 with order := .relaxed }.wf = false
      ∧ { Region.mainMemory 0 8 with kind := .ioMemory }.wf = false
      ∧ { Region.mainMemory 0 8 with kind := .ioMemory, order := .relaxed, idempotentReads := false }.wf = true := by decide

/-- A misaligned atomicity granule larger than a page lets an access that crosses a page boundary inside it pass, and no other, also
in memory that is not idempotent (R180). -/
theorem test_split_granule :
    let r : Region := { Region.mainMemory 0 0x10000 with
      kind := .ioMemory, granule := some 8192, idempotentReads := false, idempotentWrites := false }
    let loads (addr : Word) := after (.lw 7 5 0)
      { hart { Config.standard with misaligned := true, pma := [r] } .m false with regs := (Vector.replicate 32 0).set 5 addr }
      (fun t => (t.mc.mcause, t.pc))
    loads 0xFFE = some (0, 0x1004) ∧ loads 0x1FFE = some (5, 0) := by decide

/-- Misaligned support is asked by width (R8, R175). -/
theorem test_misaligned_by_width :
    let s : State := { splitting 0x10000 with
      cfg.pma := [{ Region.mainMemory 0 0x10000 with misaligned := [4] }], regs := (Vector.replicate 32 0).set 5 0x3001 }
    after (.lw 7 5 0) s (·.mc.mcause) = some 0 ∧ after (.lh 7 5 0) s (·.mc.mcause) = some 5 := by decide

/-- An M-mode hart with a cache and sixteen PMP entries, x5 = 0x400. -/
def pmpCached : State :=
  { hart { Config.standard with pmpCount := 16, tlb := true } .m false with regs := (Vector.replicate 32 0).set 5 0x400 }

/-- A write of a PMP register keeps the old ones for checks of either kind, until SFENCE.VMA x0, x0 and HFENCE.GVMA x0, x0; a fence by
address ends nothing (R199, R356). Without a cache nothing is kept. -/
theorem test_pmp_copies :
    let guests (i : Instr) (s : State) := after i s fun t => t.pmpCopies.map (·.guest)
    let zero : Vector (BitVec 8) 64 := Vector.replicate 64 0
    let t := { pmpCached with pmpCopies := [⟨false, zero, Vector.replicate 64 0⟩, ⟨true, zero, Vector.replicate 64 0⟩] }
    guests (.csrrw 7 0x3B0 5) pmpCached = some [false, true]
      ∧ guests (.sfenceVma 0 0) t = some [true] ∧ guests (.sfenceVma 5 0) t = some [false, true]
      ∧ guests (.hfenceGvma 0 0) t = some [false] ∧ guests (.hfenceVvma 0 0) t = some [false, true]
      ∧ guests (.csrrw 7 0x3B0 5) { pmpCached with cfg.tlb := false } = some [] := by decide

/-- After a write that opens memory below 0x1000 to S-mode, a check there may go by the old registers, which deny it (R199). -/
theorem witness_MachineAccessesAreUntranslated_kept :
    let s := { pmpCached with
      priv := .s, pmpCopies := [⟨false, Vector.replicate 64 0, Vector.replicate 64 0⟩]
      mc.pmpcfg := (Vector.replicate 64 0).set 0 0x0F, mc.pmpaddr := (Vector.replicate 64 0).set 0 0x400 }
    (s.pmpViews false).map (·.pmpAllows 0x800 4 .s .load) = [true, false] ∧ (s.pmpViews true).length = 1
      ∧ { s with pmpCopies := [] }.pmpCopies = [] := by decide

/-- A store within one granule is a single operation: denied in its second page, it leaves nothing of the first (R180). -/
theorem test_granule_store_is_atomic :
    let s := hart { Config.standard with
      misaligned := true, pmpCount := 16, pma := [{ Region.mainMemory 0 0x10000 with granule := some 8192 }] } .s false
    let t := { s with
      regs := ((Vector.replicate 32 0).set 5 0xFFE).set 6 0xFFFFFFFFFFFFFFFF
      mc := { s.mc with pmpcfg := (Vector.replicate 64 0).set 0 0x0F, pmpaddr := (Vector.replicate 64 0).set 0 0x400 } }
    after (.sw 5 6 0) t (fun u => (u.mc.mcause, u.mc.mtval, u.mem)) = some (7, 0x1000, []) := by decide

/-- S-mode with misaligned accesses, x5 = 0x802, of which PMP permits memory below 0x804 alone. -/
def halfDenied : State :=
  let s := hart { Config.standard with
    misaligned := true, pmpCount := 16, pma := [{ Region.mainMemory 0 0x10000 with misaligned := [2, 4, 8] }] } .s false
  { s with
    regs := ((Vector.replicate 32 0).set 5 0x802).set 6 0x44332211
    mc := { s.mc with pmpcfg := (Vector.replicate 64 0).set 0 0x0F, pmpaddr := (Vector.replicate 64 0).set 0 0x201 } }

/-- A misaligned store in one page that is denied: not one operation, and the bytes that PMP permits can stay (R176). -/
theorem witness_AbortedAccessesRaise_partial :
    let s := halfDenied
    let a := s.plainAccess .store 4 (s.x 5 + (0#12).signExtend 64) (storeForm (.sw 5 6 0))
    s.InOnePart a ∧ s.reach a a.va 4 = .error .access ∧ a.va.toNat % a.width ≠ 0 ∧ s.oneGranule a = false
      ∧ (List.range 4).map (fun j => s.byteCanStay a (0x802 + j)) = [true, true, false, false] :=
  ⟨by unfold State.InOnePart; decide, rfl, by decide, by decide, by decide⟩

/-- The portion of it that is denied, bytes 2 and 3, faults by itself, and so may be the one named; bytes 0 and 1 do not (R176, R342). -/
theorem witness_AbortedAccessesRaise_portion :
    let s := halfDenied
    let a := s.plainAccess .store 4 (s.x 5 + (0#12).signExtend 64) (storeForm (.sw 5 6 0))
    s.FaultsAt (s.MayDivide a) a a.va 4 [] .access 2 2
      ∧ s.faultsAlike a a.va 2 (s.partBytes a a.va 4) .access = false :=
  ⟨.inr ⟨⟨by decide, by decide⟩, by decide, by decide, rfl⟩, by decide⟩

/-- Where bytes 0 and 1 stay they are stored, and nothing else is (R176). -/
theorem test_bytes_that_stay :
    let s := halfDenied
    (s.setPhysByte 0x802 0x11).setPhysByte 0x803 0x22 = { s with mem := [(0x802, 0x11), (0x803, 0x22)] } := by decide

/-- Execute support is asked by width: HLVX.HU of a region that supports fetches and HLVX.WU alone (R178, R179). -/
theorem test_exec_by_width :
    let s : State := { hart { Config.standard with pma := [{ Region.mainMemory 0 0x10000 with exec := [4] }] } .s false with
      regs := (Vector.replicate 32 0).set 5 0x3000 }
    after (.hlvxHu 7 5) s (·.mc.mcause) = some 5 ∧ after (.hlvxWu 7 5) s (·.mc.mcause) = some 0 := by decide

/-- A guest-page fault that does not write the virtual address writes no guest physical one (R220, R344). -/
theorem test_tval2_needs_tval :
    let s := { guestPaged 0 with cfg.tvalInfo := 0 }
    after (.ld 7 5 4) s (fun t => (t.mc.mcause, t.mc.mtval, t.mc.mtval2)) = some (21, 0, 0)
      ∧ after (.ld 7 5 4) (guestPaged 0) (·.mc.mtval2) = some 0x100806B0 := by decide

/-- M-mode with sixteen PMP entries: entry 0 off, entry 1 TOR up to 0x1000, entry 2 the four bytes at 0x2000, locked, entry 3
the 32 bytes at 0x3000, without W. -/
def pmpHart : State :=
  { hart { Config.standard with pmpCount := 16 } .m false with
    regs := (Vector.replicate 32 0).set 5 0xFF
    mc.pmpcfg := (((Vector.replicate 64 0).set 1 0x0F).set 2 0x91).set 3 0x1D
    mc.pmpaddr := (((Vector.replicate 64 0).set 1 0x400).set 2 0x800).set 3 0xC03 }

/-- Memory in two regions, of which the lower cannot be written, an I/O memory without misaligned accesses or idempotency but for
granules of 8 bytes above, and a device the spec does not describe, not idempotent, with misaligned accesses of 4 bytes. -/
def twoRegions : State :=
  hart { Config.standard with
    misaligned := true
    pma := [{ Region.mainMemory 0 0x10002 with writes := [], misaligned := [2, 4, 8] },
      { Region.mainMemory 0x10002 0xFFFE with misaligned := [2, 4, 8] },
      { Region.mainMemory 0x20000 0x1000 with
        kind := .ioMemory, misaligned := [2, 4, 8], granule := some 8, idempotentReads := false, idempotentWrites := false },
      { Region.mainMemory 0x30000 0x1000 with
        kind := .io, misaligned := [4], idempotentReads := false, idempotentWrites := false }] } .m false

/-- An access of M-mode to an address. -/
def machineAccess (need : Need) (n : Nat) (va : Word) : Access :=
  { need := need, width := n, va := va, p := .m, v := false, form := 0 }

/-- Each clause: vacant, not supported by the region of one byte, denied by PMP, reaching the end of the address space, two regions
that both support it, one granule, two granules, an undescribed device, reached and misaligned. -/
theorem witness_MachineAccessesAreUntranslated :
    let s := at_ .m false 0 0
    let t := twoRegions
    let kinds (s : State) (b : Nat) := (s.regionAt b).map (·.kind)
    s.regionAt 0x100000000000000 = none
      ∧ ((t.regionAt 0x10001).map (·.writes) = some [] ∧ (t.regionAt 0x10002).map (·.writes) = some [1, 2, 4, 8])
      ∧ pmpHart.pmpAllows 0x2000 4 .m .store = false
      ∧ (s.regionAt 0xFFFFFFFFFFFFFF = some main_ ∧ s.pmpAllows 0xFFFFFFFFFFFFFC 4 .m .load = true)
      ∧ ((t.regionAt 0x10001).map (·.reads) = some [1, 2, 4, 8] ∧ t.pmpAllows 0x10001 2 .m .load = true)
      ∧ (0x20001 / 8 = (0x20001 + 4 - 1) / 8 ∧ ¬ 0x20006 / 8 = (0x20006 + 4 - 1) / 8 ∧ kinds t 0x20001 = some .ioMemory)
      ∧ (kinds t 0x30000 = some .io ∧ kinds t 0x30002 = some .io ∧ (t.regionAt 0x30002).map (·.idempotentReads) = some false
        ∧ (t.regionAt 0x30002).map (·.granule) = some none ∧ t.pmpAllows 0x30002 4 .m .load = true) ∧ (machineAccess .load 4 0x20001).p = .m := by decide

/-- The same accesses: what they come to. -/
theorem test_reach_by_bytes :
    let t := twoRegions
    let goes (a : Access) : Option Abort :=
      match t.reach a a.va a.width with
      | .ok _ => none
      | .error e => some e
    goes (machineAccess .store 4 0x10000) = some .access ∧ goes (machineAccess .load 4 0x10000) = none
      ∧ goes (machineAccess .store 4 0x20001) = none ∧ goes (machineAccess .store 4 0x20006) = some .access
      ∧ goes (machineAccess .load 4 0x30000) = some (.stop (.undescribedDevice 0x30000))
      ∧ goes (machineAccess .load 4 0x30002) = some .access := by decide

/-- No entry matches a byte in [b, b + n) if none matches one of them. -/
theorem no_match {s : State} {m b n : Nat} (h : ∀ i, i < m → ∀ k, k < n → s.pmpMatches i (b + k) = false) :
    ∀ i, i < m → ∀ a, b ≤ a → a < b + n → s.pmpMatches i a = false := by
  intro i hi a ha ha'
  have := h i hi (a - b) (by omega)
  rwa [show b + (a - b) = a by omega] at this

theorem witness_PmpFirstMatchDecides :
    State.reset.cfg.pmpCount = 0 ∧ 0 < pmpHart.cfg.pmpCount
      ∧ (∀ i, i < 16 → ∀ b, 0x4000 ≤ b → b < 0x4000 + 4 → pmpHart.pmpMatches i b = false)
      ∧ (∀ j, j < 1 → ∀ b, 0xFFC ≤ b → b < 0xFFC + 8 → pmpHart.pmpMatches j b = false)
      ∧ (∃ b, 0xFFC ≤ b ∧ b < 0xFFC + 8 ∧ pmpHart.pmpMatches 1 b = true)
      ∧ pmpHart.pmpMatches 1 0x1000 = false ∧ { pmpHart with mc.mseccfg := 3, cfg.smepmp := true }.mseccfgMML = true :=
  ⟨by decide, by decide, no_match (by decide), no_match (by decide), ⟨0xFFC, by decide⟩, by decide, by decide⟩

/-- Table 6.1: entry 3, locked and of M-mode, R and X; unlocked and of S and U, R and X; shared code, locked, W alone. -/
theorem test_pmp_mml :
    let s (c : BitVec 8) := { pmpHart with mc.mseccfg := 1, mc.pmpcfg := (Vector.replicate 64 0).set 3 c }
    let may (c : BitVec 8) (p : Priv) := [Need.load, .store, .fetch].map ((s c).pmpAllows 0x3000 4 p ·)
    may 0x9D .m = [true, false, true] ∧ may 0x9D .u = [false, false, false] ∧ may 0x1D .m = [false, false, false]
      ∧ may 0x1D .s = [true, false, true] ∧ may 0x9A .m = [false, false, true] ∧ may 0x9A .u = [false, false, true] := by decide

/-- With the granularity 2^12 bytes software finds G (R193): pmpaddr reads all ones but its ten low bits. -/
theorem test_pmp_granularity :
    let s := { hart { Config.standard with pmpCount := 16, pmpG := 10 } .m false with
      regs := (Vector.replicate 32 0).set 5 0xFFFFFFFFFFFFFFFF }
    after (.csrrw 7 0x3B0 5) s (·.pmpaddr 0) = some 0x3FFFFFFFFFFC00 := by decide

/-- Entries of every mode, at the ends of their ranges. -/
theorem witness_PmpEntriesMatchTheirRegions :
    let mode (i : Nat) := (pmpHart.pmpcfg i).extractLsb' 3 2
    mode 0 = 0#2 ∧ mode 1 = 1#2 ∧ mode 2 = 2#2 ∧ mode 3 = 3#2
      ∧ (∀ j, j < 2 → (pmpHart.pmpaddr 3).toNat.testBit j = true) ∧ (pmpHart.pmpaddr 3).toNat.testBit 2 = false
      ∧ pmpHart.pmpMatches 1 0xFFF = true ∧ pmpHart.pmpMatches 2 0x2003 = true ∧ pmpHart.pmpMatches 2 0x2004 = false
      ∧ pmpHart.pmpMatches 3 0x301F = true ∧ pmpHart.pmpMatches 3 0x3020 = false := by decide

/-- A write of a locked entry's registers completes and changes nothing of them. -/
theorem witness_PmpLocksHold :
    ({ pmpHart with mc.pmpcfg := (Vector.replicate 64 0).set 1 0x8F }.pmpLocked 1 = true) ∧
    pmpHart.pmpLocked 2 = true ∧ after (.csrrw 7 0x3B2 5) pmpHart (·.pmpaddr 2) = some 0x800
      ∧ stepped ({ pmpHart with env := [quiet] }.withFetchWord 32 0x3B2293F3) (·.pmpaddr 2) = some 0x800
      ∧ { pmpHart with cfg.smepmp := true, mc.mseccfg := 3 }.mseccfgMML = true := by decide

/-- The PTE p stands at a, in memory that a walk may read. -/
theorem holds_physically {w : Walk} {s : State} {a : Nat} {p : Word} (rs : List Region)
    (h : s.checkPhys (.tableRead w.stage w.speculative) .s a w.scheme.pteBytes = .ok rs)
    (hp : orderedValue w.big (s.physRead a w.scheme.pteBytes) = p.toNat) : w.Holds physically s a p s :=
  ⟨a, ⟨rfl, rfl⟩, ⟨rs, h⟩, hp⟩

theorem findsFrom_last {w : Walk} {s v : State} {place : State → Nat → Nat → State → Prop} {c : Scheme} {va spot n t : Nat}
    {p : Word} (hc : w.scheme = c) (ha : t + vpnAt c n va * c.pteBytes = spot) (h : w.Holds place s spot p v) :
    w.findsFrom place va n spot p v (n + 1) t s := by
  subst hc ha
  simp only [Walk.findsFrom, if_true]
  exact ⟨trivial, h⟩

theorem findsFrom_next {w : Walk} {s u v : State} {place : State → Nat → Nat → State → Prop} {c : Scheme}
    {va level spot n t a : Nat} {p q : Word} (hc : w.scheme = c) (hn : n ≠ level) (ha : t + vpnAt c n va * c.pteBytes = a)
    (h : w.Holds place s a q u) (hq : c.isPointer q = true)
    (hr : w.findsFrom place va level spot p v n (ptePpn c q * 4096) u) : w.findsFrom place va level spot p v (n + 1) t s := by
  subst hc ha
  simp only [Walk.findsFrom, if_neg hn]
  exact ⟨q, u, h, hq, hr⟩

/-- The tables of the tests: the root at page 1, pages 2 and 3 below it. The walk for `va_` finds the PTE p at level 0. -/
theorem finds_three {w : Walk} {s t u v : State} {place : State → Nat → Nat → State → Prop} {p : Word}
    (hc : w.scheme = .sv39 ∨ w.scheme = Scheme.sv39.x4) (hr : w.root = 1) (h₁ : w.Holds place s 0x1008 0x801 t)
    (h₂ : w.Holds place t 0x2008 0xC01 u) (h₃ : w.Holds place u 0x3008 p v) : w.Finds place s va_.toNat 0 0x3008 p v := by
  unfold Walk.Finds
  rw [hr]
  obtain h | h := hc <;>
    (rw [show w.scheme.levels = 3 from h ▸ rfl]
     exact findsFrom_next h (by decide) (by decide) h₁ (by decide)
      (findsFrom_next h (by decide) (by decide) h₂ (by decide) (findsFrom_last h (by decide) h₃)))

/-- The walk of `paged` finds its leaf. -/
theorem paged_finds {ad : AdScheme} {need : Need} {p : Word}
    (hr : ((paged ad p).walkS .sv39 need .s).root = 1)
    (h : (paged ad p).checkPhys (.tableRead .s false) .s 0x1008 8 = .ok (mains 8) ∧ (paged ad p).checkPhys (.tableRead .s false) .s 0x2008 8 = .ok (mains 8)
      ∧ (paged ad p).checkPhys (.tableRead .s false) .s 0x3008 8 = .ok (mains 8))
    (v : [0x1008, 0x2008, 0x3008].map (fun a => orderedValue ((paged ad p).walkS .sv39 need .s).big ((paged ad p).physRead a 8))
      = [(0x801 : Word), 0xC01, p].map (·.toNat)) :
    ((paged ad p).walkS .sv39 need .s).Finds physically (paged ad p) va_.toNat 0 0x3008 p (paged ad p) := by
  simp only [List.map, List.cons.injEq] at v
  exact finds_three (.inl rfl) hr (holds_physically _ h.1 v.1) (holds_physically _ h.2.1 v.2.1) (holds_physically _ h.2.2 v.2.2.1)

/-- Invalid, a pointer at level 0, a leaf of a user page, one that maps, one without A and D. -/
theorem witness_PageTableWalk_found :
    let w (p : Word) := (paged .svade p).walkS .sv39 .load .s
    let found (p : Word) := (w p).Finds physically (paged .svade p) va_.toNat 0 0x3008 p (paged .svade p)
    found 0 ∧ found 0x1001 ∧ found 0x20DF ∧ found 0x20CF ∧ found 0x200F :=
  ⟨paged_finds rfl ⟨rfl, rfl, rfl⟩ rfl, paged_finds rfl ⟨rfl, rfl, rfl⟩ rfl, paged_finds rfl ⟨rfl, rfl, rfl⟩ rfl,
    paged_finds rfl ⟨rfl, rfl, rfl⟩ rfl, paged_finds rfl ⟨rfl, rfl, rfl⟩ rfl⟩

/-- The premises of each clause: Bare; no canonical address; an invalid PTE; a pointer at level 0; a leaf that does not permit
the access; one that does; one without A. -/
theorem witness_PageTableWalk :
    let s := paged .svade 0
    let w := s.walkS .sv39 .load .s
    zx (at_ .s false 0 0).sxlen (at_ .s false 0 0).sc.satp = 0
      ∧ schemeOf s.sxlen s.sc.satp = some .sv39 ∧ s.cache = [] ∧ canonical .sv39 0x4000000000 = false
      ∧ canonical .sv39 va_ = true ∧ (0 : Word).getLsbD 0 = false ∧ Scheme.sv39.isPointer 0x1001 = true
      ∧ Scheme.sv39.isLeaf 0x20DF = true ∧ ¬ w.Permits 0x20DF
      ∧ Scheme.sv39.isLeaf 0x20CF = true ∧ w.Permits 0x20CF ∧ w.AlignedLeaf 0 0x20CF ∧ w.Recorded 0x20CF
      ∧ w.Permits 0x200F ∧ w.AlignedLeaf 0 0x200F ∧ ¬ w.Recorded 0x200F ∧ w.hwAd = false := by
  refine ⟨by decide, by decide, rfl, by decide, by decide, by decide, by decide, by decide, ?_, by decide, ?_, ?_, ?_, ?_, ?_, ?_,
    by decide⟩ <;>
    (simp only [Walk.Permits, Walk.AlignedLeaf, Walk.Recorded]; decide)

/-- A superpage: a leaf at level 1, and one that is not aligned. -/
theorem witness_PageTableWalk_superpage :
    let s := withPte (paged .svade 0) 0x2008 0x800CF
    let w := s.walkS .sv39 .load .s
    w.Finds physically s va_.toNat 1 0x2008 0x800CF s ∧ w.AlignedLeaf 1 0x800CF ∧ ¬ w.AlignedLeaf 1 0x204CF := by
  refine ⟨findsFrom_next (c := .sv39) (a := 0x1008) (q := 0x801) rfl (by decide) (by decide) (holds_physically _ rfl rfl) (by decide)
    (findsFrom_last (c := .sv39) rfl (by decide) (holds_physically _ rfl rfl)), ?_, ?_⟩ <;> (simp only [Walk.AlignedLeaf]; decide)

/-- Hardware sets A and D: the write permitted, and not. -/
theorem witness_PageTableWalk_update :
    let s := paged .svadu 0x200F
    let w := s.walkS .sv39 .store .s
    let t := { s with cfg.pma := [{ Region.mainMemory 0 0x100000 with ptWrite := false }] }
    (w.Finds physically s va_.toNat 0 0x3008 0x200F s ∧ Scheme.sv39.isLeaf 0x200F = true ∧ w.Permits 0x200F
        ∧ w.AlignedLeaf 0 0x200F ∧ ¬ w.Recorded 0x200F ∧ w.hwAd = true
        ∧ s.checkPhys (.tableWrite .s) .s 0x3008 Scheme.sv39.pteBytes = .ok (mains 8))
      ∧ t.checkPhys (.tableWrite .s) .s 0x3008 Scheme.sv39.pteBytes = .error .access := by
  refine ⟨⟨paged_finds rfl ⟨rfl, rfl, rfl⟩ rfl, by decide, ?_, ?_, ?_, by decide, rfl⟩, rfl⟩ <;>
    (simp only [Walk.Permits, Walk.AlignedLeaf, Walk.Recorded]; decide)

/-- A NAPOT leaf; one with a reserved size, PBMT set, a reserved bit, W without R, D in a pointer; PBMT enabled. -/
theorem witness_NapotPbmtAndReservedBits :
    let s (p : Word) := paged .svade p
    let w (p : Word) := (s p).walkS .sv39 .load .s
    let found (p : Word) := (w p).Finds physically (s p) va_.toNat 0 0x3008 p (s p)
    let enabled := { s 0 with mc.menvcfg := 0x4000000000000000 }
    (s 0).cfg.svnapot = true ∧ schemeOf (s 0).sxlen (s 0).sc.satp = some .sv39 ∧ Scheme.sv39.pteBytes = 8
      ∧ (found 0x80000000000060CF ∧ Scheme.sv39.isLeaf (0x80000000000060CF &&& 0x003FFFFFFFFFFFFF) = true
        ∧ ptePpn .sv39 0x80000000000060CF % 16 = 8 ∧ (w 0).Permits 0x80000000000060CF ∧ (w 0).Recorded 0x80000000000060CF)
      ∧ (found 0x80000000000064CF ∧ ptePpn .sv39 0x80000000000064CF % 16 ≠ 8)
      ∧ (found 0x20000000000020CF ∧ ¬ bit (s 0).menvcfg 62 = true)
      ∧ (found 0x00400000000020CF ∧ field (0x00400000000020CF : Word) 54 7 ≠ 0#7)
      ∧ found 0x20C5 ∧ found 0x2081
      ∧ (enabled.cfg.svpbmt = true ∧ bit enabled.menvcfg 62 = true) := by
  refine ⟨rfl, by decide, rfl, ⟨paged_finds rfl ⟨rfl, rfl, rfl⟩ rfl, by decide, by decide, ?_, ?_⟩,
    ⟨paged_finds rfl ⟨rfl, rfl, rfl⟩ rfl, by decide⟩, ⟨paged_finds rfl ⟨rfl, rfl, rfl⟩ rfl, by decide⟩,
    ⟨paged_finds rfl ⟨rfl, rfl, rfl⟩ rfl, by decide⟩, paged_finds rfl ⟨rfl, rfl, rfl⟩ rfl,
    paged_finds rfl ⟨rfl, rfl, rfl⟩ rfl, by decide⟩ <;>
    (simp only [Walk.Permits, Walk.Recorded]; decide)

/-- The walk of `guestPagedOn` finds its leaf. -/
theorem guestPaged_finds {ad : AdScheme} {need : Need} {p : Word} (hr : ((guestPagedOn ad p).walkG .sv39 need).root = 1)
    (h : [0x1008, 0x2008, 0x3008].map ((guestPagedOn ad p).checkPhys (.tableRead .g false) .s · 8)
      = [.ok (mains 8), .ok (mains 8), .ok (mains 8)])
    (v : [0x1008, 0x2008, 0x3008].map (fun a =>
        orderedValue ((guestPagedOn ad p).walkG .sv39 need).big ((guestPagedOn ad p).physRead a 8))
      = [(0x801 : Word), 0xC01, p].map (·.toNat)) :
    ((guestPagedOn ad p).walkG .sv39 need).Finds physically (guestPagedOn ad p) va_.toNat 0 0x3008 p (guestPagedOn ad p) := by
  simp only [List.map, List.cons.injEq] at h v
  exact finds_three (.inr rfl) hr (holds_physically _ h.1 v.1) (holds_physically _ h.2.1 v.2.1) (holds_physically _ h.2.2.1 v.2.2.1)

/-- The guest's page tables: an address too wide; an invalid leaf, a pointer at level 0, a leaf without U, one without A, one that
maps, one that does not permit a store. -/
theorem witness_GuestPhysicalWalk :
    let s (p : Word) := guestPaged p
    let w (p : Word) := (s p).walkG .sv39 .load
    let found (p : Word) := (w p).Finds physically (s p) va_.toNat 0 0x3008 p (s p)
    schemeOf (s 0).sxlen (s 0).hc.hgatp = some .sv39 ∧ (s 0).cache = []
      ∧ 2 ^ (12 + Scheme.sv39.levels * Scheme.sv39.vpnBits + 2) ≤ 0x20000000000
      ∧ va_.toNat < 2 ^ (12 + Scheme.sv39.levels * Scheme.sv39.vpnBits + 2)
      ∧ found 0 ∧ found 0x1001 ∧ (found 0x20CF ∧ (0x20CF : Word).getLsbD 4 = false)
      ∧ (found 0x201F ∧ ¬ (w 0).Recorded 0x201F ∧ (w 0).hwAd = false)
      ∧ (found 0x20DF ∧ Scheme.sv39.isLeaf 0x20DF = true ∧ (w 0).Permits 0x20DF ∧ (w 0).AlignedLeaf 0 0x20DF
        ∧ (w 0).Recorded 0x20DF)
      ∧ ¬ ((s 0).walkG .sv39 .store).Permits 0x20DB := by
  refine ⟨by decide, rfl, by decide, by decide, guestPaged_finds rfl rfl rfl, guestPaged_finds rfl rfl rfl,
    ⟨guestPaged_finds rfl rfl rfl, by decide⟩, ⟨guestPaged_finds rfl rfl rfl, ?_, by decide⟩,
    ⟨guestPaged_finds rfl rfl rfl, by decide, ?_, ?_, ?_⟩, ?_⟩ <;>
    (simp only [Walk.Permits, Walk.AlignedLeaf, Walk.Recorded]; decide)

/-- Hardware sets A and D of a G-stage leaf: the write permitted, and not. -/
theorem witness_GuestPhysicalWalk_update :
    let s := guestPagedOn .svadu 0x201F
    let w := s.walkG .sv39 .store
    let t := { s with cfg.pma := [{ Region.mainMemory 0 0x100000 with ptWrite := false }] }
    (w.Finds physically s va_.toNat 0 0x3008 0x201F s ∧ Scheme.sv39.isLeaf 0x201F = true ∧ w.Permits 0x201F
        ∧ w.AlignedLeaf 0 0x201F ∧ ¬ w.Recorded 0x201F ∧ w.hwAd = true
        ∧ s.checkPhys (.tableWrite .g) .s 0x3008 Scheme.sv39.pteBytes = .ok (mains 8))
      ∧ t.checkPhys (.tableWrite .g) .s 0x3008 Scheme.sv39.pteBytes = .error .access := by
  refine ⟨⟨guestPaged_finds rfl rfl rfl, by decide, ?_, ?_, ?_, by decide, rfl⟩, rfl⟩ <;>
    (simp only [Walk.Permits, Walk.AlignedLeaf, Walk.Recorded]; decide)

/-- Both stages under Sv39, A and D as `ad` says. G-stage maps the guest's first 2 MiB to the 2 MiB at 0x200000 by the leaf g; VS-stage
tables are at the guest's pages 1, 2 and 3, the last holding `leaf`. -/
def nestedOn (ad : AdScheme) (g leaf : Word) : State :=
  withPte (withPte (withPte (withPte (withPte
    { hart { Config.standard with adScheme := ad } .s true with
      vc.vsatp := 0x8000000000000001, hc.hgatp := 0x8000000000000004, regs := (Vector.replicate 32 0).set 5 va_ }
    0x4000 0x2001) 0x8000 g) 0x201008 0x801) 0x202008 0xC01) 0x203008 leaf

/-- The same without hardware updates, G-stage's leaf permitting everything. -/
def nested (leaf : Word) : State := nestedOn .svade 0x800DF leaf

/-- A PTE of `nestedOn`, where G-stage leaves the state. -/
theorem holds_throughGuest {w : Walk} {s t : State} {p : Word} {a pa : Nat} (rs : List Region)
    (hg : s.translateG a .load (some false) = .ok (⟨pa, 0⟩, t))
    (h : t.checkPhys (.tableRead w.stage w.speculative) .s pa w.scheme.pteBytes = .ok rs)
    (hp : orderedValue w.big (t.physRead pa w.scheme.pteBytes) = p.toNat) : w.Holds throughGuest s a p t :=
  ⟨pa, ⟨0, hg⟩, ⟨rs, h⟩, hp⟩

/-- The leaf maps guest page 5; the premises about it, and G-stage's answer for the page and for one it does not map. -/
theorem witness_TwoStageTranslation :
    let s := nested 0x14CF
    let w := s.walkVS .sv39 .load .s
    schemeOf s.vsxlen s.vc.vsatp = some .sv39 ∧ s.cache = [] ∧ canonical .sv39 va_ = true
      ∧ canonical .sv39 0x4000000000 = false ∧ zx s.vsxlen (guestPaged 0).vc.vsatp = 0
      ∧ (w.Finds throughGuest s va_.toNat 0 0x3008 0x14CF s ∧ Scheme.sv39.isLeaf (setField 0x14CF 61 (0 : BitVec 2)) = true
        ∧ field (0x14CF : Word) 61 2 = 0 ∧ w.Permits 0x14CF ∧ w.AlignedLeaf 0 0x14CF ∧ w.Recorded 0x14CF)
      ∧ (¬ w.Recorded 0x140F ∧ w.hwAd = false)
      ∧ s.translateG 0x5ABC .load none = .ok (⟨0x205ABC, 0⟩, s)
      ∧ s.translateG 0x200ABC .load none = .error (.guestPage 0x200ABC none)
      ∧ twoStage.translateG 0x1008 .load (some false) = .error (.guestPage 0x1008 (some false)) := by
  refine ⟨by decide, rfl, by decide, by decide, by decide,
    ⟨finds_three (.inl rfl) rfl (holds_throughGuest _ rfl rfl rfl) (holds_throughGuest _ rfl rfl rfl)
      (holds_throughGuest _ rfl rfl rfl), by decide, by decide, ?_, ?_, ?_⟩, ⟨?_, by decide⟩, rfl, rfl, rfl⟩ <;>
    (simp only [Walk.Permits, Walk.AlignedLeaf, Walk.Recorded]; decide)

/-- Hardware sets A and D of a VS-stage leaf through G-stage: the implicit write mapped and permitted, denied by the PMAs, not mapped for
writing; and the page translated after it. -/
theorem witness_TwoStageTranslation_update :
    let s := nestedOn .svadu 0x800DF 0x140F
    let w := s.walkVS .sv39 .store .s
    let t := { s with cfg.pma := [{ Region.mainMemory 0 0x1000000 with ptWrite := false }] }
    let u := s.physWrite 0x203008 (bytesOfValue false 8 (marked .store 0x140F))
    (w.Finds throughGuest s va_.toNat 0 0x3008 0x140F s ∧ Scheme.sv39.isLeaf (setField 0x140F 61 (0 : BitVec 2)) = true
        ∧ w.Permits 0x140F ∧ w.AlignedLeaf 0 0x140F ∧ ¬ w.Recorded 0x140F ∧ w.hwAd = true
        ∧ s.translateG 0x3008 .store (some true) = .ok (⟨0x203008, 0⟩, s)
        ∧ s.checkPhys (.tableWrite .vs) .s 0x203008 Scheme.sv39.pteBytes = .ok (mains 8)
        ∧ u.translateG 0x5ABC .store none = .ok (⟨0x205ABC, 0⟩, u))
      ∧ t.checkPhys (.tableWrite .vs) .s 0x203008 Scheme.sv39.pteBytes = .error .access
      ∧ (nestedOn .svadu 0x800DB 0x140F).translateG 0x3008 .store (some true) = .error (.guestPage 0x3008 (some true)) := by
  refine ⟨⟨finds_three (.inl rfl) rfl (holds_throughGuest _ rfl rfl rfl) (holds_throughGuest _ rfl rfl rfl)
      (holds_throughGuest _ rfl rfl rfl), by decide, ?_, ?_, ?_, by decide, rfl, rfl, rfl⟩, rfl, rfl⟩ <;>
    (simp only [Walk.Permits, Walk.AlignedLeaf, Walk.Recorded]; decide)

/-- G-stage sets A of its own leaf when the first VS-stage PTE is read. -/
theorem witness_TwoStageTranslation_marks :
    let s := nestedOn .svadu 0x8009F 0x14CF
    let t := s.physWrite 0x8000 (bytesOfValue false 8 0x800DF)
    (s.walkVS .sv39 .load .s).Finds throughGuest s va_.toNat 0 0x3008 0x14CF t :=
  finds_three (.inl rfl) rfl (holds_throughGuest _ rfl rfl rfl) (holds_throughGuest _ rfl rfl rfl) (holds_throughGuest _ rfl rfl rfl)

/-- A store that sets A and D of the VS-stage leaf. -/
theorem test_two_stage_update :
    after (.sb 5 0 0) (nestedOn .svadu 0x800DF 0x140F) (·.mem.readBytes 0x203008 2) = some [0xCF, 0x14] := by decide

/-- The two stages of a load: LW reads the word at 0x205ABC. -/
theorem test_two_stages :
    xAfter (.lw 7 5 0) (holding (nested 0x14CF) 0x205ABC [0x78, 0x56, 0x34, 0x12]) 7 = some 0x12345678 := by decide

/-! #### Fetches, fences, CSRs -/

/-- s at the address x5 names, with a quiet input. -/
def fetching (s : State) : State := { s with pc := s.regs[5] &&& ~~~3#64, env := [quiet] }

/-- The fetch does not reach an instruction. -/
def fetchFails (s : State) (e : Abort) : Bool :=
  let u := s.tick.woken
  !s.tick.stalled && u.nonMaskable == none && u.interrupt == none &&
  match u.reach u.fetchAccess u.fetchAccess.va 4 with
  | .ok _ => false
  | .error f => decide (f = e)

theorem witness_FetchFaultsRaise :
    fetchFails (fetching (paged .svade 0)) .page = true
      ∧ fetchFails (fetching (at_ .s false 0x100000000000000 0)) .access = true
      ∧ fetchFails (fetching (guestPaged 0)) (.guestPage 0x40201ABC none) = true
      ∧ fetchFails (fetching twoStage) (.guestPage 0x1008 (some false)) = true := by decide

/-- The fetch reaches a word that is no instruction. -/
theorem witness_FetchFaultsRaise_reserved :
    let s := { at_ .s false 0 0 with env := [quiet] }
    let u := s.tick.woken
    s.tick.stalled = false ∧ u.nonMaskable = none ∧ u.interrupt = none
      ∧ u.reach u.fetchAccess u.fetchAccess.va 4 = .ok (0x1000, mains 4, u)
      ∧ decode (u.physRead 0x1000 4) = .error (.notThirtyTwoBit 0) := ⟨by decide, by decide, by decide, rfl, rfl⟩

theorem witness_EveryStepCompletes : ∀ r ∈ Config.standard.pma, r.kind ≠ .io := by decide

theorem witness_SupervisorFencesDropSelected :
    cached.hasS = true ∧ cached.priv = .s ∧ cached.virt = false ∧ cached.mstatusTVM = false ∧ cached.cfg.svinval = true
      ∧ cached.cfg.sfenceIllegalWithoutVm = false
      ∧ cached.DropsVa .s 0 cached.sxlen cached.sc.satp 5 0 (entry .s) := by
  refine ⟨by decide, by decide, by decide, by decide, by decide, by decide, ?_⟩
  simp only [State.DropsVa, CacheEntry.MapsPage, CacheEntry.IsFor]
  decide

/-- From VS-mode. -/
theorem witness_SupervisorFencesDropSelected_vs :
    let s := { cached with virt := true }
    s.hasS = true ∧ s.priv = .s ∧ s.hstatusVTVM = false ∧ s.DropsVa .vs s.vmid s.vsxlen s.vc.vsatp 0 0 (entry .vs) := by
  refine ⟨by decide, by decide, by decide, ?_⟩
  simp only [State.DropsVa, CacheEntry.MapsPage, CacheEntry.IsFor]
  decide

theorem witness_HypervisorFencesDropSelected :
    cached.hasH = true ∧ cached.virt = false ∧ cached.priv ≠ .u ∧ ¬ (cached.priv = .s ∧ cached.mstatusTVM = true)
      ∧ cached.cfg.svinval = true ∧ cached.DropsGpa 0 0 (entry .g) := by
  refine ⟨by decide, by decide, by decide, by decide, by decide, ?_⟩
  simp only [State.DropsGpa, CacheEntry.IsFor]
  decide

/-- Both operands x0: the PMP results kept for the hart's own accesses, and those for virtual machines. -/
theorem witness_fences_of_everything :
    pmpCached.EndsOwnChecks 0 0 ⟨false, Vector.replicate 64 0, Vector.replicate 64 0⟩
      ∧ endsGuestChecks 0 0 ⟨true, Vector.replicate 64 0, Vector.replicate 64 0⟩ := ⟨⟨rfl, rfl, rfl, rfl⟩, rfl, rfl, rfl⟩

/-- By address, a pointer. -/
theorem witness_HypervisorFencesDropSelected_pointer :
    (at_ .s false 0x10080400 0).DropsGpa 5 0 ⟨.g, .sv39, 0, 0, 1, 0x201, 0x801, false, false⟩ := by
  simp only [State.DropsGpa, CacheEntry.IsFor]
  decide

/-- TVM, and VTVM, set. -/
def guarded (p : Priv) (v : Bool) : State := { at_ p v 0 0 with mc.mstatus := 0xA00100000, hc.hstatus := 0x200100000 }

/-- A hart without paging on which SFENCE.VMA is then illegal. -/
def unpaged : State :=
  hart { Config.standard with sfenceIllegalWithoutVm := true, sv39 := false, sv48 := false, sv57 := false } .m false

theorem witness_SupervisorFencePermissions :
    State.reset.hasS = true ∧ State.reset.cfg.svinval = true ∧ State.reset.cfg.sfenceIllegalWithoutVm = false
      ∧ (at_ .u false 0 0).priv = .u ∧ (at_ .u true 0 0).virt = true
      ∧ (guarded .s false).mstatusTVM = true ∧ (guarded .s true).hstatusVTVM = true
      ∧ (hart { Config.standard with hasH := false, hasS := false } .m false).hasS = false
      ∧ (hart { Config.standard with svinval := false } .m false).cfg.svinval = false
      ∧ (unpaged.cfg.sfenceIllegalWithoutVm = true ∧ unpaged.hasPaging = false ∧ unpaged.virt = false)
      ∧ (let vu := widths .u true 0x500000000 0 0
        vu.cfg.sfenceIllegalWithoutVm = true ∧ vu.hasPaging = false ∧ vu.hasS = true ∧ vu.priv = .u ∧ vu.virt = true) := by decide

/-- SINVAL.VMA is illegal where SFENCE.VMA is (R256). -/
theorem test_sinvalVma_unpaged : after (.sinvalVma 0 0) unpaged (·.mc.mcause) = some 2 := by decide

theorem witness_HypervisorPermissions :
    let noH := hart { Config.standard with hasH := false } .s false
    noH.hasH = false ∧ (at_ .s true 0 0).hasH = true ∧ (at_ .s true 0 0).xlen = .rv64 ∧ (rv32At 0 0).xlen = .rv32
      ∧ (at_ .u false 0 0).hstatusHU = false ∧ (guarded .s false).mstatusTVM = true ∧ (guarded .s false).hasH = true
      ∧ (let guest := widths .s true 0xA00000000 0x100000000 0
        guest.hasH = true ∧ guest.virt = true ∧ guest.xlen = .rv32 ∧ guest.sxlen = .rv64)
      ∧ ((widths .s true 0x500000000 0 0).xlen = .rv32 ∧ (widths .s true 0x500000000 0 0).sxlen = .rv32) := by decide

theorem witness_OrderingInstructionsAdvance :
    cached.hasS = true ∧ cached.cfg.svinval = true ∧ cached.priv ≠ .u := by decide

theorem witness_CsrReplace :
    (csrOf 0x340 = some ⟨.mscratch, false⟩ ∧ (at_ .m false 0 0).csrCheck 0x340 true = .allowed)
      ∧ (at_ .s false 0 0).csrCheck 0x300 true = .illegal ∧ (at_ .s true 0 0).csrCheck 0x600 true = .virtual := by decide

theorem witness_CsrSetAndClear :
    (csrOf 0x344 = some ⟨.mip, false⟩ ∧ (at_ .m false 0 0).csrCheck 0x344 true = .allowed)
      ∧ (csrOf 0xF11 = some ⟨.mvendorid, false⟩ ∧ (at_ .m false 0 0).csrCheck 0xF11 false = .allowed)
      ∧ (at_ .m false 0 0).csrCheck 0xF11 true = .illegal ∧ (at_ .s false 0 0).csrCheck 0x300 false = .illegal
      ∧ (at_ .s true 0 0).csrCheck 0x600 true = .virtual ∧ (at_ .s true 0 0).csrCheck 0x600 false = .virtual := by decide

theorem witness_CsrPrivilege :
    csrOf 0x7C0 = none ∧ (0x300#12).extractLsb' 8 2 = 3#2 ∧ (0x100#12).extractLsb' 8 2 ≠ 0#2 ∧ (0xC00#12).extractLsb' 10 2 = 3#2
      ∧ (at_ .s false 0 0).priv ≠ .m ∧ ((at_ .u false 0 0).priv = .u ∧ (at_ .u false 0 0).virt = false)
      ∧ (csrOf 0x600 = some ⟨.hstatus, false⟩ ∧ (at_ .s true 0 0).csrExists ⟨.hstatus, false⟩ = true
        ∧ (at_ .s true 0 0).blockedByM ⟨.hstatus, false⟩ = false ∧ (0x600#12).extractLsb' 8 2 = 2#2)
      ∧ (csrOf 0x100 = some ⟨.sstatus, false⟩ ∧ (at_ .u true 0 0).csrExists ⟨.sstatus, false⟩ = true
        ∧ (at_ .u true 0 0).blockedByM ⟨.sstatus, false⟩ = false ∧ (0x100#12).extractLsb' 8 2 = 1#2) := by decide

/-- In mode (p, v), with `mcounteren`, `scounteren` and `hcounteren`, STCE and CDE where `env` sets them, the state enables of M and HS
level, and the select registers at counter i. -/
def enabled (p : Priv) (v : Bool) (m s h : BitVec 32) (env me he i : Word) : State :=
  { at_ p v 0 0 with
    mc.mcounteren := m, sc.scounteren := s, hc.hcounteren := h, mc.menvcfg := env, hc.henvcfg := env
    mc.mstateen := Vector.replicate 4 me, hc.hstateen := Vector.replicate 4 he
    sc.siselect := 0x40 + i, vc.vsiselect := 0x40 + i }

/-- Clause by clause, in the order of the statement. -/
theorem witness_CsrBlockers :
    let all1 : BitVec 32 := 0xFFFFFFFF
    let none_ := enabled .s false 0 0 0 0 0 0 0
    let u := enabled .u false all1 0 0 0 0 0 0
    let vs := enabled .s true all1 0 0 0xA000000000000000 0 0 0
    let open_ := enabled .s true all1 all1 all1 0 0 0 0
    let ones : Word := 0xFFFFFFFFFFFFFFFF
    let window := enabled .s false all1 0 0 0x1000000000000000 ones 0 3
    let guestWindow := enabled .s true all1 0 0 0x1000000000000000 ones ones 31
    (none_.priv ≠ .m ∧ none_.mcounteren.getLsbD 0 = false ∧ none_.mcounteren.getLsbD 31 = false ∧ none_.menvcfgSTCE = false)
      ∧ (u.priv = .u ∧ u.virt = false ∧ u.hasS = true ∧ u.scounteren.getLsbD 2 = false)
      ∧ (csrOf 0xC00 = some ⟨.cycle, false⟩ ∧ vs.csrExists ⟨.cycle, false⟩ = true ∧ vs.mcounteren.getLsbD 0 = true
        ∧ vs.virt = true ∧ vs.hcounteren.getLsbD 0 = false ∧ open_.hcounteren.getLsbD 0 = true)
      ∧ (vs.cfg.sstc = true ∧ vs.mcounteren.getLsbD 1 = true ∧ vs.menvcfgSTCE = true ∧ vs.hcounteren.getLsbD 1 = false)
      ∧ (guarded .s false).mstatusTVM = true ∧ (guarded .s true).hstatusVTVM = true
      ∧ (none_.cfg.smstateen = true ∧ [62, 63, 60, 56].all (fun k => !bit (none_.mstateen 0) k) = true
        ∧ bit (none_.mstateen 3) 63 = false)
      ∧ (let g := enabled .s true 0 0 0 0 ones 0 0
         g.virt = true ∧ g.priv = .s ∧ g.hasS = true ∧ g.cfg.sscsrind = true
          ∧ [62, 63, 60].all (fun k => bit (g.mstateen 0) k && !bit (g.hstateen 0) k) = true)
      ∧ (window.sc.siselect = BitVec.ofNat 64 (0x40 + 3) ∧ window.menvcfgCDE = true ∧ window.mcounteren.getLsbD 3 = true
        ∧ bit (window.mstateen 0) 60 = true ∧ none_.sc.siselect = BitVec.ofNat 64 (0x40 + 0) ∧ none_.menvcfgCDE = false)
      ∧ (guestWindow.vc.vsiselect = BitVec.ofNat 64 (0x40 + 31) ∧ guestWindow.menvcfgCDE = true
        ∧ bit (guestWindow.mstateen 0) 60 = true ∧ bit (guestWindow.hstateen 0) 60 = true
        ∧ guestWindow.cfg.smcdeleg = true ∧ guestWindow.cfg.sscofpmf = true) := by decide

theorem witness_MachineStateOutOfReach : (at_ .s false 3 0).priv ≠ .m
    ∧ after (.csrrw 7 0x100 5) (at_ .s false 3 0) (·.pc) = some 0x1004 := by decide

theorem witness_ScratchRegisters : (at_ .m false 0 0).priv = .m
    ∧ (at_ .s false 0 0).priv = .s ∧ (at_ .s false 0 0).virt = false ∧ (at_ .s false 0 0).hasS = true
    ∧ (at_ .s false 0 0).hasH = true ∧ (at_ .s true 0 0).virt = true ∧ (at_ .s true 0 0).priv = .s := by decide

theorem witness_SavedPcsAndVectors :
    (at_ .m false 0 0).priv = .m ∧ (at_ .m false 0 0).virt = false ∧ (at_ .m false 0 0).hasS = true
      ∧ (at_ .m false 0 0).hasH = true ∧ (hart { Config.standard with smrnmi := true } .m false).cfg.smrnmi = true := by decide

/-- What `mtvec` holds after a write of w on a hart with the legal values t. -/
def tvecAfter (t : TvecLegal) (w : Word) : Option Word :=
  after (.csrrw 7 0x305 5) { hart { Config.standard with mtvecLegal := t } .m false with regs := (Vector.replicate 32 0).set 5 w }
    (·.mc.mtvec)

/-- A read-only vector, which holds its value from reset on; and Vectored mode with an alignment of 256 bytes (R67). -/
theorem test_mtvec_legal :
    (hart { Config.standard with mtvecLegal := ⟨0, 0x8000, 2⟩ } .m false).mc.mtvec = 0x8000
      ∧ tvecAfter ⟨0, 0x8000, 2⟩ 0x4001 = some 0x8000
      ∧ tvecAfter { TvecLegal.any with vectoredAlign := 8 } 0x4100 = some 0x4100
      ∧ tvecAfter { TvecLegal.any with vectoredAlign := 8 } 0x4011 = some 0
      ∧ tvecAfter { TvecLegal.any with vectoredAlign := 8 } 0x4101 = some 0x4101 := by decide

/-- MODE Sv39, MODE 1, which is reserved, and 0; from HS-mode and VS-mode; both widths. -/
theorem witness_SatpModes :
    let s := at_ .s false 0x8000000000000001 0
    let t := { rv32At 0x80000001 0 with priv := .s }
    s.cfg.asidLen ≤ 16 ∧ s.cfg.vmidLen ≤ 14 ∧ s.hasS = true ∧ s.hasH = true ∧ s.virt = false ∧ s.xlen = s.sxlen ∧ s.xlen = s.vsxlen
      ∧ s.sxlen = .rv64 ∧ s.priv = .s ∧ s.mstatusTVM = false ∧ s.cfg.sv39 = true ∧ s.cfg.sv39x4 = true
      ∧ (field (s.x 5) 60 4).toNat = 8 ∧ zx .rv64 (s.x 6) = 0
      ∧ (field ((at_ .s false 0x1000000000000000 0).x 5) 60 4).toNat = 1
      ∧ ((at_ .s true 0 0).virt = true ∧ (at_ .s true 0 0).priv = .s ∧ (at_ .s true 0 0).hstatusVTVM = false)
      ∧ (t.sxlen = .rv32 ∧ t.xlen = t.sxlen ∧ t.cfg.sv32 = true ∧ (t.x 5).getLsbD 31 = true) := by decide

theorem witness_SupervisorViewsAreConfined :
    let s := at_ .s false 0 0
    s.hasS = true ∧ s.virt = false ∧ s.priv ≠ .u ∧ s.cfg.wf = true
      ∧ (s.cfg.mxlen = .rv64 → field s.mc.mstatus 34 2 = 1#2 ∨ field s.mc.mstatus 34 2 = 2#2)
      ∧ bit s.mideleg 2 = true ∧ bit s.mideleg 3 = false := by decide

/-- A hart with Smrnmi. -/
def rnmiHart (p : Priv) : State := hart { Config.standard with smrnmi := true } p false

/-- From M-mode, HS-mode and VS-mode; VGEIN 0, which is legal; with Smrnmi. -/
theorem witness_StatusRegisterWrites :
    let s := at_ .m false 0 0
    let legal (w : Word) (lo : Nat) : Prop := field w lo 2 = 1#2 ∨ field w lo 2 = 2#2
    (s.priv = .m ∧ s.virt = false ∧ s.cfg.sxlWritable = false ∧ s.cfg.uxlWritable = false ∧ legal s.mc.mstatus 34
        ∧ field s.mc.mstatus 32 2 = field s.mc.mstatus 34 2 ∧ s.hasS = true ∧ s.hasU = true
        ∧ s.cfg.fsWritable = false ∧ s.cfg.vsWritable = false ∧ s.cfg.ube ≠ .writable)
      ∧ (s.hasH = true ∧ s.cfg.vsxlWritable = false ∧ legal s.hc.hstatus 32 ∧ (field (s.x 5) 12 6).toNat ≤ s.cfg.geilen
        ∧ s.cfg.vsbe ≠ .writable)
      ∧ ((at_ .s true 0 0).virt = true ∧ (at_ .s true 0 0).priv = .s ∧ s.cfg.vuxlWritable = false ∧ legal s.vc.vsstatus 32
        ∧ s.cfg.vube ≠ .writable)
      ∧ ((rnmiHart .m).cfg.smrnmi = true ∧ (rnmiHart .m).priv = .m ∧ (rnmiHart .m).hasH = true) := by decide

/-- `mstatus` with every bit written: the fields that exist, MPP, SXL and UXL. -/
theorem test_mstatus_ones :
    after (.csrrw 7 0x300 5) (at_ .m false 0xFFFFFFFFFFFFFFFF 0) (·.mc.mstatus) = some 0xCA007E19AA := by decide

/-- SXL set to 1: `hgatp` keeps the fields of the 32-bit layout, PPN without its two low bits (R36, R158). -/
theorem test_narrowed_hgatp :
    let s := hart { Config.standard with sxlWritable := true, uxlWritable := true, sv32 := true, sv32x4 := true, vmidLen := 5 } .m false
    after (.csrrw 7 0x300 5) { s with regs := (Vector.replicate 32 0).set 5 0x500000000, hc.hgatp := 0x80000000FFFFFFFF }
      (·.hc.hgatp) = some 0x87FFFFFC := by decide

/-- SXL set to 1 where `satp` has no paged MODE at 32 bits: ASID and PPN keep the bits at their places, MODE is 0 (R36). -/
theorem test_narrowed_satp :
    let s := hart { Config.standard with sxlWritable := true, uxlWritable := true } .m false
    after (.csrrw 7 0x300 5) { s with regs := (Vector.replicate 32 0).set 5 0x500000000, sc.satp := 0x8000000080C00123 }
      (·.sc.satp) = some 0xC00123 := by decide

/-- A read-only UXL is as wide as SXL, also when SXL widens again (R56, R89). -/
theorem test_uxl_follows_sxl :
    let s := hart { Config.standard with sxlWritable := true, sv32 := true } .m false
    let writes (s : State) (w : Word) :=
      after (.csrrw 7 0x300 5) { s with regs := (Vector.replicate 32 0).set 5 w } (fun t => (t.sxlen, t.uxlen))
    writes s 0x400000000 = some (.rv32, .rv32) ∧ writes { s with mc.mstatus := 0x500000000 } 0x800000000 = some (.rv64, .rv64) := by
  decide

/-- SUM is read-only 0 while `satp` has no paged MODE at the width of S-mode (R60). -/
theorem test_sum_by_width :
    let s := hart { Config.standard with sxlWritable := true } .m false
    let sum (s : State) (w : Word) :=
      after (.csrrw 7 0x300 5) { s with regs := (Vector.replicate 32 0).set 5 w } (fun t => bit t.mc.mstatus 18)
    sum { s with mc.mstatus := 0x500000000 } 0x500040000 = some false ∧ sum s 0xA00040000 = some true := by decide

/-- `misa` with S, then U, cleared, each taking with it what depends on it (R46). -/
theorem test_misa_dependencies :
    let s := hart { Config.standard with misaWritable := 0x140080 } .m false
    let modes (w : Word) := after (.csrrw 7 0x301 5) { s with regs := (Vector.replicate 32 0).set 5 w }
      (fun t => (t.hasU, t.hasS, t.hasH, t.mc.misa))
    modes 0x100080 = some (true, false, false, 0x100100) ∧ modes 0x40080 = some (false, false, false, 0x100)
      ∧ modes 0x140000 = some (true, true, false, 0x140100) := by decide

theorem witness_InterruptAndDelegationWrites :
    let s := at_ .m false 0 0
    s.priv = .m ∧ s.virt = false ∧ s.cfg.wf = true ∧ s.hasS = true ∧ s.hasH = true ∧ s.menvcfgSTCE = false
      ∧ bit s.hidelegWritable 2 = true ∧ bit s.hidelegWritable 3 = false ∧ bit s.cfg.midelegMask 9 = true := by decide

/-- `medeleg` with every bit written (D13). -/
theorem test_medeleg_ones :
    after (.csrrw 7 0x302 5) (at_ .m false 0xFFFFFFFFFFFFFFFF 0) (·.medeleg) = some 0xFCB7FF := by decide

/-- `hgeie` is HSXLEN bits wide (R152). -/
theorem test_hgeie_width :
    let s := hart { Config.standard with sxlWritable := true, uxlWritable := true, sv32 := true, geilen := 40 } .m false
    after (.csrrw 7 0x607 5) { s with regs := (Vector.replicate 32 0).set 5 0xFFFFFFFFFFFFFFFF, mc.mstatus := 0x500000000 }
      (·.hc.hgeie) = some 0xFFFFFFFE := by decide

/-- A 64-bit hart whose S-mode has 32 bits, with a platform interrupt above 31 delegated; x5 = all ones. -/
def narrowed : State :=
  let s := hart { Config.standard with
    sxlWritable := true, uxlWritable := true, sv32 := true, platformInts := [40, 20], midelegMask := 0xFFFFFFFFFFFFFFFF
    hidelegMask := 0xFFFFFFFFFFFFFFFF } .m false
  { s with
    regs := (Vector.replicate 32 0).set 5 0xFFFFFFFFFFFFFFFF
    mc := { s.mc with mstatus := 0x500000000, mideleg := 0xFFFFFFFFFFFFFFFF, mie := 0xFFFFFFFFFFFFFFFF } }

/-- `sie` and `hideleg` are SXLEN bits wide (R91, R147): nothing above is read or written. -/
theorem test_sie_hideleg_width :
    after (.csrrs 7 0x104 0) narrowed (·.x 7) = some 0x102222
      ∧ after (.csrrc 7 0x104 5) narrowed (fun t => bit t.mc.mie 40) = some true
      ∧ after (.csrrw 7 0x603 5) narrowed (·.hc.hideleg) = some 0x100444 := by decide

/-- A delegated interrupt above the bits of `sip` and `sie` stays pending (R92). -/
theorem test_interrupt_beyond_sie :
    let s := { narrowed with priv := .s, mc := { narrowed.mc with mstatus := 0x500000002, mie := 0x10000100000 } }
    { s with pins.platform := 0x10000000000 }.interrupt = none
      ∧ { s with pins.platform := 0x10000100000 }.interrupt = some (.s, 20) := by decide

/-- `vsie` is VSXLEN bits wide (R160). -/
theorem test_vsie_width :
    let s := { narrowed with mc.mstatus := 0xA00000000, hc.hideleg := 0x10000100444, hc.hstatus := 0x100000000 }
    after (.csrrs 7 0x204 0) s (·.x 7) = some 0x100222
      ∧ after (.csrrc 7 0x204 5) s (fun t => bit t.mc.mie 40) = some true := by decide

/-- SXL set to 2 while `misa.H` is 0: VSXL is at its widest when H comes back (R140). -/
theorem test_vsxl_without_h :
    let s := hart { Config.standard with sxlWritable := true, uxlWritable := true, sv32 := true, misaWritable := 0x80 } .m false
    after (.csrrw 7 0x300 5) { s with
        regs := (Vector.replicate 32 0).set 5 0xA00000000
        mc := { s.mc with mstatus := 0x500000000, misa := 0x140100 }
        hc := { s.hc with hstatus := 0 } }
      (fun t => (t.hasH, t.sxlen, t.vsxlen)) = some (false, .rv64, .rv64) := by decide

theorem witness_CounterReadsAndWrites :
    let t := hart config32 .m false
    [0xC00#12, 0xC01, 0xC02].all (fun n => (at_ .m false 0 0).csrCheck n false == .allowed) = true
      ∧ [0xC80#12, 0xC81, 0xC82].all (fun n => t.csrCheck n false == .allowed) = true
      ∧ (at_ .m false 0 0).priv = .m ∧ (at_ .m false 0 0).cfg.mxlen = .rv64 := by decide

/-! #### Calls, returns, waiting -/

theorem witness_EnvironmentCallsAndBreakpoints :
    (at_ .u true 0 0).priv = .u ∧ ((at_ .s false 0 0).priv = .s ∧ (at_ .s false 0 0).virt = false)
      ∧ ((at_ .s true 0 0).priv = .s ∧ (at_ .s true 0 0).virt = true) ∧ (at_ .m false 0 0).priv = .m := by decide

theorem witness_MachineReturns :
    (at_ .s false 0 0).priv ≠ .m ∧ (at_ .m false 0 0).cfg.smrnmi = false ∧ (at_ .m false 0 0).priv = .m
      ∧ (at_ .m false 0 0).hasH = true ∧ (hart { Config.standard with hasH := false } .m false).hasH = false
      ∧ (rnmiHart .m).priv = .m ∧ (rnmiHart .m).cfg.smrnmi = true := by decide

/-- TSR and VTSR set. -/
def returning (v : Bool) : State := { at_ .s v 0 0 with mc.mstatus := 0xA00400000, hc.hstatus := 0x200400000 }

theorem witness_SupervisorReturns :
    let noS := hart { Config.standard with hasH := false, hasS := false } .m false
    noS.hasS = false ∧ ((at_ .u false 0 0).hasS = true ∧ (at_ .u false 0 0).priv = .u ∧ (at_ .u false 0 0).virt = false)
      ∧ (at_ .u true 0 0).virt = true ∧ (returning false).mstatusTSR = true ∧ (returning true).hstatusVTSR = true
      ∧ (at_ .s false 0 0).mstatusTSR = false ∧ (at_ .s true 0 0).hstatusVTSR = false ∧ (at_ .s false 0 0).hasH = true
      ∧ (hart { Config.standard with hasH := false } .s false).hasH = false := by decide

/-- TW and VTW set. -/
def waiting (p : Priv) (v : Bool) : State := { at_ p v 0 0 with mc.mstatus := 0xA00200000, hc.hstatus := 0x200200000 }

/-- A hart that stalls in a WFI, with a bound on the time, in mode (p, v), stalled for n steps; TW and VTW set. -/
def stalling (bound n : Nat) (p : Priv) (v : Bool) : State :=
  { hart { Config.standard with wfiIsNop := false, wfiTimeout := bound } p v with
    mc := { (waiting p v).mc with mie := 8 }, hc := (waiting p v).hc, waited := n, env := [quiet] }

/-- Clause by clause, on harts that stall and on harts that do not. -/
theorem witness_WaitForInterruptByMode :
    let noS := hart { Config.standard with hasH := false, hasS := false } .u false
    let idle (s : State) : Bool :=
      !s.cfg.wfiIsNop && s.mip &&& s.mie == 0 && (if s.cfg.smrnmi then s.pins.rnmi else s.pins.nmi) == none
    let late (s : State) : Bool := s.cfg.wfiTimeout == 0 || idle s && decide (s.cfg.wfiTimeout ≤ s.waited)
    let free (s : State) : State := { s with mc.mstatus := 0xA00000000 }
    idle (at_ .m false 0 0) = false ∧ (idle (stalling 0 0 .m false) = true ∧ (stalling 0 0 .m false).priv = .m)
      ∧ ((waiting .s false).mstatusTW = true ∧ late (waiting .s false) = true ∧ (stalling 3 3 .s false).mstatusTW = true
        ∧ late (stalling 3 3 .s false) = true)
      ∧ ((at_ .s false 0 0).mstatusTW = false ∧ late (stalling 3 2 .s false) = false ∧ idle (stalling 3 2 .s false) = true)
      ∧ ((at_ .u false 0 0).hasS = true ∧ late (at_ .u false 0 0) = true)
      ∧ (noS.priv = .u ∧ noS.hasS = false ∧ noS.mstatusTW = false ∧ late (stalling 3 2 .u false) = false)
      ∧ ((free (waiting .s true)).mstatusTW = false ∧ (free (waiting .s true)).hstatusVTW = true
        ∧ late (free (waiting .s true)) = true)
      ∧ ((at_ .s true 0 0).mstatusTW = false ∧ (at_ .s true 0 0).hstatusVTW = false ∧ late (stalling 3 2 .s true) = false)
      ∧ ((at_ .u true 0 0).priv = .u ∧ (at_ .u true 0 0).virt = true ∧ (at_ .u true 0 0).mstatusTW = false)
      ∧ ((stalling 3 2 .u true).mstatusTW = true ∧ late (stalling 3 2 .u true) = false ∧ idle (stalling 3 2 .u true) = true)
      ∧ ((waiting .u true).mstatusTW = true ∧ late { waiting .u true with cfg.wfiTimeout := 3 } = false
        ∧ idle (waiting .u true) = false)
      ∧ (stalling 0 1 .m false).tick.stalled = true ∧ (stalling 3 1 .u true).tick.stalled = true
      ∧ ((stalling 0 1 .m false).waited ≠ 0 ∧ (stalling 3 1 .u true).waited ≠ 0) := by decide

/-- A stalled WFI: the pc stays, the steps are counted; used up, the bound ends it with an exception (R238). -/
theorem test_wfi_stalls :
    let sees (s : State) := after .wfi s (fun t => (t.pc, t.waited, t.mc.mcause))
    sees (stalling 0 0 .m false) = some (0x1000, 1, 0)
      ∧ stepped (stalling 0 1 .m false) (fun t => (t.pc, t.waited)) = some (0x1000, 2)
      ∧ sees (stalling 3 2 .s false) = some (0x1000, 3, 0) ∧ sees (stalling 3 3 .s false) = some (0, 0, 2) := by decide

/-- VU-mode under TW: the hart stalls within the bound, an illegal instruction when it is used up, else a virtual instruction, before the
interrupt that ends the stall (R238). -/
theorem test_wfi_vu :
    let sees (s : State) := after .wfi s (fun t => (t.pc, t.waited, t.mc.mcause))
    let woken := { stalling 3 2 .u true with msip := 1 }
    sees (stalling 3 2 .u true) = some (0x1000, 3, 0) ∧ sees (stalling 3 3 .u true) = some (0, 0, 2)
      ∧ stepped woken (fun t => (t.mc.mepc, t.waited, t.mc.mcause)) = some (0x1000, 0, 22) := by decide

/-- In VU-mode an RNMI comes before the exception of the WFI, with the WFI's pc (R135, R350); held off by NMIE it does not. -/
theorem test_wfi_vu_rnmi :
    let s := { stalling 3 2 .u true with cfg.smrnmi := true, pins.rnmi := some 6, mc.mnstatus := 8 }
    let held := { s with mc.mnstatus := 0 }
    stepped s (fun t => (t.mc.mnepc, t.waited, t.mc.mncause)) = some (0x1000, 0, 0x8000000000000006)
      ∧ s.mnstatusNMIE = true ∧ held.tick.stalled = true := by decide

/-- A pending RNMI ends the stall also while NMIE is 0, and is not taken (R238). -/
theorem test_wfi_rnmi :
    let s := { holding (stalling 0 1 .m false) 0x1004 [0x93, 0x00, 0x50, 0x00] with cfg.smrnmi := true, pins.rnmi := some 6 }
    stepped s (fun t => (t.pc, t.waited, t.x 1, t.pins.rnmi)) = some (0x1008, 0, 5, some 6) := by decide

/-- An enabled interrupt that becomes pending ends the stall, also where it is not taken: the pc after the WFI is where the hart goes on,
or the interrupt's `mepc` (R238). -/
theorem test_wfi_wakes :
    let s := { holding (stalling 0 1 .m false) 0x1004 [0x93, 0x00, 0x50, 0x00] with msip := 1 }
    let taken := { s with mc := { s.mc with mstatus := 8 } }
    stepped s (fun t => (t.pc, t.waited, t.x 1)) = some (0x1008, 0, 5)
      ∧ stepped taken (fun t => (t.mc.mepc, t.waited, t.mc.mcause)) = some (0x1004, 0, 0x8000000000000003) := by decide

/-! #### Traps and interrupts -/

/-- U-mode or VU-mode with illegal instructions delegated to S-mode and on to VS-mode. -/
def delegating (v : Bool) : State := { at_ .u v 0 0 with mc.medeleg := 4, hc.hedeleg := 4 }

theorem witness_ExceptionDestination :
    (at_ .m false 0 0).priv = .m ∧ bit (at_ .s false 0 0).medeleg Exc.illegal.code = false
      ∧ ((delegating true).priv ≠ .m ∧ (delegating true).hasS = true ∧ bit (delegating true).medeleg Exc.illegal.code = true
        ∧ (delegating true).virt = true ∧ bit (delegating true).hedeleg Exc.illegal.code = true) := by decide

theorem witness_ExceptionIntoMachineMode :
    (at_ .m false 0 0).priv = .m ∧ (at_ .m false 0 0).hasH = true
      ∧ (hart { Config.standard with hasH := false, hasS := false } .u false).hasS = false
      ∧ bit (at_ .s true 0 0).medeleg Exc.loadPage.code = false := by decide

theorem witness_DelegatedExceptions :
    ((delegating false).priv ≠ .m ∧ (delegating false).hasS = true ∧ bit (delegating false).medeleg Exc.illegal.code = true
        ∧ ¬ ((delegating false).virt = true ∧ bit (delegating false).hedeleg Exc.illegal.code = true)
        ∧ (delegating false).hasH = true)
      ∧ ((delegating true).virt = true ∧ bit (delegating true).hedeleg Exc.illegal.code = true)
      ∧ (let s := { hart { Config.standard with hasH := false } .u false with mc.medeleg := 4 }
         s.hasH = false ∧ bit s.medeleg Exc.illegal.code = true) := by decide

theorem witness_PendingInterrupts :
    let on := { at_ .m false 0 0 with mc.menvcfg := 0x8000000000000000, hc.henvcfg := 0x8000000000000000 }
    (at_ .m false 0 0).cfg.wf = true ∧ (at_ .m false 0 0).hasS = true ∧ (at_ .m false 0 0).menvcfgSTCE = false
      ∧ on.menvcfgSTCE = true ∧ (at_ .m false 0 0).hasH = true ∧ on.hasH = true ∧ on.cfg.wf = true
      ∧ (at_ .m false 0 0).henvcfgSTCE = false ∧ on.henvcfgSTCE = true := by
  decide

/-- With henvcfg.STCE set the platform's VS-level timer signal does not count; without it it does (R163). -/
theorem test_vstip_sources :
    let s := { at_ .m false 0 0 with pins.vsti := true, vc.vstimecmp := 5, mtime := 4 }
    s.vstip = true ∧ { s with mc.menvcfg := 0x8000000000000000, hc.henvcfg := 0x8000000000000000 }.vstip = false := by decide

/-- VS-mode with the machine software, supervisor software and VS-level software interrupts enabled; the last two delegated. -/
def interruptible (msip : BitVec 32) (ssip vssip : Bool) : State :=
  { at_ .s true 0 0 with
    mc := { State.reset.mc with mie := 0xE, mip := bitAt 1 ssip, mideleg := 2, mtvec := 0x4001 }
    sc := { State.reset.sc with stvec := 0x5001 }
    hc := { State.reset.hc with hideleg := 4, hvip := bitAt 2 vssip }
    vc := { State.reset.vc with vsstatus := 0x200000002, vstvec := 0x6000 }
    msip := msip, env := [quiet] }

/-- HS-mode with every S-level, VS-level and guest external interrupt enabled and pending, VS-level ones delegated where `v`; and in
S-mode without the hypervisor extension. -/
def crowded (v : Bool) : State :=
  { hart { Config.standard with geilen := 1 } .s v with
    mc := { State.reset.mc with mie := 0x3666, mip := 0x2222, mideleg := 0x2222, mstatus := 0xA00000002 }
    hc := { State.reset.hc with hideleg := (if v then 0x444 else 0), hvip := 0x444, hgeie := 2 }
    vc := { State.reset.vc with vsstatus := 0x200000002 }
    pins := { Pins.none with hgeip := 2 } }

/-- What is taken when those before it are no more enabled (R337): HS-mode's order, and VS-mode's. -/
theorem test_interrupt_orders :
    let first (s : State) (off : Word) := { s with mc.mie := 0x3666 &&& ~~~off }.interrupt
    [0x200, 0x202, 0x222, 0x1222, 0x1622, 0x1626, 0x1666].map (first (crowded false))
        = [some (.s, 1), some (.s, 5), some (.s, 12), some (.s, 10), some (.s, 2), some (.s, 6), some (.s, 13)]
      ∧ [0x3222, 0x3622, 0x3626].map (first (crowded true)) = [some (.vs, 10), some (.vs, 2), some (.vs, 6)] := by decide

/-- A destination for each: the most privileged first. -/
theorem witness_InterruptSelection :
    (interruptible 1 true true).cfg.wf = true ∧ (interruptible 1 true true).interrupt = some (.m, 3)
      ∧ (interruptible 0 true true).interrupt = some (.s, 1) ∧ (interruptible 0 false true).interrupt = some (.vs, 2)
      ∧ (interruptible 0 false false).interrupt = none ∧ (interruptible 1 true true).cfg.platformInts = []
      ∧ ((crowded false).cfg.wf = true ∧ (crowded false).interrupt = some (.s, 9) ∧ (crowded false).pending 13 = true) := by decide

theorem witness_InterruptEntry :
    let stalled := { interruptible 1 true true with waited := 2 }
    (interruptible 1 true true).tick.stalled = false ∧ (stalled.waited ≠ 0 ∧ stalled.tick.stalled = false)
      ∧ (interruptible 1 true true).tick.woken.nonMaskable = none
      ∧ (interruptible 1 true true).tick.woken.interrupt = some (.m, 3) ∧ stalled.tick.woken.interrupt = some (.m, 3)
      ∧ (interruptible 0 true true).tick.woken.interrupt = some (.s, 1)
      ∧ (interruptible 0 false true).tick.woken.interrupt = some (.vs, 2) := by decide

/-- An input that raises an NMI and an RNMI. -/
def nmiInput : EnvInput := { quiet with pins := { Pins.none with nmi := some 5, rnmi := some 6 } }

theorem witness_NonMaskableInterrupts :
    let s := { rnmiHart .s with mc.mnstatus := 8, env := [nmiInput] }
    let t := { at_ .s false 0 0 with env := [nmiInput] }
    let su := s.tick.woken
    let tu := t.tick.woken
    let vu := { stalling 3 2 .u true with cfg.smrnmi := true, mc.mnstatus := 8, env := [nmiInput] }
    (s.tick.stalled = false ∧ su.cfg.smrnmi = true ∧ su.mnstatusNMIE = true ∧ su.pins.rnmi = some 6)
      ∧ (vu.waited ≠ 0 ∧ vu.tick.stalled = false ∧ vu.tick.woken.mnstatusNMIE = true ∧ vu.tick.woken.pins.rnmi = some 6)
      ∧ (t.tick.stalled = false ∧ tu.cfg.smrnmi = false ∧ tu.pins.nmi = some 5) := by decide

/-- A cycle passes at every step (R358). -/
theorem test_mcycle_advances : stepped atAddi (·.cnt.mcycle) = some 1 := by decide

theorem witness_ResetLeaves : Config.standard.wf = true ∧ config32.wf = true ∧ Config.standard.mbe ≠ .big := by decide

end Sys2Proof.Tests
end

section
/-! PROOFS. The invariant of the states a run stays in (O6): each operation of a step keeps it, so each effect of an instruction does,
so each step. -/

namespace Sys2Proof.Machine

/-! ### The invariant under the operations of a step -/

theorem misalignedTarget_add_four {w : Word} (h : misalignedTarget w = false) : misalignedTarget (w + 4) = false :=
  misalignedTarget_add h (by decide)

theorem State.Inv.of_walked {s t : State} (h : s.Inv) (hw : s.Walked t) : t.Inv := by
  obtain ⟨m, a, b, c, rfl⟩ := hw.only.eq
  exact h.congr (hw.wf h.memory) h.pcAligned rfl rfl rfl rfl rfl rfl

/-- `mip`, which the platform may change, is no part of the invariant. -/
theorem State.Inv.of_ticked {s t : State} (h : s.Inv) (ht : s.Ticked t) : t.Inv := by
  obtain ⟨a, b, c, l, m, d, e, f, g, k, rfl⟩ := ht.eq
  exact ⟨h.config, ht.wf h.memory, h.pcAligned, h.mode, h.virtual, h.mpp, h.mnpp, h.epcs, h.tvecs⟩

theorem State.Inv.setX {s : State} (h : s.Inv) (r : Reg) (v : Word) : (s.setX r v).Inv :=
  h.congr (by simpa using h.memory) (by simpa using h.pcAligned) (by simp) (by simp) (by simp) (by simp) (by simp) (by simp)

theorem State.Inv.goto {s : State} (h : s.Inv) {t : Word} (ht : misalignedTarget t = false) : (s.goto t).Inv :=
  h.congr h.memory (by simpa using ht) rfl rfl rfl rfl rfl rfl

theorem State.Inv.retire {s : State} (h : s.Inv) (b : State) : (s.retire b).Inv :=
  h.congr (by simpa using h.memory) (by simpa using h.pcAligned) (by simp) (by simp) (by simp) (by simp) (by simp) (by simp)

theorem State.Inv.next {s : State} (h : s.Inv) : s.next.Inv :=
  (h.goto (misalignedTarget_add_four h.pcAligned)).retire s

theorem State.Inv.finish {s : State} (h : s.Inv) (rd : Reg) (v : Word) : (s.finish rd v).Inv := (h.setX rd v).next

/-- The length of a stall is no part of the invariant. -/
theorem State.Inv.setWaited {s : State} (h : s.Inv) (n : Nat) : State.Inv { s with waited := n } :=
  h.congr h.memory h.pcAligned rfl rfl rfl rfl rfl rfl

theorem State.Inv.setPins {s : State} (h : s.Inv) (p : Pins) : State.Inv { s with pins := p } :=
  h.congr h.memory h.pcAligned rfl rfl rfl rfl rfl rfl

theorem State.Inv.setCaches {s : State} (h : s.Inv) (c : List CacheEntry) (p : List PmpCopy) :
    State.Inv { s with cache := c, pmpCopies := p } :=
  h.congr h.memory h.pcAligned rfl rfl rfl rfl rfl rfl

theorem State.Inv.wait {s : State} (h : s.Inv) : s.wait.Inv := by
  unfold State.wait
  split
  · exact h.setWaited _
  · exact h.next.setWaited 0

theorem State.Inv.woken {s : State} (h : s.Inv) : s.woken.Inv := by
  unfold State.woken
  split
  · exact h
  split
  · exact h.setWaited 0
  · exact h.next.setWaited 0

/-! ### The invariant under CSR writes -/

/-- What the invariant reads beside the CSRs. -/
theorem State.OnlyCsrs.same {s t : State} (h : s.OnlyCsrs t) :
    t.cfg = s.cfg ∧ t.mem = s.mem ∧ t.pc = s.pc ∧ t.priv = s.priv ∧ t.virt = s.virt := by
  obtain ⟨a, b, c, d, e, f, rfl⟩ := h.eq
  exact ⟨rfl, rfl, rfl, rfl, rfl⟩

/-- A write that keeps `misa` keeps which modes are implemented. -/
theorem State.Inv.of_kept {s t : State} (h : s.Inv) (k : s.Kept t) : t.Inv := by
  obtain ⟨cfg, mem, pc, priv, virt⟩ := k.only.same
  obtain ⟨-, -, hasH, supports⟩ := State.modes_congr cfg k.misa
  exact ⟨cfg ▸ h.config, mem ▸ h.memory, pc ▸ h.pcAligned, by rw [supports, priv]; exact h.mode,
    by rw [hasH, priv, virt]; exact h.virtual, k.mpp h.mpp, k.mnpp h.mnpp, k.epcs h.epcs, k.tvecs h.tvecs⟩

/-- Only M-mode changes `misa`, and M-mode is implemented whatever `misa` says. -/
theorem State.Inv.writeMisa {s : State} (h : s.Inv) (w : Word) : (s.writeMisa w).Inv := by
  by_cases hp : s.priv = .m
  · obtain ⟨only, mpp, mnpp, epcs, tvecs⟩ := s.writeMisa_kept w
    obtain ⟨cfg, mem, pc, priv, virt⟩ := only.same
    have host : (s.writeMisa w).virt ≠ true := fun hv => (h.virtual (virt ▸ hv)).1 hp
    exact ⟨cfg ▸ h.config, mem ▸ h.memory, pc ▸ h.pcAligned, by rw [priv, hp]; rfl, fun hv => absurd hv host,
      mpp h.mpp, mnpp h.mnpp, epcs h.epcs, tvecs h.tvecs⟩
  · have unchanged : s.writeMisa w = s := by simp [State.writeMisa, hp]
    rw [unchanged]
    exact h

theorem State.csrWrite_misa (s : State) {c : CsrRef} (hc : c.reg = .misa) (v : Word) :
    ∃ w, s.csrWrite c v = s.writeMisa w := by
  have target : csrTarget s.virt c.reg = .misa := by rw [hc]; cases s.virt <;> rfl
  exact ⟨_, by simp only [State.csrWrite, target]; rfl⟩

theorem State.Inv.csrWrite {s : State} (h : s.Inv) (c : CsrRef) (v : Word) : (s.csrWrite c v).Inv := by
  by_cases hc : c.reg = .misa
  · obtain ⟨w, hw⟩ := s.csrWrite_misa hc v
    rw [hw]
    exact h.writeMisa w
  · exact h.of_kept (s.kept_csrWrite v hc)

theorem State.Inv.csrFinish {s before : State} (h : s.Inv) (hb : before.Inv) (rd : Reg) (old : Word) (b : Bool) :
    (s.csrFinish before rd old b).Inv := by
  have ht := (h.setX rd old).goto (misalignedTarget_add_four hb.pcAligned)
  unfold State.csrFinish
  cases b
  · exact ht.retire before
  · exact ht

/-! ### The invariant under instructions and steps -/

theorem State.Inv.effect {s t : State} (h : s.Inv) (e : s.Effect t) : t.Inv := by
  cases e with
  | trap u hw t => exact (h.of_walked hw).takeException t
  | finish u hw rd v => exact (h.of_walked hw).finish rd v
  | next u hw => exact (h.of_walked hw).next
  | jump rd v t ht => exact ((h.setX rd v).goto ht).retire s
  | branch t ht => exact (h.goto ht).retire s
  | csrWrite n c hc ok v rd old b => exact (h.csrWrite c v).csrFinish h rd old b
  | csrRead rd v => exact h.csrFinish h rd v false
  | mret hp => exact h.returnM.retire s
  | sret hs hp => exact (h.returnS hs).retire s
  | sretVS hp hv => exact (h.returnVS hv).retire s
  | mnret hr hp => exact h.returnMN.retire s
  | fence c p => exact (h.setCaches c p).next
  | wait => exact h.wait
  | waitTrap t => exact (h.setWaited 0).takeException t

theorem exec_keeps_inv {i : Instr} {s t : State} (h : s.Inv) (he : exec i s = .next t) : t.Inv := h.effect (exec_effect he)

/-- Settles O6: between two instructions, then by an interrupt, a fault of the fetch or an instruction. -/
theorem everyStepKeepsInvariant : Obligations.EveryStepKeepsInvariant := by
  intro s t h hstep
  have ticked : s.tick.Inv := h.of_ticked s.ticked_tick
  have woken : s.tick.woken.Inv := ticked.woken
  cases step_effect hstep with
  | nmi c => exact (woken.setPins _).takeNmi c
  | rnmi c => exact (woken.setPins _).takeRnmi c
  | interrupt d i hi => exact woken.takeInterrupt hi
  | fetchTrap u hu t => exact (woken.of_walked hu).takeException t
  | exec i u t hu he => exact exec_keeps_inv (woken.of_walked hu) he
  | stalled t _ he => exact exec_keeps_inv ticked he

end Sys2Proof.Machine
end

section
/-! PROOFS. The machine's control state from below M-mode (O43): what the access check forbids there, and that no other effect of an
instruction reaches it. -/

namespace Sys2Proof.Machine

/-! ### The access check by level (R28, R247) -/

/-- Where the level forbids an access, so does the check (R247). -/
theorem State.checkSteps_of_level {s : State} {c : CsrRef} {n : BitVec 12} {write : Bool}
    (h : s.levelVerdict c n write = .illegal) : s.checkSteps c n write = .illegal := by
  simp only [State.checkSteps, h, ite_self]

/-- An access that is illegal whatever the number names, by its own register or by the low half of it, is illegal (R247, R250). -/
theorem State.csrCheck_illegal {s : State} {n : BitVec 12} {write : Bool}
    (h : ∀ c, s.checkSteps c n write = .illegal) : s.csrCheck n write = .illegal := by
  unfold State.csrCheck
  split
  · rfl
  · simp [h]

/-- Below M-mode no access to a machine-level number is allowed (R28). -/
theorem State.csrCheck_machineLevel {s : State} {n : BitVec 12} (hn : csrLevel n = 3#2) (hp : s.priv ≠ .m) (write : Bool) :
    s.csrCheck n write = .illegal := by
  refine State.csrCheck_illegal fun c => State.checkSteps_of_level ?_
  unfold State.levelVerdict
  cases priv : s.priv with
  | m => exact absurd priv hp
  | s => cases s.virt <;> simp [hn]
  | u => cases s.virt <;> simp [hn]

/-- The substitution of VS CSRs neither hides nor reaches a machine-level register (R138). -/
theorem machineReg_csrTarget (v : Bool) (r : CsrReg) : machineReg (csrTarget v r) = machineReg r := by
  cases v
  · rfl
  · cases r <;> rfl

/-! ### The machine's control state -/

/-- What a write or a trap may change of the machine-level registers and leave the control state: the status, interrupt and trap
registers and `mcountinhibit`. -/
theorem State.sameMachineControl_of_mc {s t : State} (hc : t.cfg = s.cfg)
    (hm : t.mc = { s.mc with
      mstatus := t.mc.mstatus, mie := t.mc.mie, mip := t.mc.mip, mcountinhibit := t.mc.mcountinhibit, mepc := t.mc.mepc
      mcause := t.mc.mcause, mtval := t.mc.mtval, mtval2 := t.mc.mtval2, mtinst := t.mc.mtinst }) :
    s.SameMachineControl t := by
  unfold State.SameMachineControl
  rw [hm]
  simp only [hc, and_self]

theorem State.SameMachineControl.of_eq {s t : State} (hc : t.cfg = s.cfg) (hm : t.mc = s.mc) : s.SameMachineControl t :=
  State.sameMachineControl_of_mc hc (by rw [hm])

theorem State.SameMachineControl.trans {s t u : State} (h : s.SameMachineControl t) (h' : t.SameMachineControl u) :
    s.SameMachineControl u := by
  unfold State.SameMachineControl at *
  simp_all only [and_self]

theorem State.Walked.sameMachineControl {s t : State} (h : s.Walked t) : s.SameMachineControl t := by
  obtain ⟨m, a, b, c, rfl⟩ := h.only.eq
  exact .of_eq rfl rfl

theorem State.sameMachineControl_takeException (s : State) (t : Trap) : s.SameMachineControl (s.takeException t) := by
  unfold State.takeException State.enterTrap
  split
  · exact State.sameMachineControl_of_mc rfl rfl
  · exact State.sameMachineControl_of_mc rfl rfl
  · exact .of_eq rfl rfl

theorem State.sameMachineControl_returnS (s : State) : s.SameMachineControl s.returnS := State.sameMachineControl_of_mc rfl rfl

theorem State.sameMachineControl_returnVS (s : State) : s.SameMachineControl s.returnVS := State.sameMachineControl_of_mc rfl rfl

theorem State.sameMachineControl_wait (s : State) : s.SameMachineControl s.wait := by
  unfold State.wait
  split <;> exact .of_eq (by simp) (by simp)

/-! ### CSR writes from below M-mode -/

theorem State.sameMachineControl_modulateVS (b s : State) : s.SameMachineControl (b.modulateVS s) := by
  unfold State.modulateVS
  split <;> exact .of_eq rfl rfl

theorem State.sameMachineControl_writeWindow (s : State) (sel : Word) (k : Nat) (v : Word) :
    s.SameMachineControl (s.writeWindow sel k v) := by
  unfold State.writeWindow
  split
  · exact .of_eq rfl rfl
  · dsimp only
    unfold State.writeCell State.writeHpmevent State.writeHpmcounter
    repeat' split
    all_goals exact .of_eq rfl rfl

/-- A write of a register of a lower level. -/
theorem State.sameMachineControl_csrSet (s : State) {r : CsrReg} (hr : machineReg r = false) (w : Word) :
    s.SameMachineControl (s.csrSet r w) := by
  cases r <;> cases hr
  case hstatus =>
    have written : s.SameMachineControl { s with hc := { s.hc with hstatus := s.legalHstatus w } } := .of_eq rfl rfl
    exact written.trans (State.sameMachineControl_modulateVS ..)
  all_goals exact State.sameMachineControl_of_mc rfl rfl

theorem State.sameMachineControl_csrWrite (s : State) {c : CsrRef} (hc : machineReg c.reg = false) (v : Word) :
    s.SameMachineControl (s.csrWrite c v) := by
  have target : machineReg (csrTarget s.virt c.reg) = false := by rw [machineReg_csrTarget, hc]
  unfold State.csrWrite
  split
  · exact s.sameMachineControl_writeWindow ..
  · dsimp only
    split
    · next hm => rw [hm] at target; cases target
    · exact s.sameMachineControl_csrSet target _

/-- What the access check lets through below M-mode is no machine-level register. -/
theorem State.machineReg_of_allowed {s : State} {n : BitVec 12} {c : CsrRef} {write : Bool} (hp : s.priv ≠ .m)
    (hc : csrOf n = some c) (ok : s.csrCheck n write = .allowed) : machineReg c.reg = false := by
  cases hm : machineReg c.reg with
  | false => rfl
  | true =>
    have level : csrLevel n = 3#2 := (csrLevel_of_machineReg hc).mp hm
    rw [State.csrCheck_machineLevel level hp] at ok
    cases ok

theorem State.sameMachineControl_csrFinish (s before : State) (rd : Reg) (old : Word) (b : Bool) :
    s.SameMachineControl (s.csrFinish before rd old b) := by
  cases b <;> exact .of_eq (by simp [State.csrFinish]) (by simp [State.csrFinish])

/-! ### All instructions -/

theorem State.Effect.sameMachineControl {s t : State} (e : s.Effect t) (hp : s.priv ≠ .m) : s.SameMachineControl t := by
  cases e with
  | trap u hw t => exact hw.sameMachineControl.trans (u.sameMachineControl_takeException t)
  | finish u hw rd v => exact hw.sameMachineControl.trans (.of_eq (by simp) (by simp))
  | next u hw => exact hw.sameMachineControl.trans (.of_eq (by simp) (by simp))
  | jump rd v t _ => exact .of_eq (by simp) (by simp)
  | branch t _ => exact .of_eq (by simp) (by simp)
  | csrWrite n c hc ok v rd old b =>
    exact (s.sameMachineControl_csrWrite (State.machineReg_of_allowed hp hc ok) v).trans (State.sameMachineControl_csrFinish ..)
  | csrRead rd v => exact s.sameMachineControl_csrFinish ..
  | mret hm => exact absurd hm hp
  | sret _ _ => exact s.sameMachineControl_returnS.trans (.of_eq (by simp) (by simp))
  | sretVS _ _ => exact s.sameMachineControl_returnVS.trans (.of_eq (by simp) (by simp))
  | mnret _ hm => exact absurd hm hp
  | fence c p => exact .of_eq (by simp) (by simp)
  | wait => exact s.sameMachineControl_wait
  | waitTrap t => exact State.sameMachineControl_takeException { s with waited := 0 } t

/-- Settles O43: of the effects an instruction can have, MRET and MNRET need M-mode, and the access check keeps CSR writes from the
machine-level registers. -/
theorem machineStateOutOfReach : Obligations.MachineStateOutOfReach := by
  intro i s t hp he
  exact (exec_effect he).sameMachineControl hp

end Sys2Proof.Machine
end

section
/-! PROOFS. CSR accesses that trap by the number alone (O42): the CSR instructions as accesses of the check, and what the check answers. -/

namespace Sys2Proof.Machine

/-! ### The CSR instructions as accesses of the check (R239-R244) -/

/-- i accesses the CSR n with destination rd, as a write or as a read. -/
def AccessesCsr (i : Instr) (n : BitVec 12) (rd : Reg) (write : Bool) : Prop :=
  ∃ value : State → Word → Word, ∀ s, exec i s = csrAccess i n rd write (value s) s

theorem accessesCsr_csrrw (rd rs1 : Reg) (n : BitVec 12) : AccessesCsr (.csrrw rd n rs1) n rd true :=
  ⟨fun s _ => s.x rs1, fun _ => rfl⟩

theorem accessesCsr_csrrs (rd rs1 : Reg) (n : BitVec 12) : AccessesCsr (.csrrs rd n rs1) n rd (rs1 != 0#5) :=
  ⟨fun s old => old ||| s.x rs1, fun _ => rfl⟩

theorem accessesCsr_csrrc (rd rs1 : Reg) (n : BitVec 12) : AccessesCsr (.csrrc rd n rs1) n rd (rs1 != 0#5) :=
  ⟨fun s old => old &&& ~~~(s.x rs1), fun _ => rfl⟩

theorem accessesCsr_csrrwi (rd : Reg) (n : BitVec 12) (u : BitVec 5) : AccessesCsr (.csrrwi rd n u) n rd true :=
  ⟨fun _ _ => uimm u, fun _ => rfl⟩

theorem accessesCsr_csrrsi (rd : Reg) (n : BitVec 12) (u : BitVec 5) : AccessesCsr (.csrrsi rd n u) n rd (u != 0#5) :=
  ⟨fun _ old => old ||| uimm u, fun _ => rfl⟩

theorem accessesCsr_csrrci (rd : Reg) (n : BitVec 12) (u : BitVec 5) : AccessesCsr (.csrrci rd n u) n rd (u != 0#5) :=
  ⟨fun _ old => old &&& ~~~(uimm u), fun _ => rfl⟩

theorem AccessesCsr.isIllegal {i : Instr} {n : BitVec 12} {rd : Reg} {write : Bool} (h : AccessesCsr i n rd write) {s : State}
    (check : s.csrCheck n write = .illegal) : s.IsIllegal i := by
  obtain ⟨value, h⟩ := h
  change exec i s = raiseIllegal i s
  rw [h, csrAccess, check]

theorem AccessesCsr.isVirtual {i : Instr} {n : BitVec 12} {rd : Reg} {write : Bool} (h : AccessesCsr i n rd write) {s : State}
    (check : s.csrCheck n write = .virtual) : s.IsVirtual i := by
  obtain ⟨value, h⟩ := h
  change exec i s = raiseVirtual i s
  rw [h, csrAccess, check]

/-- The six CSR instructions on n. -/
def csrInstrs (rd rs1 : Reg) (n : BitVec 12) (u : BitVec 5) : List Instr :=
  [.csrrw rd n rs1, .csrrs rd n rs1, .csrrc rd n rs1, .csrrwi rd n u, .csrrsi rd n u, .csrrci rd n u]

/-- Those of them that write: CSRRS and CSRRC with x0, CSRRSI and CSRRCI with 0, only read (R240, R243). -/
def csrWriters (rd rs1 : Reg) (n : BitVec 12) (u : BitVec 5) : List Instr :=
  [.csrrw rd n rs1, .csrrwi rd n u] ++ (if rs1 = 0#5 then [] else [.csrrs rd n rs1, .csrrc rd n rs1])
    ++ (if u = 0#5 then [] else [.csrrsi rd n u, .csrrci rd n u])

theorem accessesCsr_of_mem {i : Instr} {rd rs1 : Reg} {n : BitVec 12} {u : BitVec 5} (h : i ∈ csrInstrs rd rs1 n u) :
    ∃ write, AccessesCsr i n rd write := by
  simp only [csrInstrs, List.mem_cons, List.not_mem_nil, or_false] at h
  rcases h with rfl | rfl | rfl | rfl | rfl | rfl
  · exact ⟨_, accessesCsr_csrrw ..⟩
  · exact ⟨_, accessesCsr_csrrs ..⟩
  · exact ⟨_, accessesCsr_csrrc ..⟩
  · exact ⟨_, accessesCsr_csrrwi ..⟩
  · exact ⟨_, accessesCsr_csrrsi ..⟩
  · exact ⟨_, accessesCsr_csrrci ..⟩

theorem writesCsr_of_mem {i : Instr} {rd rs1 : Reg} {n : BitVec 12} {u : BitVec 5} (h : i ∈ csrWriters rd rs1 n u) :
    AccessesCsr i n rd true := by
  simp only [csrWriters, List.mem_append, List.mem_cons, List.mem_ite_nil_left, List.not_mem_nil, or_false] at h
  rcases h with ((rfl | rfl) | ⟨hr, rfl | rfl⟩) | ⟨hu, rfl | rfl⟩
  · exact accessesCsr_csrrw ..
  · exact accessesCsr_csrrwi ..
  · exact bne_iff_ne.mpr hr ▸ accessesCsr_csrrs rd rs1 n
  · exact bne_iff_ne.mpr hr ▸ accessesCsr_csrrc rd rs1 n
  · exact bne_iff_ne.mpr hu ▸ accessesCsr_csrrsi rd n u
  · exact bne_iff_ne.mpr hu ▸ accessesCsr_csrrci rd n u

/-! ### What the number alone decides (R28, R43, R247, R346) -/

theorem State.csrCheck_unnamed (s : State) {n : BitVec 12} (h : csrOf n = none) (write : Bool) : s.csrCheck n write = .illegal := by
  simp only [State.csrCheck, h]

/-- From U-mode a number above U level is illegal (R28). -/
theorem State.csrCheck_aboveU {s : State} {n : BitVec 12} (hn : csrLevel n ≠ 0#2) (hp : s.priv = .u) (hv : s.virt = false)
    (write : Bool) : s.csrCheck n write = .illegal := by
  refine State.csrCheck_illegal fun c => State.checkSteps_of_level ?_
  simp only [State.levelVerdict, hp, hv, if_neg hn]

/-- An access that HS-mode could not make either is no virtual instruction (R346). -/
theorem State.levelVerdict_unqualified {s : State} {c : CsrRef} {n : BitVec 12} {write : Bool}
    (h : s.hsWouldAllow c n write = false) : s.levelVerdict c n write ≠ .virtual := by
  simp only [State.levelVerdict, h, Bool.false_eq_true, if_false]
  repeat' split
  all_goals decide

/-- A read-only number is written in no mode (R28). -/
theorem State.csrCheck_readOnly (s : State) {n : BitVec 12} (hn : csrReadOnly n = true) : s.csrCheck n true = .illegal := by
  refine State.csrCheck_illegal fun c => ?_
  have unqualified : s.hsWouldAllow c n true = false := by simp [State.hsWouldAllow, hn]
  cases level : s.levelVerdict c n true with
  | allowed => simp [State.checkSteps, level, hn]
  | illegal => exact State.checkSteps_of_level level
  | virtual => exact absurd level (State.levelVerdict_unqualified unqualified)

/-- What blocks a low half blocks the high half. -/
theorem State.blockedByM_low {s : State} {c : CsrRef} (h : s.blockedByM c = false) : s.blockedByM ⟨c.reg, false⟩ = false := by
  obtain ⟨r, high⟩ := c
  cases r <;> simp_all [State.blockedByM]

/-- With V=1 a read of a hypervisor or VS register, and from VU-mode of a supervisor register, that HS-mode could make is a virtual
instruction (R346). -/
theorem State.csrCheck_qualified {s : State} {n : BitVec 12} {c : CsrRef} (hc : csrOf n = some c) (present : s.csrExists c = true)
    (unblocked : s.blockedByM c = false) (hv : s.virt = true)
    (hn : csrLevel n = 2#2 ∧ s.priv ≠ .m ∨ csrLevel n = 1#2 ∧ s.priv = .u) : s.csrCheck n false = .virtual := by
  have has : s.hasCsr c.reg = true := by
    simp only [State.csrExists, Bool.and_eq_true] at present
    exact present.1
  have notMachine : csrLevel n ≠ 3#2 := by
    rcases hn with ⟨hn, -⟩ | ⟨hn, -⟩ <;> simp [hn]
  have qualified : s.hsWouldAllow c n false = true := by
    simp [State.hsWouldAllow, has, State.blockedByM_low unblocked, notMachine]
  have level : s.levelVerdict c n false = .virtual := by
    rcases hn with ⟨hn, hp⟩ | ⟨hn, hp⟩
    · cases priv : s.priv with
      | m => exact absurd priv hp
      | s => simp [State.levelVerdict, priv, hv, hn, qualified]
      | u => simp [State.levelVerdict, priv, hv, hn, qualified]
    · simp [State.levelVerdict, hp, hv, hn, qualified]
  simp [State.csrCheck, hc, present, State.checkSteps, unblocked, level]

/-- Settles O42: each clause is what the check answers for the number, whichever of the instructions makes the access. -/
theorem csrPrivilege : Obligations.CsrPrivilege := by
  intro s rd rs1 n u all writing
  have illegal (check : ∀ write, s.csrCheck n write = .illegal) : ∀ i ∈ all, s.IsIllegal i := by
    intro i hi
    obtain ⟨write, access⟩ := accessesCsr_of_mem hi
    exact access.isIllegal (check write)
  refine ⟨fun hn => illegal (s.csrCheck_unnamed hn), fun hn hp => illegal (State.csrCheck_machineLevel hn hp),
    fun hn hp hv => illegal (State.csrCheck_aboveU hn hp hv), fun hn i hi => ?_, fun c hc he hb hv hn => ?_⟩
  · exact (writesCsr_of_mem hi).isIllegal (s.csrCheck_readOnly (by simpa [csrReadOnly] using hn))
  · have check := State.csrCheck_qualified hc he hb hv hn
    exact ⟨(accessesCsr_csrrs rd 0#5 n).isVirtual check, (accessesCsr_csrrsi rd n 0#5).isVirtual check⟩

end Sys2Proof.Machine
end

section
/-! PROOFS. Fetches that reach no instruction (O33): the word a fetch reads, and the steps that begin with a fetch. -/

namespace Sys2Proof.Machine

/-! ### The word a fetch reads (R23, R173) -/

theorem natOfBytes_lt (bs : List Byte) : natOfBytes bs < 256 ^ bs.length := by
  induction bs with
  | nil => simp [natOfBytes]
  | cons b bs ih =>
    rw [natOfBytes, List.length_cons, Nat.pow_succ]
    have := b.isLt
    omega

/-- The word of four bytes, as a number. -/
theorem toNat_fetchedWord {bs : List Byte} (h : bs.length = 4) :
    ((valueOfBytes false bs).setWidth 32).toNat = natOfBytes bs := by
  have := h ▸ natOfBytes_lt bs
  simp only [valueOfBytes, Bool.false_eq_true, if_false, BitVec.toNat_setWidth, BitVec.toNat_ofNat]
  omega

/-- The trap value of a fetched word that is no instruction. -/
theorem setWidth_fetchedWord {bs : List Byte} (h : bs.length = 4) :
    ((valueOfBytes false bs).setWidth 32).setWidth 64 = BitVec.ofNat 64 (natOfBytes bs) := by
  apply BitVec.eq_of_toNat_eq
  rw [BitVec.toNat_setWidth, toNat_fetchedWord h, BitVec.toNat_ofNat]

/-- Decoding the word of four bytes is decoding the bytes. -/
theorem bytesOfWord_fetchedWord {bs : List Byte} (h : bs.length = 4) :
    bytesOfWord ((valueOfBytes false bs).setWidth 32) = bs := by
  have value := toNat_fetchedWord h
  match bs, h with
  | [b0, b1, b2, b3], _ =>
    generalize (valueOfBytes false [b0, b1, b2, b3]).setWidth 32 = w at value
    simp only [natOfBytes] at value
    have digit (k : Nat) (b : Byte) (hb : w.toNat / 2 ^ k % 256 = b.toNat) : w.extractLsb' k 8 = b := by
      apply BitVec.eq_of_toNat_eq
      rw [BitVec.extractLsb'_toNat, Nat.shiftRight_eq_div_pow]
      exact hb
    have h0 := b0.isLt
    have h1 := b1.isLt
    have h2 := b2.isLt
    have h3 := b3.isLt
    simp only [bytesOfWord, List.cons.injEq, and_true]
    exact ⟨digit 0 b0 (by omega), digit 8 b1 (by omega), digit 16 b2 (by omega), digit 24 b3 (by omega)⟩

@[simp] theorem State.length_physRead (s : State) (pa n : Nat) : (s.physRead pa n).length = n := by
  simp [State.physRead, bytesAt]

theorem State.fetch_error {s : State} {e : Abort} (h : s.reach s.fetchAccess s.fetchAccess.va 4 = .error e) : s.fetch = .error e := by
  simp only [State.fetch, h]

theorem State.fetch_ok {s t : State} {pa : Nat} {rs : List Region}
    (h : s.reach s.fetchAccess s.fetchAccess.va 4 = .ok (pa, rs, t)) :
    s.fetch = .ok ((valueOfBytes false (t.physRead pa 4)).setWidth 32, t) := by
  simp only [State.fetch, h]

/-! ### Steps that begin with a fetch (R23, R338) -/

/-- Where no stall goes on and no interrupt is taken, a step begins with the fetch. -/
theorem State.boundary_fetch {s : State} (hs : s.stalled = false) (hn : s.woken.nonMaskable = none)
    (hi : s.woken.interrupt = none) : s.boundary = s.woken.beginFetch := by
  simp [State.boundary, State.beginNext, hs, hn, hi]

theorem State.beginFetch_error {s : State} {e : Abort} (h : s.reach s.fetchAccess s.fetchAccess.va 4 = .error e) :
    s.beginFetch = .taken (s.abort s.fetchAccess s.fetchAccess.va e) := by
  simp only [State.beginFetch, State.fetch_error h]

theorem State.beginFetch_reserved {s t : State} {pa : Nat} {rs : List Region} {e : DecodeError}
    (h : s.reach s.fetchAccess s.fetchAccess.va 4 = .ok (pa, rs, t)) (hd : decode (t.physRead pa 4) = .error e) :
    s.beginFetch = .taken (.next (t.takeException ⟨.illegal, BitVec.ofNat 64 (natOfBytes (t.physRead pa 4)), false, 0, 0⟩)) := by
  have four : (t.physRead pa 4).length = 4 := by simp
  rw [State.beginFetch, State.fetch_ok h]
  simp only [bytesOfWord_fetchedWord four, hd, raiseReserved, raise, Trap.plain, setWidth_fetchedWord four]

/-- A fetch that reaches no instruction ends the step. -/
theorem step_of_fetch_taken {s : State} {r : Result} (hs : s.tick.stalled = false) (hn : s.tick.woken.nonMaskable = none)
    (hi : s.tick.woken.interrupt = none) (h : s.tick.woken.beginFetch = .taken r) : step s = r := by
  rw [step, State.boundary_fetch hs hn hi, h]

/-- A fetch has no transformed instruction (R345). -/
theorem State.transformed_fetchAccess (s u : State) (part : Word) (e : Exc) : s.transformed u.fetchAccess part e = 0 := by
  simp [State.transformed, State.fetchAccess]

/-- Settles O33: the step is the abort of the fetch, or the exception on the word it reads. -/
theorem fetchFaultsRaise : Obligations.FetchFaultsRaise := by
  intro s hs hn hi u pc reached
  have aborts {e : Abort} (h : reached = .error e) : step s = u.abort u.fetchAccess pc e :=
    step_of_fetch_taken hs hn hi (State.beginFetch_error h)
  refine ⟨fun h => ?_, fun h => ?_, fun gpa h => ?_, fun gpa write h => ?_, fun pa rs t e h hd => ?_⟩
  · rw [aborts h, State.abort, u.transformed_fetchAccess]
    rfl
  · rw [aborts h, State.abort, u.transformed_fetchAccess]
    rfl
  · rw [aborts h, State.abort, u.transformed_fetchAccess]
    rfl
  · rw [aborts h, State.abort]
    simp [raise, State.writesPseudo, State.fetchAccess, Need.guestExc, Exc.code]
  · exact ⟨(State.reach_walked h).only, step_of_fetch_taken hs hn hi (State.beginFetch_reserved h hd)⟩

end Sys2Proof.Machine
end

section
/-! PROOFS. The page-table walk of `satp` (O29): a walk with nothing cached comes to the PTE that its tables hold, and does with it what
the PTE is to the walk. -/

namespace Sys2Proof.Machine

/-! ### What a PTE is to a walk (R203-R207) -/

theorem Walk.allowed_iff (w : Walk) (p : Word) : w.allowed p = true ↔ w.Permits p := by
  unfold Walk.allowed Walk.Permits pteU pteX pteR pteW bit
  cases w.user <;> cases w.need <;> cases p.getLsbD 4 <;> simp

/-- A or D is to be set first (R206 step 7). -/
theorem Walk.not_recorded_iff (w : Walk) (p : Word) : (!pteA p || (w.need == .store && !pteD p)) = true ↔ ¬ w.Recorded p := by
  unfold Walk.Recorded pteA pteD bit
  cases p.getLsbD 6 <;> cases p.getLsbD 7 <;> simp

/-- What hardware writes back (R206 step 7). -/
theorem Walk.updated_eq_marked (w : Walk) (p : Word) : w.updated p = marked w.need p := by
  unfold Walk.updated marked
  split
  · next store => simp [store]
  · next other =>
    have other : (w.need == .store) = false := by simpa using other
    refine eq_of_bits fun i => ?_
    rw [bit_setBit _ 7, other, Bool.or_false]
    split
    · next hi => rw [bit_setBit, if_neg (by omega), ← hi.1]; rfl
    · rfl

/-- A bit that a mask keeps. -/
theorem bit_of_and_eq {p m v : Word} (h : p &&& m = v) {k : Nat} (hm : bit m k = true) : bit p k = bit v k := by
  rw [← h, bit_and, hm, Bool.and_true]

/-- A PTE whose bits 63:54 are clear has no reserved bit among them, no N and no PBMT (R203). -/
theorem pte_upper_clear {p m v : Word} (h : p &&& m = v) (hm : ∀ k, k < 64 → 54 ≤ k → bit m k = true)
    (hv : ∀ k, k < 64 → 54 ≤ k → bit v k = false) : field p 54 7 = 0 ∧ pteN p = false ∧ ptePbmt p = 0 := by
  have clear : ∀ k, 54 ≤ k → k < 64 → bit p k = bit 0 k := fun k h1 h2 => by
    rw [bit_of_and_eq h (hm k h2 h1), hv k h2 h1]
    simp [bit]
  exact ⟨field_congr (v := 0) fun j h1 h2 => clear j h1 (by omega), clear 63 (by omega) (by omega),
    field_congr (v := 0) fun j h1 h2 => clear j (by omega) (by omega)⟩

theorem Walk.inspect_invalid (w : Walk) (level : Nat) {p : Word} (h : p.getLsbD 0 = false) : w.inspect level p = .fault := by
  have invalid : pteV p = false := h
  simp [Walk.inspect, invalid]

/-- A pointer names the next table. -/
theorem Walk.inspect_pointer (w : Walk) (level : Nat) {p : Word} (h : w.scheme.isPointer p = true) :
    w.inspect level p = .pointer (ptePpn w.scheme p * 4096) := by
  have masked := beq_iff_eq.mp h
  have low : ∀ k ∈ [0, 1, 2, 3, 4, 6, 7], bit p k = bit (1 : Word) k := fun k hk => by
    refine bit_of_and_eq masked ?_
    split <;> revert k <;> decide
  have v : pteV p = true := low 0 (by simp)
  have r : pteR p = false := low 1 (by simp)
  have notW : pteW p = false := low 2 (by simp)
  have x : pteX p = false := low 3 (by simp)
  have u : pteU p = false := low 4 (by simp)
  have a : pteA p = false := low 6 (by simp)
  have d : pteD p = false := low 7 (by simp)
  have upper (h8 : w.scheme.pteBytes = 8) : field p 54 7 = 0 ∧ pteN p = false ∧ ptePbmt p = 0 := by
    rw [if_neg (by omega)] at masked
    exact pte_upper_clear masked (by decide) (by decide)
  have leaf : pteLeaf p = false := by simp [pteLeaf, r, x]
  have reserved : w.reserved level p = false := by
    by_cases h8 : w.scheme.pteBytes = 8
    · obtain ⟨zero, n, pbmt⟩ := upper h8
      simp [Walk.reserved, leaf, r, notW, u, a, d, zero, n, pbmt]
    · simp [Walk.reserved, leaf, r, notW, u, a, d, h8]
  simp [Walk.inspect, v, reserved, leaf]

/-- In a valid leaf, bits 63:54 are clear, but for Sv32, which has none. -/
theorem Scheme.isLeaf_upper {c : Scheme} {p : Word} (h : c.isLeaf p = true) (h8 : c.pteBytes = 8) :
    field p 54 7 = 0 ∧ pteN p = false ∧ ptePbmt p = 0 := by
  simp only [Scheme.isLeaf, h8, Bool.and_eq_true, Bool.or_eq_true, beq_iff_eq] at h
  obtain ⟨-, clear⟩ := h
  exact pte_upper_clear (clear.resolve_left (by decide)) (by decide) (by decide)

theorem Walk.valid_of_isLeaf {w : Walk} {level : Nat} {p : Word} (h : w.scheme.isLeaf p = true) :
    pteV p = true ∧ pteLeaf p = true ∧ w.reserved level p = false := by
  have low := h
  simp only [Scheme.isLeaf, Bool.and_eq_true, Bool.or_eq_true, Bool.not_eq_true'] at low
  obtain ⟨⟨⟨v, leaf⟩, rOrNotW⟩, -⟩ := low
  have isLeaf : pteLeaf p = true := by simpa [pteLeaf, pteR, pteX, bit] using leaf
  have notWOnly : (!pteR p && pteW p) = false := by
    rcases rOrNotW with r | notW <;> simp_all [pteR, pteW, bit]
  refine ⟨v, isLeaf, ?_⟩
  by_cases h8 : w.scheme.pteBytes = 8
  · obtain ⟨zero, n, pbmt⟩ := Scheme.isLeaf_upper h h8
    simp [Walk.reserved, notWOnly, isLeaf, zero, n, pbmt]
  · simp [Walk.reserved, notWOnly, isLeaf, h8]

/-- A leaf that does not permit the access, or is not aligned, is a fault (R206 steps 5, 6). -/
theorem Walk.inspect_leaf_fault {w : Walk} {level : Nat} {p : Word} (h : w.scheme.isLeaf p = true)
    (bad : ¬ (w.Permits p ∧ w.AlignedLeaf level p)) : w.inspect level p = .fault := by
  obtain ⟨v, leaf, reserved⟩ := w.valid_of_isLeaf (level := level) h
  rw [← Walk.allowed_iff, Walk.AlignedLeaf] at bad
  by_cases allowed : w.allowed p = true
  · have misaligned : ptePpn w.scheme p % 2 ^ (w.scheme.vpnBits * level) ≠ 0 := fun aligned => bad ⟨allowed, aligned⟩
    simp [Walk.inspect, v, leaf, reserved, allowed, misaligned]
  · simp [Walk.inspect, v, leaf, reserved, allowed]

/-- Any other leaf maps the page, unless A or D is to be set first (R206 step 7). -/
theorem Walk.inspect_leaf {w : Walk} {level : Nat} {p : Word} (h : w.scheme.isLeaf p = true) (permits : w.Permits p)
    (aligned : w.AlignedLeaf level p) :
    (w.Recorded p → w.inspect level p = .leaf)
      ∧ (¬ w.Recorded p → w.inspect level p = if w.hwAd then .update else .fault) := by
  obtain ⟨v, leaf, reserved⟩ := w.valid_of_isLeaf (level := level) h
  rw [← Walk.allowed_iff] at permits
  rw [Walk.AlignedLeaf] at aligned
  have recorded := w.not_recorded_iff p
  constructor <;> intro hr <;>
    simp only [Walk.inspect, v, leaf, reserved, permits, aligned, recorded, hr, not_true, not_false_eq_true, Bool.not_true,
      Bool.or_self, Bool.false_eq_true, ne_eq, if_true, if_false]

/-- The address that a valid leaf maps to. -/
theorem Walk.target_leaf {w : Walk} {p : Word} (h : w.scheme.isLeaf p = true) (level va : Nat) :
    w.target level p va = ⟨ptePpn w.scheme p * 4096 + va % 2 ^ (12 + w.scheme.vpnBits * level), 0⟩ := by
  by_cases h8 : w.scheme.pteBytes = 8
  · obtain ⟨-, n, pbmt⟩ := Scheme.isLeaf_upper h h8
    simp [Walk.target, n, pbmt]
  · simp [Walk.target, h8]

/-! ### The walk to a PTE with nothing cached (R206) -/

/-- `place` says where the resolver finds tables. -/
def Resolver.Places (resolve : Resolver) (place : State → Nat → Nat → State → Prop) : Prop :=
  ∀ s a pa t, place s a pa t → ∃ pbmt, resolve s a .load = .ok (⟨pa, pbmt⟩, t)

theorem physicalTables_places : Resolver.Places physicalTables physically := by
  rintro s a pa t ⟨rfl, rfl⟩
  exact ⟨0, rfl⟩

/-- What a walk ends with at the PTE p, read at address a and leaving s. -/
def Walk.conclude (w : Walk) (resolve : Resolver) (va level a : Nat) (p : Word) (s : State) : Except Abort (Target × State) :=
  match w.inspect level p with
  | .fault => .error .page
  | .pointer next => w.go resolve va level next s
  | .leaf => .ok (w.target level p va, s)
  | .update => w.finishLeaf resolve s a level va p

theorem State.cachedPte_of_empty {s : State} (h : s.cache = []) (w : Walk) (level va : Nat) : s.cachedPte w level va = none := by
  simp [State.cachedPte, State.cachedEntry, h]

theorem valueOfBytes_of_orderedValue {big : Bool} {bs : List Byte} {p : Word} (h : orderedValue big bs = p.toNat) :
    valueOfBytes big bs = p := by
  change BitVec.ofNat 64 (orderedValue big bs) = p
  rw [h, BitVec.ofNat_toNat, BitVec.setWidth_eq]

/-- A walk reads the PTE that its table holds (R206 step 2). -/
theorem Walk.readPte_of_holds {w : Walk} (attended : w.speculative = false) {resolve : Resolver}
    {place : State → Nat → Nat → State → Prop} (places : resolve.Places place) {s t : State} {a : Nat} {p : Word}
    (h : w.Holds place s a p t) : w.readPte resolve s a = .ok (p, t) := by
  obtain ⟨pa, hp, ⟨rs, check⟩, value⟩ := h
  obtain ⟨pbmt, found⟩ := places _ _ _ _ hp
  rw [attended] at check
  simp [Walk.readPte, found, check, attended, valueOfBytes_of_orderedValue value]

/-- One level of a walk with nothing cached. -/
theorem Walk.go_of_holds {w : Walk} (attended : w.speculative = false) {resolve : Resolver}
    {place : State → Nat → Nat → State → Prop} (places : resolve.Places place) {s t : State} (empty : s.cache = [])
    {va level table : Nat} {p : Word} (h : w.Holds place s (table + vpnAt w.scheme level va * w.scheme.pteBytes) p t) :
    w.go resolve va (level + 1) table s
      = w.conclude resolve va level (table + vpnAt w.scheme level va * w.scheme.pteBytes) p t := by
  rw [Walk.go, State.cachedPte_of_empty empty]
  simp only [Walk.readPte_of_holds attended places h]
  rfl

/-- A walk that comes through valid pointers to a PTE ends with what it concludes there. -/
theorem Walk.go_of_findsFrom {w : Walk} (attended : w.speculative = false) {resolve : Resolver} (gentle : resolve.Gentle)
    {place : State → Nat → Nat → State → Prop} (places : resolve.Places place) {va level spot : Nat} {p : Word} {t : State}
    (n : Nat) {table : Nat} {s : State} (empty : s.cache = []) (h : w.findsFrom place va level spot p t n table s) :
    w.go resolve va n table s = w.conclude resolve va level spot p t := by
  induction n generalizing table s with
  | zero => exact h.elim
  | succ n ih =>
    rw [Walk.findsFrom] at h
    split at h
    · next last =>
      obtain ⟨rfl, holds⟩ := h
      subst last
      exact Walk.go_of_holds attended places empty holds
    · obtain ⟨q, u, holds, pointer, rest⟩ := h
      have walked : s.Walked u := Walk.readPte_walked gentle (Walk.readPte_of_holds attended places holds)
      have emptied : u.cache = [] := by rw [walked.only]; exact empty
      rw [Walk.go_of_holds attended places empty holds, Walk.conclude, w.inspect_pointer n pointer]
      exact ih emptied rest

theorem Walk.run_of_finds {w : Walk} (attended : w.speculative = false) {resolve : Resolver} (gentle : resolve.Gentle)
    {place : State → Nat → Nat → State → Prop} (places : resolve.Places place) {va level spot : Nat} {p : Word} {s t : State}
    (empty : s.cache = []) (h : w.Finds place s va level spot p t) :
    w.run resolve va s = w.conclude resolve va level spot p t :=
  Walk.go_of_findsFrom attended gentle places _ empty h

/-! ### What a walk concludes (R206 steps 3 to 8) -/

theorem Walk.conclude_invalid (w : Walk) (resolve : Resolver) (va level a : Nat) {p : Word} (h : p.getLsbD 0 = false) (s : State) :
    w.conclude resolve va level a p s = .error .page := by
  rw [Walk.conclude, w.inspect_invalid level h]

/-- No table is left below the last level. -/
theorem Walk.conclude_lastPointer (w : Walk) (resolve : Resolver) (va a : Nat) {p : Word} (h : w.scheme.isPointer p = true)
    (s : State) : w.conclude resolve va 0 a p s = .error .page := by
  rw [Walk.conclude, w.inspect_pointer 0 h]
  rfl

theorem Walk.conclude_badLeaf {w : Walk} {level : Nat} {p : Word} (h : w.scheme.isLeaf p = true)
    (bad : ¬ (w.Permits p ∧ w.AlignedLeaf level p)) (resolve : Resolver) (va a : Nat) (s : State) :
    w.conclude resolve va level a p s = .error .page := by
  rw [Walk.conclude, Walk.inspect_leaf_fault h bad]

section
variable {w : Walk} {level : Nat} {p : Word} (h : w.scheme.isLeaf p = true) (permits : w.Permits p)
  (aligned : w.AlignedLeaf level p) (resolve : Resolver) (va a : Nat) (s : State)
include h permits aligned

theorem Walk.conclude_recorded (recorded : w.Recorded p) :
    w.conclude resolve va level a p s
      = .ok (⟨ptePpn w.scheme p * 4096 + va % 2 ^ (12 + w.scheme.vpnBits * level), 0⟩, s) := by
  rw [Walk.conclude, (Walk.inspect_leaf h permits aligned).1 recorded, ← Walk.target_leaf h]

theorem Walk.conclude_unrecorded (unrecorded : ¬ w.Recorded p) (hw : w.hwAd = false) :
    w.conclude resolve va level a p s = .error .page := by
  rw [Walk.conclude, (Walk.inspect_leaf h permits aligned).2 unrecorded, hw]
  rfl

/-- Hardware updates the PTE in a table named by its physical address, if PMP and PMA let it. -/
theorem Walk.conclude_update (unrecorded : ¬ w.Recorded p) (hw : w.hwAd = true) :
    w.conclude physicalTables va level a p s
      = (s.checkPhys (.tableWrite w.stage) .s a w.scheme.pteBytes).map fun _ =>
          (⟨ptePpn w.scheme p * 4096 + va % 2 ^ (12 + w.scheme.vpnBits * level), 0⟩,
            s.physWrite a (bytesOfValue w.big w.scheme.pteBytes (marked w.need p))) := by
  rw [Walk.conclude, (Walk.inspect_leaf h permits aligned).2 unrecorded, hw, if_pos rfl, ← Walk.target_leaf h]
  simp only [Walk.finishLeaf, Walk.writePte, physicalTables, Walk.updated_eq_marked]
  cases s.checkPhys (.tableWrite w.stage) .s a w.scheme.pteBytes <;> rfl

end

/-! ### Translation by `satp` (R102, R201, R206) -/

/-- `satp` zero is Bare, the identity (R102, R168). -/
theorem State.translateS_zero {s : State} (h : zx s.sxlen s.sc.satp = 0) (va : Word) (need : Need) (p : Priv) :
    s.translateS va need p = .ok (⟨va.toNat, 0⟩, s) := by
  have bare : schemeOf s.sxlen s.sc.satp = none ∧ bareTarget s.sxlen s.sc.satp va = some va.toNat := by
    cases width : s.sxlen with
    | rv64 =>
      rw [width] at h
      have zero : s.sc.satp = 0 := h
      rw [zero]
      exact ⟨by decide, if_pos rfl⟩
    | rv32 =>
      rw [width] at h
      have low : s.sc.satp.toNat % 2 ^ 32 = 0 := by
        have := congrArg BitVec.toNat h
        rwa [zx_toNat] at this
      have mode : bit s.sc.satp 31 = false := by
        rw [bit, BitVec.getLsbD, Nat.testBit_eq_decide_div_mod_eq, decide_eq_false_iff_not]
        omega
      refine ⟨by simp [schemeOf, mode], if_pos (BitVec.eq_of_toNat_eq ?_)⟩
      rw [BitVec.toNat_and]
      exact (Nat.and_two_pow_sub_one_eq_mod _ 31).trans (by simp; omega)
  simp only [State.translateS, bare.1, bare.2]

theorem rootOf_eq (xl : Xlen) (atp : Word) : atpPpn xl atp = rootOf xl atp := by
  cases xl <;> simp [atpPpn, rootOf, field, BitVec.extractLsb'_toNat]

theorem State.adUpdates_eq (s : State) (adue : Bool) : s.adUpdates adue = s.UpdatesIf adue := by
  unfold State.adUpdates State.UpdatesIf
  cases s.cfg.adScheme <;> simp

theorem State.walkS_madeWith (s : State) (c : Scheme) (need : Need) (p : Priv) :
    (s.walkS c need p).MadeWith (rootOf s.sxlen s.sc.satp) (p == .u) (bit s.mc.mstatus 18) (bit s.mc.mstatus 19)
      (s.UpdatesIf (bit s.menvcfg 61)) (bit s.mc.mstatus 36) (s.cfg.svpbmt && bit s.menvcfg 62) :=
  ⟨rootOf_eq .., rfl, rfl, rfl, s.adUpdates_eq _, rfl, rfl⟩

/-- Below M-mode with V=0 an address is canonical or faults, and a canonical one is walked for. -/
theorem State.translate_walkS {s : State} {c : Scheme} {p : Priv} (hc : schemeOf s.sxlen s.sc.satp = some c) (hp : p ≠ .m)
    (va : Word) (need : Need) :
    s.translate va need p false
      = if canonical c va then (s.walkS c need p).run physicalTables va.toNat s else .error .page := by
  simp [State.translate, hp, State.translateS, hc]

/-- Settles O29: the walk comes to the PTE found (`Walk.run_of_finds`), and each clause is what it concludes there. -/
theorem pageTableWalk : Obligations.PageTableWalk := by
  refine ⟨fun s va need p zero => ?_, fun s c va need p level spot pte hc empty hp => ?_⟩
  · by_cases hp : p = .m
    · simp [State.translate, hp]
    · simpa [State.translate, hp] using s.translateS_zero zero va need p
  intro w mapped faults
  have translates := State.translate_walkS hc hp va need
  refine ⟨s.walkS_madeWith c need p, fun hva => ?_, fun hva finds => ?_⟩
  · simpa [hva] using translates
  have ends : s.translate va need p false = w.conclude physicalTables va.toNat level spot pte s := by
    rw [translates, if_pos hva]
    exact Walk.run_of_finds rfl physicalTables_gentle physicalTables_places empty finds
  simp only [faults, ends]
  refine ⟨fun invalid => Walk.conclude_invalid _ _ _ _ _ invalid _, ?_, fun leaf => ⟨fun bad => ?_, fun permits aligned => ?_⟩⟩
  · rintro pointer rfl
    exact Walk.conclude_lastPointer _ _ _ _ pointer _
  · exact Walk.conclude_badLeaf leaf bad ..
  refine ⟨Walk.conclude_recorded leaf permits aligned _ _ _ _, Walk.conclude_unrecorded leaf permits aligned _ _ _ _,
    fun unrecorded hw => ?_⟩
  have update := Walk.conclude_update leaf permits aligned va.toNat spot s unrecorded hw
  constructor
  · intro rs check
    rw [update, show w.stage = .s from rfl, show w.scheme = c from rfl, check]
    rfl
  · intro e check
    rw [update, show w.stage = .s from rfl, show w.scheme = c from rfl, check]
    rfl

end Sys2Proof.Machine
end

section
/-! PROOFS. Writes of the supervisor's registers by CSRRW: what the check lets through, and what the instruction leaves besides the
write (R239, R247). -/

namespace Sys2Proof.Machine

/-! ### CSRRW where the check allows it -/

theorem exec_csrrw_allowed {s : State} {n : BitVec 12} {c : CsrRef} (hc : csrOf n = some c) (ok : s.csrCheck n true = .allowed)
    (rd rs1 : Reg) : exec (.csrrw rd n rs1) s
      = .next ((s.csrWrite c (s.x rs1)).csrFinish s rd (s.csrRead c) (s.writesMinstret c)) := by
  change csrAccess _ n rd true (fun _ => s.x rs1) s = _
  simp only [csrAccess, ok, hc, if_true]

/-- What follows the write of a CSR changes the registers, the pc and the counters alone. -/
theorem State.csrFinish_eq (s b : State) (rd : Reg) (old : Word) (m : Bool) :
    s.csrFinish b rd old m = { s with
      regs := (s.csrFinish b rd old m).regs, pc := (s.csrFinish b rd old m).pc, cnt := (s.csrFinish b rd old m).cnt } := by
  unfold State.csrFinish
  cases m
  · rw [if_neg (by decide), State.retire_eq, State.setX_eq]; rfl
  · rw [if_pos rfl, State.setX_eq]; rfl

/-- t is u but for the registers, the pc and the counters: what completing the instruction that left u changes. -/
def State.CompletesAs (u t : State) : Prop := t = { u with regs := t.regs, pc := t.pc, cnt := t.cnt }

theorem State.CompletesAs.fields {u t : State} (h : u.CompletesAs t) :
    t.mc = u.mc ∧ t.sc = u.sc ∧ t.hc = u.hc ∧ t.vc = u.vc ∧ t.cache = u.cache := by
  rw [State.CompletesAs] at h
  rw [h]
  exact ⟨rfl, rfl, rfl, rfl, rfl⟩

/-- CSRRW that the check allows leaves what the write of the CSR leaves. -/
theorem exec_csrrw_completes {s : State} {n : BitVec 12} {c : CsrRef} (hc : csrOf n = some c)
    (ok : s.csrCheck n true = .allowed) (rd rs1 : Reg) :
    ∃ t, exec (.csrrw rd n rs1) s = .next t ∧ (s.csrWrite c (s.x rs1)).CompletesAs t :=
  ⟨_, exec_csrrw_allowed hc ok rd rs1, State.csrFinish_eq ..⟩

/-! ### What the check allows (R247) -/

/-- The registers of supervisor level that no enable bit guards: status, interrupts, address translation. -/
def unguarded : CsrReg → Bool
  | .sstatus | .sie | .sip | .satp | .vsatp | .hgatp => true
  | _ => false

/-- An unguarded register may be written where it exists, its level is reached, and TVM and VTVM allow it. -/
theorem State.csrCheck_unguarded {s : State} {n : BitVec 12} {r : CsrReg} (hc : csrOf n = some ⟨r, false⟩)
    (hr : unguarded r = true) (has : s.hasCsr r = true) (level : s.levelVerdict ⟨r, false⟩ n true = .allowed)
    (writable : csrReadOnly n = false) (bits : s.trapBits r = .allowed) : s.csrCheck n true = .allowed := by
  have free : s.blockedByM ⟨r, false⟩ = false ∧ s.blockedByHS r = false ∧ s.windowVerdict r = .allowed := by
    cases r <;> cases hr <;> simp [State.blockedByM, State.blockedByHS, State.windowVerdict, counterIndex]
  obtain ⟨m, hs, window⟩ := free
  simp [State.csrCheck, hc, State.csrExists, has, State.checkSteps, m, hs, window, level, writable, bits]

/-- With V=0 the modes above U reach every level but M's (R28). -/
theorem State.levelVerdict_host {s : State} (hv : s.virt = false) (hp : s.priv ≠ .u) {n : BitVec 12} (hn : csrLevel n ≠ 3#2)
    (c : CsrRef) (write : Bool) : s.levelVerdict c n write = .allowed := by
  cases priv : s.priv with
  | m => simp [State.levelVerdict, priv]
  | s => simp [State.levelVerdict, priv, hv, hn]
  | u => exact absurd priv hp

/-- VS-mode reaches supervisor level (R28). -/
theorem State.levelVerdict_guest {s : State} (hv : s.virt = true) (hp : s.priv = .s) {n : BitVec 12} (hn : csrLevel n = 1#2)
    (c : CsrRef) (write : Bool) : s.levelVerdict c n write = .allowed := by
  simp [State.levelVerdict, hp, hv, hn]

/-- With V=0, above U-mode, an unguarded register takes what CSRRW writes. -/
theorem exec_csrrw_host {s : State} {n : BitVec 12} {r : CsrReg} (hc : csrOf n = some ⟨r, false⟩) (hr : unguarded r = true)
    (hn : csrLevel n ≠ 3#2 ∧ csrReadOnly n = false) (has : s.hasCsr r = true) (hv : s.virt = false) (hp : s.priv ≠ .u)
    (bits : s.trapBits r = .allowed) (rd rs1 : Reg) :
    ∃ t, exec (.csrrw rd n rs1) s = .next t
      ∧ (s.csrSet r (writeLow s.xlen (s.csrView r) (s.x rs1))).CompletesAs t := by
  have written : s.csrWrite ⟨r, false⟩ (s.x rs1) = s.csrSet r (writeLow s.xlen (s.csrView r) (s.x rs1)) := by
    cases r <;> cases hr <;> simp [State.csrWrite, csrTarget, hv]
  rw [← written]
  exact exec_csrrw_completes hc (State.csrCheck_unguarded hc hr has (State.levelVerdict_host hv hp hn.1 _ _) hn.2 bits) rd rs1

/-! ### The value written (R37) -/

@[simp] theorem bit_xmask (xl : Xlen) (j : Nat) : bit (xmask xl) j = decide (j < xl.bits) := by
  have all : ∀ xl, ∀ j, j < 64 → bit (xmask xl) j = decide (j < xl.bits) := by intro xl; cases xl <;> decide
  by_cases hj : j < 64
  · exact all xl j hj
  · have : ¬ j < xl.bits := by cases xl <;> simp only [Xlen.bits] <;> omega
    simp [bit_of_ge _ (Nat.not_lt.mp hj), this]

theorem bit_writeLow (xl : Xlen) (old v : Word) (j : Nat) :
    bit (writeLow xl old v) j = if j < xl.bits then bit v j else bit old j := by
  simp only [writeLow, bit_merge, bit_xmask, decide_eq_true_eq]

/-- The low bits of what is written are those of the operand. -/
theorem zx_writeLow (xl : Xlen) (old v : Word) : zx xl (writeLow xl old v) = zx xl v := by
  refine eq_of_bits fun j => ?_
  rw [bit_zx, bit_zx, bit_writeLow]
  by_cases h : j < xl.bits <;> simp [h]

end Sys2Proof.Machine
end

section
/-! PROOFS. The views of the supervisor (O47): `sstatus`, `sie` and `sip` reach only the bits of their masks. -/

namespace Sys2Proof.Machine

/-! ### `sstatus` (R87) -/

/-- The machine's fields of `mstatus`, SXL among them. -/
def machineStatusBits : List Nat := [3, 7, 11, 12, 17, 20, 21, 22, 34, 35, 36, 37, 38, 39]

theorem bit_sstatusMask (xl : Xlen) : ∀ k ∈ machineStatusBits, bit (sstatusMask xl) k = false := by
  cases xl <;> decide

/-- MPP and its like stay where what is written is what they hold. -/
theorem State.legalPP_self (s : State) (f : BitVec 2) : s.legalPP f f = f := by simp [State.legalPP]

/-- A width field that holds a legal code stays where that code is written. -/
theorem legalXl_self (writable : Bool) {f : BitVec 2} (h : f = 1#2 ∨ f = 2#2) : legalXl writable .rv64 f f = f := by
  rcases h with rfl | rfl <;> cases writable <;> rfl

/-- A bit on which two words agree is not changed where a field of one is copied to the other. -/
theorem bit_setField_copy {w v : Word} {k : Nat} (h : bit w k = bit v k) (lo n : Nat) :
    bit (setField w lo (field v lo n)) k = bit v k := by
  rw [bit_setField]
  split
  · next hk =>
    rw [getLsbD_field, show lo + (k - lo) = k by omega, decide_eq_true (by omega), Bool.true_and]
  · exact h

/-- The machine's fields of `mstatus` stay where the mask of a write has none of them. -/
theorem State.bit_legalMstatus {s : State} {mask : Word} (hS : s.hasS = true)
    (legal : s.cfg.mxlen = .rv64 → field s.mc.mstatus 34 2 = 1#2 ∨ field s.mc.mstatus 34 2 = 2#2)
    (out : ∀ k ∈ machineStatusBits, bit mask k = false) (w : Word) {k : Nat} (hk : k ∈ machineStatusBits) :
    bit (s.legalMstatus mask w) k = bit s.mc.mstatus k := by
  generalize hm : merge s.mc.mstatus w mask = m
  have same (j : Nat) (hj : j ∈ machineStatusBits) : bit m j = bit s.mc.mstatus j := by
    rw [← hm, bit_merge, out j hj, if_neg (by decide)]
  have mpp : field m 11 2 = field s.mc.mstatus 11 2 := field_congr fun j h1 h2 =>
    same j (by rcases (by omega : j = 11 ∨ j = 12) with rfl | rfl <;> decide)
  have sxl : field m 34 2 = field s.mc.mstatus 34 2 := field_congr fun j h1 h2 =>
    same j (by rcases (by omega : j = 34 ∨ j = 35) with rfl | rfl <;> decide)
  have written : bit (setField (merge s.mc.mstatus m s.mstatusWritable) 11 (field s.mc.mstatus 11 2)) k = bit s.mc.mstatus k :=
    bit_setField_copy (by rw [bit_merge, same k hk, ite_self]) 11 2
  simp only [State.legalMstatus, hm, mpp, State.legalPP_self]
  cases width : s.cfg.mxlen with
  | rv32 => exact written
  | rv64 =>
    have uxl : ∀ j ∈ machineStatusBits, ¬ (32 ≤ j ∧ j < 34) := by decide
    have notUxl := uxl k hk
    simp only [State.newSxl, hS, if_true, sxl, legalXl_self _ (legal width)]
    rw [bit_setField, if_neg (by omega)]
    exact bit_setField_copy written 34 2

/-! ### `sie` and `sip` (R91) -/

theorem State.bit_sSubset (s : State) (w : Word) (k : Nat) :
    bit (s.sSubset w) k = (decide (k < s.sxlen.bits) && (bit w k && bit s.mideleg k && bit s.sInts k)) := by
  rw [State.sSubset, bit_zx, bit_and, bit_and]

/-- The platform's interrupts, as a mask. -/
theorem State.bit_platformMask (s : State) (k : Nat) :
    bit s.platformMask k = true ↔ k ∈ s.cfg.platformInts ∧ k < 64 := by
  have fold (l : List Nat) : ∀ w : Word, bit (l.foldl (fun w i => w ||| 1#64 <<< i) w) k = true
      ↔ bit w k = true ∨ (k ∈ l ∧ k < 64) := by
    induction l with
    | nil => simp
    | cons i l ih =>
      intro w
      have one : bit (1#64 <<< i) k = (decide (i = k) && decide (k < 64)) := by simpa [bitAt] using bit_bitAt i k true
      rw [List.foldl_cons, ih, bit_or, one]
      simp only [Bool.or_eq_true, Bool.and_eq_true, decide_eq_true_eq, List.mem_cons, eq_comm (a := i), or_and_right, or_assoc]
  rw [State.platformMask, fold]
  simp [bit]

theorem Config.platformInts_ge {c : Config} (h : c.wf = true) {k : Nat} (hk : k ∈ c.platformInts) : 16 ≤ k := by
  simp only [Config.wf, Bool.and_eq_true, List.all_eq_true, decide_eq_true_eq] at h
  obtain ⟨⟨-, ints⟩, -⟩ := h
  exact ints k hk

/-- The interrupts of VS level and the guest external ones are none of the supervisor's (R91, R149). -/
theorem State.sInts_spares {s : State} (h : s.cfg.wf = true) {k : Nat} (hk : k ∈ [2, 6, 10, 12]) : bit s.sInts k = false := by
  have small : k < 16 ∧ k ≠ 13 ∧ bit (if s.hasS then 0x222 else 0 : Word) k = false := by
    revert hk k
    cases s.hasS <;> decide
  obtain ⟨lt, ne, fixed⟩ := small
  have platform : bit s.platformMask k = false := by
    rw [← Bool.not_eq_true, State.bit_platformMask]
    exact fun hm => absurd (Config.platformInts_ge h hm.1) (by omega)
  rw [State.sInts, bit_or, bit_or, fixed, platform, bit_bitAt, decide_eq_false (Ne.symm ne)]
  simp

/-- Bits of `mie` outside the mask of a write stay. -/
theorem State.bit_writeMie (s : State) {mask : Word} (w : Word) {k : Nat} (h : bit mask k = false) :
    bit (s.writeMie mask w).mc.mie k = bit s.mc.mie k := by
  simp [State.writeMie, bit_merge, bit_and, h]

/-- `sip` writes SSIP and LCOFIP, where delegated. -/
theorem State.bit_sipWritable {s : State} {k : Nat} (h : bit s.sipWritable k = true) :
    (k = 1 ∨ k = 13) ∧ bit s.mideleg k = true := by
  rw [State.sipWritable, State.bit_sSubset] at h
  simp only [Bool.and_eq_true] at h
  obtain ⟨-, ⟨mask, delegated⟩, -⟩ := h
  have small : ∀ k, k < 64 → bit 0x2002 k = true → k = 1 ∨ k = 13 := by decide
  have lt : k < 64 := Nat.lt_of_not_le fun hk => by
    rw [bit_of_ge _ hk] at mask
    cases mask
  exact ⟨small k lt mask, delegated⟩

/-- A write through `sip` reaches `mip` alone: VSSIP, which stands in `hvip`, is not in it. -/
theorem State.writeMip_sip (s : State) (w : Word) :
    s.writeMip s.sipWritable w
      = { s with mc := { s.mc with mip := merge s.mc.mip w (s.sipWritable &&& s.mipWritable) } } := by
  have hvip : merge s.hc.hvip w (s.sipWritable &&& bitAt 2 s.hasH) = s.hc.hvip := by
    refine eq_of_bits fun k => ?_
    rw [bit_merge, if_neg]
    rw [bit_and, bit_bitAt]
    simp only [Bool.and_eq_true, decide_eq_true_eq]
    rintro ⟨sip, ⟨-, two⟩, -⟩
    have := (State.bit_sipWritable sip).1
    omega
  rw [State.writeMip, hvip]

/-- Settles O47: each view is written under a mask that has none of the bits named. -/
theorem supervisorViewsAreConfined : Obligations.SupervisorViewsAreConfined := by
  intro s rd rs1 hS hv hp wf legal
  refine ⟨?_, ?_, ?_⟩
  · obtain ⟨t, he, ht⟩ := exec_csrrw_host (n := 0x100) (r := .sstatus) rfl rfl (by decide) hS hv hp rfl rd rs1
    have status : t.mc.mstatus = s.legalMstatus (sstatusMask s.sxlen) (writeLow s.xlen s.viewSstatus (s.x rs1)) :=
      congrArg MCsrs.mstatus ht.fields.1
    refine ⟨t, he, by rw [status]; exact ht, fun k hk => ?_⟩
    rw [status]
    exact State.bit_legalMstatus hS legal (bit_sstatusMask s.sxlen) _ hk
  · obtain ⟨t, he, ht⟩ := exec_csrrw_host (n := 0x104) (r := .sie) rfl rfl (by decide) hS hv hp rfl rd rs1
    have mie : t.mc.mie
        = (s.writeMie (s.sSubset (BitVec.allOnes 64)) (writeLow s.xlen (s.sSubset s.mie) (s.x rs1))).mc.mie :=
      congrArg MCsrs.mie ht.fields.1
    refine ⟨t, he, by rw [mie]; exact ht, fun k _ hk => ?_⟩
    rw [mie]
    refine s.bit_writeMie _ ?_
    rw [State.bit_sSubset]
    rcases hk with undelegated | vsLevel | wide
    · simp [undelegated]
    · simp [State.sInts_spares wf vsLevel]
    · simp [Nat.not_lt.mpr wide]
  · obtain ⟨t, he, ht⟩ := exec_csrrw_host (n := 0x144) (r := .sip) rfl rfl (by decide) hS hv hp rfl rd rs1
    simp only [State.csrSet, State.writeMip_sip] at ht
    have mip : t.mc.mip = merge s.mc.mip (writeLow s.xlen (s.csrView .sip) (s.x rs1)) (s.sipWritable &&& s.mipWritable) :=
      congrArg MCsrs.mip ht.fields.1
    refine ⟨t, he, by rw [mip]; exact ht, fun k _ hk => ?_⟩
    have outside : bit s.sipWritable k = false := Bool.eq_false_iff.mpr fun h => hk (State.bit_sipWritable h)
    rw [mip, bit_merge, bit_and, outside, Bool.false_and, if_neg (by decide)]

end Sys2Proof.Machine
end

section
/-! PROOFS. Writes of `satp`, `vsatp` and `hgatp` (O46): which bits of the operand each takes, by MODE and width. -/

namespace Sys2Proof.Machine

/-! ### Runs of ones, and fields under them -/

/-- The word whose only set bits are the n from bit lo up. -/
theorem bit_ones {lo n : Nat} (h : lo + n ≤ 64) (k : Nat) :
    bit (BitVec.ofNat 64 ((2 ^ n - 1) * 2 ^ lo)) k = decide (lo ≤ k ∧ k < lo + n) := by
  rw [bit, BitVec.getLsbD_ofNat, Nat.testBit_mul_two_pow, Nat.testBit_two_pow_sub_one, Bool.eq_iff_iff]
  simp only [Bool.and_eq_true, decide_eq_true_eq]
  omega

/-- Two runs of ones, the second above the first. -/
theorem bit_ones_or_ones {lo m n : Nat} (h : lo + m + n ≤ 64) (k : Nat) :
    bit (BitVec.ofNat 64 ((2 ^ m - 1) * 2 ^ lo) ||| BitVec.ofNat 64 ((2 ^ n - 1) * 2 ^ (lo + m))) k
      = decide (lo ≤ k ∧ k < lo + m + n) := by
  rw [bit_or, bit_ones (by omega), bit_ones (by omega), ← Bool.decide_or]
  exact decide_eq_decide.mpr (by omega)

theorem testBit_field (w : Word) (lo n i : Nat) : (field w lo n).toNat.testBit i = (decide (i < n) && bit w (lo + i)) :=
  getLsbD_field w lo n i

/-- A field that takes the a lowest bits of another. -/
theorem field_toNat_mod {w v : Word} {lo n a : Nat}
    (h : ∀ j, lo ≤ j → j < lo + n → bit w j = (bit v j && decide (j < lo + a))) :
    (field w lo n).toNat = (field v lo n).toNat % 2 ^ a := by
  refine Nat.eq_of_testBit_eq fun i => ?_
  rw [Nat.testBit_mod_two_pow, testBit_field, testBit_field]
  by_cases hi : i < n
  · rw [h (lo + i) (by omega) (by omega), Bool.eq_iff_iff]
    simp [hi, and_comm]
  · simp [hi]

/-- A field that takes another but its two lowest bits. -/
theorem field_toNat_div {w v : Word} {lo n : Nat}
    (h : ∀ j, lo ≤ j → j < lo + n → bit w j = (bit v j && decide (lo + 2 ≤ j))) :
    (field w lo n).toNat = (field v lo n).toNat / 4 * 4 := by
  refine Nat.eq_of_testBit_eq fun i => ?_
  change _ = ((field v lo n).toNat / 2 ^ 2 * 2 ^ 2).testBit i
  rw [Nat.testBit_mul_two_pow, Nat.testBit_div_two_pow, testBit_field, testBit_field]
  by_cases hi : i < n
  · rw [h (lo + i) (by omega) (by omega), Bool.eq_iff_iff]
    by_cases h2 : 2 ≤ i
    · simp [hi, h2, show i - 2 + 2 = i by omega]
    · simp [h2]
  · by_cases h2 : 2 ≤ i
    · simp [hi, show i - 2 + 2 = i by omega]
    · simp [hi, h2]

/-- A field none of whose bits is set. -/
theorem field_eq_zero {w : Word} {lo n : Nat} (h : ∀ j, lo ≤ j → j < lo + n → bit w j = false) : field w lo n = 0 :=
  (field_congr (v := 0) fun j h1 h2 => (h j h1 h2).trans (by simp [bit])).trans (by simp [field])

/-! ### The bits of an address-translation register (R101, R158) -/

theorem bit_modeBits_rv32 (k : Nat) : bit (modeBits .rv32) k = decide (k = 31) :=
  (bit_ones (lo := 31) (n := 1) (by omega) k).trans (decide_eq_decide.mpr (by omega))

theorem bit_modeBits_rv64 (k : Nat) : bit (modeBits .rv64) k = decide (60 ≤ k ∧ k < 64) :=
  bit_ones (lo := 60) (n := 4) (by omega) k

section
variable (s : State) (k : Nat)

/-- PPN, and above it the bits of ASID that exist. -/
theorem State.bit_satpRest_rv32 : bit (s.satpRest .rv32) k = decide (k < 22 + min s.cfg.asidLen 9) :=
  (bit_ones_or_ones (lo := 0) (m := 22) (n := min s.cfg.asidLen 9) (by omega) k).trans (decide_eq_decide.mpr (by omega))

theorem State.bit_satpRest_rv64 : bit (s.satpRest .rv64) k = decide (k < 44 + min s.cfg.asidLen 16) :=
  (bit_ones_or_ones (lo := 0) (m := 44) (n := min s.cfg.asidLen 16) (by omega) k).trans (decide_eq_decide.mpr (by omega))

/-- PPN but its two low bits, and above it the bits of VMID that exist. -/
theorem State.bit_hgatpRest_rv32 (h : s.sxlen = .rv32) :
    bit s.hgatpRest k = decide (2 ≤ k ∧ k < 22 + min s.cfg.vmidLen 7) := by
  rw [State.hgatpRest, h]
  exact bit_ones_or_ones (lo := 2) (m := 20) (n := min s.cfg.vmidLen 7) (by omega) k

theorem State.bit_hgatpRest_rv64 (h : s.sxlen = .rv64) :
    bit s.hgatpRest k = decide (2 ≤ k ∧ k < 44 + min s.cfg.vmidLen 14) := by
  rw [State.hgatpRest, h]
  exact bit_ones_or_ones (lo := 2) (m := 42) (n := min s.cfg.vmidLen 14) (by omega) k

end

/-- The choice by MODE, as a code and as a number. -/
theorem byMode_eq (f : BitVec 4) (a b c : Bool) :
    (match f with | 0#4 => true | 8#4 => a | 9#4 => b | 10#4 => c | _ => false)
      = (match f.toNat with | 0 => true | 8 => a | 9 => b | 10 => c | _ => false) := by
  revert f a b c
  decide

/-! ### `satp` and `vsatp` (R101, R102, R162) -/

section
variable {s : State} {xl : Xlen} {old v : Word}

/-- Only the low XLEN bits of what is written count. -/
theorem State.legalSatp_zx {w : Word} (h : zx xl w = zx xl v) : s.legalSatp xl old w = s.legalSatp xl old v := by
  simp only [State.legalSatp, h]

theorem State.satpModeOk_zx : s.satpModeOk xl (zx xl v) = s.satpModeOk xl v := by
  cases xl with
  | rv32 => simp only [State.satpModeOk, bit_zx]; rfl
  | rv64 => rfl

theorem State.legalSatp_unsupported (h : s.satpModeOk xl v = false) : s.legalSatp xl old v = old := by
  simp [State.legalSatp, State.satpModeOk_zx, h]

/-- Zero selects Bare, and clears the register. -/
theorem State.legalSatp_zero (h : zx xl v = 0) : s.legalSatp xl old v = 0 := by
  have bare : s.satpModeOk xl 0 = true := by cases xl <;> rfl
  simp only [State.legalSatp, h, bare, if_true]
  rw [if_neg fun other => other.2 rfl]
  exact BitVec.zero_and

/-- A supported paged MODE takes every bit that exists. -/
theorem State.legalSatp_paged (ok : s.satpModeOk xl v = true) (paged : zx xl v &&& modeBits xl ≠ 0) :
    s.legalSatp xl old v = zx xl v &&& (modeBits xl ||| s.satpRest xl) := by
  simp only [State.legalSatp, State.satpModeOk_zx, ok, if_true]
  rw [if_neg fun bare => paged bare.1]

end

/-- The fields of `satp` after a write that selects Sv32. -/
theorem State.legalSatp_rv32 {s : State} {v : Word} (ok : s.satpModeOk .rv32 v = true) (paged : v.getLsbD 31 = true) (old : Word) :
    let new := s.legalSatp .rv32 old v
    new.getLsbD 31 = true ∧ field new 0 22 = field v 0 22
      ∧ (field new 22 9).toNat = (field v 22 9).toNat % 2 ^ min s.cfg.asidLen 9 ∧ field new 32 32 = 0 := by
  intro new
  have mode : bit v 31 = true := paged
  have selects : zx .rv32 v &&& modeBits .rv32 ≠ 0 := fun h => by
    have := congrArg (bit · 31) h
    simp [bit_and, bit_zx, bit_modeBits_rv32, mode, Xlen.bits] at this
    simp [bit] at this
  have bits (k : Nat) : bit new k = (bit v k && decide (k = 31 ∨ k < 22 + min s.cfg.asidLen 9)) := by
    rw [show new = _ from State.legalSatp_paged ok selects, bit_and, bit_or, bit_zx, bit_modeBits_rv32, s.bit_satpRest_rv32,
      Bool.and_comm (decide _) (bit v k), Bool.and_assoc, ← Bool.decide_or, ← Bool.decide_and]
    exact congrArg _ (decide_eq_decide.mpr (by simp only [Xlen.bits]; omega))
  refine ⟨(bits 31).trans (by simp [mode]), field_congr fun j h1 h2 => ?_, field_toNat_mod fun j h1 h2 => ?_,
    field_eq_zero fun j h1 h2 => ?_⟩
  · rw [bits, decide_eq_true (by omega), Bool.and_true]
  · rw [bits]
    exact congrArg _ (decide_eq_decide.mpr (by omega))
  · rw [bits, decide_eq_false (by omega), Bool.and_false]

/-- The fields of `satp` after a write that selects Sv39, Sv48 or Sv57. -/
theorem State.legalSatp_rv64 {s : State} {v : Word} (ok : s.satpModeOk .rv64 v = true) (paged : field v 60 4 ≠ 0)
    (len : s.cfg.asidLen ≤ 16) (old : Word) :
    let new := s.legalSatp .rv64 old v
    field new 60 4 = field v 60 4 ∧ field new 0 44 = field v 0 44
      ∧ (field new 44 16).toNat = (field v 44 16).toNat % 2 ^ s.cfg.asidLen := by
  intro new
  have selects : v &&& modeBits .rv64 ≠ 0 := fun h => paged <| field_eq_zero fun j h1 h2 => by
    rw [bit_of_and_eq h (by rw [bit_modeBits_rv64]; exact decide_eq_true (by omega))]
    simp [bit]
  have bits (k : Nat) (hk : k < 64) : bit new k = (bit v k && decide (60 ≤ k ∨ k < 44 + s.cfg.asidLen)) := by
    rw [show new = _ from State.legalSatp_paged ok selects, bit_and, bit_or, bit_zx, bit_modeBits_rv64, s.bit_satpRest_rv64,
      Bool.and_comm (decide _) (bit v k), Bool.and_assoc, ← Bool.decide_or, ← Bool.decide_and]
    exact congrArg _ (decide_eq_decide.mpr (by simp only [Xlen.bits]; omega))
  refine ⟨field_congr fun j h1 h2 => ?_, field_congr fun j h1 h2 => ?_, field_toNat_mod fun j h1 h2 => ?_⟩
  · rw [bits j (by omega), decide_eq_true (by omega), Bool.and_true]
  · rw [bits j (by omega), decide_eq_true (by omega), Bool.and_true]
  · rw [bits j (by omega)]
    exact congrArg _ (decide_eq_decide.mpr (by omega))

/-! ### `hgatp` (R158, D18) -/

/-- The MODE field of `hgatp` comes from the value written, or, if that is not supported, from the register. -/
theorem State.legalHgatp_rv32 {s : State} (h : s.sxlen = .rv32) (old v : Word) :
    let new := s.legalHgatp old v
    new.getLsbD 31 = (if s.hgatpModeOk v then v else old).getLsbD 31
      ∧ (field new 0 22).toNat = (field v 0 22).toNat / 4 * 4
      ∧ (field new 22 7).toNat = (field v 22 7).toNat % 2 ^ min s.cfg.vmidLen 7
      ∧ field new 29 2 = 0 ∧ field new 32 32 = 0 := by
  intro new
  have bits (k : Nat) : bit new k = (bit v k && decide (2 ≤ k ∧ k < 22 + min s.cfg.vmidLen 7)
      || bit (if s.hgatpModeOk v then v else old) k && decide (k = 31)) := by
    rw [show new = s.legalHgatp old v from rfl, State.legalHgatp, bit_or, bit_and, bit_and, s.bit_hgatpRest_rv32 k h, h,
      bit_modeBits_rv32]
  have low (k : Nat) (hk : k ≠ 31) : bit new k = (bit v k && decide (2 ≤ k ∧ k < 22 + min s.cfg.vmidLen 7)) := by
    rw [bits, decide_eq_false hk, Bool.and_false, Bool.or_false]
  refine ⟨(bits 31).trans ?_, field_toNat_div fun j h1 h2 => ?_, field_toNat_mod fun j h1 h2 => ?_,
    field_eq_zero fun j h1 h2 => ?_, field_eq_zero fun j h1 h2 => ?_⟩
  · rw [decide_eq_false (by omega), Bool.and_false, Bool.false_or, decide_eq_true rfl, Bool.and_true]
    rfl
  · rw [low j (by omega)]
    exact congrArg _ (decide_eq_decide.mpr (by omega))
  · rw [low j (by omega)]
    exact congrArg _ (decide_eq_decide.mpr (by omega))
  · rw [low j (by omega), decide_eq_false (by omega), Bool.and_false]
  · rw [low j (by omega), decide_eq_false (by omega), Bool.and_false]

theorem State.legalHgatp_rv64 {s : State} (h : s.sxlen = .rv64) (len : s.cfg.vmidLen ≤ 14) (old v : Word) :
    let new := s.legalHgatp old v
    field new 60 4 = field (if s.hgatpModeOk v then v else old) 60 4
      ∧ (field new 0 44).toNat = (field v 0 44).toNat / 4 * 4
      ∧ (field new 44 14).toNat = (field v 44 14).toNat % 2 ^ s.cfg.vmidLen
      ∧ field new 58 2 = 0 := by
  intro new
  have bits (k : Nat) : bit new k = (bit v k && decide (2 ≤ k ∧ k < 44 + min s.cfg.vmidLen 14)
      || bit (if s.hgatpModeOk v then v else old) k && decide (60 ≤ k ∧ k < 64)) := by
    rw [show new = s.legalHgatp old v from rfl, State.legalHgatp, bit_or, bit_and, bit_and, s.bit_hgatpRest_rv64 k h, h,
      bit_modeBits_rv64]
  have low (k : Nat) (hk : k < 60) : bit new k = (bit v k && decide (2 ≤ k ∧ k < 44 + min s.cfg.vmidLen 14)) := by
    rw [bits, decide_eq_false (p := 60 ≤ k ∧ k < 64) (by omega), Bool.and_false, Bool.or_false]
  refine ⟨field_congr fun j h1 h2 => ?_, field_toNat_div fun j h1 h2 => ?_, field_toNat_mod fun j h1 h2 => ?_,
    field_eq_zero fun j h1 h2 => ?_⟩
  · rw [bits, decide_eq_false (by omega), Bool.and_false, Bool.false_or, decide_eq_true (by omega), Bool.and_true]
  · rw [low j (by omega)]
    exact congrArg _ (decide_eq_decide.mpr (by omega))
  · rw [low j (by omega)]
    exact congrArg _ (decide_eq_decide.mpr (by omega))
  · rw [low j (by omega), decide_eq_false (by omega), Bool.and_false]

/-- Only the low SXLEN bits of what is written count. -/
theorem State.legalHgatp_zx {s : State} {w v : Word} (h : zx s.sxlen w = zx s.sxlen v) (old : Word) :
    s.legalHgatp old w = s.legalHgatp old v := by
  cases width : s.sxlen with
  | rv64 =>
    rw [width] at h
    exact congrArg _ h
  | rv32 =>
    have same (k : Nat) (hk : k < 32) : bit w k = bit v k := by
      have := congrArg (bit · k) h
      simpa only [bit_zx, width, Xlen.bits, hk, decide_true, Bool.true_and] using this
    have mode : s.hgatpModeOk w = s.hgatpModeOk v := by simp only [State.hgatpModeOk, width, same 31 (by omega)]
    refine eq_of_bits fun k => ?_
    simp only [State.legalHgatp, bit_or, bit_and, s.bit_hgatpRest_rv32 k width, width, bit_modeBits_rv32, mode]
    by_cases hk : k < 32
    · split <;> simp only [same k hk]
    · rw [decide_eq_false (by omega), decide_eq_false (by omega)]
      simp only [Bool.and_false]

/-! ### The instructions -/

/-- TVM keeps `satp` and `hgatp` from S-mode alone (R247). -/
theorem State.trapBits_atp {s : State} (hp : s.priv = .m ∨ (s.priv = .s ∧ s.mstatusTVM = false)) (hv : s.virt = false)
    {r : CsrReg} (hr : r = .satp ∨ r = .hgatp) : s.trapBits r = .allowed := by
  rcases hr with rfl | rfl <;> rcases hp with hp | ⟨hp, tvm⟩ <;> simp [State.trapBits, *]

/-- In VS-mode with VTVM clear, CSRRW on `satp` writes `vsatp` (R138). -/
theorem exec_csrrw_satp_guest {s : State} (hS : s.hasS = true) (hv : s.virt = true) (hp : s.priv = .s)
    (vtvm : s.hstatusVTVM = false) (rd rs1 : Reg) :
    ∃ t, exec (.csrrw rd 0x180 rs1) s = .next t
      ∧ (s.csrSet .vsatp (writeLow s.xlen s.vc.vsatp (s.x rs1))).CompletesAs t := by
  have written : s.csrWrite ⟨.satp, false⟩ (s.x rs1) = s.csrSet .vsatp (writeLow s.xlen s.vc.vsatp (s.x rs1)) := by
    simp [State.csrWrite, csrTarget, hv, State.csrView]
  have level := State.levelVerdict_guest hv hp (n := 0x180) (by decide) ⟨.satp, false⟩ true
  rw [← written]
  exact exec_csrrw_completes rfl
    (State.csrCheck_unguarded (r := .satp) rfl rfl hS level (by decide) (by simp [State.trapBits, hp, hv, vtvm])) rd rs1

/-- Settles O46: what the registers take, field by field, of the low XLEN bits of the operand. -/
theorem satpModes : Obligations.SatpModes := by
  intro s rd rs1 asidLen vmidLen v paged supported writes gSupported
  have modeOk (xl : Xlen) : s.satpModeOk xl v = supported xl := by
    cases xl
    · rfl
    · exact byMode_eq ..
  have takes (xl : Xlen) (old x : Word) : writes xl old (s.legalSatp xl old (writeLow xl x v)) := by
    rw [State.legalSatp_zx (zx_writeLow xl x v)]
    refine ⟨fun no => State.legalSatp_unsupported ((modeOk xl).trans no), State.legalSatp_zero, fun ok hpaged => ?_⟩
    rw [← modeOk] at ok
    cases xl
    · exact State.legalSatp_rv32 ok hpaged old
    · exact State.legalSatp_rv64 ok (by simpa [paged] using hpaged) asidLen old
  have vsatp (t : State)
      (vc : t.vc = (s.csrSet .vsatp (writeLow s.vsxlen s.vc.vsatp v)).vc) :
      t.vc = { s.vc with vsatp := t.vc.vsatp } ∧ writes s.vsxlen s.vc.vsatp t.vc.vsatp := by
    rw [vc]
    exact ⟨rfl, takes ..⟩
  refine ⟨fun hS hv width hp => ?_, fun hS hv hp vtvm => ?_, fun hH hv hp width => ?_, fun hH hv width hp => ?_⟩
  · have above : s.priv ≠ .u := by rcases hp with hp | ⟨hp, -⟩ <;> simp [hp]
    obtain ⟨t, he, ht⟩ := exec_csrrw_host (n := 0x180) (r := .satp) rfl rfl (by decide) hS hv above
      (State.trapBits_atp hp hv (.inl rfl)) rd rs1
    rw [width] at ht
    obtain ⟨mc, sc, hc, vc, cache⟩ := ht.fields
    have satp : t.sc.satp = s.legalSatp s.sxlen s.sc.satp (writeLow s.sxlen s.sc.satp v) := congrArg SCsrs.satp sc
    exact ⟨t, he, mc, hc, vc, cache, by rw [satp]; exact sc, by rw [satp]; exact takes ..⟩
  · obtain ⟨t, he, ht⟩ := exec_csrrw_satp_guest hS hv hp vtvm rd rs1
    rw [show s.xlen = s.vsxlen by simp [State.xlen, State.xlenAt, hp, hv]] at ht
    obtain ⟨mc, sc, hc, vc, cache⟩ := ht.fields
    exact ⟨t, he, mc, sc, hc, cache, vsatp t vc⟩
  · obtain ⟨t, he, ht⟩ := exec_csrrw_host (n := 0x280) (r := .vsatp) rfl rfl (by decide) hH hv hp rfl rd rs1
    rw [width] at ht
    obtain ⟨mc, sc, hc, vc, cache⟩ := ht.fields
    exact ⟨t, he, mc, sc, hc, cache, vsatp t vc⟩
  · have above : s.priv ≠ .u := by rcases hp with hp | ⟨hp, -⟩ <;> simp [hp]
    obtain ⟨t, he, ht⟩ := exec_csrrw_host (n := 0x680) (r := .hgatp) rfl rfl (by decide) hH hv above
      (State.trapBits_atp hp hv (.inr rfl)) rd rs1
    rw [width] at ht
    obtain ⟨mc, sc, hc, vc, cache⟩ := ht.fields
    have hgatp : t.hc.hgatp = s.legalHgatp s.hc.hgatp (writeLow s.sxlen s.hc.hgatp v) := congrArg HCsrs.hgatp hc
    refine ⟨t, he, mc, sc, vc, cache, by rw [hgatp]; exact hc, ?_⟩
    rw [hgatp, State.legalHgatp_zx (zx_writeLow s.sxlen s.hc.hgatp v)]
    have gModeOk : s.hgatpModeOk v = gSupported := by
      simp only [State.hgatpModeOk, gSupported]
      cases s.sxlen
      · rfl
      · exact byMode_eq ..
    rw [← gModeOk]
    split
    · next h => exact State.legalHgatp_rv32 h ..
    · next h => exact State.legalHgatp_rv64 h vmidLen ..

end Sys2Proof.Machine
end

section
/-! PROOFS. Accesses of effective privilege M (O24): the regions of the bytes of an access, and what an untranslated access comes to. -/

namespace Sys2Proof.Machine

/-! ### The regions of the bytes of an access (R171, R172) -/

theorem mem_bytesAt {pa n b : Nat} : b ∈ bytesAt pa n ↔ pa ≤ b ∧ b < pa + n := by
  simp only [bytesAt, List.mem_map, List.mem_range]
  constructor
  · rintro ⟨j, hj, rfl⟩
    omega
  · intro h
    exact ⟨b - pa, by omega, by omega⟩

/-- A list is looked up as a whole only where each of its members is. -/
theorem mapM_eq_none_iff {α β : Type} {f : α → Option β} {l : List α} : l.mapM f = none ↔ ∃ x ∈ l, f x = none := by
  induction l with
  | nil => simp
  | cons x l ih => cases hx : f x <;> cases hl : l.mapM f <;> simp_all

/-- What a list of look-ups finds is what some member is found as. -/
theorem mem_of_mapM_eq_some {α β : Type} {f : α → Option β} {l : List α} {ys : List β} (h : l.mapM f = some ys) {y : β} :
    y ∈ ys ↔ ∃ x ∈ l, f x = some y := by
  induction l generalizing ys with
  | nil => simp_all
  | cons x l ih =>
    cases hx : f x with
    | none => simp [hx] at h
    | some z =>
      cases hl : l.mapM f with
      | none => simp [hx, hl] at h
      | some zs =>
        obtain rfl : z :: zs = ys := by simpa [hx, hl] using h
        simp [hx, ih hl, eq_comm]

/-- Some byte of the access is vacant (R172). -/
theorem State.regionsAt_eq_none_iff {s : State} {pa n : Nat} :
    s.regionsAt pa n = none ↔ ∃ b, (pa ≤ b ∧ b < pa + n) ∧ s.regionAt b = none := by
  simp only [State.regionsAt, mapM_eq_none_iff, mem_bytesAt]

theorem State.mem_regionsAt {s : State} {pa n : Nat} {rs : List Region} (h : s.regionsAt pa n = some rs) {r : Region} :
    r ∈ rs ↔ ∃ b, (pa ≤ b ∧ b < pa + n) ∧ s.regionAt b = some r := by
  simp only [mem_of_mapM_eq_some h, mem_bytesAt]

/-! ### What a region is asked, by the address alone (R175, R178-R180) -/

/-- The access a, made whole at the physical address equal to its own, lies in one misaligned atomicity granule of r. -/
def Access.WithinGranule (a : Access) (r : Region) : Prop :=
  ∃ g, r.granule = some g ∧ a.va.toNat / g = (a.va.toNat + a.width - 1) / g

/-- r supports the width of the access among `widths`, and, where the access is misaligned, misaligned accesses of it. -/
def Access.FitsWidths (a : Access) (r : Region) (widths : List Nat) : Prop :=
  a.width ∈ widths ∧ (a.va.toNat % a.width = 0 ∨ a.width ∈ r.misaligned ∨ a.WithinGranule r)

/-- r supports the access. -/
def Access.SupportedBy (a : Access) (r : Region) : Prop :=
  (a.need = .fetch → a.width ∈ r.exec) ∧ (a.need = .load → a.FitsWidths r r.reads) ∧ (a.need = .store → a.FitsWidths r r.writes)
    ∧ (a.need = .execLoad → a.width ∈ r.exec ∧ a.FitsWidths r r.reads)

/-- r is idempotent for the access. -/
def Access.IdempotentIn (a : Access) (r : Region) : Prop :=
  r.kind = .main ∨ (if a.need = .store then r.idempotentWrites else r.idempotentReads) = true

@[simp] theorem Access.shape_guest (a : Access) (others : List Nat) : (a.shape others).guest = a.v := rfl
@[simp] theorem Access.shape_width (a : Access) (others : List Nat) : (a.shape others).width = a.width := rfl
@[simp] theorem Access.shape_aligned (a : Access) (others : List Nat) : (a.shape others).aligned = a.aligned := rfl
@[simp] theorem Access.shape_others (a : Access) (others : List Nat) : (a.shape others).others = others := rfl

theorem Access.aligned_iff (a : Access) : a.aligned = true ↔ a.va.toNat % a.width = 0 := by
  simp [Access.aligned]

section
variable (a : Access) (r : Region)

theorem inGranule_iff : inGranule r (a.shape []) a.va.toNat a.width = true ↔ a.WithinGranule r := by
  unfold inGranule Access.WithinGranule
  cases r.granule <;> simp

theorem widthOk_iff (widths : List Nat) : widthOk r widths (a.shape []) a.va.toNat a.width = true ↔ a.FitsWidths r widths := by
  simp [widthOk, Access.FitsWidths, inGranule_iff, Access.aligned_iff, or_assoc]

theorem regionSupports_iff :
    regionSupports r (.explicit a.need (a.shape [])) a.va.toNat a.width = true ↔ a.SupportedBy r := by
  unfold Access.SupportedBy regionSupports
  cases a.need <;> simp [widthOk_iff]

theorem idempotentFor_iff : idempotentFor r a.need = true ↔ a.IdempotentIn r := by
  unfold idempotentFor Access.IdempotentIn
  cases a.need <;> simp

/-- Where a misaligned access may be made untranslated (R175, R180). -/
theorem misalignedOk_iff (rs : List Region) :
    misalignedOk (a.shape []) 0 rs a.need a.va.toNat a.width = true
      ↔ a.va.toNat % a.width = 0 ∨ (∀ r ∈ rs, a.IdempotentIn r) ∨ ∀ r ∈ rs, a.WithinGranule r := by
  simp [misalignedOk, effIdempotent, idempotentFor_iff, inGranule_iff, Access.aligned_iff, or_assoc]

end

/-! ### An untranslated access (R168, R171) -/

/-- PMP permits the access, made whole at the physical address equal to its own. -/
def State.passesPmp (s : State) (a : Access) : Bool := s.pmpPasses (.explicit a.need (a.shape [])) a.p a.va.toNat a.width

section
variable {s : State} {a : Access} (hp : a.p = .m)
include hp

/-- PMP goes by one of the views (R199). -/
theorem State.passesPmp_view : ∃ x ∈ s.pmpViews a.v, s.passesPmp a = x.pmpAllows a.va.toNat a.width .m a.need :=
  ⟨_, s.pmpView_mem _ _ _, by rw [← hp]; rfl⟩

theorem State.translate_machine : s.translate a.va a.need a.p a.v = .ok (⟨a.va.toNat, 0⟩, s) := if_pos hp

/-- The checks come first. -/
theorem State.reach_unchecked {e : Abort}
    (h : s.checkRegions (.explicit a.need (a.shape [])) a.p a.va.toNat a.width = .error e) : s.reach a a.va a.width = .error e := by
  simp only [State.reach, State.reachPart, State.translate_machine hp, h]

theorem State.reach_vacant (h : s.regionsAt a.va.toNat a.width = none) : s.reach a a.va a.width = .error .access :=
  State.reach_unchecked hp (by simp only [State.checkRegions, h])

variable {rs : List Region}

omit hp in
/-- Support and PMP, the checks made in parallel. -/
theorem State.checks_iff :
    (rs.all (regionSupports · (.explicit a.need (a.shape [])) a.va.toNat a.width)
        && s.pmpPasses (.explicit a.need (a.shape [])) a.p a.va.toNat a.width) = true
      ↔ (∀ r ∈ rs, a.SupportedBy r) ∧ s.passesPmp a = true := by
  rw [State.passesPmp]
  simp only [Bool.and_eq_true, List.all_eq_true, regionSupports_iff]

variable (h : s.regionsAt a.va.toNat a.width = some rs)
include h

theorem State.reach_denied (denied : ¬ ((∀ r ∈ rs, a.SupportedBy r) ∧ s.passesPmp a = true)) :
    s.reach a a.va a.width = .error .access := by
  refine State.reach_unchecked hp ?_
  rw [State.checkRegions, h]
  exact if_neg (mt State.checks_iff.mp denied)

variable (supported : ∀ r ∈ rs, a.SupportedBy r) (passes : s.passesPmp a = true)
include supported passes

/-- What the checks let through is judged by its alignment, then by what is there. -/
theorem State.reach_checked :
    s.reach a a.va a.width
      = if misalignedOk (a.shape []) 0 rs a.need a.va.toNat a.width then
          (reachRegions a.va.toNat rs).map fun rs => (a.va.toNat, rs, s)
        else .error .access := by
  have checked : s.checkRegions (.explicit a.need (a.shape [])) a.p a.va.toNat a.width = .ok rs := by
    rw [State.checkRegions, h]
    exact if_pos (State.checks_iff.mpr ⟨supported, passes⟩)
  simp only [State.reach, State.reachPart, State.translate_machine hp, checked]
  cases reachRegions a.va.toNat rs <;> rfl

theorem State.reach_misaligned
    (bad : ¬ (a.va.toNat % a.width = 0 ∨ (∀ r ∈ rs, a.IdempotentIn r) ∨ ∀ r ∈ rs, a.WithinGranule r)) :
    s.reach a a.va a.width = .error .access := by
  rw [State.reach_checked hp h supported passes, if_neg (mt (misalignedOk_iff a rs).mp bad)]

variable (made : a.va.toNat % a.width = 0 ∨ (∀ r ∈ rs, a.IdempotentIn r) ∨ ∀ r ∈ rs, a.WithinGranule r)
include made

theorem State.reach_device (device : ∃ r ∈ rs, r.kind = .io) :
    s.reach a a.va a.width = .error (.stop (.undescribedDevice a.va.toNat)) := by
  rw [State.reach_checked hp h supported passes, if_pos ((misalignedOk_iff a rs).mpr made), reachRegions,
    if_pos (by simpa using device)]
  rfl

theorem State.reach_reached (described : ∀ r ∈ rs, r.kind ≠ .io) : s.reach a a.va a.width = .ok (a.va.toNat, rs, s) := by
  rw [State.reach_checked hp h supported passes, if_pos ((misalignedOk_iff a rs).mpr made), reachRegions,
    if_neg (by simpa using described)]
  rfl

end

/-- Settles O24: the regions of the bytes decide, and each clause is one of the cases `State.reach_vacant` to `State.reach_reached`. -/
theorem machineAccessesAreUntranslated : Obligations.MachineAccessesAreUntranslated := by
  intro s a hp va touches aligned granule wide supports idempotent faults
  obtain ⟨x, hx, view⟩ := State.passesPmp_view (s := s) hp
  refine ⟨fun h => State.pmpViews_current h a.v, x, hx, ?_⟩
  intro permitted
  have passes_iff : s.passesPmp a = true ↔ permitted := by rw [view]
  cases hr : s.regionsAt va a.width with
  | none =>
    have fault : faults := State.reach_vacant hp hr
    obtain ⟨b, hb, vacant⟩ := State.regionsAt_eq_none_iff.mp hr
    refine ⟨fun _ => fault, fun _ => fault, fun _ => fault, fun all => ?_⟩
    obtain ⟨r, found, -⟩ := all b hb
    rw [vacant] at found
    cases found
  | some rs =>
    have mem {b : Nat} {r : Region} (hb : touches b) (found : s.regionAt b = some r) : r ∈ rs :=
      (State.mem_regionsAt hr).mpr ⟨b, hb, found⟩
    have byBytes (P : Region → Prop) : (∀ r ∈ rs, P r) ↔ ∀ b r, touches b → s.regionAt b = some r → P r := by
      refine ⟨fun h b r hb found => h r (mem hb found), fun h r hrs => ?_⟩
      obtain ⟨b, hb, found⟩ := (State.mem_regionsAt hr).mp hrs
      exact h b r hb found
    have denied (h : ¬ ((∀ r ∈ rs, a.SupportedBy r) ∧ permitted)) : faults :=
      State.reach_denied hp hr (by rwa [passes_iff])
    refine ⟨?_, ?_, fun bad => denied fun h => bad h.2, fun all good => ?_⟩
    · rintro ⟨b, hb, vacant⟩
      rw [State.regionsAt_eq_none_iff.mpr ⟨b, hb, vacant⟩] at hr
      cases hr
    · rintro ⟨b, r, hb, found, bad⟩
      exact denied fun h => bad (h.1 r (mem hb found))
    have supported : ∀ r ∈ rs, a.SupportedBy r := by
      refine (byBytes _).mpr fun b r hb found => ?_
      obtain ⟨r', found', good⟩ := all b hb
      obtain rfl : r' = r := Option.some.inj (found'.symm.trans found)
      exact good
    have passes := passes_iff.mpr good
    refine ⟨?_, fun made => ?_⟩
    · rintro crooked ⟨b, r, hb, found, bad⟩ ⟨b', r', hb', found', bad'⟩
      refine State.reach_misaligned hp hr supported passes ?_
      rintro (straight | idempotents | granules)
      · exact crooked straight
      · exact bad (idempotents r (mem hb found))
      · exact bad' (granules r' (mem hb' found'))
    rw [← byBytes, ← byBytes] at made
    refine ⟨?_, fun described => ⟨rs, State.reach_reached hp hr supported passes made ((byBytes _).mpr described)⟩⟩
    rintro ⟨b, r, hb, found, io⟩
    exact State.reach_device hp hr supported passes made ⟨r, mem hb found, io⟩

end Sys2Proof.Machine
end

section
/-! PROOFS. What a misaligned store that faults leaves (R176, R180): byte by byte, of one part, and of both. -/

namespace Sys2Proof.Machine

/-! ### States that differ in memory alone -/

theorem State.OnlyMemory.cfg {s t : State} (h : s.OnlyMemory t) : t.cfg = s.cfg := by
  obtain ⟨m, a, b, c, rfl⟩ := h.eq
  rfl

/-- PMP reads no memory. -/
theorem State.OnlyMemory.pmpAllows {s t : State} (h : s.OnlyMemory t) (pa n : Nat) (p : Priv) (need : Need) :
    t.pmpAllows pa n p need = s.pmpAllows pa n p need := by
  obtain ⟨m, a, b, c, rfl⟩ := h.eq
  have entries (k : Nat) : ∀ i,
      State.pmpFrom { s with mem := m, mtime := a, mtimecmp := b, msip := c } pa n p need i k = s.pmpFrom pa n p need i k := by
    induction k with
    | zero => exact fun i => rfl
    | succ k ih =>
      intro i
      rw [State.pmpFrom, ih]
      rfl
  rw [State.pmpAllows, entries]
  rfl

/-- The registers that PMP may go by do not depend on memory. -/
theorem State.OnlyMemory.pmpViews {s t x : State} (h : s.OnlyMemory t) {guest : Bool} (hx : x ∈ t.pmpViews guest) :
    ∃ y ∈ s.pmpViews guest, y.OnlyMemory x := by
  obtain ⟨m, a, b, c, rfl⟩ := h.eq
  rw [State.pmpViews, List.mem_cons] at hx
  rcases hx with rfl | hx
  · exact ⟨s, List.mem_cons_self, rfl⟩
  · change x ∈ if s.cachesPmp then _ else _ at hx
    split at hx
    · next caches =>
      obtain ⟨copy, hc, rfl⟩ := List.mem_map.mp hx
      refine ⟨s.withPmp copy, ?_, rfl⟩
      rw [State.pmpViews, if_pos caches]
      exact List.mem_cons_of_mem _ (List.mem_map_of_mem hc)
    · cases hx

/-- PMP, by registers the hart may go by, permits the store of the byte at pa. -/
def State.PermitsByte (s : State) (a : Access) (pa : Nat) : Prop :=
  ∃ x ∈ s.pmpViews a.v, x.pmpAllows pa 1 a.p .store = true

theorem State.OnlyMemory.permitsByte {s t : State} (h : s.OnlyMemory t) {a : Access} {pa : Nat} (ht : t.PermitsByte a pa) :
    s.PermitsByte a pa := by
  obtain ⟨x, hx, allows⟩ := ht
  obtain ⟨y, hy, same⟩ := h.pmpViews hx
  exact ⟨y, hy, by rw [← same.pmpAllows]; exact allows⟩

/-! ### One byte that may stay -/

/-- s after the byte b at pa, the i-th of the access, was stored or not. -/
def State.leaveByte (s : State) (a : Access) (f : PartFault) (pa i : Nat) (b : Byte) : State :=
  if s.byteStays a f pa i then s.setPhysByte pa b else s

theorem State.leaveBytes_cons (s : State) (a : Access) (f : PartFault) (pa i : Nat) (b : Byte) (bs : List Byte) :
    s.leaveBytes a f pa i (b :: bs) = (s.leaveByte a f pa i b).leaveBytes a f (pa + 1) (i + 1) bs := rfl

section
variable (s : State) (a : Access) (f : PartFault) (pa i : Nat) (b : Byte)

theorem State.walked_leaveByte : s.Walked (s.leaveByte a f pa i b) := by
  unfold State.leaveByte
  split
  · exact s.walked_setPhysByte pa b
  · exact .refl s

theorem State.read_leaveByte_other {k : Nat} (hk : k ≠ pa) : (s.leaveByte a f pa i b).mem.read k = s.mem.read k := by
  unfold State.leaveByte
  split
  · exact s.read_physWrite_outside pa [b] (by simp only [List.length_cons, List.length_nil]; omega)
  · rfl

/-- A byte stays only where PMP permits it, and outside the portion that faulted. -/
theorem State.permitsByte_of_byteStays {s : State} {a : Access} {f : PartFault} {pa i : Nat} (h : s.byteStays a f pa i = true) :
    ¬ (f.first ≤ i ∧ i < f.first + f.width) ∧ s.PermitsByte a pa := by
  simp only [State.byteStays, State.byteCanStay, Bool.and_eq_true, Bool.not_eq_true', decide_eq_false_iff_not] at h
  obtain ⟨⟨⟨-, passes⟩, -⟩, away⟩ := h
  exact ⟨away, _, s.pmpView_mem (.explicit .store (a.shape [])) pa 1, passes⟩

variable (memory : s.deviceAt pa = none)
include memory

theorem State.setPhysByte_memory : s.setPhysByte pa b = { s with mem := s.mem.write pa b } := by
  rw [State.setPhysByte, memory]

theorem State.read_leaveByte_same :
    (s.leaveByte a f pa i b).mem.read pa = s.mem.read pa
    ∨ ¬ (f.first ≤ i ∧ i < f.first + f.width) ∧ s.PermitsByte a pa
      ∧ (s.mem.wf = true → (s.leaveByte a f pa i b).mem.read pa = b) := by
  unfold State.leaveByte
  split
  · next stays =>
    obtain ⟨away, permits⟩ := State.permitsByte_of_byteStays stays
    refine .inr ⟨away, permits, fun wf => ?_⟩
    rw [s.setPhysByte_memory pa b memory]
    exact Memory.read_write_same wf pa b
  · exact .inl rfl

theorem State.registers_leaveByte :
    (s.leaveByte a f pa i b).mtime = s.mtime ∧ (s.leaveByte a f pa i b).mtimecmp = s.mtimecmp
      ∧ (s.leaveByte a f pa i b).msip = s.msip := by
  unfold State.leaveByte
  split
  · rw [s.setPhysByte_memory pa b memory]
    exact ⟨rfl, rfl, rfl⟩
  · exact ⟨rfl, rfl, rfl⟩

end

/-! ### The bytes of one part -/

theorem State.read_leaveBytes_outside (s : State) (a : Access) (f : PartFault) (pa i : Nat) (bs : List Byte) {k : Nat}
    (hk : k < pa ∨ pa + bs.length ≤ k) : (s.leaveBytes a f pa i bs).mem.read k = s.mem.read k := by
  induction bs generalizing s pa i with
  | nil => rfl
  | cons b bs ih =>
    rw [List.length_cons] at hk
    rw [State.leaveBytes_cons, ih _ _ _ (by omega), s.read_leaveByte_other a f pa i b (by omega)]

/-- Each byte of memory is as it was, or stored, where it may be. -/
theorem State.read_leaveBytes (s : State) (a : Access) (f : PartFault) (pa i : Nat) (bs : List Byte) {j : Nat}
    (hj : j < bs.length) (memory : s.deviceAt (pa + j) = none) :
    (s.leaveBytes a f pa i bs).mem.read (pa + j) = s.mem.read (pa + j)
    ∨ ¬ (f.first ≤ i + j ∧ i + j < f.first + f.width) ∧ s.PermitsByte a (pa + j)
      ∧ (s.mem.wf = true → (s.leaveBytes a f pa i bs).mem.read (pa + j) = bs.getD j 0) := by
  induction bs generalizing s pa i j with
  | nil => cases hj
  | cons b bs ih =>
    rw [State.leaveBytes_cons]
    cases j with
    | zero =>
      rw [State.read_leaveBytes_outside _ _ _ _ _ _ (by omega)]
      exact s.read_leaveByte_same a f pa i b memory
    | succ j =>
      have first := s.walked_leaveByte a f pa i b
      have shifted : pa + 1 + j = pa + (j + 1) := by omega
      have here : i + 1 + j = i + (j + 1) := by omega
      have rest := ih (s.leaveByte a f pa i b) (pa + 1) (i + 1) (by simpa using hj)
        (by rw [shifted, State.deviceAt_congr first.only.cfg]; exact memory)
      rw [shifted, here, s.read_leaveByte_other a f pa i b (by omega)] at rest
      rcases rest with same | ⟨away, permits, stored⟩
      · exact .inl same
      · exact .inr ⟨away, first.only.permitsByte permits, fun wf => stored (first.wf wf)⟩

theorem State.registers_leaveBytes (s : State) (a : Access) (f : PartFault) (pa i : Nat) (bs : List Byte)
    (memory : ∀ j, j < bs.length → s.deviceAt (pa + j) = none) :
    (s.leaveBytes a f pa i bs).mtime = s.mtime ∧ (s.leaveBytes a f pa i bs).mtimecmp = s.mtimecmp
      ∧ (s.leaveBytes a f pa i bs).msip = s.msip := by
  induction bs generalizing s pa i with
  | nil => exact ⟨rfl, rfl, rfl⟩
  | cons b bs ih =>
    have first := s.walked_leaveByte a f pa i b
    obtain ⟨time, cmp, sip⟩ := s.registers_leaveByte a f pa i b (memory 0 (by simp))
    obtain ⟨time', cmp', sip'⟩ := ih (s.leaveByte a f pa i b) (pa + 1) (i + 1) fun j hj => by
      rw [State.deviceAt_congr first.only.cfg, show pa + 1 + j = pa + (j + 1) by omega]
      exact memory (j + 1) (by simpa using hj)
    exact ⟨time'.trans time, cmp'.trans cmp, sip'.trans sip⟩

/-! ### What is left (R176, R180) -/

/-- One part leaves some of its bytes, none of them of the portion that faulted. -/
theorem State.leavesPart_leavePart (s : State) (a : Access) (f : PartFault) (va : Word) (i : Nat) (bs : List Byte)
    {away : Nat → Prop} (h : ∀ j, away j → f.first ≤ i + j ∧ i + j < f.first + f.width) :
    s.LeavesPart (s.leavePart a f va i bs) a va bs away := by
  rcases s.leavePart_cases a f va i bs with same | ⟨nonempty, t, w, translated, left⟩
  · exact .inl same
  rw [left]
  have walk := State.translate_walked translated
  refine .inr ⟨nonempty, t, w, translated, walk.only, fun kept => State.translate_pure kept translated,
    (walk.trans (w.walked_leaveBytes ..)).only, fun k hk => w.read_leaveBytes_outside _ _ _ _ _ hk, fun j hj memory => ?_,
    w.registers_leaveBytes a f t.addr i bs⟩
  rcases w.read_leaveBytes a f t.addr i bs hj memory with same | ⟨kept, permits, stored⟩
  · exact .inl same
  · exact .inr ⟨mt (h j) kept, permits, fun wf => stored (walk.wf wf)⟩

theorem State.leavesSome_leftBy (s : State) (a : Access) (f : PartFault) (bs : List Byte) :
    s.LeavesSome (s.leftBy a f bs) a bs f.first f.width := by
  rcases s.leftBy_cases a f bs with same | ⟨divides, left⟩
  · exact .inl same
  rw [left]
  exact .inr ⟨divides, _, s.leavesPart_leavePart a f a.va 0 _ fun j away => by omega,
    State.leavesPart_leavePart _ a f _ a.firstWidth _ fun j away => away⟩

end Sys2Proof.Machine
end

section
/-! PROOFS. Loads and stores that do not complete (O20): which access each instruction makes, and the exception in which it ends. -/

namespace Sys2Proof.Machine

/-! ### The exception of an access (R342-R345) -/

theorem State.endsBy_of_abort {s u : State} {i : Instr} {a : Access} {part : Word} {e : Abort}
    (h : exec i s = u.abort a part e) : s.EndsBy u i a part a.need.pageExc a.need.accessExc a.need.guestExc e := by
  cases e with
  | page => exact h
  | access => exact h
  | guestPage gpa implicit =>
    cases implicit with
    | none => exact h
    | some write =>
      rw [State.EndsBy, h]
      simp [State.abort, raise, State.writesPseudo]
  | stop f => exact h

/-- An access of a load or of HLVX, whose exceptions are those of loads (R268). -/
def Access.Loads (a : Access) : Prop := a.need = .load ∨ a.need = .execLoad

theorem Access.Loads.endsBy {a : Access} (hl : a.Loads) {s u : State} {i : Instr} {part : Word} {e : Abort}
    (h : exec i s = u.abort a part e) : s.EndsBy u i a part .loadPage .loadAccess .loadGuest e := by
  have ends := State.endsBy_of_abort h
  rcases hl with need | need <;> rw [need] at ends <;> exact ends

theorem State.endsBy_store {a : Access} (hs : a.need = .store) {s u : State} {i : Instr} {part : Word} {e : Abort}
    (h : exec i s = u.abort a part e) : s.EndsBy u i a part .storePage .storeAccess .storeGuest e := by
  have ends := State.endsBy_of_abort h
  rw [hs] at ends
  exact ends

theorem State.FaultsAt.imp {u : State} {p q : Prop} {a : Access} {va : Word} {n : Nat} {others : List Nat} {e : Abort} {k m : Nat}
    (h : u.FaultsAt p a va n others e k m) (hpq : p → q) : u.FaultsAt q a va n others e k m :=
  Or.imp_right (And.imp_left hpq) h

/-- The first part of an access faults as a whole, or, where the access may be divided, in a portion of it. -/
theorem State.faultIn_first (s : State) (a : Access) (va : Word) (n : Nat) (others : List Nat) (e : Abort) :
    ∃ k m, s.FaultsAt (s.MayDivide a) a va n others e k m
      ∧ s.faultIn (s.splits a) a va 0 n others e = ⟨va + BitVec.ofNat 64 k, e.shift k, k, m⟩ := by
  obtain ⟨k, m, faults, named⟩ := s.faultIn_cases (s.splits a) a va 0 n others e
  rw [Nat.zero_add] at named
  exact ⟨k, m, faults.imp fun h => (s.splits_iff a).mp h.1, named⟩

/-! ### Accesses that are attempted (R175, R176) -/

theorem State.refusesMisaligned_iff {s : State} {a : Access} :
    s.refusesMisaligned a = true ↔ s.cfg.misaligned = false ∧ a.va.toNat % a.width ≠ 0 := by
  simp [State.refusesMisaligned, Access.aligned]

theorem State.InOnePart.attempted {s : State} {a : Access} (h : s.InOnePart a) : ¬ s.refusesMisaligned a = true := by
  rw [State.refusesMisaligned_iff]
  rintro ⟨off, misaligned⟩
  rcases h with aligned | ⟨on, -⟩
  · exact misaligned aligned
  · rw [off] at on
    cases on

/-- A width of the loads and stores. -/
def Access.WidthOk (a : Access) : Prop := a.width = 1 ∨ a.width = 2 ∨ a.width = 4 ∨ a.width = 8

theorem State.InOnePart.firstWidth {s : State} {a : Access} (h : s.InOnePart a) (hw : a.WidthOk) : a.firstWidth = a.width := by
  rcases h with aligned | ⟨-, inPage⟩
  · exact Access.firstWidth_of_aligned hw (a.aligned_iff.mpr aligned)
  · exact Nat.min_eq_left (by omega)

section
variable {s : State} {i : Instr} {a : Access} {rd : Reg} {ext : Word → Word}

theorem State.load_attempted (h : ¬ s.refusesMisaligned a = true) :
    s.load a rd ext = match s.readBytes a with
      | .error f => s.abort a f.addr f.why
      | .ok (bs, t) => .next (t.finish rd (ext (valueOfBytes (s.bigEndian a.p a.v) bs))) := if_neg h

theorem State.store_attempted {value : Word} (h : ¬ s.refusesMisaligned a = true) :
    s.store a value = match s.writeBytes a (bytesOfValue (s.bigEndian a.p a.v) a.width value) with
      | .error (f, t) => t.abort a f.addr f.why
      | .ok t => .next t.next := if_neg h

theorem State.loadFaultsBy (hl : a.Loads) (hw : a.WidthOk) (he : exec i s = s.load a rd ext) : s.LoadFaultsBy i a := by
  intro e one fault
  obtain ⟨k, m, faults, named⟩ := s.faultIn_first a a.va a.width [] e
  refine ⟨k, m, faults, hl.endsBy ?_⟩
  rw [he, State.load_attempted one.attempted, State.readBytes_one (one.firstWidth hw), fault]
  simp only [named]

theorem State.storeFaultsBy {value : Word} (hs : a.need = .store) (hw : a.WidthOk) (he : exec i s = s.store a value) :
    s.StoreFaultsBy i a value := by
  intro e one fault
  obtain ⟨k, m, faults, named⟩ := s.faultIn_first a a.va a.width [] e
  refine ⟨_, k, m, faults, s.leavesSome_leftBy a ⟨a.va + BitVec.ofNat 64 k, e.shift k, k, m⟩ _, State.endsBy_store hs ?_⟩
  rw [he, State.store_attempted one.attempted, State.writeBytes_one _ (one.firstWidth hw), fault]
  simp only [named]

theorem State.misalignsBy_load (hl : a.Loads) (he : exec i s = s.load a rd ext) : s.MisalignsBy i a .loadMisaligned := by
  intro off misaligned
  rw [State.Raises, he, State.load, if_pos (State.refusesMisaligned_iff.mpr ⟨off, misaligned⟩), State.raiseMisaligned]
  rcases hl with need | need <;> rw [need] <;> rfl

theorem State.misalignsBy_store {value : Word} (hs : a.need = .store) (he : exec i s = s.store a value) :
    s.MisalignsBy i a .storeMisaligned := by
  intro off misaligned
  rw [State.Raises, he, State.store, if_pos (State.refusesMisaligned_iff.mpr ⟨off, misaligned⟩), State.raiseMisaligned, hs]
  rfl

end

/-! ### The instructions as accesses (R294, R295, R299) -/

theorem rv64Only_of_xlen {s : State} (h : s.xlen = .rv64) (i : Instr) (r : Result) : rv64Only i s r = r := by
  rw [rv64Only, h]

section
variable {s : State} (h : s.xlen = .rv64) (rd rs1 rs2 : Reg) (imm : BitVec 12)
include h

theorem exec_lwu : exec (.lwu rd rs1 imm) s
    = s.load (s.plainAccess .load 4 (s.x rs1 + imm.signExtend 64) (loadForm (.lwu rd rs1 imm))) rd (zextBytes 4) :=
  rv64Only_of_xlen h ..

theorem exec_ld : exec (.ld rd rs1 imm) s
    = s.load (s.plainAccess .load 8 (s.x rs1 + imm.signExtend 64) (loadForm (.ld rd rs1 imm))) rd (zextBytes 8) :=
  rv64Only_of_xlen h ..

theorem exec_sd : exec (.sd rs1 rs2 imm) s
    = s.store (s.plainAccess .store 8 (s.x rs1 + imm.signExtend 64) (storeForm (.sd rs1 rs2 imm))) (s.x rs2) :=
  rv64Only_of_xlen h ..

end

/-- Settles O20: each instruction is the load or the store of one access, so that `State.loadFaultsBy` and `State.storeFaultsBy` say how
it ends. -/
theorem abortedAccessesRaise : Obligations.AbortedAccessesRaise := by
  intro s rd rs1 rs2 imm addr load store
  have loads {i : Instr} {n : Nat} {ext : Word → Word} (hn : n = 1 ∨ n = 2 ∨ n = 4 ∨ n = 8)
      (he : exec i s = s.load (s.plainAccess .load n addr (loadForm i)) rd ext) : load i n :=
    ⟨State.loadFaultsBy (.inl rfl) hn he, State.misalignsBy_load (.inl rfl) he⟩
  have stores {i : Instr} {n : Nat} (hn : n = 1 ∨ n = 2 ∨ n = 4 ∨ n = 8)
      (he : exec i s = s.store (s.plainAccess .store n addr (storeForm i)) (s.x rs2)) : store i n :=
    ⟨State.storeFaultsBy rfl hn he, State.misalignsBy_store rfl he⟩
  exact ⟨loads (by decide) rfl, loads (by decide) rfl, loads (by decide) rfl, loads (by decide) rfl, loads (by decide) rfl,
    stores (by decide) rfl, stores (by decide) rfl, stores (by decide) rfl,
    fun h => ⟨loads (by decide) (exec_lwu h ..), loads (by decide) (exec_ld h ..), stores (by decide) (exec_sd h ..)⟩⟩

end Sys2Proof.Machine
end

section
/-! PROOFS. Loads and stores across a page boundary (O22): the value of the bytes joined, the bytes of two parts stored, and the part that
faults. -/

namespace Sys2Proof.Machine

/-! ### The value a load extends (R173, R289-R295) -/

theorem orderedValue_lt (big : Bool) (bs : List Byte) : orderedValue big bs < 256 ^ bs.length := by
  cases big
  · exact natOfBytes_lt bs
  · exact List.length_reverse ▸ natOfBytes_lt bs.reverse

theorem orderedValue_bytesOfValue (big : Bool) (n : Nat) (v : Word) :
    orderedValue big (bytesOfValue big n v) = v.toNat % 256 ^ n := by
  cases big <;> simp [orderedValue, bytesOfValue, natOfBytes_lowBytes]

/-- `ext` makes of the n bytes of a load, which fit a word, a value that `P` relates to the number they stand for. -/
def Extends (n : Nat) (ext : Word → Word) (P : Nat → Word → Prop) : Prop :=
  n ≤ 8 ∧ ∀ v : Word, v.toNat < 2 ^ (8 * n) → P v.toNat (ext v)

/-- The bytes of a load, as a word, are the number they stand for. -/
theorem Extends.valueOfBytes {n : Nat} {ext : Word → Word} {P : Nat → Word → Prop} (h : Extends n ext P) (big : Bool)
    {bs : List Byte} (hbs : bs.length = n) : P (orderedValue big bs) (ext (valueOfBytes big bs)) := by
  obtain ⟨hn, h⟩ := h
  have small : orderedValue big bs < 2 ^ (8 * n) := by
    rw [Nat.pow_mul, ← hbs]
    exact orderedValue_lt big bs
  have value : (Machine.valueOfBytes big bs).toNat = orderedValue big bs :=
    (BitVec.toNat_ofNat ..).trans (Nat.mod_eq_of_lt (Nat.lt_of_lt_of_le small (Nat.pow_le_pow_right (by decide) (by omega))))
  exact value ▸ h _ (value.symm ▸ small)

theorem extends_sextBytes {n : Nat} (hn : n ≤ 8) : Extends n (sextBytes n) (signedOf n) := by
  refine ⟨hn, fun v _ => ?_⟩
  rw [signedOf, sextBytes, BitVec.toInt_signExtend_of_le (by omega), BitVec.toInt_setWidth]

theorem extends_zextBytes {n : Nat} (hn : n ≤ 8) : Extends n (zextBytes n) unsignedOf := by
  refine ⟨hn, fun v hv => ?_⟩
  rw [unsignedOf, zextBytes, BitVec.toNat_setWidth, BitVec.toNat_setWidth, Nat.mod_eq_of_lt hv,
    Nat.mod_eq_of_lt v.isLt]

/-! ### Two stores to memory (R168) -/

/-- Bytes stored in two places that hold no memory-mapped register: the second reads back, so does the first where they are apart, and
every other byte is as it was. -/
theorem State.mem_physWrite_physWrite {s : State} (wf : s.mem.wf = true) {pa qa : Nat} {bs cs : List Byte}
    (first : ∀ j, j < bs.length → s.deviceAt (pa + j) = none) (second : ∀ j, j < cs.length → s.deviceAt (qa + j) = none) :
    let m := ((s.physWrite pa bs).physWrite qa cs).mem
    m.readBytes qa cs.length = cs
    ∧ (pa + bs.length ≤ qa ∨ qa + cs.length ≤ pa → m.readBytes pa bs.length = bs)
    ∧ ∀ b, (b < pa ∨ pa + bs.length ≤ b) → (b < qa ∨ qa + cs.length ≤ b) → m.read b = s.mem.read b := by
  intro m
  have written : m = (s.mem.writeBytes pa bs).writeBytes qa cs := by
    simp only [m]
    rw [State.physWrite_memory (s := s.physWrite pa bs), State.physWrite_memory first]
    intro j hj
    rw [State.deviceAt_congr (s.walked_physWrite pa bs).only.cfg]
    exact second j hj
  rw [written]
  refine ⟨Memory.readBytes_writeBytes (Memory.wf_writeBytes wf pa bs) qa cs, fun apart => ?_, fun b hb hb' => ?_⟩
  · rw [Memory.readBytes_congr fun k h1 h2 => Memory.read_writeBytes_outside _ qa cs (by omega), Memory.readBytes_writeBytes wf]
  · rw [Memory.read_writeBytes_outside _ _ _ hb', Memory.read_writeBytes_outside _ _ _ hb]

/-! ### What walks leave (R209) -/

theorem State.OnlyMemory.wellKeptTables {s t : State} (h : s.OnlyMemory t) : t.wellKeptTables = s.wellKeptTables := by
  obtain ⟨m, a, b, c, rfl⟩ := h.eq
  rfl

theorem State.reachPart_pure {s t : State} (kept : s.wellKeptTables = true) {a : Access} {va : Word} {n pa : Nat}
    {others : List Nat} {rs : List Region} (h : s.reachPart a va n others = .ok (pa, rs, t)) : t = s := by
  obtain ⟨x, translated, -⟩ := State.reachPart_ok h
  exact State.translate_pure kept translated

theorem State.OnlyMemory.pc {s t : State} (h : s.OnlyMemory t) : t.pc = s.pc := by
  obtain ⟨m, a, b, c, rfl⟩ := h.eq
  rfl

/-! ### Accesses that cross a page boundary (R176, R220) -/

/-- The second part of an access faults at its first byte, or, where it may be divided, in a portion of it. -/
theorem State.faultIn_second (u s : State) (a : Access) (va : Word) {i : Nat} (hi : 0 < i) (n : Nat) (others : List Nat) (e : Abort) :
    ∃ j m, u.FaultsAt (s.MayDivideSecond a e) a va n others e j m
      ∧ u.faultIn (s.splits a) a va i n others e = ⟨va + BitVec.ofNat 64 j, e.shift j, i + j, m⟩ := by
  obtain ⟨j, m, faults, named⟩ := u.faultIn_cases (s.splits a) a va i n others e
  exact ⟨j, m, faults.imp fun h => ⟨(s.splits_iff a).mp h.1, h.2 hi⟩, named⟩

/-- The hart attempts misaligned accesses, and k bytes of the access lie in the first page, others in the second. -/
structure State.Crosses (s : State) (a : Access) (k : Nat) : Prop where
  misaligned : s.cfg.misaligned = true
  boundary : k = 4096 - a.va.toNat % 4096
  inside : k < a.width

namespace State.Crosses

variable {s : State} {a : Access} {k : Nat} (h : s.Crosses a k)
include h

theorem attempted : ¬ s.refusesMisaligned a = true := by
  rw [State.refusesMisaligned_iff, h.misaligned]
  rintro ⟨off, -⟩
  cases off

theorem firstWidth : a.firstWidth = k := by
  have inside := h.inside
  rw [h.boundary] at inside ⊢
  exact Nat.min_eq_right (by omega)

theorem two : a.firstWidth ≠ a.width := by
  rw [h.firstWidth]
  exact Nat.ne_of_lt h.inside

theorem pos : 0 < k := by
  have := h.boundary
  omega

/-! What a load and a store do, by how far they come. -/

theorem load_firstFaults (rd : Reg) (ext : Word → Word) {e : Abort} (first : s.reachPart a a.va k (s.secondBytes a) = .error e) :
    let f := s.faultIn (s.splits a) a a.va 0 k (s.secondBytes a) e
    s.load a rd ext = s.abort a f.addr f.why := by
  simp only [State.load_attempted h.attempted, State.readBytes_two h.two, h.firstWidth, first]

theorem store_firstFaults (value : Word) {e : Abort} (first : s.reachPart a a.va k (s.secondBytes a) = .error e) :
    let f := s.faultIn (s.splits a) a a.va 0 k (s.secondBytes a) e
    s.store a value = (s.leftBy a f (bytesOfValue (s.bigEndian a.p a.v) a.width value)).abort a f.addr f.why := by
  simp only [State.store_attempted h.attempted, State.writeBytes_two _ h.two, h.firstWidth, first]

variable {pa : Nat} {rs : List Region} {t : State} (first : s.reachPart a a.va k (s.secondBytes a) = .ok (pa, rs, t))
include first

theorem load_secondFaults (rd : Reg) (ext : Word → Word) {e : Abort}
    (second : t.reachPart a (s.secondAddress a) (a.width - k) (bytesAt pa k) = .error e) :
    let f := t.faultIn (s.splits a) a (s.secondAddress a) k (a.width - k) (bytesAt pa k) e
    s.load a rd ext = s.abort a f.addr f.why := by
  simp only [State.load_attempted h.attempted, State.readBytes_two h.two, h.firstWidth, first, second]

theorem load_completes (rd : Reg) (ext : Word → Word) {qa : Nat} {qs : List Region} {u : State}
    (second : t.reachPart a (s.secondAddress a) (a.width - k) (bytesAt pa k) = .ok (qa, qs, u)) :
    s.load a rd ext
      = .next (u.finish rd (ext (valueOfBytes (s.bigEndian a.p a.v) (t.physRead pa k ++ u.physRead qa (a.width - k))))) := by
  simp only [State.load_attempted h.attempted, State.readBytes_two h.two, h.firstWidth, first, second]

variable {value : Word} {bytes : List Byte} (hb : bytes = bytesOfValue (s.bigEndian a.p a.v) a.width value)
include hb

theorem store_secondFaults {e : Abort}
    (second : (t.physWrite pa (bytes.take k)).reachPart a (s.secondAddress a) (a.width - k) (bytesAt pa k) = .error e) :
    let f := (t.physWrite pa (bytes.take k)).faultIn (s.splits a) a (s.secondAddress a) k (a.width - k) (bytesAt pa k) e
    s.store a value = (s.leftBy a f bytes).abort a f.addr f.why := by
  simp only [State.store_attempted h.attempted, State.writeBytes_two _ h.two, h.firstWidth, first, second, ← hb]

theorem store_completes {qa : Nat} {qs : List Region} {u : State}
    (second : (t.physWrite pa (bytes.take k)).reachPart a (s.secondAddress a) (a.width - k) (bytesAt pa k) = .ok (qa, qs, u)) :
    s.store a value = .next (u.physWrite qa (bytes.drop k)).next := by
  simp only [State.store_attempted h.attempted, State.writeBytes_two _ h.two, h.firstWidth, first, second, ← hb]

/-- What memory holds after a store in two parts, where nothing but the store writes memory (R209). -/
theorem mem_of_store {qa : Nat} {qs : List Region} {u : State}
    (second : (t.physWrite pa (bytes.take k)).reachPart a (s.secondAddress a) (a.width - k) (bytesAt pa k) = .ok (qa, qs, u))
    (wf : s.mem.wf = true) (kept : s.wellKeptTables = true) (memory : ∀ j, j < k → s.deviceAt (pa + j) = none)
    (memory' : ∀ j, j < a.width - k → s.deviceAt (qa + j) = none) :
    let m := (u.physWrite qa (bytes.drop k)).mem
    m.readBytes qa (a.width - k) = bytes.drop k
    ∧ (pa + k ≤ qa ∨ qa + (a.width - k) ≤ pa → m.readBytes pa k = bytes.take k)
    ∧ ∀ b, (b < pa ∨ pa + k ≤ b) → (b < qa ∨ qa + (a.width - k) ≤ b) → m.read b = s.mem.read b := by
  obtain rfl : t = s := State.reachPart_pure kept first
  obtain rfl : u = t.physWrite pa (bytes.take k) :=
    State.reachPart_pure ((State.walked_physWrite ..).only.wellKeptTables.trans kept) second
  have take : (bytes.take k).length = k := by
    rw [List.length_take, hb, length_bytesOfValue]
    exact Nat.min_eq_left (Nat.le_of_lt h.inside)
  have drop : (bytes.drop k).length = a.width - k := by rw [List.length_drop, hb, length_bytesOfValue]
  have stored := State.mem_physWrite_physWrite (bs := bytes.take k) (cs := bytes.drop k) wf (take ▸ memory) (drop ▸ memory')
  rwa [take, drop] at stored

end State.Crosses

section
variable {s : State} {i : Instr} {a : Access} {rd : Reg} {ext : Word → Word}

theorem State.splitLoadsBy {P : Nat → Word → Prop} (hl : a.Loads) (hext : Extends a.width ext P)
    (he : exec i s = s.load a rd ext) : s.SplitLoadsBy i a rd P := by
  intro k misaligned boundary inside
  have crosses : s.Crosses a k := ⟨misaligned, boundary, inside⟩
  refine ⟨fun e fault => ?_, fun pa₁ rs₁ t₁ reached => ⟨fun e fault => ?_, fun pa₂ rs₂ t₂ reached' => ?_⟩⟩
  · obtain ⟨j, m, faults, named⟩ := s.faultIn_first a a.va k (s.secondBytes a) e
    refine ⟨j, m, faults, hl.endsBy ?_⟩
    rw [he, crosses.load_firstFaults rd ext fault, named]
  · obtain ⟨j, m, faults, named⟩ := t₁.faultIn_second s a (s.secondAddress a) crosses.pos (a.width - k) (bytesAt pa₁ k) e
    refine ⟨j, m, faults, hl.endsBy ?_⟩
    rw [he, crosses.load_secondFaults reached rd ext fault, named]
  · have walk := (State.reachPart_walked reached).trans (State.reachPart_walked reached')
    refine ⟨_, _, he.trans (crosses.load_completes reached rd ext reached'), walk.only,
      walk.only.pc ▸ t₂.writesReg_finish .., hext.valueOfBytes _ ?_⟩
    simp only [List.length_append, State.length_physRead]
    omega

theorem State.splitStoresBy {value : Word} (hs : a.need = .store) (he : exec i s = s.store a value) :
    s.SplitStoresBy i a value := by
  intro k misaligned boundary inside bytes
  have crosses : s.Crosses a k := ⟨misaligned, boundary, inside⟩
  refine ⟨orderedValue_bytesOfValue .., fun e fault => ?_,
    fun pa₁ rs₁ t₁ reached => ⟨fun e fault => ?_, fun pa₂ rs₂ t₂ reached' => ?_⟩⟩
  · obtain ⟨j, m, faults, named⟩ := s.faultIn_first a a.va k (s.secondBytes a) e
    let f : PartFault := ⟨a.va + BitVec.ofNat 64 j, e.shift j, j, m⟩
    refine ⟨s.leftBy a f bytes, j, m, faults, (Nat.zero_add j).symm ▸ s.leavesSome_leftBy a f bytes, State.endsBy_store hs ?_⟩
    rw [he, crosses.store_firstFaults value fault, named]
  · obtain ⟨j, m, faults, named⟩ := (t₁.physWrite pa₁ (bytes.take k)).faultIn_second s a (s.secondAddress a) crosses.pos
      (a.width - k) (bytesAt pa₁ k) e
    let f : PartFault := ⟨s.secondAddress a + BitVec.ofNat 64 j, e.shift j, k + j, m⟩
    refine ⟨s.leftBy a f bytes, j, m, faults, s.leavesSome_leftBy a f bytes, State.endsBy_store hs ?_⟩
    rw [he, crosses.store_secondFaults reached rfl fault, named]
  · have walk := (State.reachPart_write_walked reached (bytes.take k)).trans
      (State.reachPart_write_walked reached' (bytes.drop k))
    refine ⟨_, he.trans (crosses.store_completes reached rfl reached'), walk.only.pc ▸ State.advances_next _,
      fun wf kept memory memory' => ?_⟩
    rw [State.next_mem]
    exact crosses.mem_of_store reached rfl reached' wf kept memory memory'

end

/-! ### The virtual-machine loads and stores (R260) -/

/-- Where HLV, HLVX and HSV are permitted (R260). -/
structure State.MayAccessGuest (s : State) : Prop where
  extension : s.hasH = true
  host : s.virt = false
  user : s.priv = .u → s.hstatusHU = true

section
variable {s : State} (h : s.MayAccessGuest)
include h

theorem hvWith_allowed (i : Instr) (r : Result) : hvWith i s r = r := by
  have allowed : s.hvVerdict = .allowed := by
    rw [State.hvVerdict, h.extension, h.host]
    by_cases hp : s.priv = .u
    · simp [hp, h.user hp]
    · simp [hp]
  rw [hvWith, allowed]

theorem hvRv64Only_of_xlen (hx : s.xlen = .rv64) (i : Instr) (r : Result) : hvRv64Only i s r = r := by
  rw [hvRv64Only, h.host, rv64Only_of_xlen hx]
  exact ite_self r

end

/-- Settles O22: each instruction is the load or the store of one access, so that `State.splitLoadsBy` and `State.splitStoresBy` say what
it does in two parts. -/
theorem splitAccessesHaveTwoParts : Obligations.SplitAccessesHaveTwoParts := by
  intro s rd rs1 rs2 imm load store guestLoad guestStore
  have loads {i : Instr} {n : Nat} {ext : Word → Word} {P : Nat → Word → Prop} (hext : Extends n ext P)
      (he : exec i s = s.load (s.plainAccess .load n (s.x rs1 + imm.signExtend 64) (loadForm i)) rd ext) : load i n P :=
    State.splitLoadsBy (.inl rfl) hext he
  have stores {i : Instr} {n : Nat}
      (he : exec i s = s.store (s.plainAccess .store n (s.x rs1 + imm.signExtend 64) (storeForm i)) (s.x rs2)) : store i n :=
    State.splitStoresBy rfl he
  have guestLoads {i : Instr} {need : Need} {n : Nat} {ext : Word → Word} {P : Nat → Word → Prop}
      (hneed : need = .load ∨ need = .execLoad) (hext : Extends n ext P)
      (he : exec i s = s.load (s.guestAccess need n (s.x rs1) (guestForm i)) rd ext) : guestLoad i need n P :=
    State.splitLoadsBy hneed hext he
  have guestStores {i : Instr} {n : Nat}
      (he : exec i s = s.store (s.guestAccess .store n (s.x rs1) (guestForm i)) (s.x rs2)) : guestStore i n :=
    State.splitStoresBy rfl he
  refine ⟨loads (extends_sextBytes (by decide)) rfl, loads (extends_sextBytes (by decide)) rfl,
    loads (extends_zextBytes (by decide)) rfl, stores rfl, stores rfl, fun hx => ?_, fun hH hv hu => ?_⟩
  · exact ⟨loads (extends_zextBytes (by decide)) (exec_lwu hx ..), loads (extends_zextBytes (by decide)) (exec_ld hx ..),
      stores (exec_sd hx ..)⟩
  have allowed := hvWith_allowed ⟨hH, hv, hu⟩
  refine ⟨guestLoads (.inl rfl) (extends_sextBytes (by decide)) (allowed ..),
    guestLoads (.inl rfl) (extends_zextBytes (by decide)) (allowed ..),
    guestLoads (.inl rfl) (extends_sextBytes (by decide)) (allowed ..),
    guestLoads (.inr rfl) (extends_zextBytes (by decide)) (allowed ..),
    guestLoads (.inr rfl) (extends_zextBytes (by decide)) (allowed ..),
    guestStores (allowed ..), guestStores (allowed ..), fun hx => ?_⟩
  have wide (i : Instr) (r : Result) := (hvRv64Only_of_xlen ⟨hH, hv, hu⟩ hx i (hvWith i s r)).trans (allowed i r)
  exact ⟨guestLoads (.inl rfl) (extends_zextBytes (by decide)) (wide ..),
    guestLoads (.inl rfl) (extends_zextBytes (by decide)) (wide ..), guestStores (wide ..)⟩

end Sys2Proof.Machine
end

section
/-! PROOFS. Which bytes a PMP entry matches (O26): the address registers as they read, mode by mode, and the entry of each mode. -/

namespace Sys2Proof.Machine

/-! ### Address registers as they read (R193) -/

theorem bit_lowOnes (g k : Nat) : bit (BitVec.ofNat 64 (2 ^ g - 1)) k = decide (k < 64 ∧ k < g) := by
  rw [bit, BitVec.getLsbD_ofNat, Nat.testBit_two_pow_sub_one, Bool.decide_and]

/-- The g low bits cleared. -/
theorem bit_clearLow (w : Word) (g k : Nat) :
    bit (w &&& ~~~BitVec.ofNat 64 (2 ^ g - 1)) k = (decide (g ≤ k) && bit w k) := by
  rw [bit_and, bit_not, bit_lowOnes]
  by_cases hk : k < 64
  · by_cases hg : g ≤ k
    · simp [hk, hg, Nat.not_lt.mpr hg]
    · simp [hk, hg, Nat.not_le.mp hg]
  · simp [bit_of_ge w (Nat.not_lt.mp hk)]

/-- An address with its g low bits cleared is in whole granules of 2^g. -/
theorem toNat_clearLow (w : Word) (g : Nat) :
    (w &&& ~~~BitVec.ofNat 64 (2 ^ g - 1)).toNat = w.toNat / 2 ^ g * 2 ^ g := by
  apply Nat.eq_of_testBit_eq
  intro k
  rw [BitVec.testBit_toNat, Nat.testBit_mul_two_pow, Nat.testBit_div_two_pow]
  have cleared := bit_clearLow w g k
  rw [bit] at cleared
  rw [cleared]
  by_cases hg : g ≤ k
  · rw [Nat.sub_add_cancel hg, BitVec.testBit_toNat, bit]
  · simp [hg]

section
variable {s : State} {i : Nat}

/-- In modes OFF and TOR the G low bits read 0. -/
theorem State.pmpaddr_clearLow (h : (s.pmpcfg i).extractLsb' 3 2 = 0#2 ∨ (s.pmpcfg i).extractLsb' 3 2 = 1#2) :
    s.pmpaddr i = s.pmpStored i &&& ~~~BitVec.ofNat 64 (2 ^ s.cfg.pmpG - 1) := by
  rcases h with h | h <;> simp [State.pmpaddr, h]

/-! ### The entry of each mode (R193) -/

theorem State.pmpMatches_off (b : Nat) (h : (s.pmpcfg i).extractLsb' 3 2 = 0#2) : s.pmpMatches i b = false := by
  simp [State.pmpMatches, h]

theorem State.pmpMatches_tor (b : Nat) (h : (s.pmpcfg i).extractLsb' 3 2 = 1#2) :
    s.pmpMatches i b = true ↔ s.pmpBase i ≤ b / 4 ∧ b / 4 < (s.pmpaddr i).toNat := by
  simp [State.pmpMatches, h]

theorem State.pmpMatches_na4 (b : Nat) (h : (s.pmpcfg i).extractLsb' 3 2 = 2#2) :
    s.pmpMatches i b = true ↔ b / 4 = (s.pmpaddr i).toNat := by
  simp [State.pmpMatches, h]

theorem State.pmpMatches_napot (b : Nat) (h : (s.pmpcfg i).extractLsb' 3 2 = 3#2) :
    s.pmpMatches i b = true ↔
      b / 2 ^ (trailingOnes (s.pmpaddr i) 64 + 3) = (s.pmpaddr i).toNat / 2 ^ (trailingOnes (s.pmpaddr i) 64 + 1) := by
  simp [State.pmpMatches, h]

end

/-- The count of trailing ones: ones below bit k, and a zero there. -/
theorem trailingOnes_eq {w : Word} {n k : Nat} (hk : k < n) (ones : ∀ j, j < k → bit w j = true) (zero : bit w k = false) :
    trailingOnes w n = k := by
  induction n generalizing w k with
  | zero => omega
  | succ n ih =>
    have shifted (j : Nat) : bit (w >>> 1) j = bit w (j + 1) := by
      rw [bit, BitVec.getLsbD_ushiftRight, Nat.add_comm, bit]
    cases k with
    | zero => simp [trailingOnes, zero]
    | succ k =>
      have rest : trailingOnes (w >>> 1) n = k :=
        ih (by omega) (fun j hj => by rw [shifted]; exact ones _ (by omega)) (by rw [shifted]; exact zero)
      simp [trailingOnes, ones 0 (by omega), rest]

/-- Settles O26: each mode by its own rule; a TOR entry ends at its address in whole granules, and the bytes of a NAPOT entry are the
numbers with one quotient. -/
theorem pmpEntriesMatchTheirRegions : Obligations.PmpEntriesMatchTheirRegions := by
  intro s i b mode a granule bound
  refine ⟨State.pmpMatches_off b, fun h => ?tor, State.pmpMatches_na4 b, fun k hk h ones zero => ?napot, fun k _ h => ?reads⟩
  case tor =>
    have top : (s.pmpaddr i).toNat = bound i := by rw [State.pmpaddr_clearLow (.inr h), toNat_clearLow]
    rw [State.pmpMatches_tor b h, top]
    rfl
  case napot =>
    have count : trailingOnes (s.pmpaddr i) 64 = k := trailingOnes_eq hk ones zero
    rw [State.pmpMatches_napot b h, count, Nat.div_eq_iff (Nat.two_pow_pos _),
      Nat.le_sub_one_iff_lt (Nat.add_pos_right _ (Nat.two_pow_pos _))]
  case reads => rw [State.pmpaddr_clearLow h, bit_clearLow]

end Sys2Proof.Machine
end

section
/-! PROOFS. The PMP check (O25): the first matching entry decides, by R, W and X or by Table 6.1. -/

namespace Sys2Proof.Machine

/-! ### The entry that decides (R195) -/

section
variable {s : State} {pa n : Nat} {p : Priv} {need : Need}

theorem any_bytesAt_eq_false_iff {f : Nat → Bool} :
    (bytesAt pa n).any f = false ↔ ∀ b, pa ≤ b → b < pa + n → f b = false := by
  simp only [List.any_eq_false, mem_bytesAt, and_imp, Bool.not_eq_true]

theorem any_bytesAt_iff {f : Nat → Bool} : (bytesAt pa n).any f = true ↔ ∃ b, pa ≤ b ∧ b < pa + n ∧ f b = true := by
  simp only [List.any_eq_true, mem_bytesAt, and_assoc]

theorem all_bytesAt_iff {f : Nat → Bool} : (bytesAt pa n).all f = true ↔ ∀ b, pa ≤ b → b < pa + n → f b = true := by
  simp only [List.all_eq_true, mem_bytesAt, and_imp]

/-- Entries that match no byte are passed over. -/
theorem State.pmpFrom_skip {i m : Nat} (k : Nat)
    (h : ∀ j, i ≤ j → j < i + m → ∀ b, pa ≤ b → b < pa + n → s.pmpMatches j b = false) :
    s.pmpFrom pa n p need i (m + k) = s.pmpFrom pa n p need (i + m) k := by
  induction m generalizing i with
  | zero => rw [Nat.zero_add, Nat.add_zero]
  | succ m ih =>
    have here : (bytesAt pa n).any (s.pmpMatches i) = false := any_bytesAt_eq_false_iff.mpr (h i (by omega) (by omega))
    rw [Nat.add_right_comm m 1 k, State.pmpFrom, here, if_neg Bool.false_ne_true,
      ih fun j hj hm => h j (by omega) (by omega), Nat.add_right_comm i 1 m, Nat.add_assoc i m 1]

/-- An entry that matches some byte decides. -/
theorem State.pmpFrom_decides {i : Nat} (k : Nat) (h : ∃ b, pa ≤ b ∧ b < pa + n ∧ s.pmpMatches i b = true) :
    s.pmpFrom pa n p need i (k + 1) = ((bytesAt pa n).all (s.pmpMatches i) && s.pmpPermits (s.pmpcfg i) p need) := by
  rw [State.pmpFrom, if_pos (any_bytesAt_iff.mpr h)]

theorem State.pmpAllows_of_no_entry (h : s.cfg.pmpCount = 0) : s.pmpAllows pa n p need = true := by
  simp [State.pmpAllows, h]

theorem State.pmpAllows_eq_pmpFrom (h : 0 < s.cfg.pmpCount) :
    s.pmpAllows pa n p need = s.pmpFrom pa n p need 0 s.cfg.pmpCount := by
  have : (s.cfg.pmpCount == 0) = false := by simp; omega
  rw [State.pmpAllows, this, Bool.false_or]

/-- Where no entry matches, the default holds. -/
theorem State.pmpAllows_of_no_match (h : 0 < s.cfg.pmpCount)
    (unmatched : ∀ i, i < s.cfg.pmpCount → ∀ b, pa ≤ b → b < pa + n → s.pmpMatches i b = false) :
    s.pmpAllows pa n p need = s.pmpDefault p need := by
  rw [State.pmpAllows_eq_pmpFrom h]
  exact State.pmpFrom_skip (m := s.cfg.pmpCount) 0 fun j _ hj => unmatched j (by omega)

/-- The lowest-numbered entry that matches some byte decides. -/
theorem State.pmpAllows_of_first_match {i : Nat} (hi : i < s.cfg.pmpCount)
    (below : ∀ j, j < i → ∀ b, pa ≤ b → b < pa + n → s.pmpMatches j b = false)
    (here : ∃ b, pa ≤ b ∧ b < pa + n ∧ s.pmpMatches i b = true) :
    s.pmpAllows pa n p need = ((bytesAt pa n).all (s.pmpMatches i) && s.pmpPermits (s.pmpcfg i) p need) := by
  obtain ⟨k, hk⟩ : ∃ k, s.cfg.pmpCount = i + (k + 1) := ⟨s.cfg.pmpCount - i - 1, by omega⟩
  rw [State.pmpAllows_eq_pmpFrom (by omega), hk, State.pmpFrom_skip _ fun j _ hj => below j (by omega), Nat.zero_add,
    State.pmpFrom_decides k here]

/-- The default: S and U fail, and M-mode succeeds unless MMWP denies it, or MML its execution (R195, R198). -/
theorem State.pmpDefault_iff (h : need ≠ .execLoad) :
    s.pmpDefault p need = true ↔ p = .m ∧ s.mseccfgMMWP = false ∧ (s.mseccfgMML = true → need ≠ .fetch) := by
  cases hmml : s.mseccfgMML <;> simp [State.pmpDefault, h, hmml]

end

/-! ### What the entry permits (R195, R197) -/

/-- The bit of the right that an access with one type needs, in a number whose bits 2:0 are R, W and X. -/
def Need.rightBit : Need → Nat
  | .load | .execLoad => 2
  | .store => 1
  | .fetch => 0

/-- The row of Table 6.1 for L, R, W and X; its bits 2:0 are R, W and X. -/
def tableRow (l r w x : Bool) : Nat :=
  (if l then 8 else 0) + (if r then 4 else 0) + (if w then 2 else 0) + (if x then 1 else 0)

/-- The rights that Table 6.1 gives to M-mode, or to S and U, in each row. -/
def tableRights (m : Bool) : List Nat :=
  if m then [0, 0, 6, 6, 0, 0, 0, 0, 0, 1, 1, 5, 4, 5, 6, 4] else [0, 1, 4, 6, 4, 5, 6, 7, 0, 0, 1, 1, 0, 0, 0, 4]

section
variable {need : Need} (h : need ≠ .execLoad)
include h

/-- Table 6.1, over its sixteen rows. -/
theorem mmlPermits_eq_table (c : BitVec 8) (m : Bool) :
    mmlPermits c m need
      = ((tableRights m).getD (tableRow (c.getLsbD 7) (c.getLsbD 0) (c.getLsbD 1) (c.getLsbD 2)) 0).testBit
          need.rightBit := by
  unfold mmlPermits
  generalize c.getLsbD 7 = l, c.getLsbD 0 = r, c.getLsbD 1 = w, c.getLsbD 2 = x
  cases need with
  | fetch => revert l r w x m; decide
  | load => revert l r w x m; decide
  | store => revert l r w x m; decide
  | execLoad => exact absurd rfl h

theorem rwxPermits_eq_tableRow (l r w x : Bool) : rwxPermits r w x need = (tableRow l r w x).testBit need.rightBit := by
  cases need with
  | fetch => revert l r w x; decide
  | load => revert l r w x; decide
  | store => revert l r w x; decide
  | execLoad => exact absurd rfl h

theorem State.pmpPermits_eq (s : State) (c : BitVec 8) (p : Priv) :
    let row := tableRow (c.getLsbD 7) (c.getLsbD 0) (c.getLsbD 1) (c.getLsbD 2)
    s.pmpPermits c p need
      = if s.mseccfgMML then ((tableRights (p = .m)).getD row 0).testBit need.rightBit
        else (p = .m && !c.getLsbD 7) || row.testBit need.rightBit := by
  unfold State.pmpPermits
  split
  · exact mmlPermits_eq_table h c _
  · rw [rwxPermits_eq_tableRow h (c.getLsbD 7)]
    cases c.getLsbD 7 <;> by_cases hp : p = .m <;> simp [hp]

end

/-- Settles O25: the entries below the first match are passed over, and that one, or the default, decides. -/
theorem pmpFirstMatchDecides : Obligations.PmpFirstMatchDecides := by
  intro s pa n p need hneed type row machine user permits
  have permits_eq (c : BitVec 8) : s.pmpPermits c p need = permits c := by
    rw [State.pmpPermits_eq hneed]
    cases need <;> cases p <;> rfl
  refine ⟨State.pmpAllows_of_no_entry, fun hcount unmatched => ?_, fun i hi below here => ?_⟩
  · rw [State.pmpAllows_of_no_match hcount unmatched, State.pmpDefault_iff hneed]
  · rw [State.pmpAllows_of_first_match hi below here, Bool.and_eq_true, all_bytesAt_iff, permits_eq]

end Sys2Proof.Machine
end

section
/-! PROOFS. PMP locks (O27): what holds of a locked entry and of MML and MMWP is one relation between states, which every operation of a
step is in; only the writes of `pmpcfg`, `pmpaddr` and `mseccfg` need an argument. -/

namespace Sys2Proof.Machine

/-! ### Locked entries (R194, R196) -/

section
variable {s t : State} {i : Nat}

theorem State.pmpLocked_iff : s.pmpLocked i = true ↔ (s.pmpcfg i).getLsbD 7 = true ∧ s.mseccfgRLB = false := by
  simp [State.pmpLocked]

theorem State.pmpcfg_of_lt (h : i < 64) (hc : i < s.cfg.pmpCount) : s.pmpcfg i = s.mc.pmpcfg[i] := by
  rw [State.pmpcfg, dif_pos h, if_pos hc]

/-- Only an entry that exists is locked: others read 0 (R189). -/
theorem State.exists_of_pmpLocked (h : s.pmpLocked i = true) : i < 64 ∧ i < s.cfg.pmpCount := by
  refine Decidable.byContradiction fun absent => ?_
  have zero : s.pmpcfg i = 0 := by
    unfold State.pmpcfg
    split
    · next hi => exact if_neg fun hc => absent ⟨hi, hc⟩
    · rfl
  simp [State.pmpLocked, zero] at h

/-- An entry reads as it did where its field is the same. -/
theorem State.pmpcfg_congr (cfg : t.cfg = s.cfg)
    (h : ∀ hi : i < 64, i < s.cfg.pmpCount → t.mc.pmpcfg[i] = s.mc.pmpcfg[i]) : t.pmpcfg i = s.pmpcfg i := by
  simp only [State.pmpcfg, cfg]
  exact dite_congr rfl (fun hi => ite_congr rfl (h hi) fun _ => rfl) fun _ => rfl

theorem State.pmpStored_congr (cfg : t.cfg = s.cfg)
    (h : ∀ hi : i < 64, i < s.cfg.pmpCount → t.mc.pmpaddr[i] = s.mc.pmpaddr[i]) : t.pmpStored i = s.pmpStored i := by
  simp only [State.pmpStored, cfg]
  exact dite_congr rfl (fun hi => ite_congr rfl (h hi) fun _ => rfl) fun _ => rfl

theorem State.anyPmpLocked_of_pmpLocked (h : s.pmpLocked i = true) : s.anyPmpLocked = true :=
  List.any_eq_true.mpr ⟨i, List.mem_range.mpr (State.exists_of_pmpLocked h).1, (State.pmpLocked_iff.mp h).1⟩

end

/-! ### What the locks hold -/

/-- What is locked in s is the same in t: configuration fields, which stay locked, addresses, MML and MMWP once set. -/
structure State.KeepsLocks (s t : State) : Prop where
  cfg : t.cfg = s.cfg
  config : ∀ i, s.pmpLocked i = true → t.pmpcfg i = s.pmpcfg i
  locked : ∀ i, s.pmpLocked i = true → t.pmpLocked i = true
  address : ∀ i, s.pmpaddrLocked i = true → t.pmpStored i = s.pmpStored i
  mml : s.mseccfgMML = true → t.mseccfgMML = true
  mmwp : s.mseccfgMMWP = true → t.mseccfgMMWP = true

theorem State.KeepsLocks.refl (s : State) : s.KeepsLocks s := ⟨rfl, fun _ _ => rfl, fun _ => id, fun _ _ => rfl, id, id⟩

/-- A locked address register stays locked: its own entry, or the TOR entry above it. -/
theorem State.KeepsLocks.pmpaddrLocked {s t : State} (h : s.KeepsLocks t) {i : Nat} (hi : s.pmpaddrLocked i = true) :
    t.pmpaddrLocked i = true := by
  simp only [State.pmpaddrLocked, Bool.or_eq_true, Bool.and_eq_true] at hi ⊢
  rcases hi with own | ⟨above, tor⟩
  · exact .inl (h.locked i own)
  · exact .inr ⟨h.locked _ above, by rw [h.config _ above]; exact tor⟩

theorem State.KeepsLocks.trans {s t u : State} (h : s.KeepsLocks t) (h' : t.KeepsLocks u) : s.KeepsLocks u where
  cfg := h'.cfg.trans h.cfg
  config i hi := (h'.config i (h.locked i hi)).trans (h.config i hi)
  locked i hi := h'.locked i (h.locked i hi)
  address i hi := (h'.address i (h.pmpaddrLocked hi)).trans (h.address i hi)
  mml hm := h'.mml (h.mml hm)
  mmwp hm := h'.mmwp (h.mmwp hm)

/-- The address of a locked entry reads as it did: as stored, in the mode of its field. -/
theorem State.KeepsLocks.pmpaddr {s t : State} (h : s.KeepsLocks t) {i : Nat} (hi : s.pmpLocked i = true) :
    t.pmpaddr i = s.pmpaddr i := by
  have stored : t.pmpStored i = s.pmpStored i := h.address i (by simp [State.pmpaddrLocked, hi])
  simp only [State.pmpaddr, h.config i hi, stored, h.cfg]

/-- The address below a locked TOR entry is the same. -/
theorem State.KeepsLocks.below {s t : State} (h : s.KeepsLocks t) {i : Nat} (hi : s.pmpLocked i = true)
    (tor : (s.pmpcfg i).extractLsb' 3 2 = 1#2) (pos : 0 < i) : t.pmpStored (i - 1) = s.pmpStored (i - 1) :=
  h.address (i - 1) (by simp [State.pmpaddrLocked, Nat.sub_add_cancel pos, hi, tor])

/-- Of two next states that keep the locks, either. -/
theorem State.KeepsLocks.ite {s t u : State} {p : Prop} [Decidable p] (h : s.KeepsLocks t) (h' : t.KeepsLocks u) :
    s.KeepsLocks (if p then u else t) := by
  split
  · exact h.trans h'
  · exact h

/-- What it takes, register by register: RLB does not rise while an entry is locked. -/
theorem State.KeepsLocks.of_registers {s t : State} (cfg : t.cfg = s.cfg)
    (fields : ∀ i (hi : i < 64), s.pmpLocked i = true → t.mc.pmpcfg[i] = s.mc.pmpcfg[i])
    (addresses : ∀ i (hi : i < 64), s.pmpaddrLocked i = true → t.mc.pmpaddr[i] = s.mc.pmpaddr[i])
    (rlb : s.anyPmpLocked = true → s.mseccfgRLB = false → t.mseccfgRLB = false)
    (mml : s.mseccfgMML = true → t.mseccfgMML = true) (mmwp : s.mseccfgMMWP = true → t.mseccfgMMWP = true) :
    s.KeepsLocks t := by
  have config (i : Nat) (h : s.pmpLocked i = true) : t.pmpcfg i = s.pmpcfg i :=
    State.pmpcfg_congr cfg fun hi _ => fields i hi h
  refine ⟨cfg, config, fun i h => ?_, fun i h => State.pmpStored_congr cfg fun hi _ => addresses i hi h, mml, mmwp⟩
  obtain ⟨lock, off⟩ := State.pmpLocked_iff.mp h
  exact State.pmpLocked_iff.mpr ⟨by rw [config i h, lock], rlb (State.anyPmpLocked_of_pmpLocked h) off⟩

/-- An operation that leaves the PMP registers and `mseccfg`. -/
theorem State.KeepsLocks.of_same {s t : State} (cfg : t.cfg = s.cfg) (hc : t.mc.pmpcfg = s.mc.pmpcfg)
    (ha : t.mc.pmpaddr = s.mc.pmpaddr) (hs : t.mc.mseccfg = s.mc.mseccfg) : s.KeepsLocks t := by
  refine State.KeepsLocks.of_registers cfg (fun i hi _ => by rw [hc]) (fun i hi _ => by rw [ha]) (fun _ h => ?_) (fun h => ?_)
    fun h => ?_
  · rwa [State.mseccfgRLB, cfg, hs]
  · rwa [State.mseccfgMML, cfg, hs]
  · rwa [State.mseccfgMMWP, cfg, hs]

theorem State.SameMachineControl.keepsLocks {s t : State} (h : s.SameMachineControl t) : s.KeepsLocks t := by
  unfold State.SameMachineControl at h
  exact .of_same (by simp only [h]) (by simp only [h]) (by simp only [h]) (by simp only [h])

theorem State.KeepsLocks.of_eq {s t : State} (hc : t.cfg = s.cfg) (hm : t.mc = s.mc) : s.KeepsLocks t :=
  (State.SameMachineControl.of_eq hc hm).keepsLocks

/-! ### Writes of the PMP registers (R192, R194, R196, R198) -/

/-- A locked field takes nothing. -/
theorem State.legalPmpcfg_of_locked {s : State} {i : Nat} (h : s.pmpLocked i = true) (w : BitVec 8) :
    s.legalPmpcfg i w = s.pmpcfg i := by
  simp only [State.legalPmpcfg, h, if_true]

theorem State.keepsLocks_writePmpcfg (s : State) (j : Nat) (w : Word) (n : Nat) : s.KeepsLocks (s.writePmpcfg j w n) := by
  induction n generalizing s j w with
  | zero => exact .refl s
  | succ n ih =>
    rw [State.writePmpcfg]
    refine State.KeepsLocks.trans ?_ (ih _ _ _)
    dsimp only
    split
    · next hj =>
      split
      · next hc =>
        refine State.KeepsLocks.of_registers rfl (fun i hi hl => ?_) (fun _ _ _ => rfl) (fun _ => id) id id
        by_cases hij : j = i
        · subst hij
          rw [Vector.getElem_set_self, State.legalPmpcfg_of_locked hl, State.pmpcfg_of_lt hj hc]
        · rw [Vector.getElem_set_ne _ _ hij]
      · exact .refl s
    · exact .refl s

theorem State.keepsLocks_writePmpaddr (s : State) (j : Nat) (w : Word) : s.KeepsLocks (s.writePmpaddr j w) := by
  unfold State.writePmpaddr
  split
  · next hj =>
    split
    · next hw =>
      refine State.KeepsLocks.of_registers rfl (fun _ _ _ => rfl) (fun i hi hl => ?_) (fun _ => id) id id
      have hij : j ≠ i := by
        rintro rfl
        simp [hl] at hw
      exact Vector.getElem_set_ne hj hi hij
    · exact .refl s
  · exact .refl s

/-! ### Writes of `mseccfg` (R86, R194, R196) -/

/-- RLB after a write: it rises only while no entry is locked. -/
theorem State.bit_two_legalMseccfg (s : State) (w : Word) :
    bit (s.legalMseccfg w) 2 = (bit w 2 && (bit s.mc.mseccfg 2 || !s.anyPmpLocked)) := by
  have h3 : bit 3#64 2 = false := by decide
  have h7 : bit 7#64 2 = true := by decide
  simp [State.legalMseccfg, bit_or, bit_and, bit_bitAt, h3, h7]

/-- MML and MMWP after a write: as they were, or set. -/
theorem State.bit_legalMseccfg_sticky (s : State) (w : Word) {k : Nat} (hk : k < 2) :
    bit (s.legalMseccfg w) k = (bit s.mc.mseccfg k || bit w k) := by
  have h3 : bit 3#64 k = true := by revert k; decide
  have h7 : bit 7#64 k = true := by revert k; decide
  have h2 : ¬ 2 = k := by omega
  simp [State.legalMseccfg, bit_or, bit_and, bit_bitAt, h3, h7, h2]

/-- `mseccfg` written, and with it fields of entries that are not locked. -/
theorem State.keepsLocks_legalMseccfg {s : State} {v : Vector (BitVec 8) 64} (w : Word)
    (fields : ∀ i (hi : i < 64), s.pmpLocked i = true → v[i] = s.mc.pmpcfg[i]) :
    s.KeepsLocks { s with mc := { s.mc with mseccfg := s.legalMseccfg w, pmpcfg := v } } := by
  refine State.KeepsLocks.of_registers rfl fields (fun _ _ _ => rfl) (fun any off => ?_) (fun h => ?_) (fun h => ?_)
  · simp only [State.mseccfgRLB, State.bit_two_legalMseccfg, any] at off ⊢
    rw [Bool.not_true, Bool.or_false, Bool.and_left_comm, off, Bool.and_false]
  · simp only [State.mseccfgMML, State.bit_legalMseccfg_sticky s w (show 0 < 2 by omega), Bool.and_eq_true] at h ⊢
    exact ⟨h.1, by rw [h.2, Bool.true_or]⟩
  · simp only [State.mseccfgMMWP, State.bit_legalMseccfg_sticky s w (show 1 < 2 by omega), Bool.and_eq_true] at h ⊢
    exact ⟨h.1, by rw [h.2, Bool.true_or]⟩

/-- A locked field takes no open value where MML rises (R194). -/
theorem State.freePmpcfg_of_locked {s : State} {i : Nat} (h : s.pmpLocked i = true) : s.freePmpcfg i = s.pmpcfg i := by
  simp [State.freePmpcfg, h]

theorem State.keepsLocks_writeMseccfg (s : State) (w : Word) : s.KeepsLocks (s.writeMseccfg w) := by
  unfold State.writeMseccfg
  dsimp only
  split
  · refine State.keepsLocks_legalMseccfg w fun i hi hl => ?_
    rw [Vector.getElem_ofFn, State.freePmpcfg_of_locked hl, State.pmpcfg_of_lt hi (State.exists_of_pmpLocked hl).2]
  · exact State.keepsLocks_legalMseccfg w fun _ _ _ => rfl

/-! ### CSR writes -/

theorem State.keepsLocks_modulate (b s : State) : s.KeepsLocks (b.modulate s) := by
  have vs (t : State) : t.KeepsLocks (b.modulateVS t) := (State.sameMachineControl_modulateVS b t).keepsLocks
  have sum (t : State) : t.KeepsLocks (b.openSum t) := by
    unfold State.openSum
    split
    · exact .refl t
    · exact .of_same rfl rfl rfl rfl
  unfold State.modulate
  split
  · exact (State.KeepsLocks.of_same (s := s) (t := s.narrowS) rfl rfl rfl rfl).trans ((sum _).trans (vs _))
  · exact (State.KeepsLocks.of_same (s := s) (t := s.widenS) rfl rfl rfl rfl).trans ((sum _).trans (vs _))
  · exact .refl s

theorem State.keepsLocks_writeHpmevent (s : State) (i : Fin 32) (mask w : Word) :
    s.KeepsLocks (s.writeHpmevent i mask w) := by
  unfold State.writeHpmevent
  split <;> exact .of_same rfl rfl rfl rfl

theorem State.keepsLocks_writeHpmcounter (s : State) (i : Fin 32) (w : Word) : s.KeepsLocks (s.writeHpmcounter i w) := by
  unfold State.writeHpmcounter
  split <;> exact .of_same rfl rfl rfl rfl

/-- A write to any register keeps the locks. -/
theorem State.keepsLocks_csrSet (s : State) (r : CsrReg) (w : Word) : s.KeepsLocks (s.csrSet r w) := by
  have kept : s.KeepsLocks s.keepPmp := .of_eq (by simp) (by simp)
  cases r
  case pmpcfg => exact kept.trans (State.keepsLocks_writePmpcfg ..)
  case pmpaddr => exact kept.trans (State.keepsLocks_writePmpaddr ..)
  case mseccfg => exact s.keepsLocks_writeMseccfg w
  case mstatus =>
    exact (State.KeepsLocks.of_same rfl rfl rfl rfl :
      s.KeepsLocks { s with mc := { s.mc with mstatus := s.legalMstatus (BitVec.allOnes 64) w } }).trans
        (State.keepsLocks_modulate ..)
  case hstatus => exact (s.sameMachineControl_csrSet (r := .hstatus) rfl w).keepsLocks
  case mhpmevent => exact State.keepsLocks_writeHpmevent ..
  case mhpmcounter => exact State.keepsLocks_writeHpmcounter ..
  all_goals exact .of_same rfl rfl rfl rfl

/-! ### `misa` -/

theorem State.keepsLocks_openRegs (s : State) (rs : List CsrReg) (k : Nat) : s.KeepsLocks (s.openRegs rs k) := by
  induction rs generalizing s k with
  | nil => exact .refl s
  | cons r rs ih => exact (s.keepsLocks_csrSet r _).trans (ih _ _)

theorem State.keepsLocks_fitWidths (s : State) : s.KeepsLocks s.fitWidths := by
  unfold State.fitWidths
  split <;> exact .of_same rfl rfl rfl rfl

theorem State.keepsLocks_openStatus (s : State) (mask : Word) : s.KeepsLocks (s.openStatus mask) := .of_same rfl rfl rfl rfl

theorem State.keepsLocks_cnt (s : State) (c : Counters) : s.KeepsLocks { s with cnt := c } := .of_same rfl rfl rfl rfl

theorem State.keepsLocks_openFilters (s : State) (mask : Word) : s.KeepsLocks (s.openFilters mask) := s.keepsLocks_cnt _

theorem State.keepsLocks_openHypervisor (s : State) : s.KeepsLocks s.openHypervisor := by
  have opened := (s.keepsLocks_fitWidths.trans (State.keepsLocks_openRegs _ hypervisorRegs 0)).trans
    (State.keepsLocks_openFilters _ 0xC00000000000000)
  unfold State.openHypervisor
  generalize State.openFilters _ _ = t at opened ⊢
  exact opened.trans (.of_same rfl rfl rfl rfl)

theorem State.keepsLocks_openSupervisor (s : State) : s.KeepsLocks s.openSupervisor := by
  have opened := (((s.keepsLocks_openStatus supervisorStatus).trans (State.keepsLocks_fitWidths _)).trans
    (State.keepsLocks_openRegs _ supervisorRegs 0x100)).trans (State.keepsLocks_openFilters _ 0x2000000000000000)
  unfold State.openSupervisor
  generalize State.openFilters _ _ = t at opened ⊢
  exact opened.trans (.of_same rfl rfl rfl rfl)

theorem State.keepsLocks_openUser (s : State) : s.KeepsLocks s.openUser := by
  have opened := ((s.keepsLocks_openStatus userStatus).trans
    (State.keepsLocks_openRegs _ [.mcounteren] 0x120)).trans (State.keepsLocks_openFilters _ 0x1000000000000000)
  unfold State.openUser
  generalize State.openFilters _ _ = t at opened ⊢
  exact opened.trans (.of_same rfl rfl rfl rfl)

theorem State.keepsLocks_writeMisa (s : State) (w : Word) : s.KeepsLocks (s.writeMisa w) := by
  unfold State.writeMisa
  split
  · extract_lets _ t gone t₁ t₂ t₃ t₄
    have written : s.KeepsLocks t := .of_same rfl rfl rfl rfl
    have closed : s.KeepsLocks t₁ := written.ite (State.KeepsLocks.of_same rfl rfl rfl rfl)
    have supervisor : s.KeepsLocks t₂ := closed.ite t₁.keepsLocks_openSupervisor
    have user : s.KeepsLocks t₃ := supervisor.ite t₂.keepsLocks_openUser
    have hypervisor : s.KeepsLocks t₄ := user.ite t₃.keepsLocks_openHypervisor
    exact hypervisor.ite (State.KeepsLocks.of_same rfl rfl rfl rfl)
  · exact .refl s

theorem State.keepsLocks_csrWrite (s : State) (c : CsrRef) (v : Word) : s.KeepsLocks (s.csrWrite c v) := by
  unfold State.csrWrite
  split
  · exact (s.sameMachineControl_writeWindow ..).keepsLocks
  · dsimp only
    split
    · exact s.keepsLocks_writeMisa _
    · exact s.keepsLocks_csrSet _ _

/-! ### Instructions and steps -/

theorem State.keepsLocks_takeException (s : State) (t : Trap) : s.KeepsLocks (s.takeException t) :=
  (s.sameMachineControl_takeException t).keepsLocks

theorem State.Walked.keepsLocks {s t : State} (h : s.Walked t) : s.KeepsLocks t := h.sameMachineControl.keepsLocks

theorem State.keepsLocks_retire (s b : State) : s.KeepsLocks (s.retire b) := .of_eq (by simp) (by simp)

theorem State.Ticked.keepsLocks {s t : State} (h : s.Ticked t) : s.KeepsLocks t := by
  obtain ⟨a, b, c, l, m, d, e, f, g, k, rfl⟩ := h.eq
  exact .of_same rfl rfl rfl rfl

theorem State.keepsLocks_woken (s : State) : s.KeepsLocks s.woken := by
  obtain ⟨p, n, h⟩ := s.woken_eq
  rw [h]
  exact .of_same rfl rfl rfl rfl

theorem State.keepsLocks_takeInterrupt (s : State) (d : Dest) (i : Nat) : s.KeepsLocks (s.takeInterrupt d i) := by
  cases d <;> exact .of_same rfl rfl rfl rfl

theorem State.Effect.keepsLocks {s t : State} (e : s.Effect t) : s.KeepsLocks t := by
  cases e with
  | trap u hw t => exact hw.keepsLocks.trans (u.keepsLocks_takeException t)
  | finish u hw rd v => exact hw.keepsLocks.trans (.of_eq (by simp) (by simp))
  | next u hw => exact hw.keepsLocks.trans (.of_eq (by simp) (by simp))
  | jump rd v t _ => exact .of_eq (by simp) (by simp)
  | branch t _ => exact .of_eq (by simp) (by simp)
  | csrWrite n c hc ok v rd old b =>
    exact (s.keepsLocks_csrWrite c v).trans (State.sameMachineControl_csrFinish ..).keepsLocks
  | csrRead rd v => exact (s.sameMachineControl_csrFinish ..).keepsLocks
  | mret _ =>
    exact (State.KeepsLocks.of_same rfl rfl rfl rfl : s.KeepsLocks s.returnM).trans (State.keepsLocks_retire ..)
  | sret _ _ => exact s.sameMachineControl_returnS.keepsLocks.trans (State.keepsLocks_retire ..)
  | sretVS _ _ => exact s.sameMachineControl_returnVS.keepsLocks.trans (State.keepsLocks_retire ..)
  | mnret _ _ =>
    exact (State.KeepsLocks.of_same rfl rfl rfl rfl : s.KeepsLocks s.returnMN).trans (State.keepsLocks_retire ..)
  | fence c p => exact .of_eq (by simp) (by simp)
  | wait => exact s.sameMachineControl_wait.keepsLocks
  | waitTrap t =>
    exact (State.KeepsLocks.of_same rfl rfl rfl rfl : s.KeepsLocks { s with waited := 0 }).trans
      (State.keepsLocks_takeException _ t)

theorem step_keepsLocks {s t : State} (h : step s = .next t) : s.KeepsLocks t := by
  have ticked : s.KeepsLocks s.tick := s.ticked_tick.keepsLocks
  have woken : s.KeepsLocks s.tick.woken := ticked.trans s.tick.keepsLocks_woken
  cases step_effect h with
  | nmi c => exact woken.trans (.of_same rfl rfl rfl rfl)
  | rnmi c => exact woken.trans (.of_same rfl rfl rfl rfl)
  | interrupt d i hi => exact woken.trans (State.keepsLocks_takeInterrupt ..)
  | fetchTrap u hu t => exact (woken.trans hu.keepsLocks).trans (u.keepsLocks_takeException t)
  | exec i u t hu he => exact (woken.trans hu.keepsLocks).trans (exec_effect he).keepsLocks
  | stalled t _ he => exact ticked.trans (exec_effect he).keepsLocks

/-- Settles O27: every step keeps the locks (`step_keepsLocks`). -/
theorem pmpLocksHold : Obligations.PmpLocksHold := by
  intro s t hstep
  have h : s.KeepsLocks t := step_keepsLocks hstep
  exact ⟨fun i hi => ⟨h.locked i hi, h.config i hi, h.pmpaddr hi, h.below hi⟩, h.mml, h.mmwp⟩

end Sys2Proof.Machine
end

section
/-! PROOFS. The bits 63:54 of a PTE (O31): what is reserved in a PTE of 8 bytes, and the page that a leaf with PBMT or N maps. -/

namespace Sys2Proof.Machine

/-! ### What is reserved (R203, R204, R210, R211, D22) -/

/-- The reserved encodings of a PTE of 8 bytes. -/
inductive Walk.Reserved (w : Walk) (level : Nat) (p : Word) : Prop where
  | writeOnly (r : pteR p = false) (only : pteW p = true)
  | bits60to54 (set : field p 54 7 ≠ 0)
  /-- N but in a NAPOT leaf -/
  | n (set : pteN p = true) (bad : ¬ (w.napot = true ∧ pteLeaf p = true ∧ level = 0 ∧ ptePpn w.scheme p % 16 = 8))
  /-- PBMT not enabled, in a pointer, or 3 -/
  | pbmt (set : ptePbmt p ≠ 0) (bad : ¬ (w.pbmte = true ∧ pteLeaf p = true ∧ ptePbmt p ≠ 3))
  | pointer (inner : pteLeaf p = false) (low : pteD p = true ∨ pteA p = true ∨ pteU p = true)

theorem Walk.reserved_iff {w : Walk} (h8 : w.scheme.pteBytes = 8) (level : Nat) (p : Word) :
    w.reserved level p = true ↔ w.Reserved level p := by
  have napot : (!(w.napot && pteLeaf p && level == 0 && ptePpn w.scheme p % 16 == 8)) = true ↔
      ¬ (w.napot = true ∧ pteLeaf p = true ∧ level = 0 ∧ ptePpn w.scheme p % 16 = 8) := by
    simp only [Bool.not_eq_true', ← Bool.not_eq_true, Bool.and_eq_true, beq_iff_eq, and_assoc]
  have pbmt : (if w.pbmte = true ∧ pteLeaf p = true then ptePbmt p == 3#2 else ptePbmt p != 0) = true ↔
      ptePbmt p ≠ 0 ∧ ¬ (w.pbmte = true ∧ pteLeaf p = true ∧ ptePbmt p ≠ 3) := by
    split
    · next enabled =>
      have three : ptePbmt p = 3 → ptePbmt p ≠ 0 := fun h => by rw [h]; decide
      simpa [enabled] using three
    · next disabled => simp [← and_assoc, disabled]
  simp only [Walk.reserved, h8, Bool.or_eq_true, Bool.and_eq_true, napot, pbmt, Bool.not_eq_true', bne_iff_ne, beq_self_eq_true,
    true_and, or_assoc]
  constructor
  · rintro (⟨r, only⟩ | bits | ⟨n, bad⟩ | ⟨type, bad⟩ | ⟨inner, low⟩)
    · exact .writeOnly r only
    · exact .bits60to54 bits
    · exact .n n bad
    · exact .pbmt type bad
    · exact .pointer inner low
  · rintro (⟨r, only⟩ | bits | ⟨n, bad⟩ | ⟨type, bad⟩ | ⟨inner, low⟩)
    · exact .inl ⟨r, only⟩
    · exact .inr (.inl bits)
    · exact .inr (.inr (.inl ⟨n, bad⟩))
    · exact .inr (.inr (.inr (.inl ⟨type, bad⟩)))
    · exact .inr (.inr (.inr (.inr ⟨inner, low⟩)))

/-- The bits that no pointer has are 63:54, D, A and U (R203, R204). -/
theorem pte_pointer_bits {p : Word} (h : p &&& 0xFFC00000000000D0 ≠ 0) :
    field p 54 7 ≠ 0 ∨ pteN p = true ∨ ptePbmt p ≠ 0 ∨ pteD p = true ∨ pteA p = true ∨ pteU p = true := by
  refine Decidable.byContradiction fun noneSet => h ?_
  simp only [not_or, ne_eq, Decidable.not_not] at noneSet
  obtain ⟨zero, n, pbmt, d, a, u⟩ := noneSet
  have middle : ∀ j < 7, bit p (54 + j) = false := fun j hj => by
    simpa [zero, hj] using (getLsbD_field p 54 7 j).symm
  have type : ∀ j < 2, bit p (61 + j) = false := fun j hj => by
    simpa [show field p 61 2 = 0 from pbmt, hj] using (getLsbD_field p 61 2 j).symm
  have places : ∀ i < 64, bit 0xFFC00000000000D0 i = true →
      (∃ j < 7, i = 54 + j) ∨ (∃ j < 2, i = 61 + j) ∨ i = 63 ∨ i = 7 ∨ i = 6 ∨ i = 4 := by decide
  have clear : ∀ i, bit 0xFFC00000000000D0 i = true → bit p i = false := fun i hm => by
    by_cases hi : i < 64
    · obtain ⟨j, hj, rfl⟩ | ⟨j, hj, rfl⟩ | rfl | rfl | rfl | rfl := places i hi hm
      · exact middle j hj
      · exact type j hj
      · exact Bool.eq_false_iff.mpr n
      · exact Bool.eq_false_iff.mpr d
      · exact Bool.eq_false_iff.mpr a
      · exact Bool.eq_false_iff.mpr u
    · exact bit_of_ge p (by omega)
  refine eq_of_bits fun i => ?_
  rw [bit_and, show bit (0 : Word) i = false from BitVec.getLsbD_zero]
  cases hm : bit 0xFFC00000000000D0 i with
  | false => exact Bool.and_false _
  | true => rw [clear i hm, Bool.false_and]

/-- Bits 63:54 aside, what a valid leaf is (R203, R204). -/
theorem Scheme.isLeaf_lower {c : Scheme} {p : Word} (h : c.isLeaf (p &&& 0x003FFFFFFFFFFFFF) = true) :
    pteV p = true ∧ pteLeaf p = true ∧ ¬ (pteR p = false ∧ pteW p = true) := by
  have kept : ∀ k < 4, (p &&& 0x003FFFFFFFFFFFFF).getLsbD k = bit p k := fun k hk => by
    have mask : ∀ k < 4, bit 0x003FFFFFFFFFFFFF k = true := by decide
    exact (bit_and ..).trans (by rw [mask k hk, Bool.and_true])
  simp only [Scheme.isLeaf, kept 0, kept 1, kept 2, kept 3, Nat.reduceLT, Bool.and_eq_true, Bool.or_eq_true, Bool.not_eq_true'] at h
  obtain ⟨⟨⟨v, leaf⟩, rOrNotW⟩, -⟩ := h
  refine ⟨v, Bool.or_eq_true_iff.mpr leaf, fun ⟨r, onlyW⟩ => ?_⟩
  rcases rOrNotW with isR | notW
  · exact absurd (isR.symm.trans r) (by decide)
  · exact absurd (onlyW.symm.trans notW) (by decide)

/-! ### What a walk concludes (R206 steps 3 to 8) -/

theorem Walk.conclude_reserved {w : Walk} {level : Nat} {p : Word} (h : w.reserved level p = true) (resolve : Resolver)
    (va a : Nat) (s : State) : w.conclude resolve va level a p s = .error .page := by
  simp [Walk.conclude, Walk.inspect, h]

/-- A leaf without a reserved encoding maps its page, whatever its bits 63:54 are. -/
theorem Walk.conclude_unreserved {w : Walk} {level : Nat} {p : Word} (v : pteV p = true) (leaf : pteLeaf p = true)
    (unreserved : w.reserved level p = false) (permits : w.Permits p) (aligned : w.AlignedLeaf level p)
    (recorded : w.Recorded p) (resolve : Resolver) (va a : Nat) (s : State) :
    w.conclude resolve va level a p s = .ok (w.target level p va, s) := by
  have nothingToSet := (not_congr (w.not_recorded_iff p)).mpr (not_not_intro recorded)
  rw [← Walk.allowed_iff] at permits
  rw [Walk.AlignedLeaf] at aligned
  have found : w.inspect level p = .leaf := by
    simp only [Walk.inspect, v, leaf, unreserved, permits, aligned, nothingToSet, Bool.not_true, Bool.or_self, Bool.false_eq_true, ne_eq,
      not_true, if_false]
  rw [Walk.conclude, found]

/-! ### The page mapped (R206 step 8, R210, R211) -/

theorem Walk.target_page {w : Walk} (h8 : w.scheme.pteBytes = 8) {p : Word} (n : pteN p = false) (level va : Nat) :
    w.target level p va
      = ⟨ptePpn w.scheme p * 4096 + va % 2 ^ (12 + w.scheme.vpnBits * level), (ptePbmt p).toNat⟩ := by
  simp [Walk.target, h8, n]

theorem four_le_vpnBits {xl : Xlen} {atp : Word} {c : Scheme} (h : schemeOf xl atp = some c) : 4 ≤ c.vpnBits := by
  unfold schemeOf at h
  split at h <;> split at h <;> cases h <;> decide

/-- The low bits of vpn[0] are address bits 15:12. -/
theorem vpnAt_zero_mod {c : Scheme} (h : 4 ≤ c.vpnBits) (va : Nat) : vpnAt c 0 va % 16 = va / 4096 % 16 :=
  Nat.mod_mod_of_dvd _ (Nat.pow_dvd_pow 2 (Nat.le_add_right_of_le h) : 2 ^ 4 ∣ _)

/-- A NAPOT leaf maps 64 KiB (R210). -/
theorem Walk.target_napot {w : Walk} (h8 : w.scheme.pteBytes = 8) (wide : 4 ≤ w.scheme.vpnBits) (napot : w.napot = true) {p : Word}
    (n : pteN p = true) (va : Nat) :
    w.target 0 p va = ⟨ptePpn w.scheme p / 16 * 65536 + va % 65536, (ptePbmt p).toNat⟩ := by
  have address : (ptePpn w.scheme p / 16 * 16 + va / 4096 % 16) * 4096 + va % 4096
      = ptePpn w.scheme p / 16 * 65536 + va % 65536 := by omega
  simp [Walk.target, h8, napot, n, vpnAt_zero_mod wide, address]

/-! ### Translation -/

/-- Translation by `satp` with nothing cached ends with what the walk concludes at the PTE found. -/
theorem State.translate_of_finds {s : State} {c : Scheme} {va : Word} {need : Need} {p : Priv} {level spot : Nat} {pte : Word}
    (hc : schemeOf s.sxlen s.sc.satp = some c) (empty : s.cache = []) (hp : p ≠ .m) (hva : canonical c va = true)
    (finds : (s.walkS c need p).Finds physically s va.toNat level spot pte s) :
    s.translate va need p false = (s.walkS c need p).conclude physicalTables va.toNat level spot pte s := by
  rw [State.translate_walkS hc hp va need, if_pos hva]
  exact Walk.run_of_finds rfl physicalTables_gentle physicalTables_places empty finds

/-- Settles O31: the translation ends with what the walk concludes at the PTE (`State.translate_of_finds`); each faulting clause is a
reserved encoding (`Walk.Reserved`), and any other leaf maps what `Walk.target` says. -/
theorem napotPbmtAndReservedBits : Obligations.NapotPbmtAndReservedBits := by
  intro s c va need p level spot pte hc h8 empty hp hva w type _ enabled faults finds
  have ends : s.translate va need p false = w.conclude physicalTables va.toNat level spot pte s :=
    State.translate_of_finds hc empty hp hva finds
  have reserved : w.reserved level pte = true ↔ w.Reserved level pte := Walk.reserved_iff h8 level pte
  have faulty (h : w.Reserved level pte) : faults := ends.trans (Walk.conclude_reserved (reserved.mpr h) ..)
  have enabled_iff : w.pbmte = true ↔ enabled := Bool.and_eq_true_iff
  have noType : type = 0 ↔ ptePbmt pte = 0 := BitVec.toNat_inj (y := (0 : BitVec 2))
  have type3 : type = 3 ↔ ptePbmt pte = 3 := BitVec.toNat_inj (y := (3 : BitVec 2))
  refine ⟨fun bits => faulty (.bits60to54 bits), fun set off => ?pbmtOff, fun h => ?pbmt3, fun n h => ?napot,
    fun r only => faulty (.writeOnly r only), fun r x h => ?pointer, fun isLeaf zero pbmt permits recorded => ?leaf⟩
  case pbmtOff => exact faulty (.pbmt (mt noType.mpr set) fun ⟨on, _⟩ => off (enabled_iff.mp on))
  case pbmt3 =>
    have three := type3.mp h
    exact faulty (.pbmt (by rw [three]; decide) fun ⟨_, _, not3⟩ => not3 three)
  case napot =>
    refine faulty (.n n fun ⟨on, _, last, ppn⟩ => ?_)
    rcases h with off | inner | ppn'
    · exact absurd (on.symm.trans off) (by decide)
    · exact inner last
    · exact ppn' ppn
  case pointer =>
    have inner : pteLeaf pte = false := Bool.or_eq_false_iff.mpr ⟨r, x⟩
    rcases pte_pointer_bits h with bits | n | pbmt | low
    · exact faulty (.bits60to54 bits)
    · exact faulty (.n n (by simp [inner]))
    · exact faulty (.pbmt pbmt (by simp [inner]))
    · exact faulty (.pointer inner low)
  case leaf =>
    obtain ⟨v, leaf, notWOnly⟩ := Scheme.isLeaf_lower isLeaf
    have typed : ptePbmt pte = 0 ∨ (w.pbmte = true ∧ ptePbmt pte ≠ 3) := by
      rwa [← noType, enabled_iff, ne_eq, ← type3]
    have maps (napot : pteN pte = true → w.napot = true ∧ level = 0 ∧ ptePpn c pte % 16 = 8)
        (aligned : w.AlignedLeaf level pte) : s.translate va need p false = .ok (w.target level pte va.toNat, s) := by
      have unreserved : w.reserved level pte = false := by
        rw [← Bool.not_eq_true, reserved]
        rintro (⟨r, only⟩ | bits | ⟨n, bad⟩ | ⟨set, bad⟩ | ⟨inner, -⟩)
        · exact notWOnly ⟨r, only⟩
        · exact bits zero
        · exact bad ⟨(napot n).1, leaf, (napot n).2⟩
        · exact bad ((typed.resolve_left set).imp_right fun not3 => ⟨leaf, not3⟩)
        · exact absurd (leaf.symm.trans inner) (by decide)
      exact ends.trans (Walk.conclude_unreserved v leaf unreserved permits aligned recorded ..)
    constructor
    · intro n aligned
      rw [maps (fun n' => absurd (n'.symm.trans n) (by decide)) aligned, Walk.target_page h8 n]
      rfl
    · rintro n on rfl ppn
      rw [maps (fun _ => ⟨on, rfl, ppn⟩) (Nat.mod_one _), Walk.target_napot h8 (four_le_vpnBits hc) on n]
      rfl

end Sys2Proof.Machine
end

section
/-! PROOFS. The G-stage walk (O32): a walk of `hgatp` whose page faults are guest-page faults. -/

namespace Sys2Proof.Machine

/-! ### What PMP and PMA say of a reference to a page table (R171) -/

theorem State.checkPhys_error {s : State} {use : Use} {p : Priv} {pa n : Nat} {e : Abort} (h : s.checkPhys use p pa n = .error e) :
    e = .access ∨ e = .stop (.undescribedDevice pa) := by
  unfold State.checkPhys State.checkRegions at h
  split at h
  · next denied =>
    cases h
    split at denied
    · cases denied; exact .inl rfl
    · split at denied <;> cases denied
      exact .inl rfl
  · unfold reachRegions at h
    split at h <;> cases h
    exact .inr rfl

/-- What PMP and PMA say is no page fault, so G-stage leaves it as it is (R217). -/
theorem asGuestFault_of_checkPhys {s : State} {use : Use} {p : Priv} {pa n : Nat} {e : Abort} (h : s.checkPhys use p pa n = .error e)
    (gpa : Nat) (implicit : Option Bool) : asGuestFault gpa implicit e = e := by
  obtain rfl | rfl := State.checkPhys_error h <;> rfl

/-! ### Translation by `hgatp` (R216, R217) -/

theorem State.walkG_madeWith (s : State) (c : Scheme) (need : Need) :
    (s.walkG c need).MadeWith (rootOf s.sxlen s.hc.hgatp) true false (bit s.mc.mstatus 19) (s.UpdatesIf (bit s.menvcfg 61))
      (bit s.mc.mstatus 36) (s.cfg.svpbmt && bit s.menvcfg 62) :=
  ⟨rootOf_eq .., rfl, rfl, rfl, s.adUpdates_eq _, rfl, rfl⟩

/-- An address too wide faults, any other is walked for. -/
theorem State.translateG_walkG {s : State} {c : Scheme} (hc : schemeOf s.sxlen s.hc.hgatp = some c) (gpa : Nat) (need : Need)
    (implicit : Option Bool) :
    s.translateG gpa need implicit
      = if gpa < 2 ^ c.x4.bits then ((s.walkG c need).run physicalTables gpa s).mapError (asGuestFault gpa implicit)
        else .error (.guestPage gpa implicit) := by
  simp only [State.translateG, State.translateGBy, hc]
  cases (s.walkG c need).run physicalTables gpa s <;> rfl

/-- G-stage translation with nothing cached ends with what the walk concludes at the PTE found. -/
theorem State.translateG_of_finds {s : State} {c : Scheme} {gpa level spot : Nat} {need : Need} {pte : Word}
    (hc : schemeOf s.sxlen s.hc.hgatp = some c) (empty : s.cache = []) (narrow : gpa < 2 ^ c.x4.bits)
    (finds : (s.walkG c need).Finds physically s gpa level spot pte s) (implicit : Option Bool) :
    s.translateG gpa need implicit
      = ((s.walkG c need).conclude physicalTables gpa level spot pte s).mapError (asGuestFault gpa implicit) := by
  rw [State.translateG_walkG hc, if_pos narrow, Walk.run_of_finds rfl physicalTables_gentle physicalTables_places empty finds]

/-- Settles O32: the walk comes to the PTE found (`State.translateG_of_finds`), and each clause is what it concludes there, a page
fault as a guest-page fault. -/
theorem guestPhysicalWalk : Obligations.GuestPhysicalWalk := by
  intro s c gpa need implicit level spot pte hc empty w mapped faults
  refine ⟨s.walkG_madeWith c need, fun wide => ?_, fun narrow finds => ?_⟩
  · exact (State.translateG_walkG hc gpa need implicit).trans (if_neg (Nat.not_lt.mpr wide))
  have ends := State.translateG_of_finds hc empty narrow finds implicit
  have faulty (h : w.conclude physicalTables gpa level spot pte s = .error .page) : faults := ends.trans (by rw [h]; rfl)
  refine ⟨fun invalid => faulty (Walk.conclude_invalid _ _ _ _ _ invalid _), ?_, fun leaf => ?_⟩
  · rintro pointer rfl
    exact faulty (Walk.conclude_lastPointer _ _ _ _ pointer _)
  have bad (h : ¬ (w.Permits pte ∧ w.AlignedLeaf level pte)) : faults := faulty (Walk.conclude_badLeaf leaf h ..)
  refine ⟨fun noU => bad fun ⟨⟨user, _⟩, _⟩ => absurd ((user rfl).symm.trans noU) (by decide), bad, fun permits aligned => ?_⟩
  refine ⟨fun recorded => ?_, fun unrecorded hw => faulty (Walk.conclude_unrecorded leaf permits aligned _ _ _ _ unrecorded hw),
    fun unrecorded hw => ?_⟩
  · rw [ends, Walk.conclude_recorded leaf permits aligned _ _ _ _ recorded]
    rfl
  have update := Walk.conclude_update leaf permits aligned gpa spot s unrecorded hw
  constructor
  · intro rs check
    rw [ends, update, show w.stage = .g from rfl, show w.scheme.pteBytes = c.pteBytes from rfl, check]
    rfl
  · intro e check
    rw [ends, update, show w.stage = .g from rfl, show w.scheme.pteBytes = c.pteBytes from rfl, check]
    exact congrArg Except.error (asGuestFault_of_checkPhys check gpa implicit)

end Sys2Proof.Machine
end

section
/-! PROOFS. Translation in two stages (O30): the VS-stage walk, whose tables G-stage finds, and G-stage for the page it comes to. -/

namespace Sys2Proof.Machine

/-! ### Leaves with a memory type (R203, R204, R211) -/

/-- A leaf without a reserved encoding. -/
structure Walk.ValidLeaf (w : Walk) (level : Nat) (p : Word) : Prop where
  valid : pteV p = true
  leaf : pteLeaf p = true
  unreserved : w.reserved level p = false

/-- Clearing the memory type leaves the other bits of a PTE. -/
theorem bit_untyped {p : Word} {k : Nat} (h : k < 61 ∨ k = 63) : bit (setField p 61 (0 : BitVec 2)) k = bit p k := by
  rw [bit_setField, if_neg (by omega)]

/-- In a leaf that is valid but for its memory type, the other bits of 63:54 are clear. -/
theorem Scheme.isLeaf_untyped_upper {c : Scheme} {p : Word} (h : c.isLeaf (setField p 61 (0 : BitVec 2)) = true)
    (h8 : c.pteBytes = 8) : field p 54 7 = 0 ∧ pteN p = false := by
  obtain ⟨zero, n, -⟩ := Scheme.isLeaf_upper h h8
  rw [field_setField_other _ _ _ _ _ (by decide)] at zero
  exact ⟨zero, (bit_untyped (.inr rfl)).symm.trans n⟩

/-- Such a leaf is valid where its type is 0, or PBMT is enabled and the type is not 3. -/
theorem Walk.validLeaf_of_typed {w : Walk} {p : Word} (h : w.scheme.isLeaf (setField p 61 (0 : BitVec 2)) = true)
    (typed : ptePbmt p = 0 ∨ (w.pbmte = true ∧ ptePbmt p ≠ 3)) (level : Nat) : w.ValidLeaf level p := by
  obtain ⟨v, leaf, unreserved⟩ := w.valid_of_isLeaf (level := level) h
  have r : pteR (setField p 61 (0 : BitVec 2)) = pteR p := bit_untyped (.inl (by decide))
  have write : pteW (setField p 61 (0 : BitVec 2)) = pteW p := bit_untyped (.inl (by decide))
  have x : pteX (setField p 61 (0 : BitVec 2)) = pteX p := bit_untyped (.inl (by decide))
  have notWOnly : (!pteR p && pteW p) = false := by
    rw [← r, ← write]
    exact (Bool.or_eq_false_iff.mp (Bool.or_eq_false_iff.mp unreserved).1).1
  rw [pteLeaf, r, x, ← pteLeaf] at leaf
  refine ⟨(bit_untyped (.inl (by decide))).symm.trans v, leaf, ?_⟩
  by_cases h8 : w.scheme.pteBytes = 8
  · obtain ⟨zero, n⟩ := Scheme.isLeaf_untyped_upper h h8
    rw [← Bool.not_eq_true, Walk.reserved_iff h8]
    rintro (⟨r, only⟩ | bits | ⟨set, -⟩ | ⟨set, bad⟩ | ⟨inner, -⟩)
    · simp [r, only] at notWOnly
    · exact bits zero
    · exact absurd (set.symm.trans n) (by decide)
    · exact bad ((typed.resolve_left set).imp_right fun not3 => ⟨leaf, not3⟩)
    · exact absurd (leaf.symm.trans inner) (by decide)
  · simp [Walk.reserved, notWOnly, leaf, h8]

/-- The page it maps has its memory type; a PTE of 4 bytes has none. -/
theorem Walk.target_typed {w : Walk} {p : Word} (h : w.scheme.isLeaf (setField p 61 (0 : BitVec 2)) = true)
    (short : w.scheme.pteBytes ≠ 8 → ptePbmt p = 0) (level va : Nat) :
    w.target level p va
      = ⟨ptePpn w.scheme p * 4096 + va % 2 ^ (12 + w.scheme.vpnBits * level), (ptePbmt p).toNat⟩ := by
  by_cases h8 : w.scheme.pteBytes = 8
  · exact Walk.target_page h8 (Scheme.isLeaf_untyped_upper h h8).2 level va
  · simp [Walk.target, h8, short h8]

/-! ### What a walk concludes at a leaf (R206 steps 5 to 8) -/

section
variable {w : Walk} {level : Nat} {p : Word} (h : w.ValidLeaf level p) (resolve : Resolver) (va a : Nat) (s : State)
include h

theorem Walk.ValidLeaf.conclude_bad (bad : ¬ (w.Permits p ∧ w.AlignedLeaf level p)) :
    w.conclude resolve va level a p s = .error .page := by
  obtain ⟨v, leaf, unreserved⟩ := h
  rw [← Walk.allowed_iff, Walk.AlignedLeaf] at bad
  have found : w.inspect level p = .fault := by
    by_cases allowed : w.allowed p = true
    · have misaligned : ptePpn w.scheme p % 2 ^ (w.scheme.vpnBits * level) ≠ 0 := fun aligned => bad ⟨allowed, aligned⟩
      simp [Walk.inspect, v, leaf, unreserved, allowed, misaligned]
    · simp [Walk.inspect, v, leaf, unreserved, allowed]
  rw [Walk.conclude, found]

/-- Where A or D is to be set first, hardware does so or the walk faults (R206 step 7). -/
theorem Walk.ValidLeaf.conclude_unrecorded (permits : w.Permits p) (aligned : w.AlignedLeaf level p)
    (unrecorded : ¬ w.Recorded p) :
    w.conclude resolve va level a p s = if w.hwAd then w.finishLeaf resolve s a level va p else .error .page := by
  obtain ⟨v, leaf, unreserved⟩ := h
  rw [← Walk.allowed_iff] at permits
  rw [Walk.AlignedLeaf] at aligned
  rw [← Walk.not_recorded_iff] at unrecorded
  have found : w.inspect level p = if w.hwAd then .update else .fault := by
    simp [Walk.inspect, v, leaf, unreserved, permits, aligned, unrecorded]
  rw [Walk.conclude, found]
  cases w.hwAd <;> rfl

end

/-- The PTE is written back where the resolver finds it, if PMP and PMA let it. -/
theorem Walk.finishLeaf_of_resolve {w : Walk} {resolve : Resolver} {s u : State} {a : Nat} {y : Target}
    (h : resolve s a .store = .ok (y, u)) (level va : Nat) (p : Word) :
    w.finishLeaf resolve s a level va p = (u.checkPhys (.tableWrite w.stage) .s y.addr w.scheme.pteBytes).map fun _ =>
      (w.target level p va, u.physWrite y.addr (bytesOfValue w.big w.scheme.pteBytes (marked w.need p))) := by
  simp only [Walk.finishLeaf, Walk.writePte, h, Walk.updated_eq_marked]
  cases u.checkPhys (.tableWrite w.stage) .s y.addr w.scheme.pteBytes <;> rfl

theorem Walk.finishLeaf_of_resolve_error {w : Walk} {resolve : Resolver} {s : State} {a : Nat} {e : Abort}
    (h : resolve s a .store = .error e) (level va : Nat) (p : Word) : w.finishLeaf resolve s a level va p = .error e := by
  simp only [Walk.finishLeaf, Walk.writePte, h]

/-! ### Reads of tables (R206 step 2) -/

/-- A walk whose root table cannot be reached ends there. -/
theorem Walk.run_of_resolve_error {w : Walk} {resolve : Resolver} {s : State} {va : Nat} {e : Abort} (levels : 0 < w.scheme.levels)
    (empty : s.cache = [])
    (h : resolve s (w.root * 4096 + vpnAt w.scheme (w.scheme.levels - 1) va * w.scheme.pteBytes) .load = .error e) :
    w.run resolve va s = .error e := by
  obtain ⟨n, hn⟩ := Nat.exists_eq_add_one_of_ne_zero (Nat.ne_of_gt levels)
  rw [hn, Nat.add_sub_cancel] at h
  rw [Walk.run, hn, Walk.go, State.cachedPte_of_empty empty]
  simp only [Walk.readPte, h]

/-- The PTE found is of the size that PTEs of the scheme have. -/
theorem Walk.lt_of_findsFrom {w : Walk} {place : State → Nat → Nat → State → Prop} {va level spot : Nat} {p : Word} {t : State}
    (n : Nat) {table : Nat} {s : State} (h : w.findsFrom place va level spot p t n table s) :
    p.toNat < 256 ^ w.scheme.pteBytes := by
  induction n generalizing table s with
  | zero => exact h.elim
  | succ n ih =>
    rw [Walk.findsFrom] at h
    split at h
    · obtain ⟨-, pa, -, -, value⟩ := h
      rw [← value]
      simpa using orderedValue_lt w.big (t.physRead pa w.scheme.pteBytes)
    · obtain ⟨q, u, -, -, rest⟩ := h
      exact ih rest

theorem ptePbmt_of_lt {p : Word} (h : p.toNat < 256 ^ 4) : ptePbmt p = 0 := by
  refine BitVec.eq_of_toNat_eq ?_
  simp only [ptePbmt, field, BitVec.extractLsb'_toNat, Nat.shiftRight_eq_div_pow]
  rw [Nat.div_eq_of_lt (by omega)]
  rfl

theorem schemeOf_shape {xl : Xlen} {atp : Word} {c : Scheme} (h : schemeOf xl atp = some c) :
    0 < c.levels ∧ (c.pteBytes = 4 ∨ c.pteBytes = 8) := by
  unfold schemeOf at h
  split at h <;> split at h <;> cases h <;> decide

/-! ### Translation by `vsatp` (R162, R215) -/

/-- Nothing is left of a value that is zero at the width under a mask of that width. -/
theorem and_eq_zero_of_zx {xl : Xlen} {w mask : Word} (h : zx xl w = 0) (within : zx xl mask = mask) : w &&& mask = 0 := by
  refine eq_of_bits fun k => ?_
  have clear : (decide (k < xl.bits) && bit w k) = false := by
    rw [← bit_zx, h]
    exact BitVec.getLsbD_zero
  rw [← within, bit_and, bit_zx, Bool.and_left_comm, ← Bool.and_assoc, clear, Bool.false_and]
  exact BitVec.getLsbD_zero.symm

/-- A register that is zero is Bare, the identity (R102, R162, R168). -/
theorem bare_of_zero {xl : Xlen} {atp : Word} (h : zx xl atp = 0) (va : Word) :
    schemeOf xl atp = none ∧ bareTarget xl atp va = some va.toNat := by
  refine ⟨?_, if_pos (and_eq_zero_of_zx h (by cases xl <;> decide))⟩
  cases xl with
  | rv64 =>
    obtain rfl : atp = 0 := h
    decide
  | rv32 =>
    have mode : bit atp 31 = false := by
      have clear := bit_zx .rv32 atp 31
      rw [h] at clear
      exact clear.symm
    simp [schemeOf, mode]

theorem State.walkVS_madeWith (s : State) (c : Scheme) (need : Need) (p : Priv) :
    (s.walkVS c need p).MadeWith (rootOf s.vsxlen s.vc.vsatp) (p == .u) (bit s.vc.vsstatus 18)
      (bit s.vc.vsstatus 19 || bit s.mc.mstatus 19) (s.UpdatesIf (bit s.henvcfg 61)) (bit s.hc.hstatus 5)
      (s.cfg.svpbmt && bit s.henvcfg 62) :=
  ⟨rootOf_eq .., rfl, rfl, rfl, s.adUpdates_eq _, rfl, rfl⟩

theorem guestTables_places : Resolver.Places guestTables throughGuest := fun _ _ _ _ h => h

theorem State.translateVS_walkVS {s : State} {c : Scheme} (hc : schemeOf s.vsxlen s.vc.vsatp = some c) (va : Word) (need : Need)
    (p : Priv) :
    s.translateVS va need p = if canonical c va then (s.walkVS c need p).run guestTables va.toNat s else .error .page := by
  simp only [State.translateVS, hc]

/-- VS-stage with nothing cached ends with what the walk concludes at the PTE found. -/
theorem State.translateVS_of_finds {s t : State} {c : Scheme} {va : Word} {need : Need} {p : Priv} {level spot : Nat} {pte : Word}
    (hc : schemeOf s.vsxlen s.vc.vsatp = some c) (empty : s.cache = []) (hva : canonical c va = true)
    (finds : (s.walkVS c need p).Finds throughGuest s va.toNat level spot pte t) :
    s.translateVS va need p = (s.walkVS c need p).conclude guestTables va.toNat level spot pte t := by
  rw [State.translateVS_walkVS hc, if_pos hva]
  exact Walk.run_of_finds rfl guestTables_gentle guestTables_places empty finds

/-! ### Both stages (R215, R222) -/

section
variable {s u : State} {va : Word} {need : Need} {p : Priv} (hp : p ≠ .m)
include hp

theorem State.translate_of_translateVS_error {e : Abort} (h : s.translateVS va need p = .error e) :
    s.translate va need p true = .error e := by
  simp [State.translate, hp, State.translateTwoStage, h]

/-- The page that VS-stage finds is translated by G-stage. -/
theorem State.translate_of_translateVS {g : Target} (h : s.translateVS va need p = .ok (g, u)) :
    s.translate va need p true
      = (u.translateG g.addr need none).map fun x => (⟨x.1.addr, combinePbmt g.pbmt x.1.pbmt⟩, x.2) := by
  simp only [State.translate, hp, State.translateTwoStage, h, if_true, if_false]
  cases u.translateG g.addr need none <;> rfl

end

/-- Settles O30: VS-stage ends with what its walk concludes at the PTE found (`State.translateVS_of_finds`); where it maps a page,
G-stage decides (`State.translate_of_translateVS`). -/
theorem twoStageTranslation : Obligations.TwoStageTranslation := by
  refine ⟨fun s va need p hp zero => ?_, fun s t c va need p level spot pte hc empty hp => ?_⟩
  · obtain ⟨bare, identity⟩ := bare_of_zero zero va
    have vs : s.translateVS va need p = .ok (⟨va.toNat, 0⟩, s) := by simp only [State.translateVS, bare, identity]
    rw [State.translate_of_translateVS hp vs]
    cases s.translateG va.toNat need none <;> rfl
  intro w type gpa ends leaf maps
  obtain ⟨levels, bytes⟩ := schemeOf_shape hc
  refine ⟨s.walkVS_madeWith c need p, fun hva => ?_, fun e hva unreached => ?_, fun hva finds => ?_⟩
  · exact State.translate_of_translateVS_error hp ((State.translateVS_walkVS hc va need p).trans (if_neg (by simp [hva])))
  · have vs := State.translateVS_walkVS hc va need p
    rw [if_pos hva, Walk.run_of_resolve_error levels empty unreached] at vs
    exact State.translate_of_translateVS_error hp vs
  have vs := State.translateVS_of_finds hc empty hva finds
  have ends_of {e : Abort} (h : w.conclude guestTables va.toNat level spot pte t = .error e) : ends e :=
    State.translate_of_translateVS_error hp (vs.trans h)
  have maps_of {u : State} (h : w.conclude guestTables va.toNat level spot pte t = .ok (⟨gpa, type⟩, u)) : maps u := by
    have both := State.translate_of_translateVS hp (vs.trans h)
    exact ⟨fun e second => both.trans (congrArg _ second), fun x u' second => both.trans (congrArg _ second)⟩
  have valid (h : leaf) : w.ValidLeaf level pte := by
    obtain ⟨isLeaf, typed⟩ := h
    refine Walk.validLeaf_of_typed isLeaf (typed.imp (BitVec.toNat_inj (y := (0 : BitVec 2))).mp ?_) level
    rintro ⟨svpbmt, on, not3⟩
    exact ⟨Bool.and_eq_true_iff.mpr ⟨svpbmt, on⟩, fun three => not3 (congrArg BitVec.toNat three)⟩
  have target (h : leaf) : w.target level pte va.toNat = ⟨gpa, type⟩ := by
    refine Walk.target_typed h.1 (fun h8 => ptePbmt_of_lt ?_) level va.toNat
    rw [← bytes.resolve_right h8]
    exact Walk.lt_of_findsFrom _ finds
  refine ⟨fun invalid => ends_of (Walk.conclude_invalid _ _ _ _ _ invalid _), ?lastPointer,
    fun isLeaf bad => ends_of ((valid isLeaf).conclude_bad _ _ _ _ bad),
    fun isLeaf permits aligned => ⟨fun recorded => ?recorded, ?unrecorded⟩⟩
  case lastPointer =>
    rintro pointer rfl
    exact ends_of (Walk.conclude_lastPointer _ _ _ _ pointer _)
  case recorded =>
    obtain ⟨v, rOrX, unreserved⟩ := valid isLeaf
    have concludes := Walk.conclude_unreserved v rOrX unreserved permits aligned recorded guestTables va.toNat spot t
    rw [target isLeaf] at concludes
    exact maps_of concludes
  case unrecorded =>
    have concludes := (valid isLeaf).conclude_unrecorded guestTables va.toNat spot t permits aligned
    refine ⟨fun unrecorded off => ends_of ?_, fun unrecorded on => ?_⟩
    · rw [concludes unrecorded, off]
      rfl
    have updates := (concludes unrecorded).trans (if_pos on)
    refine ⟨fun e denied => ends_of (updates.trans (Walk.finishLeaf_of_resolve_error denied _ _ _)), fun y u found => ?_⟩
    rw [Walk.finishLeaf_of_resolve found, target isLeaf] at updates
    exact ⟨fun e check => ends_of (updates.trans (congrArg _ check)), fun rs check => maps_of (updates.trans (congrArg _ check))⟩

end Sys2Proof.Machine
end

section
/-! PROOFS. The decoder and the encoder (O1, O2, O3): a format as equations between the fields of a word, so an encoding as the word
whose fields the decoder reads back. -/

namespace Sys2Proof

open WordField

/-! ### Words as numbers -/

theorem toNat_append_eq_add {m n : Nat} (x : BitVec m) (y : BitVec n) : (x ++ y).toNat = x.toNat * 2 ^ n + y.toNat := by
  rw [BitVec.toNat_append, ← Nat.shiftLeft_add_eq_or_of_lt y.isLt, Nat.shiftLeft_eq]

theorem toNat_extractLsb' {m : Nat} (w : BitVec m) (k n : Nat) : (w.extractLsb' k n).toNat = w.toNat / 2 ^ k % 2 ^ n := by
  rw [BitVec.extractLsb'_toNat, Nat.shiftRight_eq_div_pow]

/-- The fields of a word as digits of a number. -/
theorem toNat_fields (w : BitVec 32) :
    (opcode w).toNat = w.toNat % 2 ^ 7 ∧ (rd w).toNat = w.toNat / 2 ^ 7 % 2 ^ 5 ∧ (funct3 w).toNat = w.toNat / 2 ^ 12 % 2 ^ 3
      ∧ (rs1 w).toNat = w.toNat / 2 ^ 15 % 2 ^ 5 ∧ (rs2 w).toNat = w.toNat / 2 ^ 20 % 2 ^ 5
      ∧ (funct7 w).toNat = w.toNat / 2 ^ 25 % 2 ^ 7 ∧ (funct6 w).toNat = w.toNat / 2 ^ 26 % 2 ^ 6
      ∧ (shamt w).toNat = w.toNat / 2 ^ 20 % 2 ^ 6 ∧ (immI w).toNat = w.toNat / 2 ^ 20 % 2 ^ 12
      ∧ (immU w).toNat = w.toNat / 2 ^ 12 % 2 ^ 20 := by
  simp only [opcode, rd, funct3, rs1, rs2, funct7, funct6, shamt, immI, immU, toNat_extractLsb', Nat.pow_zero, Nat.div_one,
    and_self]

theorem evenOffset_iff {n : Nat} {off : BitVec n} : evenOffset off = true ↔ off.extractLsb' 0 1 = 0#1 := by
  simp [evenOffset, ← BitVec.toNat_inj, BitVec.getLsbD, Nat.testBit_zero]

/-! ### Each format as equations between fields (R224, R278) -/

section
variable {w : BitVec 32} {f7 op : BitVec 7} {f6 sh : BitVec 6} {f3 : BitVec 3} {r1 r2 r : Reg}

theorem encR_eq_iff : encR f7 r2 r1 f3 r op = w ↔
    funct7 w = f7 ∧ rs2 w = r2 ∧ rs1 w = r1 ∧ funct3 w = f3 ∧ rd w = r ∧ opcode w = op := by
  simp only [encR, ← BitVec.toNat_inj, toNat_append_eq_add, toNat_fields, Nat.reducePow]
  omega

theorem encI_eq_iff {imm : BitVec 12} : encI imm r1 f3 r op = w ↔
    immI w = imm ∧ rs1 w = r1 ∧ funct3 w = f3 ∧ rd w = r ∧ opcode w = op := by
  simp only [encI, ← BitVec.toNat_inj, toNat_append_eq_add, toNat_fields, Nat.reducePow]
  omega

theorem encShift_eq_iff : encShift f6 sh r1 f3 r op = w ↔
    funct6 w = f6 ∧ shamt w = sh ∧ rs1 w = r1 ∧ funct3 w = f3 ∧ rd w = r ∧ opcode w = op := by
  simp only [encShift, ← BitVec.toNat_inj, toNat_append_eq_add, toNat_fields, Nat.reducePow]
  omega

theorem encU_eq_iff {imm : BitVec 20} : encU imm r op = w ↔ immU w = imm ∧ rd w = r ∧ opcode w = op := by
  simp only [encU, ← BitVec.toNat_inj, toNat_append_eq_add, toNat_fields, Nat.reducePow]
  omega

theorem encFence_eq_iff {fm pred succ : BitVec 4} : encFence fm pred succ r1 r = w ↔
    w.extractLsb' 28 4 = fm ∧ w.extractLsb' 24 4 = pred ∧ w.extractLsb' 20 4 = succ ∧ rs1 w = r1 ∧ funct3 w = 0b000#3
      ∧ rd w = r ∧ opcode w = 0b0001111#7 := by
  simp only [encFence, ← BitVec.toNat_inj, toNat_append_eq_add, toNat_fields, toNat_extractLsb', Nat.reducePow,
    BitVec.reduceToNat]
  omega

/-! An immediate in pieces: equal to a value where each of its pieces is. -/

theorem immS_eq_iff {imm : BitVec 12} : immS w = imm ↔ imm.extractLsb' 5 7 = funct7 w ∧ imm.extractLsb' 0 5 = rd w := by
  rw [show immS w = funct7 w ++ rd w from rfl]
  generalize funct7 w = hi
  generalize rd w = lo
  simp only [← BitVec.toNat_inj, toNat_append_eq_add, toNat_extractLsb', Nat.reducePow]
  omega

theorem immB_eq_iff {off : BitVec 13} : immB w = off ↔
    off.extractLsb' 12 1 = w.extractLsb' 31 1 ∧ off.extractLsb' 11 1 = w.extractLsb' 7 1
      ∧ off.extractLsb' 5 6 = w.extractLsb' 25 6 ∧ off.extractLsb' 1 4 = w.extractLsb' 8 4 ∧ off.extractLsb' 0 1 = 0#1 := by
  rw [immB]
  generalize w.extractLsb' 31 1 = b12
  generalize w.extractLsb' 7 1 = b11
  generalize w.extractLsb' 25 6 = b10_5
  generalize w.extractLsb' 8 4 = b4_1
  simp only [← BitVec.toNat_inj, toNat_append_eq_add, toNat_extractLsb', Nat.reducePow, BitVec.reduceToNat]
  omega

theorem immJ_eq_iff {off : BitVec 21} : immJ w = off ↔
    off.extractLsb' 20 1 = w.extractLsb' 31 1 ∧ off.extractLsb' 12 8 = w.extractLsb' 12 8
      ∧ off.extractLsb' 11 1 = w.extractLsb' 20 1 ∧ off.extractLsb' 1 10 = w.extractLsb' 21 10
      ∧ off.extractLsb' 0 1 = 0#1 := by
  rw [immJ]
  generalize w.extractLsb' 31 1 = b20
  generalize w.extractLsb' 12 8 = b19_12
  generalize w.extractLsb' 20 1 = b11
  generalize w.extractLsb' 21 10 = b10_1
  simp only [← BitVec.toNat_inj, toNat_append_eq_add, toNat_extractLsb', Nat.reducePow, BitVec.reduceToNat]
  omega

theorem encS_eq_iff {imm : BitVec 12} : encS imm r2 r1 f3 op = w ↔
    immS w = imm ∧ rs2 w = r2 ∧ rs1 w = r1 ∧ funct3 w = f3 ∧ opcode w = op := by
  rw [immS_eq_iff, encS]
  generalize imm.extractLsb' 5 7 = hi
  generalize imm.extractLsb' 0 5 = lo
  simp only [← BitVec.toNat_inj, toNat_append_eq_add, toNat_fields, Nat.reducePow]
  omega

theorem encB_eq_iff {off : BitVec 13} (even : evenOffset off = true) : encB off r2 r1 f3 = w ↔
    immB w = off ∧ rs2 w = r2 ∧ rs1 w = r1 ∧ funct3 w = f3 ∧ opcode w = 0b1100011#7 := by
  rw [immB_eq_iff, encB, evenOffset_iff.mp even]
  generalize off.extractLsb' 12 1 = b12
  generalize off.extractLsb' 11 1 = b11
  generalize off.extractLsb' 5 6 = b10_5
  generalize off.extractLsb' 1 4 = b4_1
  simp only [← BitVec.toNat_inj, toNat_append_eq_add, toNat_fields, toNat_extractLsb', Nat.reducePow, BitVec.reduceToNat,
    and_true]
  omega

theorem encJ_eq_iff {off : BitVec 21} (even : evenOffset off = true) : encJ off r = w ↔
    immJ w = off ∧ rd w = r ∧ opcode w = 0b1101111#7 := by
  rw [immJ_eq_iff, encJ, evenOffset_iff.mp even]
  generalize off.extractLsb' 20 1 = b20
  generalize off.extractLsb' 12 8 = b19_12
  generalize off.extractLsb' 11 1 = b11
  generalize off.extractLsb' 1 10 = b10_1
  simp only [← BitVec.toNat_inj, toNat_append_eq_add, toNat_fields, toNat_extractLsb', Nat.reducePow, BitVec.reduceToNat,
    and_true]
  omega

end

theorem evenOffset_immB (w : BitVec 32) : evenOffset (immB w) = true := by
  obtain ⟨-, -, -, -, even⟩ := immB_eq_iff (w := w).mp rfl
  exact evenOffset_iff.mpr even

theorem evenOffset_immJ (w : BitVec 32) : evenOffset (immJ w) = true := by
  obtain ⟨-, -, -, -, even⟩ := immJ_eq_iff (w := w).mp rfl
  exact evenOffset_iff.mpr even

/-! ### Decoding an encoded instruction -/

section
variable {w : BitVec 32} {i : Instr}

/-- Bits 31:25 of the PRIV words with every bit fixed (R226). -/
def fixedFunct7 : List (BitVec 7) := [0b0000000#7, 0b0001000#7, 0b0001100#7, 0b0011000#7, 0b0111000#7]

/-- A PRIV word with another funct7 is none of the words with every bit fixed. -/
theorem decodePriv_eq_decodeFence (h0 : rd w = 0#5) (h7 : funct7 w ∉ fixedFunct7) : decodePriv w = decodeFence w := by
  have other {c : BitVec 32} (hc : funct7 c ∈ fixedFunct7) : w ≠ c := fun e => h7 (e ▸ hc)
  simp (disch := decide) only [decodePriv, other, h0, if_true, if_false]

theorem decodeOpcode_of_encode (wf : i.wf = true) (h : encode i = w) : decodeOpcode w = some i := by
  cases i with
  | ecall | ebreak | mret | sret | mnret | wfi | sfenceWInval | sfenceInvalIr => exact h ▸ rfl
  | sfenceVma | sinvalVma | hfenceVvma | hfenceGvma | hinvalVvma | hinvalGvma =>
    simp only [encode, encR_eq_iff] at h
    simp [decodeOpcode, decodeSystem, decodePriv_eq_decodeFence, fixedFunct7, decodeFence, h]
  | hlvB | hlvBu | hlvH | hlvHu | hlvW | hlvWu | hlvD | hlvxHu | hlvxWu | hsvB | hsvH | hsvW | hsvD =>
    simp only [encode, encR_eq_iff] at h
    simp [decodeOpcode, decodeSystem, decodeHv, h]
  | add | sub | sll | slt | sltu | xor | srl | sra | or | and | slliw | srliw | sraiw | addw | subw | sllw | srlw | sraw =>
    simp only [encode, encR_eq_iff] at h
    simp [decodeOpcode, decodeOp, decodeOpImm32, decodeOp32, h]
  | csrrw | csrrs | csrrc | csrrwi | csrrsi | csrrci | jalr | lb | lh | lw | lbu | lhu | lwu | ld | addi | slti | sltiu | xori
  | ori | andi | addiw | fenceI =>
    simp only [encode, encI_eq_iff] at h
    simp [decodeOpcode, decodeSystem, decodeLoad, decodeOpImm, decodeOpImm32, decodeMiscMem, h]
  | slli | srli | srai =>
    simp only [encode, encShift_eq_iff] at h
    simp [decodeOpcode, decodeOpImm, h]
  | sb | sh | sw | sd =>
    simp only [encode, encS_eq_iff] at h
    simp [decodeOpcode, decodeStore, h]
  | beq | bne | blt | bge | bltu | bgeu =>
    simp only [encode, encB_eq_iff wf] at h
    simp [decodeOpcode, decodeBranch, h]
  | lui | auipc =>
    simp only [encode, encU_eq_iff] at h
    simp [decodeOpcode, h]
  | jal =>
    simp only [encode, encJ_eq_iff wf] at h
    simp [decodeOpcode, h]
  | fence =>
    simp only [encode, encFence_eq_iff] at h
    simp [decodeOpcode, decodeMiscMem, h]

/-! ### Encoding a decoded instruction -/

/-- What a part of the decoder answers for the word w, if anything, is well-formed and encodes to w. -/
def ReadsBack (w : BitVec 32) (answer : Option Instr) : Prop := ∀ i, answer = some i → encode i = w ∧ i.wf = true

theorem ReadsBack.none : ReadsBack w none := nofun

theorem ReadsBack.some (h : encode i = w) (wf : i.wf = true) : ReadsBack w (some i) := fun _ e => Option.some.inj e ▸ ⟨h, wf⟩

theorem ReadsBack.ite {c : Prop} [Decidable c] {a b : Option Instr} (pos : c → ReadsBack w a) (neg : ¬c → ReadsBack w b) :
    ReadsBack w (if c then a else b) := by
  split
  case isTrue h => exact pos h
  case isFalse h => exact neg h

/-- The last row of a decoder that tells all eight values of funct3 apart. -/
theorem funct3_eq_seven {f : BitVec 3} (h0 : f ≠ 0) (h1 : f ≠ 1) (h2 : f ≠ 2) (h3 : f ≠ 3) (h4 : f ≠ 4) (h5 : f ≠ 5)
    (h6 : f ≠ 6) : f = 7 := by
  bv_omega

theorem readsBack_decodeLoad (op : opcode w = 0b0000011#7) : ReadsBack w (decodeLoad w) := by
  unfold decodeLoad
  repeat refine .ite (fun f3 => .some (encI_eq_iff.mpr ⟨rfl, rfl, f3, rfl, op⟩) rfl) fun _ => ?_
  exact .none

theorem readsBack_decodeStore (op : opcode w = 0b0100011#7) : ReadsBack w (decodeStore w) := by
  unfold decodeStore
  repeat refine .ite (fun f3 => .some (encS_eq_iff.mpr ⟨rfl, rfl, rfl, f3, op⟩) rfl) fun _ => ?_
  exact .none

theorem readsBack_decodeBranch (op : opcode w = 0b1100011#7) : ReadsBack w (decodeBranch w) := by
  have even := evenOffset_immB w
  unfold decodeBranch
  repeat refine .ite (fun f3 => .some ((encB_eq_iff even).mpr ⟨rfl, rfl, rfl, f3, op⟩) even) fun _ => ?_
  exact .none

theorem readsBack_decodeOpImm (op : opcode w = 0b0010011#7) : ReadsBack w (decodeOpImm w) := by
  unfold decodeOpImm
  iterate 6 refine .ite (fun f3 => .some (encI_eq_iff.mpr ⟨rfl, rfl, f3, rfl, op⟩) rfl) fun _ => ?_
  iterate 3 refine .ite (fun ⟨f3, f6⟩ => .some (encShift_eq_iff.mpr ⟨f6, rfl, rfl, f3, rfl, op⟩) rfl) fun _ => ?_
  exact .none

theorem readsBack_decodeOp (op : opcode w = 0b0110011#7) : ReadsBack w (decodeOp w) := by
  have row {f7 f3} (h7 : funct7 w = f7) (h3 : funct3 w = f3) : encR f7 (rs2 w) (rs1 w) f3 (rd w) 0b0110011#7 = w :=
    encR_eq_iff.mpr ⟨h7, rfl, rfl, h3, rfl, op⟩
  refine .ite (fun f7 => ?_) fun _ => .ite (fun f7 => ?_) fun _ => .none
  · refine .ite (fun add => .some (row f7 add) rfl) fun n0 => .ite (fun sll => .some (row f7 sll) rfl) fun n1 => ?_
    refine .ite (fun slt => .some (row f7 slt) rfl) fun n2 => .ite (fun sltu => .some (row f7 sltu) rfl) fun n3 => ?_
    refine .ite (fun xor => .some (row f7 xor) rfl) fun n4 => .ite (fun srl => .some (row f7 srl) rfl) fun n5 => ?_
    exact .ite (fun or => .some (row f7 or) rfl) fun n6 => .some (row f7 (funct3_eq_seven n0 n1 n2 n3 n4 n5 n6)) rfl
  · exact .ite (fun sub => .some (row f7 sub) rfl) fun _ => .ite (fun sra => .some (row f7 sra) rfl) fun _ => .none

theorem readsBack_decodeOpImm32 (op : opcode w = 0b0011011#7) : ReadsBack w (decodeOpImm32 w) := by
  unfold decodeOpImm32
  refine .ite (fun f3 => .some (encI_eq_iff.mpr ⟨rfl, rfl, f3, rfl, op⟩) rfl) fun _ => ?_
  iterate 3 refine .ite (fun ⟨f3, f7⟩ => .some (encR_eq_iff.mpr ⟨f7, rfl, rfl, f3, rfl, op⟩) rfl) fun _ => ?_
  exact .none

theorem readsBack_decodeOp32 (op : opcode w = 0b0111011#7) : ReadsBack w (decodeOp32 w) := by
  refine .ite (fun f7 => ?_) fun _ => .ite (fun f7 => ?_) fun _ => .none
  all_goals
    repeat refine .ite (fun f3 => .some (encR_eq_iff.mpr ⟨f7, rfl, rfl, f3, rfl, op⟩) rfl) fun _ => ?_
    exact .none

theorem readsBack_decodeMiscMem (op : opcode w = 0b0001111#7) : ReadsBack w (decodeMiscMem w) :=
  .ite (fun fence => .some (encFence_eq_iff.mpr ⟨rfl, rfl, rfl, rfl, fence, rfl, op⟩) rfl) fun _ =>
    .ite (fun fenceI => .some (encI_eq_iff.mpr ⟨rfl, rfl, fenceI, rfl, op⟩) rfl) fun _ => .none

theorem readsBack_decodeFence (op : opcode w = 0b1110011#7) (f3 : funct3 w = 0b000#3) (noRd : rd w = 0#5) :
    ReadsBack w (decodeFence w) := by
  unfold decodeFence
  repeat refine .ite (fun f7 => .some (encR_eq_iff.mpr ⟨f7, rfl, rfl, f3, noRd, op⟩) rfl) fun _ => ?_
  exact .none

theorem readsBack_decodePriv (op : opcode w = 0b1110011#7) (f3 : funct3 w = 0b000#3) : ReadsBack w (decodePriv w) := by
  unfold decodePriv
  iterate 8 refine .ite (fun fixed => .some fixed.symm rfl) fun _ => ?_
  exact .ite (readsBack_decodeFence op f3) fun _ => .none

theorem readsBack_decodeHv (op : opcode w = 0b1110011#7) (f3 : funct3 w = 0b100#3) : ReadsBack w (decodeHv w) := by
  unfold decodeHv
  iterate 4
    refine .ite (fun f7 => ?_) fun _ => ?_
    · repeat refine .ite (fun r2 => .some (encR_eq_iff.mpr ⟨f7, r2, rfl, f3, rfl, op⟩) rfl) fun _ => ?_
      exact .none
  refine .ite (fun noRd => ?_) fun _ => .none
  repeat refine .ite (fun f7 => .some (encR_eq_iff.mpr ⟨f7, rfl, rfl, f3, noRd, op⟩) rfl) fun _ => ?_
  exact .none

theorem readsBack_decodeSystem (op : opcode w = 0b1110011#7) : ReadsBack w (decodeSystem w) := by
  have csr {f3} (h3 : funct3 w = f3) : encI (immI w) (rs1 w) f3 (rd w) 0b1110011#7 = w :=
    encI_eq_iff.mpr ⟨rfl, rfl, h3, rfl, op⟩
  refine .ite (readsBack_decodePriv op) fun n0 => .ite (fun csrrw => .some (csr csrrw) rfl) fun n1 => ?_
  refine .ite (fun csrrs => .some (csr csrrs) rfl) fun n2 => .ite (fun csrrc => .some (csr csrrc) rfl) fun n3 => ?_
  refine .ite (readsBack_decodeHv op) fun n4 => .ite (fun csrrwi => .some (csr csrrwi) rfl) fun n5 => ?_
  exact .ite (fun csrrsi => .some (csr csrrsi) rfl) fun n6 => .some (csr (funct3_eq_seven n0 n1 n2 n3 n4 n5 n6)) rfl

theorem readsBack_decodeOpcode (w : BitVec 32) : ReadsBack w (decodeOpcode w) := by
  refine .ite readsBack_decodeLoad fun _ => .ite readsBack_decodeMiscMem fun _ => .ite readsBack_decodeOpImm fun _ => ?_
  refine .ite (fun auipc => .some (encU_eq_iff.mpr ⟨rfl, rfl, auipc⟩) rfl) fun _ => ?_
  refine .ite readsBack_decodeOpImm32 fun _ => .ite readsBack_decodeStore fun _ => .ite readsBack_decodeOp fun _ => ?_
  refine .ite (fun lui => .some (encU_eq_iff.mpr ⟨rfl, rfl, lui⟩) rfl) fun _ => ?_
  refine .ite readsBack_decodeOp32 fun _ => .ite readsBack_decodeBranch fun _ => ?_
  refine .ite (fun jalr => .ite (fun f3 => .some (encI_eq_iff.mpr ⟨rfl, rfl, f3, rfl, jalr⟩) rfl) fun _ => .none) fun _ => ?_
  refine .ite (fun jal => .some ((encJ_eq_iff (evenOffset_immJ w)).mpr ⟨rfl, rfl, jal⟩) (evenOffset_immJ w)) fun _ => ?_
  exact .ite readsBack_decodeSystem fun _ => .none

/-! ### Words and bytes -/

/-- Every major opcode of the decoder ends in 11 (R223). -/
theorem decodeOpcode_of_lowBits (h : w.extractLsb' 0 2 ≠ 0b11#2) : decodeOpcode w = none := by
  have low : w.extractLsb' 0 2 = (opcode w).extractLsb' 0 2 := by
    simp only [← BitVec.toNat_inj, toNat_extractLsb', toNat_fields]
    omega
  have other {c : BitVec 7} (hc : c.extractLsb' 0 2 = 0b11#2) : opcode w ≠ c := fun e => h (low.trans (e ▸ hc))
  simp (disch := decide) only [decodeOpcode, other, if_false]

theorem decodeWord_eq_ok_iff : decodeWord w = .ok i ↔ encode i = w ∧ i.wf = true := by
  have opcodes : decodeOpcode w = some i ↔ encode i = w ∧ i.wf = true :=
    ⟨readsBack_decodeOpcode w i, fun ⟨h, wf⟩ => decodeOpcode_of_encode wf h⟩
  rw [← opcodes, decodeWord]
  split
  case isTrue => cases decodeOpcode w <;> simp
  case isFalse low => simp [decodeOpcode_of_lowBits low]

theorem wordOfBytes_bytesOfWord (w : BitVec 32) :
    wordOfBytes (w.extractLsb' 0 8) (w.extractLsb' 8 8) (w.extractLsb' 16 8) (w.extractLsb' 24 8) = w := by
  simp only [wordOfBytes, ← BitVec.toNat_inj, toNat_append_eq_add, toNat_extractLsb']
  omega

theorem decode_bytesOfWord_append (h : decodeWord w = .ok i) (rest : List Byte) :
    decode (bytesOfWord w ++ rest) = .ok (i, rest) := by
  simp only [bytesOfWord, List.cons_append, List.nil_append, decode, wordOfBytes_bytesOfWord, h]

end

/-- Settles O1: the word of a well-formed instruction decodes to it (`decodeWord_eq_ok_iff`), and decoding bytes is decoding the
word of the first four (`decode_bytesOfWord_append`). -/
theorem decodeInvertsEncode : Obligations.DecodeInvertsEncode :=
  fun _ rest wf => decode_bytesOfWord_append (decodeWord_eq_ok_iff.mpr ⟨rfl, wf⟩) rest

/-- Settles O2: what the decoder answers for a word encodes to it, opcode by opcode (`readsBack_decodeOpcode`). -/
theorem encodeInvertsDecode : Obligations.EncodeInvertsDecode :=
  fun _ _ => decodeWord_eq_ok_iff.mp

/-- Settles O3: each word is the encoding of the instruction beside it. -/
theorem writtenWordsDecode : Obligations.WrittenWordsDecode := by
  simp only [Obligations.WrittenWordsDecode, decodeWord_eq_ok_iff]
  decide

end Sys2Proof
end

section
/-! PROOFS. Calls, breakpoints and returns (O49, O50, O51): which case of an instruction a mode is in, and the status registers that
a return leaves, bit by bit. -/

namespace Sys2Proof.Machine

/-! ### Calls and breakpoints (R232, R233) -/

/-- Settles O49: the entry is given the state before the instruction. -/
theorem environmentCallsAndBreakpoints : Obligations.EnvironmentCallsAndBreakpoints := by
  intro s
  have ecall : exec .ecall s = execEcall s := rfl
  have ebreak : exec .ebreak s = execEbreak s := rfl
  refine ⟨fun hp => ?_, fun hp hv => ?_, fun hp hv => ?_, fun hp => ?_, ebreak, by decide⟩
  · simp only [ecall, execEcall, hp, raise, Trap.plain]
  · simp only [ecall, execEcall, hp, hv, raise, Trap.plain]
  · simp only [ecall, execEcall, hp, hv, raise, Trap.plain]
  · simp only [ecall, execEcall, hp, raise, Trap.plain]

/-! ### The bits a return leaves, and MPRV (R55) -/

theorem SameBitsBut.mono {w v : Word} {l l' : List Nat} (h : SameBitsBut w v l) (hl : l ⊆ l') : SameBitsBut w v l' :=
  fun k hk => h k fun hk' => hk (hl hk')

theorem bit_clearMprv_same (p : Priv) (w : Word) : bit (clearMprv p w) 17 = if p = .m then bit w 17 else false := by
  unfold clearMprv
  split
  · rfl
  · exact bit_setBit_same w false (by decide)

theorem bit_clearMprv_other (p : Priv) (w : Word) {j : Nat} (h : 17 ≠ j) : bit (clearMprv p w) j = bit w j := by
  unfold clearMprv
  split
  · rfl
  · exact bit_setBit_other w false h

theorem SameBitsBut.clearMprv {w v : Word} {l : List Nat} (h : SameBitsBut w v l) (p : Priv) (hi : 17 ∈ l) :
    SameBitsBut w (Machine.clearMprv p v) l := by
  intro k hk
  have other : 17 ≠ k := fun e => hk (e ▸ hi)
  rw [bit_clearMprv_other p v other, h k hk]

/-! ### MRET (R235) -/

theorem exec_mret {s : State} (hp : s.priv = .m) : exec .mret s = .next (s.returnM.retire s) := if_pos hp

theorem isIllegal_mret {s : State} (hp : s.priv ≠ .m) : s.IsIllegal .mret := if_neg hp

/-- What MRET makes of `mstatus` beside MPRV and MPV. -/
def State.mretEnables (s : State) : Word := setField (setBit (setBit s.mc.mstatus 3 s.mstatusMPIE) 7 true) 11 s.leastMode.code

/-- What MRET makes of `mstatus` beside MPRV: only the hypervisor extension has an MPV to clear. -/
def State.mretStatus (s : State) : Word := if s.hasH then setBit s.mretEnables 39 false else s.mretEnables

theorem State.returnM_mstatus (s : State) : s.returnM.mc.mstatus = clearMprv (Priv.ofCode s.mstatusMPP) s.mretStatus := rfl

theorem State.bit_mretStatus (s : State) {j : Nat} (h : 39 ≠ j) : bit s.mretStatus j = bit s.mretEnables j := by
  unfold State.mretStatus
  split
  · exact bit_setBit_other _ _ h
  · rfl

theorem State.sameBitsBut_mretStatus (s : State) : SameBitsBut s.mc.mstatus s.mretStatus [3, 7, 11, 12, 39] := by
  have enables : SameBitsBut s.mc.mstatus s.mretEnables [3, 7, 11, 12, 39] :=
    (((SameBitsBut.refl _ _).setBit _ (by decide)).setBit _ (by decide)).setMode _ (by decide) (by decide)
  unfold State.mretStatus
  split
  · exact enables.setBit _ (by decide)
  · exact enables

/-! The fields that MRET leaves. -/

theorem State.returnM_mie (s : State) : s.returnM.mstatusMIE = s.mstatusMPIE := by
  rw [State.mstatusMIE, State.returnM_mstatus, bit_clearMprv_other _ _ (by decide), State.bit_mretStatus _ (by decide),
    State.mretEnables, bit_setMode_other _ _ (by decide) (by decide), bit_setBit_other _ _ (by decide),
    bit_setBit_same _ _ (by decide)]

theorem State.returnM_mpie (s : State) : s.returnM.mstatusMPIE = true := by
  rw [State.mstatusMPIE, State.returnM_mstatus, bit_clearMprv_other _ _ (by decide), State.bit_mretStatus _ (by decide),
    State.mretEnables, bit_setMode_other _ _ (by decide) (by decide), bit_setBit_same _ _ (by decide)]

theorem State.returnM_mpp (s : State) : s.returnM.mstatusMPP = if s.hasU then Priv.u.code else Priv.m.code := by
  have status : field s.mretStatus 11 2 = s.leastMode.code := by
    unfold State.mretStatus
    split
    · rw [field_setBit_other _ _ _ _ _ (by omega), State.mretEnables, field_setField_same _ _ _ (by omega)]
    · exact field_setField_same _ _ _ (by omega)
  rw [State.mstatusMPP, State.returnM_mstatus, clearMprv_mpp, status]
  exact apply_ite Priv.code ..

theorem State.returnM_mpv (s : State) : s.returnM.mstatusMPV = if s.hasH then false else s.mstatusMPV := by
  rw [State.mstatusMPV, State.returnM_mstatus, bit_clearMprv_other _ _ (by decide), State.mretStatus]
  split
  · exact bit_setBit_same _ _ (by decide)
  · rw [State.mretEnables, bit_setMode_other _ _ (by decide) (by decide), bit_setBit_other _ _ (by decide),
      bit_setBit_other _ _ (by decide), State.mstatusMPV]

theorem State.returnM_mprv (s : State) :
    s.returnM.mstatusMPRV = if Priv.ofCode s.mstatusMPP = .m then s.mstatusMPRV else false := by
  rw [State.mstatusMPRV, State.returnM_mstatus, bit_clearMprv_same, s.sameBitsBut_mretStatus 17 (by decide), State.mstatusMPRV]

/-! ### MNRET (R237) -/

theorem exec_mnret {s : State} (hr : s.cfg.smrnmi = true) (hp : s.priv = .m) : exec .mnret s = .next (s.returnMN.retire s) :=
  if_pos ⟨hr, hp⟩

theorem isIllegal_mnret {s : State} (h : ¬ (s.cfg.smrnmi = true ∧ s.priv = .m)) : s.IsIllegal .mnret := if_neg h

theorem State.returnMN_mprv (s : State) :
    s.returnMN.mstatusMPRV = if Priv.ofCode s.mnstatusMNPP = .m then s.mstatusMPRV else false :=
  bit_clearMprv_same _ s.mc.mstatus

/-! ### The returns of M-mode -/

/-- The V that a return to y restores: v is what was saved, h whether the hypervisor extension gives it a meaning. -/
theorem savedVirt_comm (y : Priv) (h v : Bool) : (y != .m && h && v) = (h && v && y != .m) := by
  rw [Bool.and_assoc, Bool.and_comm]

theorem State.returns_returnM (s : State) : s.Returns (s.returnM.retire s) (Priv.ofCode s.mstatusMPP)
    (s.hasH && s.mstatusMPV && Priv.ofCode s.mstatusMPP != .m) s.mc.mepc := by
  rw [← savedVirt_comm]
  exact s.returns_returnTo _ _ _ rfl

theorem State.returns_returnMN (s : State) : s.Returns (s.returnMN.retire s) (Priv.ofCode s.mnstatusMNPP)
    (s.hasH && s.mnstatusMNPV && Priv.ofCode s.mnstatusMNPP != .m) s.mc.mnepc := by
  rw [← savedVirt_comm]
  exact s.returns_returnTo _ _ _ rfl

/-- Settles O50: both are trap returns (`returns_returnTo`), and counting them changes no status register (`retire_eq`). -/
theorem machineReturns : Obligations.MachineReturns := by
  intro s
  refine ⟨by decide, by decide, fun hp => ⟨isIllegal_mret hp, isIllegal_mnret fun h => hp h.2⟩,
    fun hr => isIllegal_mnret (by simp [hr]), fun hp => ⟨_, exec_mret hp, s.returns_returnM, ?_⟩,
    fun hp hr => ⟨_, exec_mnret hr hp, s.returns_returnMN, ?_⟩⟩
  · have same : SameBitsBut s.mc.mstatus s.returnM.mc.mstatus [3, 7, 11, 12, 17, 39] :=
      (s.sameBitsBut_mretStatus.mono (by decide)).clearMprv _ (by decide)
    have mpv (h : s.hasH = true) : s.returnM.mstatusMPV = false := by rw [s.returnM_mpv, if_pos h]
    have mpvKept (h : s.hasH = false) : s.returnM.mstatusMPV = s.mstatusMPV := by rw [s.returnM_mpv, h]; rfl
    rw [State.retire_eq]
    exact ⟨s.returnM_mie, s.returnM_mpie, s.returnM_mpp, mpv, mpvKept, s.returnM_mprv, same, rfl, rfl, rfl⟩
  · have nmie : s.returnMN.mnstatusNMIE = true := bit_setBit_same s.mc.mnstatus true (by decide)
    have sameMn : SameBitsBut s.mc.mnstatus s.returnMN.mc.mnstatus [3] := (SameBitsBut.refl _ _).setBit _ (by decide)
    have same : SameBitsBut s.mc.mstatus s.returnMN.mc.mstatus [17] := (SameBitsBut.refl _ _).clearMprv _ (by decide)
    rw [State.retire_eq]
    exact ⟨nmie, sameMn, s.returnMN_mprv, same, rfl, rfl⟩

/-! ### SRET (R236) -/

/-- What SRET makes of the status register it returns by, beside MPRV: SIE from SPIE, SPIE and SPP. -/
def sretEnables (w : Word) : Word := setBit (setBit (setBit w 1 (bit w 5)) 5 true) 8 false

theorem State.returnS_mstatus (s : State) : s.returnS.mc.mstatus = setBit (sretEnables s.mc.mstatus) 17 false := rfl

theorem State.returnVS_vsstatus (s : State) : s.returnVS.vc.vsstatus = sretEnables s.vc.vsstatus := rfl

theorem sretEnables_sie (w : Word) : bit (sretEnables w) 1 = bit w 5 := by
  rw [sretEnables, bit_setBit_other _ _ (by decide), bit_setBit_other _ _ (by decide), bit_setBit_same _ _ (by decide)]

theorem sretEnables_spie (w : Word) : bit (sretEnables w) 5 = true := by
  rw [sretEnables, bit_setBit_other _ _ (by decide), bit_setBit_same _ _ (by decide)]

theorem sretEnables_spp (w : Word) : bit (sretEnables w) 8 = false := bit_setBit_same _ _ (by decide)

theorem sameBitsBut_sretEnables (w : Word) : SameBitsBut w (sretEnables w) [1, 5, 8] :=
  (((SameBitsBut.refl _ _).setBit _ (by decide)).setBit _ (by decide)).setBit _ (by decide)

/-- With V=0 only the hypervisor extension has an SPV to clear. -/
theorem State.returnS_hc (s : State) :
    s.returnS.hc = if s.hasH then { s.hc with hstatus := setBit s.hc.hstatus 7 false } else s.hc := rfl

theorem State.returns_returnS (s : State) :
    s.Returns (s.returnS.retire s) (Priv.ofBit s.mstatusSPP) (s.hasH && s.hstatusSPV) s.sc.sepc := by
  refine s.returns_returnTo _ _ _ ?_
  cases s.hasH <;> rfl

theorem State.returns_returnVS (s : State) :
    s.Returns (s.returnVS.retire s) (Priv.ofBit s.vsstatusSPP) true s.vc.vsepc := s.returns_returnTo _ _ _ rfl

/-- Settles O51: the mode selects the case of the instruction; the two that complete are trap returns (`returns_returnTo`) with the
same change of `mstatus` or `vsstatus` (`sretEnables`). -/
theorem supervisorReturns : Obligations.SupervisorReturns := by
  intro s
  have illegal (h : execSret s = raiseIllegal .sret s) : s.IsIllegal .sret := h
  have virtual (h : execSret s = raiseVirtual .sret s) : s.IsVirtual .sret := h
  refine ⟨by decide, fun hs => illegal ?_, fun hs => ⟨fun hp hv => illegal ?_, fun hp hv => virtual ?_,
    fun hp hv ht => illegal ?_, fun hp hv ht => virtual ?_, fun hv hp => ⟨s.returnS.retire s, ?_, s.returns_returnS, ?_⟩,
    fun hv hp ht => ⟨s.returnVS.retire s, ?_, s.returns_returnVS, ?_⟩⟩⟩
  · simp [execSret, hs]
  · simp [execSret, hs, hp, hv]
  · simp [execSret, hs, hp, hv]
  · simp [execSret, hs, hp, hv, ht]
  · simp [execSret, hs, hp, hv, ht]
  · change execSret s = _
    rcases hp with hp | ⟨hp, ht⟩
    · simp [execSret, hs, hp]
    · simp [execSret, hs, hp, hv, ht]
  · have kept {j : Nat} (h : 17 ≠ j) : bit s.returnS.mc.mstatus j = bit (sretEnables s.mc.mstatus) j := by
      rw [State.returnS_mstatus, bit_setBit_other _ _ h]
    have same : SameBitsBut s.mc.mstatus s.returnS.mc.mstatus [1, 5, 8, 17] :=
      ((sameBitsBut_sretEnables _).mono (by decide)).setBit _ (by decide)
    have spv (h : s.hasH = true) : s.returnS.hstatusSPV = false ∧ SameBitsBut s.hc.hstatus s.returnS.hc.hstatus [7] := by
      rw [State.hstatusSPV, State.returnS_hc, if_pos h]
      exact ⟨bit_setBit_same _ _ (by decide), (SameBitsBut.refl _ _).setBit _ (by decide)⟩
    have noHypervisor (h : s.hasH = false) : s.returnS.hc = s.hc := by rw [State.returnS_hc, h]; rfl
    rw [State.retire_eq]
    exact ⟨(kept (by decide)).trans (sretEnables_sie _), (kept (by decide)).trans (sretEnables_spie _),
      (kept (by decide)).trans (sretEnables_spp _), bit_setBit_same _ _ (by decide), same, rfl, spv, noHypervisor, rfl⟩
  · change execSret s = _
    simp [execSret, hs, hp, hv, ht]
  · rw [State.retire_eq]
    simp only [State.vsstatusSIE, State.vsstatusSPIE, State.vsstatusSPP, State.returnVS_vsstatus]
    exact ⟨sretEnables_sie _, sretEnables_spie _, sretEnables_spp _, bit_setBit_same s.mc.mstatus false (by decide),
      sameBitsBut_sretEnables _, (SameBitsBut.refl _ _).setBit _ (by decide), rfl, rfl⟩

end Sys2Proof.Machine
end

section
/-! PROOFS. Waiting (O52): when a WFI stalls, when its wait misses the bound, what ends a stall, and which exception, if any, each mode
comes to. -/

namespace Sys2Proof.Machine

/-! ### The wait (R238, D7, D8) -/

theorem State.wakes_iff (s : State) :
    s.wakes = true ↔ s.mip &&& s.mie ≠ 0 ∨ (if s.cfg.smrnmi then s.pins.rnmi else s.pins.nmi) ≠ none := by
  simp only [State.wakes, State.nonMaskablePending, Bool.or_eq_true, bne_iff_ne]
  cases s.cfg.smrnmi <;> simp [Option.isSome_iff_ne_none]

theorem State.stalls_iff (s : State) : s.stalls = true ↔ s.cfg.wfiIsNop = false ∧ ¬ s.wakes = true := by
  simp [State.stalls]

theorem State.completesWithin_eq_false_iff (s : State) :
    s.completesWithin = false ↔ s.cfg.wfiTimeout = 0 ∨ (s.stalls = true ∧ s.cfg.wfiTimeout ≤ s.waited) := by
  rw [← Bool.not_eq_true, State.completesWithin]
  by_cases timeout : s.cfg.wfiTimeout = 0
  · simp [timeout]
  · simp [timeout]

theorem State.nonMaskable_ne_none_iff (s : State) :
    s.nonMaskable ≠ none ↔ if s.cfg.smrnmi then s.mnstatusNMIE = true ∧ s.pins.rnmi ≠ none else s.pins.nmi ≠ none := by
  unfold State.nonMaskable
  cases s.cfg.smrnmi
  · cases s.pins.nmi <;> simp
  · cases s.mnstatusNMIE <;> cases s.pins.rnmi <;> simp

theorem State.wait_of_stalls {s : State} (h : s.stalls = true) : s.wait = { s with waited := s.waited + 1 } := if_pos h

theorem State.wait_of_not_stalls {s : State} (h : ¬ s.stalls = true) : s.wait = { s.next with waited := 0 } := if_neg h

/-- Going on behind a WFI ends its stall. -/
theorem State.advances_behind (s : State) : State.Advances { s with waited := 0 } { s.next with waited := 0 } (s.pc + 4) := by
  obtain ⟨pc, counted, rest⟩ := s.advances_next
  refine ⟨pc, counted, ?_⟩
  rw [rest]

/-! ### Stalled harts (R238, R350) -/

theorem State.wfiTraps_iff (s : State) : s.wfiTraps = true ↔ s.priv = .u ∧ s.virt = true := by
  simp [State.wfiTraps, and_comm]

theorem State.stalled_iff (s : State) :
    s.stalled = true ↔ s.waited ≠ 0 ∧ (¬ s.wakes = true ∨ (s.wfiTraps = true ∧ ¬ s.nonMaskable ≠ none)) := by
  simp [State.stalled]

theorem step_of_stalled {s : State} (h : s.tick.stalled = true) : step s = exec .wfi s.tick := by
  rw [step, State.boundary, if_pos h]

theorem State.woken_of_not_wfiTraps {s : State} (hw : s.waited ≠ 0) (h : ¬ s.wfiTraps = true) :
    s.woken = { s.next with waited := 0 } := by
  rw [State.woken, if_neg hw, if_neg h]

theorem State.woken_of_wfiTraps {s : State} (h : s.wfiTraps = true) : s.woken = { s with waited := 0 } := by
  by_cases hw : s.waited = 0
  · rw [State.woken_of_waited hw, ← hw]
  · rw [State.woken, if_neg hw, if_pos h]

/-- Settles O52: the mode, TW, VTW and the bound select the case of the instruction, and each case is the wait or an exception;
what a stalled hart does is said of `stalled` and `woken`. -/
theorem waitForInterruptByMode : Obligations.WaitForInterruptByMode := by
  intro s fresh calls taken idle late waits raises
  have idle_iff : s.stalls = true ↔ idle := by rw [s.stalls_iff, s.wakes_iff]
  have late_iff : s.completesWithin = false ↔ late := by rw [s.completesWithin_eq_false_iff, idle_iff]
  have within {b : Bool} (h : ¬ (b = true ∧ late)) : (b && !s.completesWithin) = false := by
    rw [← late_iff] at h
    simpa using h
  have stays (h : execWfi s = .next s.wait) (hi : idle) : exec .wfi s = .next { s with waited := s.waited + 1 } :=
    h.trans (by rw [State.wait_of_stalls (idle_iff.mpr hi)])
  have permitted (h : execWfi s = .next s.wait) : waits :=
    ⟨fun hi => ⟨_, h.trans (by rw [State.wait_of_not_stalls (mt idle_iff.mp hi)]), s.advances_behind⟩, stays h⟩
  have illegal (h : execWfi s = s.raiseWfi raiseIllegal) : raises .illegal := h
  have virtual (h : execWfi s = s.raiseWfi raiseVirtual) : raises .virtualInstr := h
  refine ⟨by decide, fun hp => permitted ?_, fun hp tw l => illegal ?_, fun hp hv h => permitted ?_,
    fun hp hv hs l => illegal ?_, fun hp hv h => permitted ?_, fun hp hv tw vtw l => virtual ?_,
    fun hp hv h => permitted ?_, fun hp hv tw => virtual ?_, fun hp hv tw l => ⟨fun hi => virtual ?_, fun hi => stays ?_ hi⟩, ?_,
    step_of_stalled, fun hw h => ?_, fun hp hv => State.woken_of_wfiTraps (s.wfiTraps_iff.mpr ⟨hp, hv⟩)⟩
  · simp only [execWfi, hp]
  · have missed := late_iff.mpr l
    cases priv : s.priv with
    | m => exact absurd priv hp
    | s => cases virt : s.virt <;> simp [execWfi, priv, virt, tw, missed]
    | u => cases virt : s.virt <;> simp [execWfi, priv, virt, tw, missed]
  · simp [execWfi, hp, hv, within h]
  · simp [execWfi, hp, hv, hs, late_iff.mpr l]
  · have bounded : ((s.mstatusTW || s.hasS) && !s.completesWithin) = false :=
      within fun ⟨b, l⟩ => h ⟨by simpa using b, l⟩
    simp [execWfi, hp, hv, bounded]
  · simp [execWfi, hp, hv, tw, vtw, late_iff.mpr l]
  · simp [execWfi, hp, hv, within fun ⟨tw, l⟩ => h ⟨.inl tw, l⟩, within fun ⟨vtw, l⟩ => h ⟨.inr vtw, l⟩]
  · simp [execWfi, hp, hv, tw]
  · simp [execWfi, hp, hv, tw, mt late_iff.mp l, mt idle_iff.mp hi]
  · simp [execWfi, hp, hv, tw, mt late_iff.mp l, idle_iff.mpr hi]
  · rw [s.stalled_iff, s.wakes_iff, s.wfiTraps_iff, s.nonMaskable_ne_none_iff, and_assoc]
  · rw [State.woken_of_not_wfiTraps hw (mt s.wfiTraps_iff.mp h)]
    exact s.advances_behind

end Sys2Proof.Machine
end

section
/-! PROOFS. What blocks a CSR access beside its number (O10): the steps of the check after the level, and which registers each enable
guards. -/

namespace Sys2Proof.Machine

/-! ### The steps of the check (R247) -/

/-- The access passes the steps before TVM and VTVM: n names c, which is implemented, M-mode does not block it, and the number permits
the mode and the kind of access. -/
structure State.Admits (s : State) (n : BitVec 12) (c : CsrRef) (write : Bool) : Prop where
  named : csrOf n = some c
  present : s.csrExists c = true
  unblocked : s.priv = .m ∨ s.blockedByM c = false
  level : s.levelVerdict c n write = .allowed
  kind : write = true → csrReadOnly n = false

section
variable {s : State} {n : BitVec 12} {c : CsrRef} {write : Bool}

theorem State.Admits.not_blocked (h : s.Admits n c write) : ¬ (s.priv ≠ .m ∧ s.blockedByM c = true) := by
  rcases h.unblocked with hp | hb
  · simp [hp]
  · simp [hb]

theorem State.Admits.writable (h : s.Admits n c write) : (write && csrReadOnly n) = false := by
  simpa using h.kind

/-- TVM and VTVM decide where they trap. -/
theorem State.Admits.csrCheck_of_trapBits (h : s.Admits n c write) (trap : s.trapBits c.reg ≠ .allowed) :
    s.csrCheck n write = s.trapBits c.reg := by
  simp only [State.csrCheck, h.named, h.present, State.checkSteps, if_neg h.not_blocked, h.level, h.writable]
  cases hb : s.trapBits c.reg with
  | allowed => exact absurd hb trap
  | illegal => rfl
  | virtual => rfl

/-- What HS-mode or S-mode blocks is a virtual instruction with V=1, else an illegal instruction. -/
theorem State.Admits.csrCheck_of_blockedByHS (h : s.Admits n c write) (trap : s.trapBits c.reg = .allowed)
    (blocked : s.blockedByHS c.reg = true) : s.csrCheck n write = if s.virt then .virtual else .illegal := by
  simp only [State.csrCheck, h.named, h.present, State.checkSteps, if_neg h.not_blocked, h.level, h.writable, trap, blocked]
  cases s.virt <;> rfl

/-- Where nothing blocks the access, the window decides. -/
theorem State.Admits.csrCheck_of_free (h : s.Admits n c write) (trap : s.trapBits c.reg = .allowed)
    (free : s.blockedByHS c.reg = false) : s.csrCheck n write = s.windowVerdict c.reg := by
  simp [State.csrCheck, h.named, h.present, State.checkSteps, h.not_blocked, h.level, h.writable, trap, free]

/-- An access that M-mode blocks below it is illegal. -/
theorem State.csrCheck_of_blockedByM (hc : csrOf n = some c) (hp : s.priv ≠ .m) (blocked : s.blockedByM c = true) (write : Bool) :
    s.csrCheck n write = .illegal := by
  have steps : s.checkSteps c n write = .illegal := if_pos ⟨hp, blocked⟩
  have halves : (s.virt && decide (s.xlen = .rv32) && c.high && s.hasCsr c.reg) = true → s.csrExists c = true := by
    obtain ⟨r, high⟩ := c
    cases r <;> simp_all [State.csrExists, State.blockedByM, counterIndex]
  simp only [State.csrCheck, hc, steps]
  split
  · rfl
  · next absent => simp [Bool.eq_false_iff.mpr (mt halves absent)]

/-- An access is illegal if, whenever it passes the first steps, the later ones forbid it: those give no virtual instruction. -/
theorem State.csrCheck_illegal_of_admits (hc : csrOf n = some c) (whole : c.high = false ∨ s.virt = false)
    (level : s.levelVerdict c n write ≠ .virtual) (later : s.Admits n c write → s.csrCheck n write = .illegal) :
    s.csrCheck n write = .illegal := by
  by_cases present : s.csrExists c = true
  · by_cases blocked : s.priv ≠ .m ∧ s.blockedByM c = true
    · exact State.csrCheck_of_blockedByM hc blocked.1 blocked.2 write
    · cases hl : s.levelVerdict c n write with
      | virtual => exact absurd hl level
      | illegal => simp [State.csrCheck, hc, present, State.checkSteps_of_level hl]
      | allowed =>
        cases kind : write && csrReadOnly n with
        | true => simp only [State.csrCheck, hc, present, State.checkSteps, if_neg blocked, hl, kind, if_true]
        | false =>
          have unblocked : s.priv = .m ∨ s.blockedByM c = false :=
            (Decidable.em _).imp_right fun hp => Bool.eq_false_iff.mpr fun hb => blocked ⟨hp, hb⟩
          exact later ⟨hc, present, unblocked, hl, fun hw => by rwa [hw, Bool.true_and] at kind⟩
  · rcases whole with whole | whole <;> simp [State.csrCheck, hc, present, whole]

/-- Without virtualisation nothing is a virtual instruction by its level. -/
theorem State.levelVerdict_ne_virtual (hv : s.virt = false) : s.levelVerdict c n write ≠ .virtual := by
  cases priv : s.priv <;> simp only [State.levelVerdict, priv, hv]
  · split <;> decide
  · split <;> decide
  · decide

/-- Every mode reaches U level (R28). -/
theorem State.levelVerdict_user (hn : csrLevel n = 0#2) : s.levelVerdict c n write = .allowed := by
  unfold State.levelVerdict
  cases s.priv <;> cases s.virt <;> simp [hn]

/-- VS-mode is admitted to a register of supervisor level. -/
theorem State.admits_guest (hv : s.virt = true) (hp : s.priv = .s) (hc : csrOf n = some c) (hn : csrLevel n = 1#2)
    (present : s.csrExists c = true) (unblocked : s.blockedByM c = false) (kind : write = true → csrReadOnly n = false) :
    s.Admits n c write :=
  ⟨hc, present, .inr unblocked, State.levelVerdict_guest hv hp hn c write, kind⟩

/-- What HS-mode blocks of supervisor level is a virtual instruction in VS-mode. -/
theorem State.csrCheck_guest_virtual (hv : s.virt = true) (hp : s.priv = .s) (hc : csrOf n = some c) (hn : csrLevel n = 1#2)
    (present : s.csrExists c = true) (unblocked : s.blockedByM c = false) (kind : write = true → csrReadOnly n = false)
    (trap : s.trapBits c.reg = .allowed) (blocked : s.blockedByHS c.reg = true) : s.csrCheck n write = .virtual := by
  rw [(State.admits_guest hv hp hc hn present unblocked kind).csrCheck_of_blockedByHS trap blocked, if_pos hv]

end

/-! ### Counters (R249) -/

section
variable {s : State} {n : BitVec 12} {c : CsrRef} {i : Nat}

theorem counterIndex_csrOf (hi : i < 32) (hn : n ∈ [BitVec.ofNat 12 (0xC00 + i), BitVec.ofNat 12 (0xC80 + i)]) :
    ∃ c, csrOf n = some c ∧ counterIndex c.reg = some i := by
  have named : ((List.range 32).all fun i => [BitVec.ofNat 12 (0xC00 + i), BitVec.ofNat 12 (0xC80 + i)].all fun n =>
      (csrOf n).map (counterIndex ·.reg) == some (some i)) = true := rfl
  have atIndex := List.all_eq_true.mp named i (List.mem_range.mpr hi)
  exact Option.map_eq_some_iff.mp (eq_of_beq (List.all_eq_true.mp atIndex n hn))

/-- The counters' numbers are of U level (R42). -/
theorem csrLevel_counter (hi : i < 32) (hn : n ∈ [BitVec.ofNat 12 (0xC00 + i), BitVec.ofNat 12 (0xC80 + i)]) :
    csrLevel n = 0#2 := by
  apply BitVec.eq_of_toNat_eq
  simp only [List.mem_cons, List.not_mem_nil, or_false] at hn
  rcases hn with rfl | rfl <;> simp only [csrLevel_toNat, BitVec.toNat_ofNat] <;> omega

/-- Of a counter, M-mode's enable, the enables of HS-mode and S-mode, and nothing else block an access. -/
theorem State.counter_steps (s : State) (hc : counterIndex c.reg = some i) :
    s.blockedByM c = !s.mcounteren.getLsbD i ∧ s.trapBits c.reg = .allowed ∧ s.blockedByHS c.reg = s.counterBlocked i
      ∧ s.windowVerdict c.reg = .allowed := by
  obtain ⟨r, high⟩ := c
  cases r <;> simp_all [counterIndex, State.blockedByM, State.trapBits, State.blockedByHS, State.windowVerdict]

theorem State.counterBlocked_guest (hv : s.virt = true) (hp : s.priv ≠ .m) :
    s.counterBlocked i = true ↔ s.hcounteren.getLsbD i = false ∨ (s.priv = .u ∧ s.scounteren.getLsbD i = false) := by
  cases priv : s.priv with
  | m => exact absurd priv hp
  | s => simp [State.counterBlocked, priv, hv]
  | u => simp [State.counterBlocked, priv, hv]

theorem State.counterBlocked_enabled (hh : s.virt = true ∧ s.priv ≠ .m → s.hcounteren.getLsbD i = true)
    (hs : s.priv = .u → s.scounteren.getLsbD i = true) : s.counterBlocked i = false := by
  unfold State.counterBlocked
  cases priv : s.priv <;> cases virt : s.virt <;> simp_all

theorem State.csrCheck_counter_machine (hc : csrOf n = some c) (index : counterIndex c.reg = some i) (hp : s.priv ≠ .m)
    (clear : s.mcounteren.getLsbD i = false) (write : Bool) : s.csrCheck n write = .illegal :=
  State.csrCheck_of_blockedByM hc hp (by rw [(s.counter_steps index).1, clear]; rfl) write

theorem State.csrCheck_counter_user (hc : csrOf n = some c) (index : counterIndex c.reg = some i) (hp : s.priv = .u)
    (hv : s.virt = false) (hS : s.hasS = true) (clear : s.scounteren.getLsbD i = false) (write : Bool) :
    s.csrCheck n write = .illegal := by
  obtain ⟨-, trap, host, -⟩ := s.counter_steps index
  have blocked : s.counterBlocked i = true := by simpa [State.counterBlocked, hp, hv, hS] using clear
  refine State.csrCheck_illegal_of_admits hc (.inr hv) (State.levelVerdict_ne_virtual hv) fun admits => ?_
  rw [admits.csrCheck_of_blockedByHS trap (host.trans blocked), hv]
  rfl

/-- Where M-mode's enable is set, every mode is admitted to read a counter. -/
theorem State.admits_counter (hc : csrOf n = some c) (index : counterIndex c.reg = some i) (hn : csrLevel n = 0#2)
    (present : s.csrExists c = true) (set : s.mcounteren.getLsbD i = true) : s.Admits n c false :=
  ⟨hc, present, .inr (by rw [(s.counter_steps index).1, set]; rfl), State.levelVerdict_user hn, nofun⟩

theorem State.Admits.csrCheck_counter_guest (h : s.Admits n c false) (index : counterIndex c.reg = some i) (hv : s.virt = true)
    (hp : s.priv ≠ .m) (clear : s.hcounteren.getLsbD i = false ∨ (s.priv = .u ∧ s.scounteren.getLsbD i = false)) :
    s.csrCheck n false = .virtual := by
  obtain ⟨-, trap, host, -⟩ := s.counter_steps index
  rw [h.csrCheck_of_blockedByHS trap (host.trans ((State.counterBlocked_guest hv hp).mpr clear)), if_pos hv]

/-- A counter can be read where no enable is missing. -/
theorem State.Admits.csrCheck_counter_enabled (h : s.Admits n c false) (index : counterIndex c.reg = some i)
    (hh : s.virt = true ∧ s.priv ≠ .m → s.hcounteren.getLsbD i = true) (hs : s.priv = .u → s.scounteren.getLsbD i = true) :
    s.csrCheck n false = .allowed := by
  obtain ⟨-, trap, host, window⟩ := s.counter_steps index
  rw [h.csrCheck_of_free trap (host.trans (State.counterBlocked_enabled hh hs)), window]

end

/-! ### The state enables (R105-R111, R128, R129) -/

/-- The state enable of M-mode is set, or there is none. -/
def State.MEnables (s : State) (e : Fin 4 × Nat) : Prop := s.cfg.smstateen = true → bit (s.mstateen e.1) e.2 = true

/-- The state enable of HS-mode is set, or there is none. -/
def State.HEnables (s : State) (e : Fin 4 × Nat) : Prop := s.cfg.smstateen = true → bit (s.hstateen e.1) e.2 = true

/-- The state enable that guards a register, by word and bit. -/
def stateEnable : CsrReg → Option (Fin 4 × Nat)
  | .senvcfg | .henvcfg => some (0, 62)
  | .sstateen n | .hstateen n => some (n, 63)
  | .siselect | .sireg _ | .vsiselect | .vsireg _ => some (0, 60)
  | _ => none

theorem csrOf_sstateen : ∀ k : Fin 4, csrOf (BitVec.ofNat 12 (0x10C + k.val)) = some ⟨.sstateen k, false⟩
    ∧ csrLevel (BitVec.ofNat 12 (0x10C + k.val)) = 1#2 ∧ csrReadOnly (BitVec.ofNat 12 (0x10C + k.val)) = false := by
  decide

theorem csrOf_hstateen : ∀ k : Fin 4, csrOf (BitVec.ofNat 12 (0x60C + k.val)) = some ⟨.hstateen k, false⟩ := by
  decide

/-- The select registers and the windows of supervisor and VS level have one enable (R108). -/
theorem stateEnable_indirect : ∀ n ∈ [(0x150 : BitVec 12), 0x151, 0x152, 0x153, 0x155, 0x156, 0x157, 0x250, 0x251, 0x252, 0x253,
    0x255, 0x256, 0x257], (csrOf n).map (stateEnable ·.reg) = some (some (0, 60)) := by
  simp only [List.forall_mem_cons, List.not_mem_nil, false_implies, implies_true, and_true]
  exact ⟨rfl, rfl, rfl, rfl, rfl, rfl, rfl, rfl, rfl, rfl, rfl, rfl, rfl, rfl⟩

section
variable {s : State} {n : BitVec 12} {r : CsrReg} {e : Fin 4 × Nat}

theorem State.blockedByM_iff_not_mEnables (s : State) {c : CsrRef} (hr : stateEnable c.reg = some e) :
    s.blockedByM c = true ↔ ¬ s.MEnables e := by
  obtain ⟨r, high⟩ := c
  cases r <;> simp_all [stateEnable, State.blockedByM, counterIndex, State.MEnables] <;> simp [← hr]

/-- The registers of supervisor level that a state enable guards. -/
def guestGuarded : CsrReg → Bool
  | .senvcfg | .sstateen _ | .siselect | .sireg _ => true
  | _ => false

theorem State.blockedByHS_iff_not_hEnables (hv : s.virt = true) (hg : guestGuarded r = true) (hr : stateEnable r = some e) :
    s.blockedByHS r = true ↔ ¬ s.HEnables e := by
  cases r <;> simp_all [stateEnable, guestGuarded, State.blockedByHS, counterIndex, State.HEnables] <;> simp [← hr]

/-- Below M-mode a register whose state enable is clear in `mstateen` is illegal (R248). -/
theorem State.csrCheck_of_not_mEnables (hn : (csrOf n).map (stateEnable ·.reg) = some (some e)) (hp : s.priv ≠ .m)
    (clear : ¬ s.MEnables e) (write : Bool) : s.csrCheck n write = .illegal := by
  obtain ⟨c, hc, hr⟩ := Option.map_eq_some_iff.mp hn
  exact State.csrCheck_of_blockedByM hc hp ((s.blockedByM_iff_not_mEnables hr).mpr clear) write

/-- In VS-mode a register whose state enable is clear in `hstateen` alone is a virtual instruction (R249). -/
theorem State.csrCheck_of_not_hEnables (hv : s.virt = true) (hp : s.priv = .s) (hc : csrOf n = some ⟨r, false⟩)
    (hn : csrLevel n = 1#2 ∧ csrReadOnly n = false) (has : s.hasCsr r = true) (hg : guestGuarded r = true)
    (hr : stateEnable r = some e) (set : s.MEnables e) (clear : ¬ s.HEnables e) (write : Bool) : s.csrCheck n write = .virtual := by
  have trap : s.trapBits r = .allowed := by cases r <;> cases hg <;> rfl
  have unblocked : s.blockedByM ⟨r, false⟩ = false :=
    Bool.eq_false_iff.mpr fun h => (s.blockedByM_iff_not_mEnables hr).mp h set
  exact State.csrCheck_guest_virtual hv hp hc hn.1 (by simp [State.csrExists, has]) unblocked (fun _ => hn.2) trap
    ((State.blockedByHS_iff_not_hEnables hv hg hr).mpr clear)

end

/-! ### The timer compare registers (R100, R163, R248, R249) -/

section
variable {s : State}

/-- What M-mode asks of an access to `stimecmp` and `vstimecmp` from below. -/
theorem State.blockedByM_timecmp (s : State) {r : CsrReg} (hr : r = .stimecmp ∨ r = .vstimecmp) :
    s.blockedByM ⟨r, false⟩ = true ↔ s.mcounteren.getLsbD 1 = false ∨ s.menvcfgSTCE = false := by
  rcases hr with rfl | rfl <;> simp [State.blockedByM, counterIndex]

theorem State.csrCheck_stimecmp_guest (hv : s.virt = true) (hp : s.priv = .s) (has : s.hasCsr .stimecmp = true)
    (tm : s.mcounteren.getLsbD 1 = true) (stce : s.menvcfgSTCE = true)
    (missing : s.henvcfgSTCE = false ∨ s.hcounteren.getLsbD 1 = false) (write : Bool) : s.csrCheck 0x14D write = .virtual := by
  have unblocked : s.blockedByM ⟨.stimecmp, false⟩ = false :=
    Bool.eq_false_iff.mpr fun h => ((s.blockedByM_timecmp (.inl rfl)).mp h).elim (fun e => nomatch tm.symm.trans e)
      fun e => nomatch stce.symm.trans e
  have blocked : s.blockedByHS .stimecmp = true := by
    simpa [State.blockedByHS, counterIndex, hv, hp] using missing
  exact State.csrCheck_guest_virtual hv hp (c := ⟨.stimecmp, false⟩) rfl (by decide) (by simp [State.csrExists, has]) unblocked
    (fun _ => by decide) rfl blocked

/-! ### TVM and VTVM (R247) -/

theorem State.csrCheck_of_tvm (hp : s.priv = .s) (hv : s.virt = false) (tvm : s.mstatusTVM = true) {n : BitVec 12} {r : CsrReg}
    (hc : csrOf n = some ⟨r, false⟩) (hr : r = .satp ∨ r = .hgatp) (write : Bool) : s.csrCheck n write = .illegal := by
  have trap : s.trapBits r = .illegal := by rcases hr with rfl | rfl <;> simp [State.trapBits, hp, hv, tvm]
  refine State.csrCheck_illegal_of_admits hc (.inl rfl) (State.levelVerdict_ne_virtual hv) fun admits => ?_
  rw [admits.csrCheck_of_trapBits (by simp [trap]), trap]

theorem State.csrCheck_of_vtvm (hp : s.priv = .s) (hv : s.virt = true) (hS : s.hasS = true) (vtvm : s.hstatusVTVM = true)
    (write : Bool) : s.csrCheck 0x180 write = .virtual := by
  have trap : s.trapBits .satp = .virtual := by simp [State.trapBits, hp, hv, vtvm]
  have admits : s.Admits 0x180 ⟨.satp, false⟩ write := State.admits_guest hv hp rfl (by decide)
    (by simp [State.csrExists, State.hasCsr, hS]) (by simp [State.blockedByM, counterIndex]) (fun _ => by decide)
  rw [admits.csrCheck_of_trapBits (by simp [trap]), trap]

/-! ### The windows (R112-R114, R124-R126, D17) -/

theorem csrOf_mireg : csrOf 0x351 = some ⟨.mireg 1, false⟩ := by decide

theorem csrOf_sireg : csrOf 0x151 = some ⟨.sireg 1, false⟩ := by decide

/-- The machine's window is empty. -/
theorem State.csrCheck_mireg (s : State) (write : Bool) : s.csrCheck 0x351 write = .illegal := by
  by_cases hp : s.priv = .m
  · have level : s.levelVerdict ⟨.mireg 1, false⟩ 0x351 write ≠ .virtual := by simp [State.levelVerdict, hp]
    refine State.csrCheck_illegal_of_admits csrOf_mireg (.inl rfl) level fun admits => ?_
    rw [admits.csrCheck_of_free rfl (by simp [State.blockedByHS, counterIndex])]
    rfl
  · exact State.csrCheck_machineLevel (by decide) hp write

theorem selectedCounter_ofNat {i : Nat} (hi : i < 32) : selectedCounter (BitVec.ofNat 64 (0x40 + i)) = some ⟨i, hi⟩ := by
  have value : (BitVec.ofNat 64 (0x40 + i)).toNat = 0x40 + i := by
    rw [BitVec.toNat_ofNat]
    omega
  simp only [selectedCounter, value]
  rw [if_pos (by omega)]
  exact congrArg some (Fin.ext (by simp only; omega))

/-- With V=0 the cell alone decides, once the access is admitted. -/
theorem State.Admits.csrCheck_sireg_host {n : BitVec 12} {k : Nat} {write : Bool} (h : s.Admits n ⟨.sireg k, false⟩ write)
    (hv : s.virt = false) : s.csrCheck n write = if s.windowCell s.sc.siselect k then .allowed else .illegal := by
  rw [h.csrCheck_of_free rfl (by simp [State.blockedByHS, counterIndex, hv])]
  simp [State.windowVerdict, hv]

/-- With V=0 a cell that is not implemented is illegal (D17). -/
theorem State.csrCheck_no_windowCell {n : BitVec 12} {k : Nat} (hc : csrOf n = some ⟨.sireg k, false⟩) (hv : s.virt = false)
    (none : s.windowCell s.sc.siselect k = false) (write : Bool) : s.csrCheck n write = .illegal := by
  refine State.csrCheck_illegal_of_admits hc (.inl rfl) (State.levelVerdict_ne_virtual hv) fun admits => ?_
  rw [admits.csrCheck_sireg_host hv, none]
  rfl

/-- The cells of a counter exist where it is delegated: 1 is the counter, 3 does not exist, 4 is the high half. -/
theorem State.windowCell_counter (s : State) {i : Nat} (hi : i < 32) {sel : Word} (hsel : sel = BitVec.ofNat 64 (0x40 + i)) :
    (s.windowCell sel 1 = true ↔ s.menvcfgCDE = true ∧ i ≠ 1 ∧ s.mcounteren.getLsbD i = true) ∧ s.windowCell sel 3 = false
      ∧ (s.xlen = .rv64 → s.windowCell sel 4 = false) := by
  have one : (⟨i, hi⟩ : Fin 32) = 1 ↔ i = 1 := Fin.ext_iff
  subst hsel
  simp only [State.windowCell, selectedCounter_ofNat hi]
  refine ⟨?_, by simp, fun width => by simp [width]⟩
  simp [one, and_assoc]

/-- A delegated counter is reached through the window. -/
theorem State.csrCheck_windowCell (hv : s.virt = false) (hp : s.priv ≠ .u) (has : s.hasCsr (.sireg 1) = true)
    (unblocked : s.priv = .m ∨ s.MEnables (0, 60)) (cell : s.windowCell s.sc.siselect 1 = true) :
    s.csrCheck 0x151 true = .allowed := by
  have admits : s.Admits 0x151 ⟨.sireg 1, false⟩ true :=
    { named := csrOf_sireg
      present := by simp [State.csrExists, has]
      unblocked := unblocked.imp_right fun set =>
        Bool.eq_false_iff.mpr fun h => (s.blockedByM_iff_not_mEnables rfl).mp h set
      level := State.levelVerdict_host hv hp (by decide) _ _
      kind := fun _ => by decide }
  rw [admits.csrCheck_sireg_host hv, if_pos cell]

/-- In VS-mode the window of a counter is a virtual instruction where counters are delegated, else an illegal instruction. -/
theorem State.csrCheck_sireg_guest (hv : s.virt = true) (hp : s.priv = .s) (has : s.hasCsr (.sireg 1) = true)
    (machine : s.MEnables (0, 60)) (host : s.HEnables (0, 60)) {i : Nat} (hi : i < 32)
    (hsel : s.vc.vsiselect = BitVec.ofNat 64 (0x40 + i)) (write : Bool) :
    s.csrCheck 0x151 write = if s.menvcfgCDE then .virtual else .illegal := by
  have admits : s.Admits 0x151 ⟨.sireg 1, false⟩ write := State.admits_guest hv hp csrOf_sireg (by decide)
    (by simp [State.csrExists, has])
    (Bool.eq_false_iff.mpr fun h => (s.blockedByM_iff_not_mEnables rfl).mp h machine) (fun _ => by decide)
  have free : s.blockedByHS (.sireg 1) = false :=
    Bool.eq_false_iff.mpr fun h => (State.blockedByHS_iff_not_hEnables hv rfl rfl).mp h host
  rw [admits.csrCheck_of_free rfl free]
  simp [State.windowVerdict, hv, hsel, selectedCounter_ofNat hi]

/-! ### `scountinhibit` and `scountovf` (R117, R126) -/

theorem State.csrCheck_scountinhibit_absent (cde : s.menvcfgCDE = false) (write : Bool) : s.csrCheck 0x120 write = .illegal := by
  have absent : s.csrExists ⟨.scountinhibit, false⟩ = false := by simp [State.csrExists, State.hasCsr, cde]
  have named : csrOf 0x120 = some ⟨.scountinhibit, false⟩ := rfl
  simp only [State.csrCheck, named, absent, Bool.and_false, Bool.false_and, Bool.false_eq_true, if_false]

theorem State.csrCheck_scountinhibit_guest (hv : s.virt = true) (hp : s.priv = .s) (has : s.hasCsr .scountinhibit = true)
    (write : Bool) : s.csrCheck 0x120 write = .virtual :=
  State.csrCheck_guest_virtual hv hp (c := ⟨.scountinhibit, false⟩) rfl (by decide) (by simp [State.csrExists, has])
    (by simp [State.blockedByM, counterIndex]) (fun _ => by decide) rfl (by simp [State.blockedByHS, counterIndex, hv])

theorem State.csrCheck_scountovf_guest (hv : s.virt = true) (hp : s.priv = .s) (has : s.hasCsr .scountovf = true)
    (delegates : s.cfg.smcdeleg = true ∧ s.menvcfgCDE = true) : s.csrCheck 0xDA0 false = .virtual :=
  State.csrCheck_guest_virtual hv hp (c := ⟨.scountovf, false⟩) rfl (by decide) (by simp [State.csrExists, has])
    (by simp [State.blockedByM, counterIndex]) nofun rfl (by simp [State.blockedByHS, counterIndex, hv, delegates])

end

/-! ### The instructions -/

section
variable {s : State} {n : BitVec 12}

/-- Where the check answers illegal for a read and for a write, every CSR instruction is illegal. -/
theorem State.csrInstrs_illegal (check : ∀ write, s.csrCheck n write = .illegal) (rd rs1 : Reg) (u : BitVec 5) :
    ∀ i ∈ csrInstrs rd rs1 n u, s.IsIllegal i := by
  intro i hi
  obtain ⟨write, access⟩ := accessesCsr_of_mem hi
  exact access.isIllegal (check write)

theorem State.csrInstrs_virtual (check : ∀ write, s.csrCheck n write = .virtual) (rd rs1 : Reg) (u : BitVec 5) :
    ∀ i ∈ csrInstrs rd rs1 n u, s.IsVirtual i := by
  intro i hi
  obtain ⟨write, access⟩ := accessesCsr_of_mem hi
  exact access.isVirtual (check write)

/-- The forms that read alone. -/
theorem State.csrReaders_virtual (check : s.csrCheck n false = .virtual) (rd : Reg) :
    ∀ i ∈ [Instr.csrrs rd n 0#5, .csrrc rd n 0#5, .csrrsi rd n 0#5], s.IsVirtual i := by
  simp only [List.forall_mem_cons, List.not_mem_nil, false_implies, implies_true, and_true]
  exact ⟨(accessesCsr_csrrs rd 0#5 n).isVirtual check, (accessesCsr_csrrc rd 0#5 n).isVirtual check,
    (accessesCsr_csrrsi rd n 0#5).isVirtual check⟩

end

/-- Settles O10: each clause is what one step of the check answers for the register its number names. -/
theorem csrBlockers : Obligations.CsrBlockers := by
  intro s rd rs1 u all reads lower guest mstateen hstateen
  have illegal {n : BitVec 12} (check : ∀ write, s.csrCheck n write = .illegal) : all n s.IsIllegal :=
    State.csrInstrs_illegal check rd rs1 u
  have virtual {n : BitVec 12} (check : ∀ write, s.csrCheck n write = .virtual) : all n s.IsVirtual :=
    State.csrInstrs_virtual check rd rs1 u
  have unset {n : BitVec 12} {e : Fin 4 × Nat} (hn : (csrOf n).map (stateEnable ·.reg) = some (some e)) (hp : lower)
      (clear : ¬ mstateen e.1 e.2) : all n s.IsIllegal := illegal (State.csrCheck_of_not_mEnables hn hp clear)
  refine ⟨fun i hi n hn => ?_, fun hp missing => ?_, fun ⟨hv, _⟩ sstc hS tm stce hp missing => ?_, fun hp hv tvm => ?_,
    fun hp hv hS vtvm => virtual (State.csrCheck_of_vtvm hp hv hS vtvm), fun hp => ?_, fun ⟨hv, _⟩ hp hS => ?_,
    illegal s.csrCheck_mireg, fun i hi hsel hv hp => ?_, fun ⟨hv, _⟩ hp sscsrind hS machine host i hi hsel => ?_,
    fun cde => illegal (State.csrCheck_scountinhibit_absent cde), fun ⟨hv, _⟩ hp hS smcdeleg cde => ?_⟩
  · -- the counters
    obtain ⟨c, hc, index⟩ := counterIndex_csrOf hi hn
    refine ⟨fun hp clear => illegal (State.csrCheck_counter_machine hc index hp clear),
      fun hp hv hS clear => illegal (State.csrCheck_counter_user hc index hp hv hS clear), fun c' hc' present set => ?_⟩
    obtain rfl : c = c' := Option.some.inj (hc.symm.trans hc')
    have admits := State.admits_counter hc index (csrLevel_counter hi hn) present set
    exact ⟨fun ⟨hv, hp⟩ clear => State.csrReaders_virtual (admits.csrCheck_counter_guest index hv hp clear) rd,
      admits.csrCheck_counter_enabled index⟩
  · -- the timer compare registers, by M-mode
    exact ⟨illegal (State.csrCheck_of_blockedByM rfl hp ((s.blockedByM_timecmp (.inl rfl)).mpr missing)),
      illegal (State.csrCheck_of_blockedByM rfl hp ((s.blockedByM_timecmp (.inr rfl)).mpr missing))⟩
  · -- by HS-mode
    exact virtual (State.csrCheck_stimecmp_guest hv hp (by simp [State.hasCsr, sstc, hS]) tm stce missing)
  · -- TVM
    exact ⟨illegal (State.csrCheck_of_tvm hp hv tvm rfl (.inl rfl)), illegal (State.csrCheck_of_tvm hp hv tvm rfl (.inr rfl))⟩
  · -- the state enables of M-mode
    refine ⟨fun clear => ⟨unset rfl hp clear, unset rfl hp clear⟩,
      fun k clear => ⟨unset (e := (k, 63)) (by rw [(csrOf_sstateen k).1]; rfl) hp clear,
        unset (e := (k, 63)) (by rw [csrOf_hstateen k]; rfl) hp clear⟩,
      fun clear n hn => unset (stateEnable_indirect n hn) hp clear, fun clear => ?_⟩
    have blocked : s.blockedByM ⟨.hedeleg, true⟩ = true := by simpa [State.blockedByM, counterIndex, mstateen] using clear
    exact illegal (State.csrCheck_of_blockedByM rfl hp blocked)
  · -- the state enables of HS-mode
    refine ⟨fun set clear => ?_, fun k smstateen set clear => ?_, fun sscsrind set clear => ⟨?_, ?_⟩⟩
    · exact virtual (State.csrCheck_of_not_hEnables (r := .senvcfg) (e := (0, 62)) hv hp rfl (by decide) hS rfl rfl set clear)
    · obtain ⟨named, number⟩ := csrOf_sstateen k
      exact virtual (State.csrCheck_of_not_hEnables (r := .sstateen k) (e := (k, 63)) hv hp named number
        (by simp [State.hasCsr, smstateen, hS]) rfl rfl set clear)
    · exact virtual (State.csrCheck_of_not_hEnables (r := .siselect) (e := (0, 60)) hv hp rfl (by decide)
        (by simp [State.hasCsr, sscsrind, hS]) rfl rfl set clear)
    · exact virtual (State.csrCheck_of_not_hEnables (r := .sireg 1) (e := (0, 60)) hv hp csrOf_sireg (by decide)
        (by simp [State.hasCsr, sscsrind, hS]) rfl rfl set clear)
  · -- the window of S-mode
    obtain ⟨counter, config, highHalf⟩ := s.windowCell_counter hi hsel
    refine ⟨fun closed => illegal (State.csrCheck_no_windowCell csrOf_sireg hv (Bool.eq_false_iff.mpr fun h => ?_)),
      illegal (State.csrCheck_no_windowCell (k := 3) (by decide) hv config),
      fun width => illegal (State.csrCheck_no_windowCell (k := 4) (by decide) hv (highHalf width)),
      fun sscsrind hS set cde ne en => ?_⟩
    · obtain ⟨cde, ne, en⟩ := counter.mp h
      simp [cde, ne, en] at closed
    · exact State.csrCheck_windowCell hv (by rcases hp with hp | hp <;> simp [hp]) (by simp [State.hasCsr, sscsrind, hS])
        (hp.symm.imp_right set) (counter.mpr ⟨cde, ne, en⟩)
  · -- the window in VS-mode
    have check := State.csrCheck_sireg_guest hv hp (by simp [State.hasCsr, sscsrind, hS]) machine host hi hsel
    exact ⟨fun cde => virtual fun write => by rw [check, if_pos cde],
      fun cde => illegal fun write => by rw [check, cde]; rfl⟩
  · -- `scountinhibit` and `scountovf` in VS-mode
    exact ⟨virtual (State.csrCheck_scountinhibit_guest hv hp (by simp [State.hasCsr, smcdeleg, hS, cde])), fun sscofpmf =>
      State.csrReaders_virtual (State.csrCheck_scountovf_guest hv hp (by simp [State.hasCsr, sscofpmf, hS]) ⟨smcdeleg, cde⟩) rd⟩

end Sys2Proof.Machine
end

section
/-! PROOFS. The CSR instructions where the check allows the access (O40, O41, O48): what completing one leaves, whether it writes the
CSR or only reads it. -/

namespace Sys2Proof.Machine

/-! ### Encodings (R239-R244) -/

/-- The word of an I-format instruction under the mask of opcode and funct3. -/
theorem encI_and_mask (imm : BitVec 12) (r1 r : Reg) (f3 : BitVec 3) (op : BitVec 7) :
    encI imm r1 f3 r op &&& 0x0000707F = 0#12 ++ 0#5 ++ f3 ++ 0#5 ++ op := by
  have mask : (0x0000707F : BitVec 32) = 0#12 ++ 0#5 ++ BitVec.allOnes 3 ++ 0#5 ++ BitVec.allOnes 7 := by decide
  rw [mask, encI, BitVec.and_append, BitVec.and_append, BitVec.and_append, BitVec.and_append]
  simp only [BitVec.and_zero, BitVec.and_allOnes]

/-! ### Completion (R74, R245) -/

/-- What completing a CSR instruction changes: x[rd], the pc, and `minstret` where the instruction is counted. -/
theorem State.csrFinish_fields (s b : State) (rd : Reg) (old : Word) (wroteMinstret : Bool) :
    s.csrFinish b rd old wroteMinstret = { s with
      regs := (s.setX rd old).regs, pc := sx s.xlen (b.pc + 4)
      cnt := { s.cnt with
        minstret := if b.countsInstret = true ∧ wroteMinstret = false then s.cnt.minstret + 1 else s.cnt.minstret } } := by
  unfold State.csrFinish
  cases wroteMinstret
  · rw [if_neg (by decide), State.retire_eq, State.goto, State.xlen_setX, State.setX_eq]
    simp
  · rw [if_pos rfl, State.goto, State.xlen_setX, State.setX_eq]
    simp

/-- An access that writes, where the check allows it (R239-R245). -/
theorem State.csrWrites_of_csrAccess {s : State} {i : Instr} {n : BitVec 12} {rd : Reg} {value : Word → Word}
    (he : exec i s = csrAccess i n rd true value s) {c : CsrRef} (hc : csrOf n = some c) (ok : s.csrCheck n true = .allowed) :
    s.CsrWrites i rd c (value (s.csrRmwOld c)) := by
  generalize hw : s.csrWrite c (value (s.csrRmwOld c)) = w
  have done : exec i s = .next (w.csrFinish s rd (s.csrRead c) (s.writesMinstret c)) := by
    simp only [he, csrAccess, ok, hc, if_true, hw]
  obtain ⟨a, b, h, v, k, p, frame⟩ := (s.onlyCsrs_csrWrite c (value (s.csrRmwOld c))).eq
  rw [hw] at frame
  refine ⟨_, done, ?_⟩
  rw [State.csrFinish_fields, hw]
  have regs : w.regs = s.regs := by rw [frame]
  refine ⟨fun hr => w.regs_setX_same _ hr, fun r hr => ?_, rfl, rfl, ?_⟩
  · rw [← regs]
    exact w.regs_setX_other _ hr
  · simp [frame]

/-- An access that only reads, where the check allows it. -/
theorem State.writesReg_of_csrAccess {s : State} {i : Instr} {n : BitVec 12} {rd : Reg} {value : Word → Word}
    (he : exec i s = csrAccess i n rd false value s) {c : CsrRef} (hc : csrOf n = some c) (ok : s.csrCheck n false = .allowed) :
    ∃ t, exec i s = .next t ∧ s.WritesReg t rd (s.csrRead c) (s.pc + 4) := by
  refine ⟨s.csrFinish s rd (s.csrRead c) false, ?_, s.writesReg_jump rd (s.csrRead c) (s.pc + 4)⟩
  simp only [he, csrAccess, ok, hc, Bool.false_eq_true, if_false]

/-- Settles O40: both instructions are accesses that write, the one x[rs1], the other its immediate. -/
theorem csrReplace : Obligations.CsrReplace := by
  intro s rd rs1 n u
  have register := accessesCsr_csrrw rd rs1 n
  have immediate := accessesCsr_csrrwi rd n u
  exact ⟨encI_and_mask .., encI_and_mask ..,
    fun c hc ok => ⟨State.csrWrites_of_csrAccess (value := fun _ => s.x rs1) rfl hc ok,
      State.csrWrites_of_csrAccess (value := fun _ => uimm u) rfl hc ok⟩,
    fun check => ⟨register.isIllegal check, immediate.isIllegal check⟩,
    fun check => ⟨register.isVirtual check, immediate.isVirtual check⟩⟩

/-! ### Bits set and cleared (R71, R240, R241, R246) -/

theorem State.csrRmwOld_eq (s : State) (c : CsrRef) :
    s.csrRmwOld c = if c.reg = .mip then zx s.xlen (setBit s.mip 9 (s.hasS && bit s.mc.mip 9)) else s.csrRead c := by
  obtain ⟨r, high⟩ := c
  cases r <;> rfl

/-- Settles O41: each instruction is an access of the kind its operand makes it. -/
theorem csrSetAndClear : Obligations.CsrSetAndClear := by
  intro s rd rs1 n u old does
  have access {i : Instr} {m : BitVec 32} {write : Bool} {value : State → Word → Word} (word : Encodes i 0x0000707F m)
      (he : ∀ s, exec i s = csrAccess i n rd write (value s) s) : does i m write (value s) := by
    have accesses : AccessesCsr i n rd write := ⟨value, he⟩
    refine ⟨word, fun c hc ok => ?_, accesses.isIllegal, accesses.isVirtual⟩
    cases write
    · exact State.writesReg_of_csrAccess (he s) hc ok
    · have modified : s.csrRmwOld c = old c := s.csrRmwOld_eq c
      rw [if_pos rfl, ← modified]
      exact State.csrWrites_of_csrAccess (he s) hc ok
  exact ⟨access (value := fun s old => old ||| s.x rs1) (encI_and_mask ..) fun _ => rfl,
    access (value := fun s old => old &&& ~~~s.x rs1) (encI_and_mask ..) fun _ => rfl,
    access (value := fun _ old => old ||| uimm u) (encI_and_mask ..) fun _ => rfl,
    access (value := fun _ old => old &&& ~~~uimm u) (encI_and_mask ..) fun _ => rfl⟩

/-! ### Counters (R74, R155, R252) -/

/-- A register keeps no more of what is read than XLEN bits. -/
@[simp] theorem sx_zx (xl : Xlen) (w : Word) : sx xl (zx xl w) = sx xl w := by
  cases xl <;> simp [sx, zx]

/-- CSRRS with x0 reads: x[rd] takes the register's view, or the high half of it. -/
theorem State.csrrs_reads {s : State} {n : BitVec 12} {r : CsrReg} {high : Bool} {v : Word} (hc : csrOf n = some ⟨r, high⟩)
    (view : s.csrView (csrTarget s.virt r) = v) (rd : Reg) (ok : s.csrCheck n false = .allowed) :
    ∃ t, exec (.csrrs rd n 0#5) s = .next t ∧ s.WritesReg t rd (if high then v >>> 32 else v) (s.pc + 4) := by
  obtain ⟨t, he, ht⟩ :=
    State.writesReg_of_csrAccess (i := .csrrs rd n 0#5) (value := fun old => old ||| s.x 0#5) (he := rfl) hc ok
  have read : sx s.xlen (s.csrRead ⟨r, high⟩) = sx s.xlen (if high then v >>> 32 else v) := by
    simp only [State.csrRead, view, sx_zx]
  exact ⟨t, he, { ht with written := fun hr => (ht.written hr).trans read }⟩

/-- M-mode writes `minstret`. -/
theorem State.csrCheck_minstret {s : State} (hp : s.priv = .m) : s.csrCheck 0xB02 true = .allowed := by
  have admits : s.Admits 0xB02 ⟨.minstret, false⟩ true :=
    ⟨rfl, rfl, .inl hp, by simp [State.levelVerdict, hp], fun _ => by decide⟩
  rw [admits.csrCheck_of_free rfl (by simp [State.blockedByHS, counterIndex])]
  rfl

/-- A write of all of `minstret` leaves the value written: the instruction that makes it is not counted (R74). -/
theorem State.csrFinish_minstret {s : State} (width : s.xlen = .rv64) (v : Word) (rd : Reg) (old : Word) :
    ((s.csrWrite ⟨.minstret, false⟩ v).csrFinish s rd old (s.writesMinstret ⟨.minstret, false⟩)).cnt
      = { s.cnt with minstret := v } := by
  have reg : csrTarget s.virt .minstret = .minstret := by cases s.virt <;> rfl
  have uncounted : s.writesMinstret ⟨.minstret, false⟩ = true := by simp [State.writesMinstret, reg]
  have whole : writeLow .rv64 s.cnt.minstret v = v := zx_writeLow .rv64 s.cnt.minstret v
  simp [State.csrFinish, uncounted, State.csrWrite, reg, State.csrSet, State.csrView, width, whole]

/-- Settles O48: the user's counters are views of the machine's, and the instruction that writes `minstret` does not count itself. -/
theorem counterReadsAndWrites : Obligations.CounterReadsAndWrites := by
  intro s rd rs1 reads time
  have target {r : CsrReg} {i : Nat} (hr : counterIndex r = some i) : csrTarget s.virt r = r := by
    cases r <;> cases hr <;> cases s.virt <;> rfl
  have cycle : s.csrView (csrTarget s.virt .cycle) = s.cnt.mcycle := by rw [target rfl]; rfl
  have timer : s.csrView (csrTarget s.virt .time) = time := by rw [target rfl]; rfl
  have instret : s.csrView (csrTarget s.virt .instret) = s.cnt.minstret := by rw [target rfl]; rfl
  refine ⟨State.csrrs_reads (high := false) rfl cycle rd, State.csrrs_reads (high := false) rfl timer rd,
    State.csrrs_reads (high := false) rfl instret rd, State.csrrs_reads (high := true) rfl cycle rd,
    State.csrrs_reads (high := true) rfl timer rd, State.csrrs_reads (high := true) rfl instret rd, fun hp width => ?_⟩
  have xlen : s.xlen = .rv64 := by simp [State.xlen, State.xlenAt, hp, width]
  exact ⟨_, exec_csrrw_allowed (c := ⟨.minstret, false⟩) rfl (State.csrCheck_minstret hp) rd rs1,
    State.csrFinish_minstret xlen (s.x rs1) rd _⟩

end Sys2Proof.Machine
end

section
/-! PROOFS. The supervisor fences (O35, O37): what a fence that completes leaves, which cache entries one by virtual address drops, and
which verdict each mode is given. -/

namespace Sys2Proof.Machine

/-! ### A fence is its permission, then its effect -/

/-- i is the fence of this permission and effect. -/
def IsFence (i : Instr) (verdict : State → Verdict) (effect : State → State) : Prop :=
  ∀ s, exec i s = fenceWith i (verdict s) effect s

/-- The permission of an instruction of Svinval: its words are illegal on a hart without it (R230). -/
def State.withSvinval (v : State → Verdict) (s : State) : Verdict := if s.cfg.svinval then v s else .illegal

theorem isFence_sfenceVma (rs1 rs2 : Reg) :
    IsFence (.sfenceVma rs1 rs2) State.sfenceVerdict (·.sfence rs1 rs2) := fun _ => rfl

theorem isFence_sinvalVma (rs1 rs2 : Reg) :
    IsFence (.sinvalVma rs1 rs2) (State.withSvinval State.sfenceVerdict) (·.sfence rs1 rs2) := fun _ => rfl

theorem isFence_sfenceWInval : IsFence .sfenceWInval State.invalOrderVerdict State.order := fun _ => rfl

theorem isFence_sfenceInvalIr : IsFence .sfenceInvalIr State.invalOrderVerdict State.order := fun _ => rfl

theorem isFence_hinvalVvma (rs1 rs2 : Reg) :
    IsFence (.hinvalVvma rs1 rs2) (State.withSvinval State.hfenceVvmaVerdict) (·.hfenceVvma rs1 rs2) := fun _ => rfl

theorem isFence_hinvalGvma (rs1 rs2 : Reg) :
    IsFence (.hinvalGvma rs1 rs2) (State.withSvinval State.hfenceGvmaVerdict) (·.hfenceGvma rs1 rs2) := fun _ => rfl

theorem State.withSvinval_of_svinval {s : State} (h : s.cfg.svinval = true) (v : State → Verdict) : s.withSvinval v = v s := if_pos h

theorem State.withSvinval_of_not_svinval {s : State} (h : s.cfg.svinval = false) (v : State → Verdict) :
    s.withSvinval v = .illegal := if_neg (by simp [h])

theorem State.withSvinval_illegal {s : State} {v : State → Verdict} (h : v s = .illegal) : s.withSvinval v = .illegal := by
  rw [State.withSvinval, h, ite_self]

namespace IsFence

variable {i : Instr} {verdict : State → Verdict} {effect : State → State} {s : State}

theorem isIllegal (h : IsFence i verdict effect) (hv : verdict s = .illegal) : s.IsIllegal i := by
  change exec i s = raiseIllegal i s
  rw [h, hv]
  rfl

theorem isVirtual (h : IsFence i verdict effect) (hv : verdict s = .virtual) : s.IsVirtual i := by
  change exec i s = raiseVirtual i s
  rw [h, hv]
  rfl

/-- A permitted fence whose effect is on the cache and the kept PMP results. -/
theorem fences (h : IsFence i verdict effect) (hv : verdict s = .allowed)
    (frame : effect s = { s with cache := (effect s).cache, pmpCopies := (effect s).pmpCopies })
    {dropped : CacheEntry → Prop} (cache : ∀ e, e ∈ (effect s).cache ↔ e ∈ s.cache ∧ ¬ dropped e)
    {checked : PmpCopy → Prop} (copies : ∀ c, c ∈ (effect s).pmpCopies ↔ c ∈ s.pmpCopies ∧ ¬ checked c) :
    s.Fences i dropped checked := by
  have done : exec i s = .next (effect s).next := by rw [h, hv]; rfl
  generalize effect s = t at done frame cache copies
  obtain ⟨pc, counted, rest⟩ := t.advances_next
  have cacheKept : t.next.cache = t.cache := by rw [rest]
  have copiesKept : t.next.pmpCopies = t.pmpCopies := by rw [rest]
  refine ⟨t.next, done, ?_, ?_, ?_, ?_⟩
  · rwa [cacheKept]
  · rwa [copiesKept]
  · rw [pc, frame]; rfl
  · rw [cacheKept, copiesKept, rest, counted, frame]; rfl

end IsFence

/-! ### What a fence by virtual address drops (R253, R274) -/

theorem validAddress_iff (xl : Xlen) (atp va : Word) :
    validAddress xl atp va = true ↔ ∀ c, schemeOf xl atp = some c → canonical c va = true := by
  unfold validAddress
  cases schemeOf xl atp <;> simp

theorem CacheEntry.leafFor_iff (e : CacheEntry) (va : Nat) : e.leafFor va = true ↔ e.MapsPage va := by
  simp [CacheEntry.leafFor, CacheEntry.MapsPage, CacheEntry.holds, CacheEntry.IsFor, vpnFrom]

theorem CacheEntry.fenced_iff (e : CacheEntry) (st : Stage) (vmid : Nat) (va asid : Option Nat) :
    e.fenced st vmid va asid = true ↔ e.stage = st ∧ e.vmid = vmid ∧ (∀ a, va = some a → e.MapsPage a)
      ∧ (∀ n, asid = some n → e.asid = n ∧ e.global = false) := by
  cases va <;> cases asid <;> simp [CacheEntry.fenced, CacheEntry.leafFor_iff, and_assoc]

theorem State.mem_fenceVa_cache (s : State) (st : Stage) (vmid : Nat) (xl : Xlen) (atp : Word) (va : Option Word) (asid : Option Nat)
    (e : CacheEntry) : e ∈ (s.fenceVa st vmid xl atp va asid).cache ↔ e ∈ s.cache
      ∧ ¬ (va.all (validAddress xl atp) = true ∧ e.fenced st vmid (va.map (·.toNat)) asid = true) := by
  unfold State.fenceVa
  split <;> simp [*]

/-- An operand selects by what its register holds, x0 everything. -/
theorem forall_operand {α : Type} (r : Reg) (v : α) (P : α → Prop) :
    (∀ a, (if r = 0#5 then none else some v) = some a → P a) ↔ r = 0#5 ∨ P v := by
  split
  · next h => simp [h]
  · next h => simp [h]

theorem State.forall_fenceAddress (s : State) (xl : Xlen) (rs1 : Reg) (P : Word → Prop) :
    (∀ a, s.fenceAddress xl rs1 = some a → P a) ↔ rs1 = 0#5 ∨ P (zx xl (s.x rs1)) := forall_operand ..

theorem State.forall_fenceAsid (s : State) (xl : Xlen) (rs2 : Reg) (P : Nat → Prop) :
    (∀ n, s.fenceAsid xl rs2 = some n → P n) ↔ rs2 = 0#5
      ∨ P ((s.x rs2).toNat % 2 ^ (match xl with | .rv32 => Nat.min s.cfg.asidLen 9 | .rv64 => s.cfg.asidLen)) := forall_operand ..

theorem State.dropsVa_iff (s : State) (st : Stage) (vmid : Nat) (xl : Xlen) (atp : Word) (rs1 rs2 : Reg) (e : CacheEntry) :
    s.DropsVa st vmid xl atp rs1 rs2 e ↔ (s.fenceAddress xl rs1).all (validAddress xl atp) = true
      ∧ e.fenced st vmid ((s.fenceAddress xl rs1).map (·.toNat)) (s.fenceAsid xl rs2) = true := by
  have valid : (s.fenceAddress xl rs1).all (validAddress xl atp) = true
      ↔ rs1 = 0#5 ∨ ∀ c, schemeOf xl atp = some c → canonical c (zx xl (s.x rs1)) = true := by
    rw [Option.all_eq_true, State.forall_fenceAddress, validAddress_iff]
  have page : (∀ a, (s.fenceAddress xl rs1).map (·.toNat) = some a → e.MapsPage a)
      ↔ rs1 = 0#5 ∨ e.MapsPage (zx xl (s.x rs1)).toNat := by
    rw [← s.forall_fenceAddress xl rs1 fun a => e.MapsPage a.toNat]
    simp
  rw [valid, CacheEntry.fenced_iff, page, State.forall_fenceAsid]
  exact Iff.rfl

theorem State.mem_fenceVa_operands (s : State) (st : Stage) (vmid : Nat) (xl : Xlen) (atp : Word) (rs1 rs2 : Reg) (e : CacheEntry) :
    e ∈ (s.fenceVa st vmid xl atp (s.fenceAddress xl rs1) (s.fenceAsid xl rs2)).cache
      ↔ e ∈ s.cache ∧ ¬ s.DropsVa st vmid xl atp rs1 rs2 e := by
  rw [State.mem_fenceVa_cache, State.dropsVa_iff]

theorem State.fenceVa_pmpCopies (s : State) (st : Stage) (vmid : Nat) (xl : Xlen) (atp : Word) (va : Option Word)
    (asid : Option Nat) : (s.fenceVa st vmid xl atp va asid).pmpCopies = s.pmpCopies := by
  rw [s.fenceVa_eq]

/-- What a fence of everything ends of the kept PMP results (R199). -/
theorem State.mem_fencePmp_pmpCopies (s : State) (rs1 rs2 : Reg) (guest : Bool) (c : PmpCopy) :
    c ∈ (s.fencePmp rs1 rs2 guest).pmpCopies ↔ c ∈ s.pmpCopies ∧ ¬ (rs1 = 0#5 ∧ rs2 = 0#5 ∧ c.guest = guest) := by
  unfold State.fencePmp
  split
  · next h => simp [h]
  · next h => simp [← and_assoc, h]

/-! ### SFENCE.VMA and SINVAL.VMA (R253, R256) -/

/-- What the supervisor fences drop: of VS-stage with V=1, else of the translations of `satp`. -/
def State.sfenceDrops (s : State) (rs1 rs2 : Reg) : CacheEntry → Prop :=
  if s.virt then s.DropsVa .vs s.vmid s.vsxlen s.vc.vsatp rs1 rs2 else s.DropsVa .s 0 s.sxlen s.sc.satp rs1 rs2

theorem State.mem_sfence_cache (s : State) (rs1 rs2 : Reg) (e : CacheEntry) :
    e ∈ (s.sfence rs1 rs2).cache ↔ e ∈ s.cache ∧ ¬ s.sfenceDrops rs1 rs2 e := by
  unfold State.sfence State.sfenceDrops
  split
  · exact s.mem_fenceVa_operands ..
  · rw [State.fencePmp_cache]
    exact s.mem_fenceVa_operands ..

theorem State.mem_sfence_pmpCopies (s : State) (rs1 rs2 : Reg) (c : PmpCopy) :
    c ∈ (s.sfence rs1 rs2).pmpCopies ↔ c ∈ s.pmpCopies ∧ ¬ s.EndsOwnChecks rs1 rs2 c := by
  unfold State.sfence State.EndsOwnChecks
  split
  · next hv => simp [State.fenceVa_pmpCopies, hv]
  · next hv => simp [State.mem_fencePmp_pmpCopies, State.fenceVa_pmpCopies, hv]

theorem IsFence.fences_sfence {i : Instr} {verdict : State → Verdict} {rs1 rs2 : Reg} (h : IsFence i verdict (·.sfence rs1 rs2))
    {s : State} (hv : verdict s = .allowed) : s.Fences i (s.sfenceDrops rs1 rs2) (s.EndsOwnChecks rs1 rs2) :=
  h.fences hv (s.sfence_eq rs1 rs2) (s.mem_sfence_cache rs1 rs2) (s.mem_sfence_pmpCopies rs1 rs2)

/-! ### The verdicts (R253, R256-R258, R347) -/

theorem State.sfenceAllowed_of_paging {s : State} (h : s.cfg.sfenceIllegalWithoutVm = false ∨ s.hasPaging = true) :
    s.sfenceAllowed = .allowed := by
  rcases h with h | h <;> simp [State.sfenceAllowed, h]

theorem State.sfenceAllowed_of_no_paging {s : State} (h : s.cfg.sfenceIllegalWithoutVm = true) (hp : s.hasPaging = false) :
    s.sfenceAllowed = .illegal := by
  simp [State.sfenceAllowed, h, hp]

/-- In the modes that may fence, paging decides. -/
theorem State.sfenceVerdict_permitted {s : State} (hs : s.hasS = true)
    (mode : s.priv = .m ∨ (s.priv = .s ∧ s.virt = false ∧ s.mstatusTVM = false)
      ∨ (s.priv = .s ∧ s.virt = true ∧ s.hstatusVTVM = false)) : s.sfenceVerdict = s.sfenceAllowed := by
  rcases mode with hp | ⟨hp, hv, ht⟩ | ⟨hp, hv, ht⟩
  · simp [State.sfenceVerdict, hs, hp]
  · simp [State.sfenceVerdict, hs, hp, hv, ht]
  · simp [State.sfenceVerdict, hs, hp, hv, ht]

theorem State.sfenceVerdict_of_not_hasS {s : State} (h : s.hasS = false) : s.sfenceVerdict = .illegal := by
  simp [State.sfenceVerdict, h]

theorem State.invalOrderVerdict_illegal {s : State} (h : s.cfg.svinval = false ∨ s.hasS = false) :
    s.invalOrderVerdict = .illegal := by
  rcases h with h | h <;> simp [State.invalOrderVerdict, h]

theorem State.sfenceVerdict_u {s : State} (hs : s.hasS = true) (hp : s.priv = .u) :
    s.sfenceVerdict = if s.virt then .virtual else .illegal := by
  cases hv : s.virt <;> simp [State.sfenceVerdict, hs, hp, hv]

theorem State.invalOrderVerdict_u {s : State} (hs : s.hasS = true) (hi : s.cfg.svinval = true) (hp : s.priv = .u) :
    s.invalOrderVerdict = if s.virt then .virtual else .illegal := by
  cases hv : s.virt <;> simp [State.invalOrderVerdict, hs, hi, hp, hv]

theorem State.sfenceVerdict_tvm {s : State} (hp : s.priv = .s) (hv : s.virt = false)
    (ht : s.mstatusTVM = true) : s.sfenceVerdict = .illegal := by
  simp [State.sfenceVerdict, hp, hv, ht]

theorem State.sfenceVerdict_vtvm {s : State} (hs : s.hasS = true) (hp : s.priv = .s) (hv : s.virt = true)
    (ht : s.hstatusVTVM = true) : s.sfenceVerdict = .virtual := by
  simp [State.sfenceVerdict, hs, hp, hv, ht]

/-- Without paging no mode may fence; only those that are refused with a virtual-instruction exception keep that. -/
theorem State.sfenceVerdict_of_no_paging {s : State} (h : s.cfg.sfenceIllegalWithoutVm = true) (paging : s.hasPaging = false)
    (mode : ¬ (s.virt = true ∧ (s.priv = .u ∨ (s.priv = .s ∧ s.hstatusVTVM = true)))) : s.sfenceVerdict = .illegal := by
  have refused := State.sfenceAllowed_of_no_paging h paging
  cases hp : s.priv with
  | m => simp [State.sfenceVerdict, hp, refused]
  | s =>
    cases hv : s.virt with
    | false => simp [State.sfenceVerdict, hp, hv, refused]
    | true =>
      have permitted : s.hstatusVTVM = false := by simpa [hp, hv] using mode
      simp [State.sfenceVerdict, hp, hv, permitted, refused]
  | u =>
    have host : s.virt = false := by simpa [hp] using mode
    simp [State.sfenceVerdict, hp, host]

/-! ### The exceptions of the modes that may not fence -/

section
variable {i : Instr} {verdict : State → Verdict} {effect : State → State} {s : State}

/-- From U-mode illegal instruction, from VU-mode virtual instruction. -/
theorem IsFence.refused_u (h : IsFence i verdict effect)
    (hv : s.priv = .u → verdict s = if s.virt then .virtual else .illegal) :
    (s.priv = .u → s.virt = false → s.IsIllegal i) ∧ (s.priv = .u → s.virt = true → s.IsVirtual i) :=
  ⟨fun user host => h.isIllegal (by simp [hv user, host]), fun user guest => h.isVirtual (by simp [hv user, guest])⟩

/-- From S-mode under TVM illegal instruction, from VS-mode under VTVM virtual instruction. -/
theorem IsFence.refused_vm (h : IsFence i verdict effect) (hs : s.hasS = true) (same : verdict s = s.sfenceVerdict) :
    (s.priv = .s → s.virt = false → s.mstatusTVM = true → s.IsIllegal i)
      ∧ (s.priv = .s → s.virt = true → s.hstatusVTVM = true → s.IsVirtual i) :=
  ⟨fun hp hv tvm => h.isIllegal (same.trans (State.sfenceVerdict_tvm hp hv tvm)),
    fun hp hv vtvm => h.isVirtual (same.trans (State.sfenceVerdict_vtvm hs hp hv vtvm))⟩

end

/-- Settles O35: both instructions are the fence `State.sfence`, permitted alike; what it drops is said of the cache
(`State.mem_sfence_cache`) and of the kept PMP results (`State.mem_sfence_pmpCopies`). -/
theorem supervisorFencesDropSelected : Obligations.SupervisorFencesDropSelected := by
  intro s rs1 rs2 hs mode drops paging
  have drops_eq : drops = s.sfenceDrops rs1 rs2 := rfl
  have permitted : s.sfenceVerdict = .allowed :=
    (State.sfenceVerdict_permitted hs mode).trans (State.sfenceAllowed_of_paging paging)
  rw [drops_eq]
  exact ⟨(isFence_sfenceVma rs1 rs2).fences_sfence permitted, fun svinval =>
    (isFence_sinvalVma rs1 rs2).fences_sfence ((State.withSvinval_of_svinval svinval _).trans permitted)⟩

/-- Settles O37: each clause is the verdict of the fences named, which SINVAL.VMA takes from SFENCE.VMA. -/
theorem supervisorFencePermissions : Obligations.SupervisorFencePermissions := by
  intro s rs1 rs2
  have sfence := isFence_sfenceVma rs1 rs2
  have sinval := isFence_sinvalVma rs1 rs2
  refine ⟨fun noS => ?_, fun noSvinval => ?_, fun h paging mode => ?_, fun hs => ?_⟩
  · have verdict := State.sfenceVerdict_of_not_hasS noS
    have order := State.invalOrderVerdict_illegal (.inr noS)
    simp only [List.forall_mem_cons]
    exact ⟨sfence.isIllegal verdict, sinval.isIllegal (State.withSvinval_illegal verdict), isFence_sfenceWInval.isIllegal order,
      isFence_sfenceInvalIr.isIllegal order, List.forall_mem_nil _⟩
  · have verdict := State.withSvinval_of_not_svinval noSvinval
    have order := State.invalOrderVerdict_illegal (.inl noSvinval)
    simp only [List.forall_mem_cons]
    exact ⟨sinval.isIllegal (verdict _), isFence_sfenceWInval.isIllegal order, isFence_sfenceInvalIr.isIllegal order,
      (isFence_hinvalVvma rs1 rs2).isIllegal (verdict _), (isFence_hinvalGvma rs1 rs2).isIllegal (verdict _), List.forall_mem_nil _⟩
  · have verdict := State.sfenceVerdict_of_no_paging h paging mode
    exact ⟨sfence.isIllegal verdict, sinval.isIllegal (State.withSvinval_illegal verdict)⟩
  · intro svinval
    have user := State.sfenceVerdict_u hs
    have order := State.invalOrderVerdict_u hs
    simp only [List.forall_mem_cons]
    refine ⟨fun _ => ?_, fun has => ?_, fun has => ?_, fun has => ?_, List.forall_mem_nil _⟩
    · obtain ⟨illegal, virtual⟩ := sfence.refused_u user
      exact ⟨illegal, virtual, fun _ => sfence.refused_vm hs rfl⟩
    · have same := State.withSvinval_of_svinval has State.sfenceVerdict
      obtain ⟨illegal, virtual⟩ := sinval.refused_u (same ▸ user)
      exact ⟨illegal, virtual, fun _ => sinval.refused_vm hs same⟩
    · obtain ⟨illegal, virtual⟩ := isFence_sfenceWInval.refused_u (order has)
      exact ⟨illegal, virtual, fun h => by simp at h⟩
    · obtain ⟨illegal, virtual⟩ := isFence_sfenceInvalIr.refused_u (order has)
      exact ⟨illegal, virtual, fun h => by simp at h⟩

end Sys2Proof.Machine
end

section
/-! PROOFS. Encodings (R224, R278): the words of each format under the masks of the spec's encodings. -/

namespace Sys2Proof.Machine

section
variable (f7 op : BitVec 7) (f6 sh : BitVec 6) (f3 : BitVec 3) (r2 r1 r : Reg)

/-- R format under the mask of opcode, funct3 and funct7. -/
theorem encR_and_mask : encR f7 r2 r1 f3 r op &&& 0xFE00707F = encR f7 0#5 0#5 f3 0#5 op := by
  have mask : (0xFE00707F : BitVec 32) = BitVec.allOnes 7 ++ 0#5 ++ 0#5 ++ BitVec.allOnes 3 ++ 0#5 ++ BitVec.allOnes 7 := by
    decide
  rw [mask, encR, BitVec.and_append, BitVec.and_append, BitVec.and_append, BitVec.and_append, BitVec.and_append]
  simp only [BitVec.and_zero, BitVec.and_allOnes]
  rfl

/-- R format with rs2 as part of the opcode, as HLV and HLVX are. -/
theorem encR_and_mask_rs2 : encR f7 r2 r1 f3 r op &&& 0xFFF0707F = encR f7 r2 0#5 f3 0#5 op := by
  have mask : (0xFFF0707F : BitVec 32)
      = BitVec.allOnes 7 ++ BitVec.allOnes 5 ++ 0#5 ++ BitVec.allOnes 3 ++ 0#5 ++ BitVec.allOnes 7 := by decide
  rw [mask, encR, BitVec.and_append, BitVec.and_append, BitVec.and_append, BitVec.and_append, BitVec.and_append]
  simp only [BitVec.and_zero, BitVec.and_allOnes]
  rfl

/-- R format with rd as part of the opcode, as HSV is. -/
theorem encR_and_mask_rd : encR f7 r2 r1 f3 r op &&& 0xFE007FFF = encR f7 0#5 0#5 f3 r op := by
  have mask : (0xFE007FFF : BitVec 32)
      = BitVec.allOnes 7 ++ 0#5 ++ 0#5 ++ BitVec.allOnes 3 ++ BitVec.allOnes 5 ++ BitVec.allOnes 7 := by decide
  rw [mask, encR, BitVec.and_append, BitVec.and_append, BitVec.and_append, BitVec.and_append, BitVec.and_append]
  simp only [BitVec.and_zero, BitVec.and_allOnes]
  rfl

theorem encShift_and_mask : encShift f6 sh r1 f3 r op &&& 0xFC00707F = encShift f6 0#6 0#5 f3 0#5 op := by
  have mask : (0xFC00707F : BitVec 32) = BitVec.allOnes 6 ++ 0#6 ++ 0#5 ++ BitVec.allOnes 3 ++ 0#5 ++ BitVec.allOnes 7 := by
    decide
  rw [mask, encShift, BitVec.and_append, BitVec.and_append, BitVec.and_append, BitVec.and_append, BitVec.and_append]
  simp only [BitVec.and_zero, BitVec.and_allOnes]
  rfl

theorem encS_and_mask (imm : BitVec 12) : encS imm r2 r1 f3 op &&& 0x0000707F = encS 0#12 0#5 0#5 f3 op := by
  have mask : (0x0000707F : BitVec 32) = 0#7 ++ 0#5 ++ 0#5 ++ BitVec.allOnes 3 ++ 0#5 ++ BitVec.allOnes 7 := by decide
  rw [mask, encS, BitVec.and_append, BitVec.and_append, BitVec.and_append, BitVec.and_append, BitVec.and_append]
  simp only [BitVec.and_zero, BitVec.and_allOnes]
  rfl

theorem encB_and_mask (off : BitVec 13) : encB off r2 r1 f3 &&& 0x0000707F = encB 0#13 0#5 0#5 f3 := by
  have mask : (0x0000707F : BitVec 32)
      = 0#1 ++ 0#6 ++ 0#5 ++ 0#5 ++ BitVec.allOnes 3 ++ 0#4 ++ 0#1 ++ BitVec.allOnes 7 := by decide
  rw [mask, encB, BitVec.and_append, BitVec.and_append, BitVec.and_append, BitVec.and_append, BitVec.and_append,
    BitVec.and_append, BitVec.and_append]
  simp only [BitVec.and_zero, BitVec.and_allOnes]
  rfl

theorem encU_and_mask (imm : BitVec 20) : encU imm r op &&& 0x0000007F = encU 0#20 0#5 op := by
  have mask : (0x0000007F : BitVec 32) = 0#20 ++ 0#5 ++ BitVec.allOnes 7 := by decide
  rw [mask, encU, BitVec.and_append, BitVec.and_append]
  simp only [BitVec.and_zero, BitVec.and_allOnes]
  rfl

theorem encJ_and_mask (off : BitVec 21) : encJ off r &&& 0x0000007F = encJ 0#21 0#5 := by
  have mask : (0x0000007F : BitVec 32) = 0#1 ++ 0#10 ++ 0#1 ++ 0#8 ++ 0#5 ++ BitVec.allOnes 7 := by decide
  rw [mask, encJ, BitVec.and_append, BitVec.and_append, BitVec.and_append, BitVec.and_append, BitVec.and_append]
  simp only [BitVec.and_zero, BitVec.and_allOnes]
  rfl

theorem encFence_and_mask (fm pred succ : BitVec 4) :
    encFence fm pred succ r1 r &&& 0x0000707F = encFence 0#4 0#4 0#4 0#5 0#5 := by
  have mask : (0x0000707F : BitVec 32)
      = 0#4 ++ 0#4 ++ 0#4 ++ 0#5 ++ BitVec.allOnes 3 ++ 0#5 ++ BitVec.allOnes 7 := by decide
  rw [mask, encFence, BitVec.and_append, BitVec.and_append, BitVec.and_append, BitVec.and_append, BitVec.and_append,
    BitVec.and_append]
  simp only [BitVec.and_zero, BitVec.and_allOnes]
  rfl

end

end Sys2Proof.Machine
end

section
/-! PROOFS. Integer arithmetic (O8, O9, O11, O12): what each operation on words is as arithmetic modulo 2^XLEN, and on low words. -/

namespace Sys2Proof.Machine

/-! ### Words modulo 2^XLEN (R18, R57) -/

theorem bmod_emod_of_dvd (z : Int) {m n : Nat} (h : m ∣ n) : z.bmod n % m = z % m := by
  have dvd : (m : Int) ∣ n := Int.natCast_dvd_natCast.mpr h
  rw [← Int.emod_emod_of_dvd _ dvd, Int.bmod_emod, Int.emod_emod_of_dvd _ dvd]

theorem State.modulus_dvd (s : State) : s.modulus ∣ 2 ^ 64 := Nat.pow_dvd_pow 2 (by cases s.xlen <;> decide)

section
variable (s : State) (v w : Word)

theorem State.xNat_eq_low (r : Reg) : s.xNat r = s.low (s.x r) := zx_toNat ..

theorem State.low_eq_toNat_zx : s.low v = (zx s.xlen v).toNat := (zx_toNat ..).symm

theorem State.low_lt : s.low v < s.modulus := Nat.mod_lt _ (Nat.pow_pos (by decide))

/-- Signed and unsigned value agree modulo 2^XLEN. -/
theorem State.low_eq_toInt_emod : (s.low v : Int) = v.toInt % s.modulus := by
  rw [State.low, BitVec.toInt_eq_toNat_bmod, Int.natCast_mod, bmod_emod_of_dvd _ s.modulus_dvd]

theorem State.low_add_nat : s.low (v + w) = (s.low v + s.low w) % s.modulus := by
  rw [State.low, BitVec.toNat_add, Nat.mod_mod_of_dvd _ s.modulus_dvd]
  exact Nat.add_mod ..

theorem State.low_add_int : (s.low (v + w) : Int) = (v.toInt + w.toInt) % s.modulus := by
  rw [State.low_add_nat, Int.natCast_mod, Int.natCast_add, State.low_eq_toInt_emod, State.low_eq_toInt_emod, ← Int.add_emod]

theorem State.low_sub : (s.low (v - w) : Int) = ((s.low v : Int) - s.low w) % s.modulus := by
  rw [State.low_eq_toInt_emod, State.low_eq_toInt_emod, State.low_eq_toInt_emod, BitVec.toInt_sub, bmod_emod_of_dvd _ s.modulus_dvd,
    ← Int.sub_emod]

theorem State.low_shiftLeft (n : Nat) : s.low (v <<< n) = s.low v * 2 ^ n % s.modulus := by
  rw [State.low, BitVec.toNat_shiftLeft, Nat.shiftLeft_eq, Nat.mod_mod_of_dvd _ s.modulus_dvd, State.low, Nat.mod_mul_mod]

theorem State.low_shiftRight (n : Nat) : s.low (zx s.xlen v >>> n) = s.low v / 2 ^ n := by
  rw [State.low, BitVec.toNat_ushiftRight, Nat.shiftRight_eq_div_pow, ← State.low_eq_toNat_zx]
  exact Nat.mod_eq_of_lt (Nat.lt_of_le_of_lt (Nat.div_le_self ..) (s.low_lt v))

end

theorem toInt_sshiftRight_eq_ediv {n : Nat} (v : BitVec n) (k : Nat) : (v.sshiftRight k).toInt = v.toInt / 2 ^ k := by
  rw [BitVec.toInt_sshiftRight, Int.shiftRight_eq_div_pow]
  norm_cast

/-- XLEN divides 2^XLEN, so that a shift amount is taken from the low bits. -/
theorem shiftAmount_eq (s : State) (r : Reg) : shiftAmount s.xlen (s.x r) = s.xNat r % s.xlen.bits := by
  have dvd : s.xlen.bits ∣ 2 ^ s.xlen.bits := by cases s.xlen <;> decide
  rw [shiftAmount, State.xNat_eq_low, State.low, State.modulus, Nat.mod_mod_of_dvd _ dvd]

/-! ### Comparisons -/

theorem toNat_truth {b : Bool} {p : Prop} [Decidable p] (h : b = true ↔ p) : (truth b).toNat = if p then 1 else 0 := by
  by_cases hp : p
  · rw [if_pos hp, h.mpr hp]; rfl
  · rw [if_neg hp, Bool.eq_false_iff.mpr (mt h.mp hp)]; rfl

theorem slt_iff_toInt_lt (v w : Word) : v.slt w = true ↔ v.toInt < w.toInt := BitVec.slt_iff_toInt_lt

theorem zx_ult_iff (s : State) (v w : Word) : (zx s.xlen v).ult (zx s.xlen w) = true ↔ s.low v < s.low w := by
  rw [BitVec.ult_iff_lt, BitVec.lt_def, ← State.low_eq_toNat_zx, ← State.low_eq_toNat_zx]

/-! ### Immediates (R278) -/

theorem toInt_imm12 (imm : BitVec 12) : (imm12 imm).toInt = imm.toInt := BitVec.toInt_signExtend_of_le (by decide)

theorem getLsbD_imm12 (imm : BitVec 12) {k : Nat} (h : k < 64) : (imm12 imm).getLsbD k = imm.getLsbD (min k 11) := by
  rw [imm12, BitVec.getLsbD_signExtend, decide_eq_true h, Bool.true_and]
  split
  · next low => rw [Nat.min_eq_left (by omega)]
  · next high => rw [Nat.min_eq_right (by omega), BitVec.msb_eq_getLsbD_last]

theorem toInt_immU (imm : BitVec 20) : (immU imm).toInt = Int.bmod (imm.toNat * 2 ^ 12 : Nat) (2 ^ 32) := by
  rw [immU, BitVec.toInt_signExtend_of_le (by decide), BitVec.toInt_eq_toNat_bmod, toNat_append_eq_add,
    BitVec.toNat_zero, Nat.add_zero]

/-- Settles O8: both complete with a value, LUI with the immediate's, AUIPC with the sum (`State.low_add_int`). -/
theorem upperImmediates : Obligations.UpperImmediates := fun s _ imm =>
  ⟨⟨encU_and_mask .., State.yields_of_finish rfl (toInt_immU imm)⟩,
    ⟨encU_and_mask .., State.yields_of_finish rfl (toInt_immU imm ▸ s.low_add_int ..)⟩⟩

/-! ### Shifts by an immediate (R306-R308) -/

theorem shiftImm_reserved {s : State} {sh : BitVec 6} (h : s.xlen = .rv32 ∧ 32 ≤ sh.toNat) (i : Instr) (r : Result) :
    shiftImm i sh s r = raiseIllegal i s := by
  refine if_pos ?_
  have top : sh.getLsbD 5 = true := by
    rw [BitVec.getLsbD, Nat.testBit_eq_decide_div_mod_eq]
    have := sh.isLt
    exact decide_eq_true (by omega)
  simp [h.1, top]

theorem shiftImm_valid {s : State} {sh : BitVec 6} (h : ¬ (s.xlen = .rv32 ∧ 32 ≤ sh.toNat)) (i : Instr) (r : Result) :
    shiftImm i sh s r = r := by
  refine if_neg fun reserved => h ?_
  simp only [Bool.and_eq_true, decide_eq_true_eq] at reserved
  exact ⟨reserved.1, by simpa using Nat.ge_two_pow_of_testBit reserved.2⟩

/-- Settles O9: each completes with its value, but for the shift amounts that are reserved with XLEN=32 (`shiftImm_reserved`). -/
theorem immediateArithmetic : Obligations.ImmediateArithmetic := by
  intro s rd rs1 imm sh
  have bitwise {f : Bool → Bool → Bool} {v : Word} (h : ∀ k, v.getLsbD k = f ((s.x rs1).getLsbD k) ((imm12 imm).getLsbD k)) :
      ∀ k, k < 64 → v.getLsbD k = f ((s.x rs1).getLsbD k) (imm.getLsbD (min k 11)) :=
    fun k hk => getLsbD_imm12 imm hk ▸ h k
  refine ⟨⟨encI_and_mask .., State.yields_of_finish rfl ?add⟩, ⟨encI_and_mask .., State.yields_of_finish rfl ?slt⟩,
    ⟨encI_and_mask .., State.yields_of_finish rfl ?sltu⟩,
    ⟨encI_and_mask .., State.yields_of_finish rfl (bitwise (f := (· ^^ ·)) fun _ => BitVec.getLsbD_xor)⟩,
    ⟨encI_and_mask .., State.yields_of_finish rfl (bitwise (f := (· || ·)) fun _ => BitVec.getLsbD_or)⟩,
    ⟨encI_and_mask .., State.yields_of_finish rfl (bitwise (f := (· && ·)) fun _ => BitVec.getLsbD_and)⟩,
    encShift_and_mask .., encShift_and_mask .., encShift_and_mask .., ?shifts⟩
  case add => exact toInt_imm12 imm ▸ s.low_add_int ..
  case slt => exact toNat_truth (toInt_imm12 imm ▸ slt_iff_toInt_lt ..)
  case sltu =>
    rw [← toInt_imm12 imm, ← State.low_eq_toInt_emod, State.xNat_eq_low]
    exact toNat_truth ((zx_ult_iff ..).trans Int.ofNat_lt.symm)
  case shifts =>
    split
    · next reserved =>
      exact ⟨shiftImm_reserved reserved .., shiftImm_reserved reserved .., shiftImm_reserved reserved ..⟩
    · next valid =>
      rw [State.xNat_eq_low]
      exact ⟨State.yields_of_finish (shiftImm_valid valid ..) (s.low_shiftLeft ..),
        State.yields_of_finish (shiftImm_valid valid ..) (s.low_shiftRight ..),
        State.yields_of_finish (shiftImm_valid valid ..) (toInt_sshiftRight_eq_ediv ..)⟩

/-- Settles O11: each completes with its value, of which the lemmas above say what it is modulo 2^XLEN. -/
theorem registerArithmetic : Obligations.RegisterArithmetic := by
  intro s rd rs1 rs2
  refine ⟨⟨encR_and_mask .., State.yields_of_finish rfl ?add⟩, ⟨encR_and_mask .., State.yields_of_finish rfl ?sub⟩,
    ⟨encR_and_mask .., State.yields_of_finish rfl ?sll⟩,
    ⟨encR_and_mask .., State.yields_of_finish rfl (toNat_truth (slt_iff_toInt_lt ..))⟩,
    ⟨encR_and_mask .., State.yields_of_finish rfl (toNat_truth ?sltu)⟩,
    ⟨encR_and_mask .., State.yields_of_finish rfl fun _ _ => BitVec.getLsbD_xor⟩,
    ⟨encR_and_mask .., State.yields_of_finish rfl ?srl⟩, ⟨encR_and_mask .., State.yields_of_finish rfl ?sra⟩,
    ⟨encR_and_mask .., State.yields_of_finish rfl fun _ _ => BitVec.getLsbD_or⟩,
    ⟨encR_and_mask .., State.yields_of_finish rfl fun _ _ => BitVec.getLsbD_and⟩⟩
  case add => exact s.xNat_eq_low rs1 ▸ s.xNat_eq_low rs2 ▸ s.low_add_nat ..
  case sub => exact s.xNat_eq_low rs1 ▸ s.xNat_eq_low rs2 ▸ s.low_sub ..
  case sll => rw [State.low_shiftLeft, shiftAmount_eq, State.xNat_eq_low s rs1]
  case sltu => exact s.xNat_eq_low rs1 ▸ s.xNat_eq_low rs2 ▸ zx_ult_iff ..
  case srl => rw [State.low_shiftRight, shiftAmount_eq, State.xNat_eq_low s rs1]
  case sra => rw [toInt_sshiftRight_eq_ediv, shiftAmount_eq]; rfl

/-! ### Low words (R319-R327) -/

theorem toInt_word32 (v : BitVec 32) : (word32 v).toInt = v.toInt := BitVec.toInt_signExtend_of_le (by decide)

theorem toInt_low32 (v : Word) : (low32 v).toInt = Int.bmod v.toInt (2 ^ 32) := by
  rw [low32, BitVec.toInt_setWidth, BitVec.toInt_eq_toNat_bmod, Int.bmod_bmod_of_dvd (by decide)]

theorem toInt_shiftLeft_low32 (v : Word) (n : Nat) :
    (low32 v <<< n).toInt = Int.bmod (v.toNat % 2 ^ 32 * 2 ^ n : Nat) (2 ^ 32) := by
  rw [BitVec.toInt_eq_toNat_bmod, BitVec.toNat_shiftLeft, Nat.shiftLeft_eq, low32, BitVec.toNat_setWidth, Int.natCast_mod,
    Int.emod_bmod]

theorem toInt_shiftRight_low32 (v : Word) (n : Nat) :
    (low32 v >>> n).toInt = Int.bmod (v.toNat % 2 ^ 32 / 2 ^ n : Nat) (2 ^ 32) := by
  rw [BitVec.toInt_eq_toNat_bmod, BitVec.toNat_ushiftRight, Nat.shiftRight_eq_div_pow, low32, BitVec.toNat_setWidth]

theorem toInt_sshiftRight_low32 (v : Word) (n : Nat) :
    ((low32 v).sshiftRight n).toInt = Int.bmod v.toNat (2 ^ 32) / 2 ^ n := by
  rw [toInt_sshiftRight_eq_ediv, low32, BitVec.toInt_setWidth]

/-- Settles O12: with XLEN=64 each completes with its 32-bit result, of which the lemmas above say the signed value. -/
theorem wordArithmetic : Obligations.WordArithmetic := by
  intro s rd rs1 rs2 imm sh hx
  have unsigned (r : Reg) : s.xNat r = (s.x r).toNat := by rw [State.xNat, hx]; rfl
  have yields {i : Instr} {v : BitVec 32} {z : Int} (he : exec i s = rv64Only i s (.next (s.finish rd (word32 v))))
      (hv : v.toInt = z) : s.Yields i rd fun w => w.toInt = z :=
    State.yields_of_finish (he.trans (rv64Only_of_xlen hx ..)) ((toInt_word32 v).trans hv)
  simp only [unsigned]
  refine ⟨⟨encI_and_mask .., yields rfl ?addiw⟩, ⟨encR_and_mask .., yields rfl (toInt_shiftLeft_low32 ..)⟩,
    ⟨encR_and_mask .., yields rfl (toInt_shiftRight_low32 ..)⟩, ⟨encR_and_mask .., yields rfl (toInt_sshiftRight_low32 ..)⟩,
    ⟨encR_and_mask .., yields rfl ?addw⟩, ⟨encR_and_mask .., yields rfl ?subw⟩,
    ⟨encR_and_mask .., yields rfl (toInt_shiftLeft_low32 ..)⟩, ⟨encR_and_mask .., yields rfl (toInt_shiftRight_low32 ..)⟩,
    ⟨encR_and_mask .., yields rfl (toInt_sshiftRight_low32 ..)⟩⟩
  case addiw => rw [toInt_low32, BitVec.toInt_add, Int.bmod_bmod_of_dvd (by decide), toInt_imm12]; rfl
  case addw => rw [BitVec.toInt_add, toInt_low32, toInt_low32, Int.add_bmod_bmod, Int.bmod_add_bmod]; rfl
  case subw => rw [BitVec.toInt_sub, toInt_low32, toInt_low32, Int.sub_bmod_bmod, Int.bmod_sub_bmod]; rfl

end Sys2Proof.Machine
end

section
/-! PROOFS. Jumps and conditional branches (O14, O15): the alignment of the target decides between going there and the exception. -/

namespace Sys2Proof.Machine

/-! ### Jumps (R281, R282) -/

theorem misalignedTarget_eq_false_iff (t : Word) : misalignedTarget t = false ↔ t.toNat % 4 = 0 := by
  simp [misalignedTarget_toNat]

/-- What an instruction that is a jump with a link does. -/
theorem State.jumps {s : State} {i : Instr} {rd : Reg} {t : Word} (he : exec i s = jumpTo rd t s) :
    if t.toNat % 4 = 0 then ∃ u, exec i s = .next u ∧ s.WritesReg u rd (s.pc + 4) t
    else s.Raises i ⟨.instrMisaligned, zx s.xlen t, s.virt, 0, 0⟩ := by
  rw [State.Raises, he, jumpTo]
  by_cases aligned : t.toNat % 4 = 0
  · rw [if_pos aligned, (misalignedTarget_eq_false_iff t).mpr aligned]
    exact ⟨_, rfl, s.writesReg_jump ..⟩
  · rw [if_neg aligned, if_pos (by simpa [misalignedTarget_toNat] using aligned)]
    rfl

/-- Clearing bit 0 of the sum, as JALR does. -/
theorem setBit_zero_false (w : Word) : setBit w 0 false = w &&& ~~~1#64 := by simp [setBit, bitAt]

/-- Settles O14: both are the jump `jumpTo`, of which `State.jumps` says what it does. -/
theorem jumps : Obligations.Jumps := by
  intro s rd rs1 off imm
  refine ⟨⟨encJ_and_mask .., State.jumps rfl⟩, encI_and_mask .., ?_⟩
  intro target
  exact State.jumps (by rw [show target = s.address rs1 imm &&& ~~~1#64 from setBit_zero_false _]; rfl)

/-! ### Conditional branches (R283-R288) -/

/-- What an instruction that is a branch does, `taken` being its condition. -/
theorem State.branches {s : State} {i : Instr} {b : Bool} {off : BitVec 13} {taken : Prop} (he : exec i s = branchIf b off s)
    (hb : b = true ↔ taken) :
    (taken → (s.pc + immB off).toNat % 4 = 0 → ∃ t, exec i s = .next t ∧ s.Advances t (s.pc + immB off))
    ∧ (taken → (s.pc + immB off).toNat % 4 ≠ 0 →
        s.Raises i ⟨.instrMisaligned, zx s.xlen (s.pc + immB off), s.virt, 0, 0⟩)
    ∧ (¬ taken → ∃ t, exec i s = .next t ∧ s.Advances t (s.pc + 4)) := by
  rw [State.Raises, he, branchIf]
  refine ⟨fun cond aligned => ?_, fun cond misaligned => ?_, fun cond => ?_⟩
  · rw [if_pos (hb.mpr cond), (misalignedTarget_eq_false_iff _).mpr aligned]
    exact ⟨_, rfl, s.advances_goto _⟩
  · rw [if_pos (hb.mpr cond), if_pos (by simpa [misalignedTarget_toNat] using misaligned)]
    rfl
  · rw [if_neg (mt hb.mp cond)]
    exact ⟨_, rfl, s.advances_next⟩

/-- Registers are equal where their unsigned values are: they hold no more than XLEN bits. -/
theorem State.xNat_inj (s : State) (r q : Reg) : s.xNat r = s.xNat q ↔ s.x r = s.x q := by
  refine ⟨fun h => ?_, fun h => by rw [State.xNat, State.xNat, h]⟩
  have same := congrArg (sx s.xlen) (BitVec.eq_of_toNat_eq h)
  simpa using same

/-- Settles O15: each is the branch `branchIf` on its condition, of which `State.branches` says what it does. -/
theorem branches : Obligations.Branches := by
  intro s rs1 rs2 off target does
  have branch {i : Instr} {m : BitVec 32} {b : Bool} {taken : Prop} (word : Encodes i 0x0000707F m)
      (he : exec i s = branchIf b off s) (hb : b = true ↔ taken) : does i m taken := ⟨word, State.branches he hb⟩
  have equal := s.xNat_inj rs1 rs2
  have less : (s.x rs1).slt (s.x rs2) = true ↔ s.xInt rs1 < s.xInt rs2 := slt_iff_toInt_lt ..
  have below : (zx s.xlen (s.x rs1)).ult (zx s.xlen (s.x rs2)) = true ↔ s.xNat rs1 < s.xNat rs2 := by
    rw [zx_ult_iff, State.xNat_eq_low, State.xNat_eq_low]
  refine ⟨branch (encB_and_mask ..) rfl ?_, branch (encB_and_mask ..) rfl ?_, branch (encB_and_mask ..) rfl less,
    branch (encB_and_mask ..) rfl ?_, branch (encB_and_mask ..) rfl below, branch (encB_and_mask ..) rfl ?_⟩
  · rw [beq_iff_eq, equal]
  · rw [bne_iff_ne, Ne, Ne, equal]
  · rw [Bool.not_eq_true', ← Bool.not_eq_true, less, Int.not_lt]
  · rw [Bool.not_eq_true', ← Bool.not_eq_true, below, Nat.not_lt]

end Sys2Proof.Machine
end

section
/-! PROOFS. Loads and stores in one part that complete (O16, O17, O18, O19), and the virtual-machine ones that do not (O21). -/

namespace Sys2Proof.Machine

/-! ### Bytes stored to a memory-mapped register (R187) -/

/-- A register with bytes stored into it from its k-th on. -/
def setBytes (v : Word) (k : Nat) : List Byte → Word
  | [] => v
  | b :: bs => setBytes (setField v (8 * k) b) (k + 1) bs

theorem field_setBytes_outside (v : Word) (k : Nat) (bs : List Byte) {j : Nat} (h : j < k ∨ k + bs.length ≤ j) :
    field (setBytes v k bs) (8 * j) 8 = field v (8 * j) 8 := by
  induction bs generalizing v k with
  | nil => rfl
  | cons b bs ih =>
    rw [List.length_cons] at h
    rw [setBytes, ih _ _ (by omega), field_setField_other _ _ _ _ _ (by omega)]

/-- The bytes stored are read back. -/
theorem fields_setBytes (v : Word) (k : Nat) (bs : List Byte) (h : k + bs.length ≤ 8) :
    (List.range bs.length).map (fun j => field (setBytes v k bs) (8 * (k + j)) 8) = bs := by
  induction bs generalizing v k with
  | nil => rfl
  | cons b bs ih =>
    rw [List.length_cons] at h ⊢
    have head : field (setBytes v k (b :: bs)) (8 * (k + 0)) 8 = b := by
      rw [Nat.add_zero, setBytes, field_setBytes_outside _ _ _ (.inl (Nat.lt_succ_self k)), field_setField_same _ _ _ (by omega)]
    have tail := ih (setField v (8 * k) b) (k + 1) (by omega)
    rw [List.range_succ_eq_map, List.map_cons, head, List.map_map]
    simp only [Function.comp_def, Nat.succ_eq_add_one, ← Nat.add_assoc, Nat.add_right_comm k _ 1] at tail ⊢
    exact congrArg (b :: ·) tail

theorem State.deviceValue_setDevice_same (s : State) {d : Device} (h : d ≠ .msip) (v : Word) : (s.setDevice d v).deviceValue d = v := by
  cases d with
  | mtime => rfl
  | mtimecmp => rfl
  | msip => exact absurd rfl h

theorem State.deviceValue_setDevice_other (s : State) {d d' : Device} (h : d' ≠ d) (v : Word) :
    (s.setDevice d v).deviceValue d' = s.deviceValue d' := by
  cases d with
  | mtime => cases d' with | mtime => exact absurd rfl h | mtimecmp | msip => rfl
  | mtimecmp => cases d' with | mtimecmp => exact absurd rfl h | mtime | msip => rfl
  | msip => cases d' with | msip => exact absurd rfl h | mtime | mtimecmp => rfl

theorem State.setPhysByte_device {s : State} {a k : Nat} {d : Device} (h : s.deviceAt a = some (d, k)) (b : Byte) :
    s.setPhysByte a b = s.setDevice d (setField (s.deviceValue d) (8 * k) b) := by
  rw [State.setPhysByte, h]

/-- Bytes stored where a memory-mapped register lies change that register alone. -/
theorem State.physWrite_device {s : State} {pa k : Nat} {d : Device} {bs : List Byte}
    (h : ∀ j, j < bs.length → s.deviceAt (pa + j) = some (d, k + j)) :
    (s.physWrite pa bs).mem = s.mem ∧ (∀ d', d' ≠ d → (s.physWrite pa bs).deviceValue d' = s.deviceValue d')
      ∧ (d ≠ .msip → (s.physWrite pa bs).deviceValue d = setBytes (s.deviceValue d) k bs) := by
  induction bs generalizing s pa k with
  | nil => exact ⟨rfl, fun _ _ => rfl, fun _ => rfl⟩
  | cons b bs ih =>
    have here := State.setPhysByte_device (h 0 (Nat.succ_pos _)) b
    rw [Nat.add_zero] at here
    have rest (j : Nat) (hj : j < bs.length) : (s.setPhysByte pa b).deviceAt (pa + 1 + j) = some (d, k + 1 + j) := by
      rw [State.deviceAt_congr (s.setPhysByte_cfg pa b), Nat.add_assoc, Nat.add_assoc, Nat.add_comm 1 j]
      exact h (j + 1) (Nat.succ_lt_succ hj)
    obtain ⟨mem, others, value⟩ := ih rest
    rw [State.physWrite]
    refine ⟨mem.trans (by simp [here]), fun d' hd => (others d' hd).trans ?_, fun hd => (value hd).trans ?_⟩
    · rw [here, State.deviceValue_setDevice_other _ hd]
    · rw [here, State.deviceValue_setDevice_same _ hd, setBytes, Nat.add_zero]

theorem State.deviceValue_next (s : State) (d : Device) : s.next.deviceValue d = s.deviceValue d := by
  cases d <;> simp [State.deviceValue]

/-! ### Accesses that complete (R171, R173) -/

/-- Completing an instruction whose walks lead from s to t, and whose stores from there to u. -/
theorem State.next_of_onlyMemory {s t u : State} (walks : s.OnlyMemory t) (stores : t.OnlyMemory u) :
    u.next = { t with
      pc := u.next.pc, mem := u.next.mem, mtime := u.next.mtime, mtimecmp := u.next.mtimecmp, msip := u.next.msip
      cnt := { s.cnt with minstret := if s.countsInstret then s.cnt.minstret + 1 else s.cnt.minstret } } := by
  obtain ⟨m, a, b, c, rfl⟩ := stores.eq
  obtain ⟨m', a', b', c', rfl⟩ := walks.eq
  rw [State.next, State.retire_eq]
  rfl

section
variable {s : State} {i : Instr} {a : Access} {rd : Reg} {ext : Word → Word}

/-- A load in one part completes with the value of the bytes it reaches. -/
theorem State.loadsBy {P : Nat → Word → Prop} (hw : a.WidthOk) (hext : Extends a.width ext P)
    (he : exec i s = s.load a rd ext) : s.LoadsBy i a rd P := by
  intro pa rs t one reached
  have walk := State.reach_walked reached
  have done : exec i s = .next (t.finish rd (ext (valueOfBytes (s.bigEndian a.p a.v) (t.physRead pa a.width)))) := by
    rw [he, State.load_attempted one.attempted, State.readBytes_one (one.firstWidth hw), reached]
  exact ⟨_, _, done, walk.only, fun kept => State.reachPart_pure kept reached, walk.only.pc ▸ t.writesReg_finish rd _,
    hext.valueOfBytes _ (t.length_physRead ..)⟩

/-- A store in one part completes with its bytes where it reaches. -/
theorem State.storesBy {value : Word} (hw : a.WidthOk) (he : exec i s = s.store a value) : s.StoresBy i a value := by
  intro pa rs t wf one reached
  have walk := State.reach_walked reached
  generalize hbs : bytesOfValue (s.bigEndian a.p a.v) a.width value = bs
  have length : bs.length = a.width := hbs ▸ length_bytesOfValue ..
  have ordered : orderedValue (s.bigEndian a.p a.v) bs = value.toNat % 256 ^ a.width := hbs ▸ orderedValue_bytesOfValue ..
  have done : exec i s = .next (t.physWrite pa bs).next := by
    rw [he, State.store_attempted one.attempted, State.writeBytes_one _ (one.firstWidth hw), reached, hbs]
  have stores := (t.walked_physWrite pa bs).only
  refine ⟨_, done, walk.only, fun kept => State.reachPart_pure kept reached, ?pc, State.next_of_onlyMemory walk.only stores, ?rest⟩
  case pc =>
    obtain ⟨m, a, b, c, frame⟩ := (walk.only.trans stores).eq
    rw [State.next_pc, frame]
    rfl
  simp only [State.next_mem, State.next_mtime, State.next_mtimecmp, State.next_msip, State.deviceValue_next]
  refine ⟨fun k hk => t.read_physWrite_outside pa bs (length ▸ hk), fun memory => ?memory, fun d k device => ?device⟩
  case memory =>
    rw [State.physWrite_memory fun j hj => memory j (length ▸ hj), ← length, Memory.readBytes_writeBytes (walk.wf wf), length]
    exact ⟨ordered, rfl, rfl, rfl⟩
  case device =>
    obtain ⟨mem, others, written⟩ := State.physWrite_device (s := t) (bs := bs) fun j hj => device j (length ▸ hj)
    refine ⟨mem, others, fun hd within => ?_⟩
    rw [written hd, ← length, fields_setBytes _ _ _ (length ▸ within), length]
    exact ⟨ordered, fun j _ hj => field_setBytes_outside _ _ _ (length ▸ hj)⟩

end

/-- Settles O16: each instruction is the load of one access, which completes with the value of the bytes it reaches (`State.loadsBy`). -/
theorem loadsComplete : Obligations.LoadsComplete := by
  intro s rd rs1 imm access
  have loads {i : Instr} {n : Nat} {ext : Word → Word} {P : Nat → Word → Prop} (hn : n = 1 ∨ n = 2 ∨ n = 4 ∨ n = 8)
      (hext : Extends n ext P) (he : exec i s = s.load (access i n) rd ext) : s.LoadsBy i (access i n) rd P :=
    State.loadsBy hn hext he
  have signed {n : Nat} (hn : n ≤ 8) := extends_sextBytes hn
  have unsigned {n : Nat} (hn : n ≤ 8) := extends_zextBytes hn
  exact ⟨⟨encI_and_mask .., loads (by decide) (signed (by decide)) rfl⟩,
    ⟨encI_and_mask .., loads (by decide) (signed (by decide)) rfl⟩,
    ⟨encI_and_mask .., loads (by decide) (signed (by decide)) rfl⟩,
    ⟨encI_and_mask .., loads (by decide) (unsigned (by decide)) rfl⟩,
    ⟨encI_and_mask .., loads (by decide) (unsigned (by decide)) rfl⟩,
    ⟨encI_and_mask .., fun hx => loads (by decide) (unsigned (by decide)) (exec_lwu hx ..)⟩,
    ⟨encI_and_mask .., fun hx => loads (by decide) (unsigned (by decide)) (exec_ld hx ..)⟩⟩

/-- Settles O17: each instruction is the store of one access, which completes with its bytes where it reaches (`State.storesBy`). -/
theorem storesComplete : Obligations.StoresComplete := by
  intro s rs1 rs2 imm access
  have stores {i : Instr} {n : Nat} (hn : n = 1 ∨ n = 2 ∨ n = 4 ∨ n = 8) (he : exec i s = s.store (access i n) (s.x rs2)) :
      s.StoresBy i (access i n) (s.x rs2) := State.storesBy hn he
  exact ⟨⟨encS_and_mask .., stores (by decide) rfl⟩, ⟨encS_and_mask .., stores (by decide) rfl⟩,
    ⟨encS_and_mask .., stores (by decide) rfl⟩, ⟨encS_and_mask .., fun hx => stores (by decide) (exec_sd hx ..)⟩⟩

/-! ### The virtual-machine loads and stores (R260-R273) -/

/-- Settles O18: where they are permitted (`hvWith_allowed`), each is the load of one access, made with V=1. -/
theorem virtualMachineLoadsComplete : Obligations.VirtualMachineLoadsComplete := by
  intro s rd rs1 hH hv hu access
  have loads {i : Instr} {need : Need} {n : Nat} {ext : Word → Word} {P : Nat → Word → Prop} (hn : n = 1 ∨ n = 2 ∨ n = 4 ∨ n = 8)
      (hext : Extends n ext P) (he : exec i s = s.load (access i need n) rd ext) : s.LoadsBy i (access i need n) rd P :=
    State.loadsBy hn hext he
  have signed {n : Nat} (hn : n ≤ 8) := extends_sextBytes hn
  have unsigned {n : Nat} (hn : n ≤ 8) := extends_zextBytes hn
  have allowed := hvWith_allowed ⟨hH, hv, hu⟩
  have wide (hx : s.xlen = .rv64) (i : Instr) (r : Result) :=
    (hvRv64Only_of_xlen ⟨hH, hv, hu⟩ hx i (hvWith i s r)).trans (allowed i r)
  exact ⟨⟨encR_and_mask_rs2 .., loads (by decide) (signed (by decide)) (allowed ..)⟩,
    ⟨encR_and_mask_rs2 .., loads (by decide) (unsigned (by decide)) (allowed ..)⟩,
    ⟨encR_and_mask_rs2 .., loads (by decide) (signed (by decide)) (allowed ..)⟩,
    ⟨encR_and_mask_rs2 .., loads (by decide) (unsigned (by decide)) (allowed ..)⟩,
    ⟨encR_and_mask_rs2 .., loads (by decide) (signed (by decide)) (allowed ..)⟩,
    ⟨encR_and_mask_rs2 .., fun hx => loads (by decide) (unsigned (by decide)) (wide hx ..)⟩,
    ⟨encR_and_mask_rs2 .., fun hx => loads (by decide) (unsigned (by decide)) (wide hx ..)⟩,
    ⟨encR_and_mask_rs2 .., loads (by decide) (unsigned (by decide)) (allowed ..)⟩,
    ⟨encR_and_mask_rs2 .., loads (by decide) (unsigned (by decide)) (allowed ..)⟩⟩

/-- Settles O19: where they are permitted, each is the store of one access, made with V=1. -/
theorem virtualMachineStoresComplete : Obligations.VirtualMachineStoresComplete := by
  intro s rs1 rs2 hH hv hu access
  have stores {i : Instr} {n : Nat} (hn : n = 1 ∨ n = 2 ∨ n = 4 ∨ n = 8) (he : exec i s = s.store (access i n) (s.x rs2)) :
      s.StoresBy i (access i n) (s.x rs2) := State.storesBy hn he
  have allowed := hvWith_allowed ⟨hH, hv, hu⟩
  exact ⟨⟨encR_and_mask_rd .., stores (by decide) (allowed ..)⟩, ⟨encR_and_mask_rd .., stores (by decide) (allowed ..)⟩,
    ⟨encR_and_mask_rd .., stores (by decide) (allowed ..)⟩, ⟨encR_and_mask_rd .., fun hx =>
      stores (by decide) ((hvRv64Only_of_xlen ⟨hH, hv, hu⟩ hx ..).trans (allowed ..))⟩⟩

/-- Settles O21: as O20, each being the load or the store of one access where it is permitted. -/
theorem abortedVirtualMachineAccessesRaise : Obligations.AbortedVirtualMachineAccessesRaise := by
  intro s rd rs1 rs2 hH hv hu load store
  have loads {i : Instr} {need : Need} {n : Nat} {ext : Word → Word} (hneed : need = .load ∨ need = .execLoad)
      (hn : n = 1 ∨ n = 2 ∨ n = 4 ∨ n = 8)
      (he : exec i s = s.load (s.guestAccess need n (s.x rs1) (guestForm i)) rd ext) : load i need n :=
    ⟨State.loadFaultsBy hneed hn he, State.misalignsBy_load hneed he⟩
  have stores {i : Instr} {n : Nat} (hn : n = 1 ∨ n = 2 ∨ n = 4 ∨ n = 8)
      (he : exec i s = s.store (s.guestAccess .store n (s.x rs1) (guestForm i)) (s.x rs2)) : store i n :=
    ⟨State.storeFaultsBy rfl hn he, State.misalignsBy_store rfl he⟩
  have allowed := hvWith_allowed ⟨hH, hv, hu⟩
  refine ⟨loads (.inl rfl) (by decide) (allowed ..), loads (.inl rfl) (by decide) (allowed ..),
    loads (.inl rfl) (by decide) (allowed ..), loads (.inl rfl) (by decide) (allowed ..),
    loads (.inl rfl) (by decide) (allowed ..), loads (.inr rfl) (by decide) (allowed ..),
    loads (.inr rfl) (by decide) (allowed ..), stores (by decide) (allowed ..), stores (by decide) (allowed ..),
    stores (by decide) (allowed ..), fun hx => ?_⟩
  have wide (i : Instr) (r : Result) := (hvRv64Only_of_xlen ⟨hH, hv, hu⟩ hx i (hvWith i s r)).trans (allowed i r)
  exact ⟨loads (.inl rfl) (by decide) (wide ..), loads (.inl rfl) (by decide) (wide ..), stores (by decide) (wide ..)⟩

end Sys2Proof.Machine
end

section
/-! PROOFS. The hypervisor instructions and the words of RV64 (O13, O36, O38), and the instructions that only order (O39): which
verdict or exception each is given, and what a permitted fence drops. -/

namespace Sys2Proof.Machine

/-! ### The words of RV64 (R230) -/

theorem rv64Only_rv32 {s : State} (h : s.xlen = .rv32) (i : Instr) (r : Result) : rv64Only i s r = raiseIllegal i s := by
  rw [rv64Only, h]

/-- With V=1 HSXLEN decides whether the words of the hypervisor extension exist (R230, R347). -/
theorem hvRv64Only_host {s : State} (h : s.virt = false ∨ s.sxlen = .rv32) (i : Instr) (r : Result) :
    hvRv64Only i s r = rv64Only i s r := by
  refine if_neg fun guest => ?_
  simp only [Bool.and_eq_true, decide_eq_true_eq] at guest
  rcases h with h | h
  · simp [h] at guest
  · simp [h] at guest

theorem hvRv64Only_exists {s : State} (h : s.xlen = .rv64 ∨ (s.virt = true ∧ s.sxlen = .rv64)) (i : Instr) (r : Result) :
    hvRv64Only i s r = r := by
  rcases h with hx | ⟨hv, hx⟩
  · rw [hvRv64Only, rv64Only_of_xlen hx, ite_self]
  · simp [hvRv64Only, hv, hx]

/-- Settles O13: each is an instruction of RV64 (`rv64Only_rv32`), the virtual-machine ones where V is 0 or HSXLEN 32. -/
theorem wordsOfRv64AreIllegalOnRv32 : Obligations.WordsOfRv64AreIllegalOnRv32 := by
  intro s rd rs1 rs2 imm sh hx
  have illegal {i : Instr} {r : Result} (he : exec i s = rv64Only i s r) : s.IsIllegal i := he.trans (rv64Only_rv32 hx i r)
  rw [List.forall_mem_append]
  constructor
  · simp only [List.forall_mem_cons]
    exact ⟨illegal rfl, illegal rfl, illegal rfl, illegal rfl, illegal rfl, illegal rfl, illegal rfl, illegal rfl, illegal rfl,
      illegal rfl, illegal rfl, illegal rfl, List.forall_mem_nil _⟩
  · split
    · next h =>
      simp only [List.forall_mem_cons]
      exact ⟨illegal (hvRv64Only_host h ..), illegal (hvRv64Only_host h ..), illegal (hvRv64Only_host h ..), List.forall_mem_nil _⟩
    · exact List.forall_mem_nil _

/-! ### The instructions that only order (R257, R258, R328, R329) -/

theorem State.invalOrderVerdict_allowed {s : State} (hs : s.hasS = true) (hi : s.cfg.svinval = true) (hp : s.priv ≠ .u) :
    s.invalOrderVerdict = .allowed := by
  cases priv : s.priv with
  | u => exact absurd priv hp
  | s => simp [State.invalOrderVerdict, hs, hi, priv]
  | m => simp [State.invalOrderVerdict, hs, hi, priv]

/-- A permitted fence that only orders. -/
theorem IsFence.advances {i : Instr} {verdict : State → Verdict} (h : IsFence i verdict State.order) {s : State}
    (hv : verdict s = .allowed) : ∃ t, exec i s = .next t ∧ s.Advances t (s.pc + 4) := by
  rw [h, hv]
  exact ⟨_, rfl, s.advances_next⟩

/-- Settles O39: FENCE and FENCE.I are `State.next`, and so are the other two where they are permitted. -/
theorem orderingInstructionsAdvance : Obligations.OrderingInstructionsAdvance := by
  intro s rd rs1 fm pred succ imm
  refine ⟨⟨encFence_and_mask .., _, rfl, s.advances_next⟩, ⟨encI_and_mask .., _, rfl, s.advances_next⟩, fun hs hi hp => ?_⟩
  have allowed := State.invalOrderVerdict_allowed hs hi hp
  exact ⟨isFence_sfenceWInval.advances allowed, isFence_sfenceInvalIr.advances allowed⟩

/-! ### HFENCE and HINVAL (R274-R277) -/

theorem isFence_hfenceVvma (rs1 rs2 : Reg) :
    IsFence (.hfenceVvma rs1 rs2) State.hfenceVvmaVerdict (·.hfenceVvma rs1 rs2) := fun _ => rfl

theorem isFence_hfenceGvma (rs1 rs2 : Reg) :
    IsFence (.hfenceGvma rs1 rs2) State.hfenceGvmaVerdict (·.hfenceGvma rs1 rs2) := fun _ => rfl

theorem CacheEntry.fencedG_iff (e : CacheEntry) (gpa vmid : Option Nat) :
    e.fencedG gpa vmid = true ↔ e.stage = .g ∧ (∀ a, gpa = some a → e.IsFor a) ∧ (∀ n, vmid = some n → e.vmid = n) := by
  cases gpa <;> cases vmid <;>
    simp [CacheEntry.fencedG, CacheEntry.holds, CacheEntry.IsFor, vpnFrom, and_assoc, and_comm, and_left_comm]

section
variable (s : State) (rs1 rs2 : Reg)

theorem State.mem_hfenceVvma_cache (e : CacheEntry) :
    e ∈ (s.hfenceVvma rs1 rs2).cache ↔ e ∈ s.cache ∧ ¬ s.DropsVa .vs s.vmid s.vsxlen s.vc.vsatp rs1 rs2 e :=
  s.mem_fenceVa_operands ..

theorem State.mem_hfenceVvma_pmpCopies (c : PmpCopy) :
    c ∈ (s.hfenceVvma rs1 rs2).pmpCopies ↔ c ∈ s.pmpCopies ∧ ¬ False := by
  rw [State.hfenceVvma, State.fenceVa_pmpCopies]
  simp

theorem State.mem_hfenceGvma_cache (e : CacheEntry) :
    e ∈ (s.hfenceGvma rs1 rs2).cache ↔ e ∈ s.cache ∧ ¬ s.DropsGpa rs1 rs2 e := by
  rw [State.hfenceGvma, State.fencePmp_cache, State.fenceGpa, List.mem_filter, Bool.not_eq_true', ← Bool.not_eq_true,
    CacheEntry.fencedG_iff, forall_operand, forall_operand]
  exact Iff.rfl

theorem State.mem_hfenceGvma_pmpCopies (c : PmpCopy) :
    c ∈ (s.hfenceGvma rs1 rs2).pmpCopies ↔ c ∈ s.pmpCopies ∧ ¬ endsGuestChecks rs1 rs2 c :=
  State.mem_fencePmp_pmpCopies ..

end

section
variable {s : State} {i : Instr} {verdict : State → Verdict} {rs1 rs2 : Reg}

theorem IsFence.fences_hfenceVvma (h : IsFence i verdict (·.hfenceVvma rs1 rs2)) (hv : verdict s = .allowed) :
    s.Fences i (s.DropsVa .vs s.vmid s.vsxlen s.vc.vsatp rs1 rs2) fun _ => False :=
  h.fences hv (s.hfenceVvma_eq rs1 rs2) (s.mem_hfenceVvma_cache rs1 rs2) (s.mem_hfenceVvma_pmpCopies rs1 rs2)

theorem IsFence.fences_hfenceGvma (h : IsFence i verdict (·.hfenceGvma rs1 rs2)) (hv : verdict s = .allowed) :
    s.Fences i (s.DropsGpa rs1 rs2) (endsGuestChecks rs1 rs2) :=
  h.fences hv (s.hfenceGvma_eq rs1 rs2) (s.mem_hfenceGvma_cache rs1 rs2) (s.mem_hfenceGvma_pmpCopies rs1 rs2)

/-! The verdicts. -/

theorem State.hfenceVvmaVerdict_allowed (hH : s.hasH = true) (hv : s.virt = false) (hp : s.priv ≠ .u) :
    s.hfenceVvmaVerdict = .allowed := by
  simp [State.hfenceVvmaVerdict, hH, hv, hp]

theorem State.hfenceGvmaVerdict_allowed (h : s.hfenceVvmaVerdict = .allowed) (tvm : ¬ (s.priv = .s ∧ s.mstatusTVM = true)) :
    s.hfenceGvmaVerdict = .allowed := (if_neg fun refused => tvm refused.2).trans h

theorem State.hfenceGvmaVerdict_refused (h : s.hfenceVvmaVerdict ≠ .allowed) : s.hfenceGvmaVerdict = s.hfenceVvmaVerdict :=
  if_neg fun allowed => h allowed.1

theorem State.hfenceGvmaVerdict_tvm (h : s.hfenceVvmaVerdict = .allowed) (hp : s.priv = .s) (tvm : s.mstatusTVM = true) :
    s.hfenceGvmaVerdict = .illegal := if_pos ⟨h, hp, tvm⟩

end

/-- Settles O36: the VVMA forms are one permitted fence, the GVMA forms another; what each drops is said of the cache and of the kept
PMP results. -/
theorem hypervisorFencesDropSelected : Obligations.HypervisorFencesDropSelected := by
  intro s rs1 rs2 hH hv hp drops
  have vvma := State.hfenceVvmaVerdict_allowed hH hv hp
  refine ⟨(isFence_hfenceVvma rs1 rs2).fences_hfenceVvma vvma, fun svinval =>
    (isFence_hinvalVvma rs1 rs2).fences_hfenceVvma ((State.withSvinval_of_svinval svinval _).trans vvma), fun tvm => ?_⟩
  have gvma := State.hfenceGvmaVerdict_allowed vvma tvm
  exact ⟨(isFence_hfenceGvma rs1 rs2).fences_hfenceGvma gvma, fun svinval =>
    (isFence_hinvalGvma rs1 rs2).fences_hfenceGvma ((State.withSvinval_of_svinval svinval _).trans gvma)⟩

/-! ### Who may not execute the hypervisor instructions (R260, R274-R277, R347) -/

theorem isIllegal_of_hvVerdict {s : State} {i : Instr} {r : Result} (he : exec i s = hvWith i s r)
    (hv : s.hvVerdict = .illegal) : s.IsIllegal i := by
  change exec i s = raiseIllegal i s
  rw [he, hvWith, hv]

theorem isVirtual_of_hvVerdict {s : State} {i : Instr} {r : Result} (he : exec i s = hvWith i s r)
    (hv : s.hvVerdict = .virtual) : s.IsVirtual i := by
  change exec i s = raiseVirtual i s
  rw [he, hvWith, hv]

/-- Settles O38: each instruction is an access with the verdict `State.hvVerdict` or a fence, refused where HFENCE.VVMA is. -/
theorem hypervisorPermissions : Obligations.HypervisorPermissions := by
  intro s rd rs1 rs2 accesses fences
  have access : ∀ i ∈ accesses, ∃ r, exec i s = hvWith i s r := by
    rw [List.forall_mem_append]
    constructor
    · simp only [List.forall_mem_cons]
      exact ⟨⟨_, rfl⟩, ⟨_, rfl⟩, ⟨_, rfl⟩, ⟨_, rfl⟩, ⟨_, rfl⟩, ⟨_, rfl⟩, ⟨_, rfl⟩, ⟨_, rfl⟩, ⟨_, rfl⟩, ⟨_, rfl⟩,
        List.forall_mem_nil _⟩
    · split
      · next h =>
        simp only [List.forall_mem_cons]
        exact ⟨⟨_, hvRv64Only_exists h ..⟩, ⟨_, hvRv64Only_exists h ..⟩, ⟨_, hvRv64Only_exists h ..⟩, List.forall_mem_nil _⟩
      · exact List.forall_mem_nil _
  have fence : ∀ i ∈ fences, ∃ verdict effect, IsFence i verdict effect
      ∧ (s.hfenceVvmaVerdict ≠ .allowed → verdict s = s.hfenceVvmaVerdict) := by
    rw [List.forall_mem_append]
    constructor
    · simp only [List.forall_mem_cons]
      exact ⟨⟨_, _, isFence_hfenceVvma rs1 rs2, fun _ => rfl⟩,
        ⟨_, _, isFence_hfenceGvma rs1 rs2, State.hfenceGvmaVerdict_refused⟩, List.forall_mem_nil _⟩
    · split
      · next svinval =>
        have same (v : State → Verdict) := State.withSvinval_of_svinval svinval v
        simp only [List.forall_mem_cons]
        exact ⟨⟨_, _, isFence_hinvalVvma rs1 rs2, fun _ => same _⟩,
          ⟨_, _, isFence_hinvalGvma rs1 rs2, fun h => (same _).trans (State.hfenceGvmaVerdict_refused h)⟩, List.forall_mem_nil _⟩
      · exact List.forall_mem_nil _
  have accessIllegal (h : s.hvVerdict = .illegal) : ∀ i ∈ accesses, s.IsIllegal i := fun i hi =>
    isIllegal_of_hvVerdict (access i hi).choose_spec h
  have accessVirtual (h : s.hvVerdict = .virtual) : ∀ i ∈ accesses, s.IsVirtual i := fun i hi =>
    isVirtual_of_hvVerdict (access i hi).choose_spec h
  have fenceIllegal (h : s.hfenceVvmaVerdict = .illegal) : ∀ i ∈ fences, s.IsIllegal i := fun i hi => by
    obtain ⟨verdict, effect, is, refused⟩ := fence i hi
    exact is.isIllegal ((refused (by simp [h])).trans h)
  have fenceVirtual (h : s.hfenceVvmaVerdict = .virtual) : ∀ i ∈ fences, s.IsVirtual i := fun i hi => by
    obtain ⟨verdict, effect, is, refused⟩ := fence i hi
    exact is.isVirtual ((refused (by simp [h])).trans h)
  refine ⟨fun noH => ?_, fun hH hv => ?_, fun hH hv hp hu => ?_, fun hH hv hp => ?_, fun hH hv hp tvm => ?_⟩
  · rw [List.forall_mem_append]
    exact ⟨accessIllegal (by simp [State.hvVerdict, noH]), fenceIllegal (by simp [State.hfenceVvmaVerdict, noH])⟩
  · rw [List.forall_mem_append]
    exact ⟨accessVirtual (by simp [State.hvVerdict, hH, hv]), fenceVirtual (by simp [State.hfenceVvmaVerdict, hH, hv])⟩
  · exact accessIllegal (by simp [State.hvVerdict, hH, hv, hp, hu])
  · exact fenceIllegal (by simp [State.hfenceVvmaVerdict, hH, hv, hp])
  · have allowed := State.hfenceVvmaVerdict_allowed hH hv (by simp [hp])
    have verdict := State.hfenceGvmaVerdict_tvm allowed hp tvm
    exact ⟨(isFence_hfenceGvma rs1 rs2).isIllegal verdict,
      (isFence_hinvalGvma rs1 rs2).isIllegal (State.withSvinval_illegal verdict)⟩

end Sys2Proof.Machine
end

section
/-! PROOFS. Every step completes (O34): a reference to memory stops the machine only at a device that the spec does not describe, and
nothing else in an instruction, a fetch or an interrupt answers anything but a next state. -/

namespace Sys2Proof.Machine

/-- The memory map has an I/O region whose device the spec does not describe (R178). -/
def HasUndescribed (c : Config) : Prop := ∃ r ∈ c.pma, r.kind = .io

/-! ### References that stop the machine (R171, R178) -/

theorem State.mem_pma_of_regionsAt {s : State} {pa n : Nat} {rs : List Region} (h : s.regionsAt pa n = some rs) {r : Region}
    (hr : r ∈ rs) : r ∈ s.cfg.pma := by
  obtain ⟨b, -, found⟩ := (State.mem_regionsAt h).mp hr
  exact List.mem_of_find?_eq_some found

theorem State.checkRegions_ok {s : State} {use : Use} {p : Priv} {pa n : Nat} {rs : List Region}
    (h : s.checkRegions use p pa n = .ok rs) : s.regionsAt pa n = some rs := by
  unfold State.checkRegions at h
  split at h
  · cases h
  · next found =>
    split at h <;> cases h
    exact found

/-- PMP and PMA turn a reference away with an access fault, and with nothing else. -/
theorem State.checkRegions_error {s : State} {use : Use} {p : Priv} {pa n : Nat} {e : Abort}
    (h : s.checkRegions use p pa n = .error e) : e = .access := by
  unfold State.checkRegions at h
  split at h
  · cases h; rfl
  · split at h <;> cases h
    rfl

theorem State.undescribed_of_reachRegions {s : State} {use : Use} {p : Priv} {pa n : Nat} {rs : List Region} {e : Abort}
    (h : s.checkRegions use p pa n = .ok rs) (stop : reachRegions pa rs = .error e) : HasUndescribed s.cfg := by
  unfold reachRegions at stop
  split at stop <;> cases stop
  next device =>
  obtain ⟨r, hr, io⟩ := List.any_eq_true.mp device
  exact ⟨r, State.mem_pma_of_regionsAt (State.checkRegions_ok h) hr, beq_iff_eq.mp io⟩

theorem State.undescribed_of_checkPhys {s : State} {use : Use} {p : Priv} {pa n : Nat} {f : Fault}
    (h : s.checkPhys use p pa n = .error (.stop f)) : HasUndescribed s.cfg := by
  unfold State.checkPhys at h
  split at h
  · next denied => cases h; cases State.checkRegions_error denied
  · next passed => exact State.undescribed_of_reachRegions passed h

/-! ### Walks that stop the machine (R206) -/

/-- A resolver that stops the machine only at such a device. -/
def Resolver.StopsAtDevices (r : Resolver) : Prop := ∀ s a need f, r s a need = .error (.stop f) → HasUndescribed s.cfg

theorem physicalTables_stopsAtDevices : Resolver.StopsAtDevices physicalTables := fun _ _ _ _ h => by cases h

theorem State.Walked.cfg {s t : State} (h : s.Walked t) : t.cfg = s.cfg := h.only.cfg

section
variable {w : Walk} {resolve : Resolver} (gentle : resolve.Gentle) (devices : resolve.StopsAtDevices) {s : State} {f : Fault}
include gentle devices

theorem Walk.undescribed_of_readPte {a : Nat} (h : w.readPte resolve s a = .error (.stop f)) : HasUndescribed s.cfg := by
  unfold Walk.readPte at h
  split at h
  · next found => cases h; exact devices _ _ _ _ found
  · next x u found =>
    split at h
    · next denied => cases h; exact (gentle _ _ _ _ _ found).cfg ▸ State.undescribed_of_checkPhys denied
    · split at h <;> cases h

theorem Walk.undescribed_of_finishLeaf {a level va : Nat} {p : Word}
    (h : w.finishLeaf resolve s a level va p = .error (.stop f)) : HasUndescribed s.cfg := by
  unfold Walk.finishLeaf Walk.writePte at h
  split at h
  · next denied =>
    cases h
    split at denied
    · next found => cases denied; exact devices _ _ _ _ found
    · next x u found =>
      split at denied <;> cases denied
      next check => exact (gentle _ _ _ _ _ found).cfg ▸ State.undescribed_of_checkPhys check
  · cases h

theorem Walk.undescribed_of_go {va n table : Nat} (h : w.go resolve va n table s = .error (.stop f)) : HasUndescribed s.cfg := by
  induction n generalizing table s with
  | zero => cases h
  | succ level ih =>
    have concludes {a : Nat} {p : Word} {u : State} (h : w.conclude resolve va level a p u = .error (.stop f)) :
        HasUndescribed u.cfg := by
      unfold Walk.conclude at h
      split at h
      · cases h
      · exact ih h
      · cases h
      · exact Walk.undescribed_of_finishLeaf gentle devices h
    have fromMemory {a : Nat} (h : (match w.readPte resolve s a with
        | .error e => (.error e : Except Abort (Target × State))
        | .ok (p, u) => w.conclude resolve va level a p u) = .error (.stop f)) : HasUndescribed s.cfg := by
      split at h
      · next denied => cases h; exact Walk.undescribed_of_readPte gentle devices denied
      · next read => exact (Walk.readPte_walked gentle read).cfg ▸ concludes h
    rw [Walk.go] at h
    split at h
    · exact fromMemory h
    · split at h
      · cases h
      · exact ih h
      · cases h
      · exact fromMemory h

end

/-! ### Accesses that stop the machine (R171, R172) -/

section
variable {s : State} {f : Fault}

theorem State.undescribed_of_translateG {gpa : Nat} {need : Need} {implicit : Option Bool}
    (h : s.translateG gpa need implicit = .error (.stop f)) : HasUndescribed s.cfg := by
  unfold State.translateG State.translateGBy at h
  split at h
  · cases h
  · split at h
    · split at h
      · cases h
      · next e walk =>
        have stop : e = .stop f := by cases e <;> simp_all [asGuestFault]
        exact Walk.undescribed_of_go physicalTables_gentle physicalTables_stopsAtDevices (stop ▸ walk)
    · cases h

theorem guestTables_stopsAtDevices : Resolver.StopsAtDevices guestTables := fun _ _ _ _ h => State.undescribed_of_translateG h

theorem State.undescribed_of_translateS {va : Word} {need : Need} {p : Priv} (h : s.translateS va need p = .error (.stop f)) :
    HasUndescribed s.cfg := by
  unfold State.translateS at h
  split at h
  · split at h <;> cases h
  · split at h
    · exact Walk.undescribed_of_go physicalTables_gentle physicalTables_stopsAtDevices h
    · cases h

theorem State.undescribed_of_translateVS {va : Word} {need : Need} {p : Priv} (h : s.translateVS va need p = .error (.stop f)) :
    HasUndescribed s.cfg := by
  unfold State.translateVS at h
  split at h
  · split at h <;> cases h
  · split at h
    · exact Walk.undescribed_of_go guestTables_gentle guestTables_stopsAtDevices h
    · cases h

theorem State.undescribed_of_translate {va : Word} {need : Need} {p : Priv} {v : Bool}
    (h : s.translate va need p v = .error (.stop f)) : HasUndescribed s.cfg := by
  unfold State.translate at h
  split at h
  · cases h
  split at h
  · unfold State.translateTwoStage at h
    split at h
    · next first => cases h; exact State.undescribed_of_translateVS first
    · next first =>
      split at h <;> cases h
      next second => exact (State.translateVS_walked first).cfg ▸ State.undescribed_of_translateG second
  · exact State.undescribed_of_translateS h

theorem State.undescribed_of_reachPart {a : Access} {va : Word} {n : Nat} {others : List Nat}
    (h : s.reachPart a va n others = .error (.stop f)) : HasUndescribed s.cfg := by
  unfold State.reachPart at h
  split at h
  · next denied => cases h; exact State.undescribed_of_translate denied
  · next translated =>
    split at h
    · next denied => cases h; cases State.checkRegions_error denied
    · next passed =>
      split at h
      · split at h <;> cases h
        next device => exact (State.translate_walked translated).cfg ▸ State.undescribed_of_reachRegions passed device
      · cases h

/-- A portion that stops the machine is one of a part that does. -/
theorem State.why_faultIn_stop {u : State} {splits : Bool} {a : Access} {va : Word} {i n : Nat} {others : List Nat} {e : Abort}
    (h : (u.faultIn splits a va i n others e).why = .stop f) : e = .stop f := by
  obtain ⟨k, m, -, named⟩ := u.faultIn_cases splits a va i n others e
  rw [named] at h
  cases e with
  | stop g => exact h
  | page | access => cases h
  | guestPage gpa implicit => cases implicit <;> cases h

theorem State.undescribed_of_readBytes {a : Access} {p : PartFault} (h : s.readBytes a = .error p) (stop : p.why = .stop f) :
    HasUndescribed s.cfg := by
  by_cases one : a.firstWidth = a.width
  · rw [State.readBytes_one one] at h
    split at h <;> cases h
    next fault => exact State.undescribed_of_reachPart (State.why_faultIn_stop stop ▸ fault)
  · rw [State.readBytes_two one] at h
    split at h
    · next fault => cases h; exact State.undescribed_of_reachPart (State.why_faultIn_stop stop ▸ fault)
    · next first =>
      split at h <;> cases h
      next fault =>
      exact (State.reachPart_walked first).cfg ▸ State.undescribed_of_reachPart (State.why_faultIn_stop stop ▸ fault)

theorem State.undescribed_of_writeBytes {a : Access} {bs : List Byte} {p : PartFault} {t : State}
    (h : s.writeBytes a bs = .error (p, t)) (stop : p.why = .stop f) : HasUndescribed s.cfg := by
  by_cases one : a.firstWidth = a.width
  · rw [State.writeBytes_one bs one] at h
    split at h <;> cases h
    next fault => exact State.undescribed_of_reachPart (State.why_faultIn_stop stop ▸ fault)
  · rw [State.writeBytes_two bs one] at h
    split at h
    · next fault => cases h; exact State.undescribed_of_reachPart (State.why_faultIn_stop stop ▸ fault)
    · next first =>
      split at h <;> cases h
      next fault =>
      exact (State.reachPart_write_walked first _).cfg ▸ State.undescribed_of_reachPart (State.why_faultIn_stop stop ▸ fault)

theorem State.undescribed_of_fetch (h : s.fetch = .error (.stop f)) : HasUndescribed s.cfg := by
  unfold State.fetch at h
  split at h <;> cases h
  next fault => exact State.undescribed_of_reachPart fault

end

/-! ### What instructions answer (R331, R361) -/

/-- A next state, or the stop at a device that the spec does not describe, which the memory map then has. -/
inductive Completes (c : Config) : Result → Prop where
  | next (t : State) : Completes c (.next t)
  | stop (f : Fault) (h : HasUndescribed c) : Completes c (.fault f)

section
variable {c : Config} {s : State} {i : Instr} {r : Result}

theorem completes_abort (u : State) (a : Access) (part : Word) {e : Abort} (h : ∀ f, e = .stop f → HasUndescribed c) :
    Completes c (u.abort a part e) := by
  cases e with
  | page | access => exact .next _
  | guestPage gpa implicit => cases implicit <;> exact .next _
  | stop f => exact .stop f (h f rfl)

theorem completes_load (s : State) (a : Access) (rd : Reg) (ext : Word → Word) : Completes s.cfg (s.load a rd ext) := by
  unfold State.load
  split
  · exact .next _
  · split
    · next fault => exact completes_abort _ _ _ fun f stop => State.undescribed_of_readBytes fault stop
    · exact .next _

theorem completes_store (s : State) (a : Access) (value : Word) : Completes s.cfg (s.store a value) := by
  unfold State.store
  split
  · exact .next _
  · split
    · next fault => exact completes_abort _ _ _ fun f stop => State.undescribed_of_writeBytes fault stop
    · exact .next _

theorem completes_rv64Only (h : Completes c r) : Completes c (rv64Only i s r) := by
  unfold rv64Only
  split
  · exact .next _
  · exact h

theorem completes_shiftImm {sh : BitVec 6} (h : Completes c r) : Completes c (shiftImm i sh s r) := by
  unfold shiftImm
  split
  · exact .next _
  · exact h

theorem completes_hvWith (h : Completes c r) : Completes c (hvWith i s r) := by
  unfold hvWith
  split
  · exact .next _
  · exact .next _
  · exact h

theorem completes_hvRv64Only (h : Completes c r) : Completes c (hvRv64Only i s r) := by
  unfold hvRv64Only
  split
  · exact h
  · exact completes_rv64Only h

theorem completes_jumpTo (rd : Reg) (t : Word) : Completes c (jumpTo rd t s) := by
  unfold jumpTo
  split <;> exact .next _

theorem completes_branchIf (taken : Bool) (off : BitVec 13) : Completes c (branchIf taken off s) := by
  unfold branchIf
  split
  · split <;> exact .next _
  · exact .next _

theorem completes_csrAccess (n : BitVec 12) (rd : Reg) (write : Bool) (value : Word → Word) :
    Completes c (csrAccess i n rd write value s) := by
  unfold csrAccess
  split
  · exact .next _
  · exact .next _
  · split
    · exact .next _
    · split <;> exact .next _

theorem AccessesCsr.completes {n : BitVec 12} {rd : Reg} {write : Bool} (h : AccessesCsr i n rd write) (s : State) :
    Completes s.cfg (exec i s) := by
  obtain ⟨value, runs⟩ := h
  exact runs s ▸ completes_csrAccess n rd write (value s)

theorem IsFence.completes {verdict : State → Verdict} {effect : State → State} (h : IsFence i verdict effect) (s : State) :
    Completes c (exec i s) := by
  rw [h s]
  cases verdict s <;> exact .next _

theorem completes_execMret : Completes c (execMret s) := by
  unfold execMret
  split <;> exact .next _

theorem completes_execMnret : Completes c (execMnret s) := by
  unfold execMnret
  split <;> exact .next _

theorem completes_execSret : Completes c (execSret s) := by
  unfold execSret
  split
  · split
    · exact .next _
    · exact .next _
    · split <;> exact .next _
    · split <;> exact .next _
    · exact .next _
  · exact .next _

theorem completes_execWfi : Completes c (execWfi s) := by
  unfold execWfi
  split
  · exact .next _
  · split <;> exact .next _
  · split <;> exact .next _
  · split
    · exact .next _
    · split <;> exact .next _
  · split
    · exact .next _
    · split <;> exact .next _

/-- Every instruction completes (every arm of exec). -/
theorem completes_exec (s : State) (i : Instr) : Completes s.cfg (exec i s) := by
  cases i with
  | ecall =>
    change Completes s.cfg (execEcall s)
    unfold execEcall
    split <;> exact .next _
  | mret => exact completes_execMret
  | mnret => exact completes_execMnret
  | sret => exact completes_execSret
  | wfi => exact completes_execWfi
  | csrrw rd n rs1 => exact (accessesCsr_csrrw rd rs1 n).completes s
  | csrrs rd n rs1 => exact (accessesCsr_csrrs rd rs1 n).completes s
  | csrrc rd n rs1 => exact (accessesCsr_csrrc rd rs1 n).completes s
  | csrrwi rd n u => exact (accessesCsr_csrrwi rd n u).completes s
  | csrrsi rd n u => exact (accessesCsr_csrrsi rd n u).completes s
  | csrrci rd n u => exact (accessesCsr_csrrci rd n u).completes s
  | sfenceVma rs1 rs2 => exact (isFence_sfenceVma rs1 rs2).completes s
  | sinvalVma rs1 rs2 => exact (isFence_sinvalVma rs1 rs2).completes s
  | sfenceWInval => exact isFence_sfenceWInval.completes s
  | sfenceInvalIr => exact isFence_sfenceInvalIr.completes s
  | hfenceVvma rs1 rs2 => exact (isFence_hfenceVvma rs1 rs2).completes s
  | hfenceGvma rs1 rs2 => exact (isFence_hfenceGvma rs1 rs2).completes s
  | hinvalVvma rs1 rs2 => exact (isFence_hinvalVvma rs1 rs2).completes s
  | hinvalGvma rs1 rs2 => exact (isFence_hinvalGvma rs1 rs2).completes s
  | hlvB | hlvBu | hlvH | hlvHu | hlvW | hlvxHu | hlvxWu => exact completes_hvWith (completes_load ..)
  | hsvB | hsvH | hsvW => exact completes_hvWith (completes_store ..)
  | hlvWu | hlvD => exact completes_hvRv64Only (completes_hvWith (completes_load ..))
  | hsvD => exact completes_hvRv64Only (completes_hvWith (completes_store ..))
  | jal | jalr => exact completes_jumpTo ..
  | beq | bne | blt | bge | bltu | bgeu => exact completes_branchIf ..
  | lb | lh | lw | lbu | lhu => exact completes_load ..
  | lwu | ld => exact completes_rv64Only (completes_load ..)
  | sb | sh | sw => exact completes_store ..
  | sd => exact completes_rv64Only (completes_store ..)
  | slli | srli | srai => exact completes_shiftImm (.next _)
  | addiw | slliw | srliw | sraiw | addw | subw | sllw | srlw | sraw => exact completes_rv64Only (.next _)
  | ebreak | lui | auipc | addi | slti | sltiu | xori | ori | andi | add | sub | sll | slt | sltu | xor | srl | sra | or | and
  | fence | fenceI => exact .next _

end

/-! ### What steps answer -/

theorem State.completes_beginFetch {s : State} {r : Result} (h : s.beginFetch = .taken r) : Completes s.cfg r := by
  unfold State.beginFetch at h
  split at h
  · next fault =>
    cases h
    exact completes_abort _ _ _ fun f stop => State.undescribed_of_fetch (stop ▸ fault)
  · split at h <;> cases h
    exact .next _

theorem State.completes_beginNext {s : State} {r : Result} (h : s.beginNext = .taken r) : Completes s.cfg r := by
  unfold State.beginNext at h
  split at h
  · cases h; exact .next _
  · split at h
    · cases h; exact .next _
    · exact State.completes_beginFetch h

/-- An instruction runs with the parameters that the step begins with. -/
theorem State.cfg_of_beginNext {s t : State} {i : Instr} (h : s.beginNext = .run i t) : t.cfg = s.cfg := by
  unfold State.beginNext at h
  split at h
  · cases h
  · split at h
    · cases h
    · unfold State.beginFetch at h
      split at h
      · cases h
      · next fetched =>
        split at h <;> cases h
        exact (State.fetch_walked fetched).cfg

theorem completes_step (s : State) : Completes s.cfg (step s) := by
  have cfg : s.tick.woken.cfg = s.cfg := s.tick.woken_cfg.trans s.ticked_tick.cfg
  unfold step State.boundary
  split
  · next begins =>
    split at begins
    · cases begins
    · exact cfg ▸ State.completes_beginNext begins
  · next begins =>
    split at begins
    · cases begins; exact s.ticked_tick.cfg ▸ completes_exec ..
    · exact cfg ▸ State.cfg_of_beginNext begins ▸ completes_exec ..

/-- Settles O34: a step completes (`completes_step`), and what it may stop at needs a device that the spec does not describe. -/
theorem everyStepCompletes : Obligations.EveryStepCompletes := by
  intro s
  have completes := completes_step s
  generalize step s = r at completes
  cases completes with
  | next t => exact ⟨.inl ⟨t, rfl⟩, fun _ => ⟨t, rfl⟩⟩
  | stop f device =>
    obtain ⟨pa⟩ := f
    obtain ⟨r, hr, io⟩ := device
    exact ⟨.inr ⟨pa, rfl⟩, fun described => absurd io (described r hr)⟩

end Sys2Proof.Machine
end

section
/-! PROOFS. Exceptions (O53, O54, O55): where they go, what an entry saves in the status and cause registers, and the entry into each
mode. The facts about what an entry saves serve the interrupts too. -/

namespace Sys2Proof.Machine

/-! ### What an entry saves in the status registers (R340) -/

section
variable (s : State) (gva : Bool)

/-- MPIE, MIE and MPP as a trap into M-mode leaves them. -/
def State.enablesM : Word := setField (setBit (setBit s.mc.mstatus 7 s.mstatusMIE) 3 false) 11 s.priv.code

theorem State.saveStatusM_eq :
    s.saveStatusM gva = if s.hasH then setBit (setBit s.enablesM 39 s.virt) 38 gva else s.enablesM := rfl

theorem State.bit_saveStatusM {j : Nat} (h : 38 ≠ j) (h' : 39 ≠ j) : bit (s.saveStatusM gva) j = bit s.enablesM j := by
  rw [State.saveStatusM_eq]
  split
  · rw [bit_setBit_other _ _ h, bit_setBit_other _ _ h']
  · rfl

theorem State.saveStatusM_mpie : bit (s.saveStatusM gva) 7 = s.mstatusMIE := by
  rw [State.bit_saveStatusM _ _ (by decide) (by decide), State.enablesM, bit_setMode_other _ _ (by decide) (by decide),
    bit_setBit_other _ _ (by decide), bit_setBit_same _ _ (by decide)]

theorem State.saveStatusM_mie : bit (s.saveStatusM gva) 3 = false := by
  rw [State.bit_saveStatusM _ _ (by decide) (by decide), State.enablesM, bit_setMode_other _ _ (by decide) (by decide),
    bit_setBit_same _ _ (by decide)]

variable {s} in
theorem State.saveStatusM_mpv (h : s.hasH = true) : bit (s.saveStatusM gva) 39 = s.virt := by
  rw [State.saveStatusM_eq, if_pos h, bit_setBit_other _ _ (by decide), bit_setBit_same _ _ (by decide)]

variable {s} in
theorem State.saveStatusM_gva (h : s.hasH = true) : bit (s.saveStatusM gva) 38 = gva := by
  rw [State.saveStatusM_eq, if_pos h, bit_setBit_same _ _ (by decide)]

/-- The fields of mstatus that a trap into M-mode writes. -/
def State.fieldsSavedM : List Nat := [3, 7, 11, 12] ++ if s.hasH then [38, 39] else []

theorem State.sameBitsBut_saveStatusM : SameBitsBut s.mc.mstatus (s.saveStatusM gva) s.fieldsSavedM := by
  have enables : SameBitsBut s.mc.mstatus s.enablesM [3, 7, 11, 12] :=
    (((SameBitsBut.refl _ _).setBit _ (by decide)).setBit _ (by decide)).setMode _ (by decide) (by decide)
  rw [State.saveStatusM_eq, State.fieldsSavedM]
  split
  · exact ((enables.mono (by decide)).setBit _ (by decide)).setBit _ (by decide)
  · exact enables

theorem State.fieldsSavedM_subset : s.fieldsSavedM ⊆ [3, 7, 11, 12, 38, 39] := by
  unfold State.fieldsSavedM
  split <;> decide

/-- SPIE, SIE and SPP as a trap into S-mode or VS-mode from mode p leaves them. -/
def enablesS (w : Word) (p : Priv) : Word := setBit (setBit (setBit w 5 (bit w 1)) 1 false) 8 (p == .s)

theorem State.saveStatusS_eq : s.saveStatusS = enablesS s.mc.mstatus s.priv := rfl

theorem enablesS_spie (w : Word) (p : Priv) : bit (enablesS w p) 5 = bit w 1 := by
  rw [enablesS, bit_setBit_other _ _ (by decide), bit_setBit_other _ _ (by decide), bit_setBit_same _ _ (by decide)]

theorem enablesS_sie (w : Word) (p : Priv) : bit (enablesS w p) 1 = false := by
  rw [enablesS, bit_setBit_other _ _ (by decide), bit_setBit_same _ _ (by decide)]

theorem enablesS_spp (w : Word) (p : Priv) : bit (enablesS w p) 8 = (p == .s) := bit_setBit_same _ _ (by decide)

theorem sameBitsBut_enablesS (w : Word) (p : Priv) : SameBitsBut w (enablesS w p) [1, 5, 8] :=
  (((SameBitsBut.refl _ _).setBit _ (by decide)).setBit _ (by decide)).setBit _ (by decide)

theorem State.saveHstatus_gva : bit (s.saveHstatus gva) 6 = gva := bit_setBit_same _ _ (by decide)

theorem State.saveHstatus_spv : bit (s.saveHstatus gva) 7 = s.virt := by
  refine (bit_setBit_other _ _ (by decide)).trans ?_
  split
  · rw [bit_setBit_other _ _ (by decide), bit_setBit_same _ _ (by decide)]
  · exact bit_setBit_same _ _ (by decide)

theorem State.saveHstatus_spvp : bit (s.saveHstatus gva) 8 = if s.virt then s.priv == .s else s.hstatusSPVP := by
  refine (bit_setBit_other _ _ (by decide)).trans ?_
  split
  · exact bit_setBit_same _ _ (by decide)
  · exact bit_setBit_other _ _ (by decide)

theorem State.sameBitsBut_saveHstatus : SameBitsBut s.hc.hstatus (s.saveHstatus gva) [6, 7, 8] := by
  have spv : SameBitsBut s.hc.hstatus (setBit s.hc.hstatus 7 s.virt) [6, 7, 8] := (SameBitsBut.refl _ _).setBit _ (by decide)
  refine SameBitsBut.setBit ?_ _ (by decide)
  split
  · exact spv.setBit _ (by decide)
  · exact spv

end

/-! ### The cause of an exception and its handler (R340, R341) -/

theorem Exc.code_lt (e : Exc) : e.code < 24 := by cases e <;> decide

theorem causeWord_exception_toNat (xl : Xlen) (e : Exc) : (causeWord xl false e.code).toNat = e.code := by
  have small : e.code < 2 ^ 64 := e.code_lt.trans (by decide)
  rw [show causeWord xl false e.code = BitVec.ofNat 64 e.code from BitVec.zero_or, BitVec.toNat_ofNat, Nat.mod_eq_of_lt small]

theorem vector_exception (tvec : Word) (code : Nat) : vector tvec false code = tvec &&& ~~~3#64 := by
  simp [vector, align4]

theorem State.vectorM_exception_some {s : State} {v : Word} (h : s.cfg.rnmiExcVector = some v) (code : Nat) :
    s.vectorM false code =
      if s.cfg.smrnmi = true ∧ s.mnstatusNMIE = false ∧ s.priv = .m then v else s.mc.mtvec &&& ~~~3#64 := by
  simp only [State.vectorM, h, vector_exception]
  simp [and_assoc]

theorem State.vectorM_exception_none {s : State} (h : s.cfg.rnmiExcVector = none) (code : Nat) :
    s.vectorM false code = s.mc.mtvec &&& ~~~3#64 := by
  simp only [State.vectorM, h, vector_exception]

/-- GVA is set only with an informative trap value other than 0 (R343). -/
theorem State.gva_tvalOf (s : State) (e : Trap) :
    (e.gva && s.tvalOf e != 0) = (e.gva && bit s.cfg.tvalInfo e.exc.code && e.tval != 0) := by
  unfold State.tvalOf State.writesTval
  cases bit s.cfg.tvalInfo e.exc.code <;> simp

/-! ### Where exceptions go (R339) -/

section
variable {s : State} {code : Nat}

theorem State.destOfException_m (h : s.priv = .m ∨ s.hasS = false ∨ bit s.medeleg code = false) : s.destOfException code = .m := by
  refine if_pos ?_
  simpa [or_assoc] using h

theorem State.destOfException_delegated (below : s.priv ≠ .m) (has : s.hasS = true) (delegated : bit s.medeleg code = true) :
    s.destOfException code = if s.virt && bit s.hedeleg code then .vs else .s := if_neg (by simp [below, has, delegated])

end

section
variable {s : State} {e : Trap}

theorem State.takeException_m (h : s.destOfException e.exc.code = .m) : s.takeException e =
    s.enterM false e.exc.code (s.tvalOf e) (e.gva && s.tvalOf e != 0) (s.tval2Of e) e.tinst := by
  rw [State.takeException, h]
  rfl

theorem State.takeException_s (h : s.destOfException e.exc.code = .s) : s.takeException e =
    s.enterS false e.exc.code (s.tvalOf e) (e.gva && s.tvalOf e != 0) (s.tval2Of e) e.tinst := by
  rw [State.takeException, h]
  rfl

theorem State.takeException_vs (h : s.destOfException e.exc.code = .vs) :
    s.takeException e = s.enterVS false e.exc.code (s.tvalOf e) := by
  rw [State.takeException, h]
  rfl

end

/-- Settles O53, by the destination that R339 gives. -/
theorem exceptionDestination : Obligations.ExceptionDestination := by
  intro s e
  refine ⟨fun h => ?_, fun below has delegated => ?_⟩
  · rw [State.takeException_m (State.destOfException_m h)]
    exact ⟨rfl, rfl⟩
  · have dest := State.destOfException_delegated below has delegated
    split at dest
    · next further =>
      rw [State.takeException_vs dest]
      exact ⟨rfl, fun _ => by simpa using further, fun _ => rfl⟩
    · next not =>
      rw [State.takeException_s dest]
      exact ⟨rfl, nofun, fun further => absurd (by simpa using further) not⟩

/-- Settles O54, by the entry into M-mode and what it saves in mstatus. -/
theorem exceptionIntoMachineMode : Obligations.ExceptionIntoMachineMode := by
  intro s e h
  dsimp only
  rw [State.takeException_m (State.destOfException_m h), ← s.gva_tvalOf e]
  have same := s.sameBitsBut_saveStatusM (e.gva && s.tvalOf e != 0)
  refine ⟨rfl, rfl, causeWord_exception_toNat _ _, rfl, fun has => ⟨if_pos has, if_pos has, State.saveStatusM_mpv _ has,
    State.saveStatusM_gva _ has⟩, fun hasNot => ?keeps, s.saveStatusM_mpie _, s.saveStatusM_mie _, s.saveStatusM_mpp _,
    same.mono s.fieldsSavedM_subset, congrArg (sx s.cfg.mxlen) ?handler⟩
  case handler =>
    split
    · next found => exact State.vectorM_exception_some found _
    · next found => exact State.vectorM_exception_none found _
  case keeps =>
    have notH : ¬ s.hasH = true := by simp [hasNot]
    have fields : s.fieldsSavedM = [3, 7, 11, 12] := by rw [State.fieldsSavedM, if_neg notH, List.append_nil]
    rw [fields] at same
    exact ⟨if_neg notH, if_neg notH, same 39 (by decide), same 38 (by decide)⟩

/-- Settles O55, by the entries into S-mode and VS-mode and what they save in the status registers. -/
theorem delegatedExceptions : Obligations.DelegatedExceptions := by
  intro s e below has delegated
  have dest := State.destOfException_delegated below has delegated
  refine ⟨fun not => ?_, fun virt further => ?_⟩
  · rw [if_neg (by simpa using not)] at dest
    dsimp only
    rw [State.takeException_s dest, ← s.gva_tvalOf e]
    refine ⟨?_, rfl, causeWord_exception_toNat _ _, rfl, enablesS_spie _ _, enablesS_sie _ _, enablesS_spp _ _,
      sameBitsBut_enablesS _ _, fun hasNot => if_neg (by simp [hasNot]), fun hasH => ?_,
      congrArg (sx s.sxlen) (vector_exception _ _)⟩
    · cases hasH : s.hasH <;> simp [State.enterS, hasH]
    · simp only [State.hstatusSPV, State.hstatusGVA, State.hstatusSPVP, State.enterS, if_pos hasH]
      exact ⟨s.saveHstatus_spv _, s.saveHstatus_gva _, s.saveHstatus_spvp _, s.sameBitsBut_saveHstatus _, rfl, trivial⟩
  · rw [if_pos (by simp [virt, further])] at dest
    dsimp only
    rw [State.takeException_vs dest]
    exact ⟨rfl, rfl, causeWord_exception_toNat _ _, rfl, enablesS_spie _ _, enablesS_sie _ _, enablesS_spp _ _,
      sameBitsBut_enablesS _ _, congrArg (sx s.vsxlen) (vector_exception _ _)⟩

end Sys2Proof.Machine
end

section
/-! PROOFS. Pending interrupts (O56) and which of them is taken (O57): the bits of mip, what a destination has in its order, and the
first of an order. -/

namespace Sys2Proof.Machine

/-! ### The bits of mip (R335) -/

section
variable {s : State} {i : Nat}

/-- The interrupts of the platform begin at 16 (R70). -/
theorem State.hasPlatformInt_of_lt (wf : s.cfg.wf = true) (h : i < 16) : s.hasPlatformInt i = false := by
  rw [State.hasPlatformInt, List.contains_eq_mem, decide_eq_false_iff_not]
  exact fun member => absurd (Config.platformInts_ge wf member) (by omega)

theorem State.bit_platformMask_eq (s : State) (h : i < 64) : bit s.platformMask i = s.hasPlatformInt i := by
  rw [Bool.eq_iff_iff, s.bit_platformMask, State.hasPlatformInt, List.contains_eq_mem, decide_eq_true_iff]
  exact and_iff_left h

theorem State.pending_of_ge (s : State) (h : 16 ≤ i) : s.pending i = (s.hasPlatformInt i && bit s.pins.platform i) := by
  unfold State.pending
  split
  case h_12 => rfl
  all_goals omega

theorem State.bit_mip (wf : s.cfg.wf = true) (h : i < 64) : bit s.mip i = s.pending i := by
  have platform := s.bit_platformMask_eq h
  rcases Nat.lt_or_ge i 16 with lt | ge
  · have none := State.hasPlatformInt_of_lt wf lt
    rw [none] at platform
    interval_cases i <;> simp [State.mip, bit_or, bit_and, bit_bitAt, platform] <;> simp [State.pending, none]
  · have later {k : Nat} (b : Bool) (small : k < 16) : bit (bitAt k b) i = false := by
      simp [bit_bitAt, show k ≠ i by omega]
    rw [s.pending_of_ge ge, ← platform, Bool.and_comm]
    simp [State.mip, bit_or, bit_and, later]

/-- A register has a bit set exactly if it is not 0. -/
theorem ne_zero_iff_exists_bit (w : Word) : w ≠ 0 ↔ ∃ k, bit w k = true := by
  rw [not_iff_comm, not_exists]
  exact ⟨fun unset => eq_of_bits fun k => by simpa [bit] using unset k, fun zero k => by simp [zero, bit]⟩

theorem State.sgeip_iff (s : State) : s.sgeip = true ↔ ∃ k, bit s.hgeip k = true ∧ bit s.hgeie k = true := by
  rw [State.sgeip, bne_iff_ne, ne_zero_iff_exists_bit]
  simp only [bit_and, Bool.and_eq_true]

theorem State.stip_of_stce (hasS : s.hasS = true) (stce : s.menvcfgSTCE = true) :
    s.stip = true ↔ s.sc.stimecmp.toNat ≤ s.mtime.toNat := by
  rw [State.stip, hasS, Bool.true_and, if_pos stce, decide_eq_true_iff, BitVec.le_def]

theorem State.vstip_of_stce (hasH : s.hasH = true) (stce : s.henvcfgSTCE = true) :
    s.vstip = true ↔ bit s.hc.hvip 6 = true ∨ s.vc.vstimecmp.toNat ≤ (s.mtime + s.hc.htimedelta).toNat := by
  rw [State.vstip, hasH, Bool.true_and, if_pos stce, Bool.or_eq_true, decide_eq_true_iff, BitVec.le_def, State.guestTime]

end

/-- Settles O56, by the bits of mip. -/
theorem pendingInterrupts : Obligations.PendingInterrupts := by
  intro s wf
  have mip (i : Nat) (h : i < 64) : bit s.mip i = s.pending i := State.bit_mip wf h
  refine ⟨mip, mip 11 (by decide), ?_, mip 3 (by decide), fun hasS => ?_, fun hasH => ?_, fun has => ?_⟩
  · rw [mip 7 (by decide)]
    exact decide_eq_true_iff
  · rw [mip 9 (by decide), mip 1 (by decide), mip 5 (by decide)]
    refine ⟨?_, ?_, fun off => ?_, State.stip_of_stce hasS⟩
    · simp [State.pending, State.seip, hasS]
    · simp [State.pending, hasS]
    · simp [State.pending, State.stip, hasS, off]
  · rw [mip 2 (by decide), mip 12 (by decide), mip 10 (by decide), mip 6 (by decide)]
    refine ⟨?_, s.sgeip_iff, ?_, fun off => ?_, State.vstip_of_stce hasH⟩
    · simp [State.pending, hasH]
    · simp [State.pending, State.vseip, hasH]
    · simp [State.pending, State.vstip, hasH, off]
  · rw [mip 13 (by decide)]
    exact (congrArg (· && _) has).trans (Bool.true_and _)

/-! ### Where interrupts go, and what enables them there (R336) -/

section
variable {s : State} {i : Nat}

theorem State.destOfInterrupt_eq_m_iff : s.destOfInterrupt i = .m ↔ s.hasS = false ∨ bit s.mideleg i = false := by
  unfold State.destOfInterrupt
  cases s.hasS <;> cases bit s.mideleg i <;> simp
  split <;> simp

theorem State.destOfInterrupt_eq_s_iff : s.destOfInterrupt i = .s ↔
    s.hasS = true ∧ bit s.mideleg i = true ∧ ¬ (s.hasH = true ∧ bit s.hideleg i = true) := by
  unfold State.destOfInterrupt
  cases s.hasS <;> cases bit s.mideleg i <;> simp

theorem State.destOfInterrupt_eq_vs_iff : s.destOfInterrupt i = .vs ↔
    s.hasS = true ∧ bit s.mideleg i = true ∧ s.hasH = true ∧ bit s.hideleg i = true := by
  unfold State.destOfInterrupt
  cases s.hasS <;> cases bit s.mideleg i <;> simp

theorem State.interruptsOn_m_iff : s.interruptsOn .m = true ↔
    (s.cfg.smrnmi = true → s.mnstatusNMIE = true) ∧ (s.priv = .m → s.mstatusMIE = true) := by
  unfold State.interruptsOn
  cases s.cfg.smrnmi <;> cases s.priv <;> simp

theorem State.interruptsOn_s_iff : s.interruptsOn .s = true ↔
    (s.cfg.smrnmi = true → s.mnstatusNMIE = true) ∧ s.priv ≠ .m ∧ (s.priv = .s → s.virt = false → s.mstatusSIE = true) := by
  unfold State.interruptsOn
  cases s.cfg.smrnmi <;> cases s.priv <;> cases s.virt <;> simp

theorem State.interruptsOn_vs_iff : s.interruptsOn .vs = true ↔
    (s.cfg.smrnmi = true → s.mnstatusNMIE = true) ∧ s.virt = true ∧ (s.priv ≠ .u → s.vsstatusSIE = true) := by
  unfold State.interruptsOn
  cases s.cfg.smrnmi <;> cases s.priv <;> simp

/-- Interrupt i can be taken at destination d (R336). -/
def State.Takes (s : State) (d : Dest) (i : Nat) : Prop :=
  bit s.mie i = true ∧ s.interruptsOn d = true ∧ s.destOfInterrupt i = d ∧ s.reaches d i = true ∧ s.pending i = true

theorem State.takes_m_iff : s.Takes .m i ↔
    s.pending i = true ∧ bit s.mie i = true ∧ (s.cfg.smrnmi = true → s.mnstatusNMIE = true)
      ∧ (s.hasS = false ∨ bit s.mideleg i = false) ∧ (s.priv = .m → s.mstatusMIE = true) := by
  rw [State.Takes, State.interruptsOn_m_iff, State.destOfInterrupt_eq_m_iff]
  simp only [State.reaches]
  tauto

theorem State.takes_s_iff : s.Takes .s i ↔
    s.pending i = true ∧ bit s.mie i = true ∧ (s.cfg.smrnmi = true → s.mnstatusNMIE = true)
      ∧ s.hasS = true ∧ bit s.mideleg i = true ∧ ¬ (s.hasH = true ∧ bit s.hideleg i = true) ∧ s.priv ≠ .m
      ∧ i < s.sxlen.bits ∧ (s.priv = .s → s.virt = false → s.mstatusSIE = true) := by
  rw [State.Takes, State.interruptsOn_s_iff, State.destOfInterrupt_eq_s_iff, State.reaches, decide_eq_true_iff]
  tauto

theorem State.takes_vs_iff : s.Takes .vs i ↔
    s.pending i = true ∧ bit s.mie i = true ∧ (s.cfg.smrnmi = true → s.mnstatusNMIE = true)
      ∧ s.hasS = true ∧ bit s.mideleg i = true ∧ s.hasH = true ∧ bit s.hideleg i = true ∧ s.virt = true
      ∧ i < s.vsxlen.bits ∧ (s.priv ≠ .u → s.vsstatusSIE = true) := by
  rw [State.Takes, State.interruptsOn_vs_iff, State.destOfInterrupt_eq_vs_iff, State.reaches, decide_eq_true_iff]
  tauto

/-! ### The interrupts that a destination can have (R70, R147, R149, R337) -/

theorem mem_of_bit {w : Word} {l : List Nat} (table : ∀ k, k < 64 → bit w k = true → k ∈ l) (h : bit w i = true) : i ∈ l := by
  rcases Nat.lt_or_ge i 64 with lt | ge
  · exact table i lt h
  · rw [bit_of_ge w ge] at h
    cases h

theorem eq_of_bit_bitAt {j : Nat} {b : Bool} (h : bit (bitAt j b) i = true) : i = j := by
  simp only [bit_bitAt, Bool.and_eq_true, decide_eq_true_iff] at h
  exact h.1.2.symm

theorem State.mem_platformInts (h : bit s.platformMask i = true) : i ∈ s.cfg.platformInts := ((s.bit_platformMask i).mp h).1

theorem State.mem_of_sInts (h : bit s.sInts i = true) : i ∈ s.cfg.platformInts ∨ i ∈ [1, 5, 9, 13] := by
  rw [State.sInts, bit_or, bit_or, Bool.or_eq_true, Bool.or_eq_true] at h
  rcases h with (standard | counters) | platform
  · refine .inr (mem_of_bit ?_ standard)
    cases s.hasS <;> decide
  · rw [eq_of_bit_bitAt counters]
    exact .inr (by decide)
  · exact .inl (State.mem_platformInts platform)

theorem State.hasH_of_hInts (h : bit s.hInts i = true) : s.hasH = true := by
  cases has : s.hasH
  · rw [State.hInts, has] at h
    exact absurd h (by simp [bit])
  · rfl

theorem State.mem_of_hInts (h : bit s.hInts i = true) : i ∈ [2, 6, 10, 12] := by
  rw [State.hInts, if_pos (State.hasH_of_hInts h), bit_or, Bool.or_eq_true] at h
  rcases h with standard | guest
  · exact mem_of_bit (by decide) standard
  · rw [eq_of_bit_bitAt guest]
    decide

theorem State.mideleg_of_hInts (h : bit s.hInts i = true) : bit s.mideleg i = true := by
  rw [State.mideleg, bit_or, h, Bool.or_true]

theorem State.sInts_or_hInts_of_mideleg (h : bit s.mideleg i = true) : bit s.sInts i = true ∨ bit s.hInts i = true := by
  rw [State.mideleg, bit_or, Bool.or_eq_true, bit_and, Bool.and_eq_true] at h
  refine h.imp_left fun ⟨_, writable⟩ => ?_
  unfold State.midelegWritable at writable
  split at writable
  · rw [bit_and, Bool.and_eq_true] at writable
    exact writable.2
  · exact absurd writable (by simp [bit])

theorem State.mem_of_hideleg (h : bit s.hideleg i = true) : i ∈ s.cfg.platformInts ∨ i ∈ [10, 2, 6, 13] := by
  rw [State.hideleg, bit_and, Bool.and_eq_true] at h
  obtain ⟨-, writable⟩ := h
  unfold State.hidelegWritable at writable
  split at writable
  · simp only [bit_zx, bit_and, bit_or, Bool.and_eq_true, Bool.or_eq_true] at writable
    obtain ⟨-, ⟨-, (standard | counters) | platform⟩, -⟩ := writable
    · exact .inr (mem_of_bit (by decide) standard)
    · rw [eq_of_bit_bitAt counters]
      exact .inr (by decide)
    · exact .inl (State.mem_platformInts platform)
  · exact absurd writable (by simp [bit])

/-- An enabled interrupt is of machine level, of supervisor level, or of the hypervisor extension (R70). -/
theorem State.level_of_mie (h : bit s.mie i = true) : i ∈ [3, 7, 11] ∨ bit s.sInts i = true ∨ bit s.hInts i = true := by
  rw [State.mie, bit_and, Bool.and_eq_true] at h
  obtain ⟨-, exists_⟩ := h
  rw [State.mieMask, bit_or, bit_or, Bool.or_eq_true, Bool.or_eq_true, or_assoc] at exists_
  exact exists_.imp_left (mem_of_bit (by decide))

/-- The standard interrupts of a destination, in the order of R337. -/
def State.standardOrder (s : State) : Dest → List Nat
  | .m => [11, 3, 7, 9, 1, 5, 13]
  | .s => if s.hasH then [9, 1, 5, 12, 10, 2, 6, 13] else [9, 1, 5, 13]
  | .vs => [10, 2, 6, 13]

theorem State.Takes.mem {d : Dest} (h : s.Takes d i) : i ∈ s.cfg.platformInts ∨ i ∈ s.standardOrder d := by
  cases d with
  | m =>
    obtain ⟨-, enabled, -, here, -⟩ := State.takes_m_iff.mp h
    rcases State.level_of_mie enabled with machine | supervisor | hypervisor
    · exact .inr ((by decide : [3, 7, 11] ⊆ [11, 3, 7, 9, 1, 5, 13]) machine)
    · exact (State.mem_of_sInts supervisor).imp_right fun member =>
        (by decide : [1, 5, 9, 13] ⊆ [11, 3, 7, 9, 1, 5, 13]) member
    · have hasS := State.hasS_of_hasH (State.hasH_of_hInts hypervisor)
      simp [hasS, State.mideleg_of_hInts hypervisor] at here
  | s =>
    obtain ⟨-, -, -, -, delegated, -⟩ := State.takes_s_iff.mp h
    rcases State.sInts_or_hInts_of_mideleg delegated with supervisor | hypervisor
    · have both : [1, 5, 9, 13] ⊆ s.standardOrder .s := by
        change _ ⊆ if s.hasH then [9, 1, 5, 12, 10, 2, 6, 13] else [9, 1, 5, 13]
        split <;> decide
      exact (State.mem_of_sInts supervisor).imp_right fun member => both member
    · rw [State.standardOrder, if_pos (State.hasH_of_hInts hypervisor)]
      exact .inr ((by decide : [2, 6, 10, 12] ⊆ [9, 1, 5, 12, 10, 2, 6, 13]) (State.mem_of_hInts hypervisor))
  | vs =>
    obtain ⟨-, -, -, -, -, -, further, -⟩ := State.takes_vs_iff.mp h
    exact State.mem_of_hideleg further

/-! ### The first of an order (R337) -/

theorem idxOf_le_of_find? {l : List Nat} {p : Nat → Bool} {j : Nat} (first : l.find? p = some i) (hj : p j = true) :
    l.idxOf i ≤ l.idxOf j := by
  obtain ⟨-, before, after, rfl, skipped⟩ := List.find?_eq_some_iff_append.mp first
  have noneBefore {k : Nat} (hk : p k = true) : k ∉ before := fun member => by simpa [hk] using skipped k member
  have hi : p i = true := List.find?_some first
  rw [List.idxOf_append_of_notMem (noneBefore hi), List.idxOf_append_of_notMem (noneBefore hj), List.idxOf_cons_self]
  exact Nat.le_add_right _ _

/-! ### Which interrupt is taken (R336, R337) -/

theorem State.takes_of_interrupt {d : Dest} (h : s.interrupt = some (d, i)) : s.Takes d i :=
  State.interruptFor_some (State.interrupt_some h)

theorem State.Takes.mem_interruptOrder {d : Dest} (h : s.Takes d i) : i ∈ s.interruptOrder d := by
  refine List.mem_append.mpr (h.mem.imp_right fun member => ?_)
  cases d with
  | m | vs => exact member
  | s =>
    have all : s.standardOrder .s ⊆ [9, 1, 5, 12, 10, 2, 6, 13] := by
      change (if s.hasH then [9, 1, 5, 12, 10, 2, 6, 13] else [9, 1, 5, 13]) ⊆ _
      split <;> decide
    exact all member

theorem State.Takes.interruptFor_ne_none {d : Dest} (h : s.Takes d i) : s.interruptFor d ≠ none := fun none => by
  have refused := List.find?_eq_none.mp none i h.mem_interruptOrder
  obtain ⟨enabled, on, dest, reaches, pending⟩ := h
  simp [enabled, on, dest, reaches, pending] at refused

/-- A destination is looked at only where those before it have no interrupt to take (R337). -/
theorem State.not_takes_before {d : Dest} (h : s.interrupt = some (d, i)) :
    (d ≠ .m → s.interruptFor .m = none) ∧ (d = .vs → s.interruptFor .s = none) := by
  unfold State.interrupt at h
  split at h
  · cases h; exact ⟨fun ne => absurd rfl ne, nofun⟩
  · next noM =>
    split at h
    · cases h; exact ⟨fun _ => noM, nofun⟩
    · next noS => exact ⟨fun _ => noM, fun _ => noS⟩

theorem State.Takes.interrupt_ne_none {d : Dest} (h : s.Takes d i) : s.interrupt ≠ none := fun none => by
  have found := h.interruptFor_ne_none
  unfold State.interrupt at none
  split at none
  · cases none
  · next noM =>
    split at none
    · cases none
    · next noS =>
      split at none
      · cases none
      · next noVs => cases d <;> contradiction

/-- The interrupts of S-mode without the hypervisor extension keep their order in the longer one with it. -/
theorem idxOf_supervisor_le : ∀ i ∈ [9, 1, 5, 13], ∀ j ∈ [9, 1, 5, 13],
    [9, 1, 5, 12, 10, 2, 6, 13].idxOf i ≤ [9, 1, 5, 12, 10, 2, 6, 13].idxOf j →
    [9, 1, 5, 13].idxOf i ≤ [9, 1, 5, 13].idxOf j := by decide

/-- Without platform interrupts the standard ones of a destination are taken in their order. -/
theorem State.idxOf_standardOrder_le {d : Dest} {j : Nat} (bare : s.cfg.platformInts = []) (h : s.interrupt = some (d, i))
    (hj : s.Takes d j) : (s.standardOrder d).idxOf i ≤ (s.standardOrder d).idxOf j := by
  have hi : s.Takes d i := State.takes_of_interrupt h
  have first : (s.interruptOrder d).idxOf i ≤ (s.interruptOrder d).idxOf j := by
    obtain ⟨enabled, on, dest, reaches, pending⟩ := hj
    exact idxOf_le_of_find? (State.interrupt_some h) (by simp [enabled, on, dest, reaches, pending])
  have member {k : Nat} (hk : s.Takes d k) : k ∈ s.standardOrder d := hk.mem.resolve_left (by simp [bare])
  have memberI := member hi
  have memberJ := member hj
  unfold State.interruptOrder at first
  rw [bare, List.nil_append] at first
  cases d with
  | m | vs => exact first
  | s =>
    change i ∈ (if s.hasH then [9, 1, 5, 12, 10, 2, 6, 13] else [9, 1, 5, 13]) at memberI
    change j ∈ (if s.hasH then [9, 1, 5, 12, 10, 2, 6, 13] else [9, 1, 5, 13]) at memberJ
    change (if s.hasH then [9, 1, 5, 12, 10, 2, 6, 13] else [9, 1, 5, 13]).idxOf i
      ≤ (if s.hasH then [9, 1, 5, 12, 10, 2, 6, 13] else [9, 1, 5, 13]).idxOf j
    split at memberI
    · next hasH => rw [if_pos hasH]; exact first
    · next noH =>
      rw [if_neg noH] at memberJ ⊢
      exact idxOf_supervisor_le i memberI j memberJ first

end

/-- Settles O57: the model chooses among the interrupts that a destination takes (`State.Takes`), and the obligation's condition says
the same (`State.takes_m_iff` and its companions). -/
theorem interruptSelection : Obligations.InterruptSelection := by
  intro s _ ready
  have ready_iff (d : Dest) (i : Nat) : ready d i ↔ s.Takes d i := by
    cases d with
    | m => exact State.takes_m_iff.symm
    | s => exact State.takes_s_iff.symm
    | vs => exact State.takes_vs_iff.symm
  refine ⟨fun d i h => (ready_iff d i).mpr (State.takes_of_interrupt h),
    fun d i h => ((ready_iff d i).mp h).interrupt_ne_none, fun d i j h => ⟨fun before => ?_, fun before vs => ?_⟩,
    fun bare d i j h hj => ?_⟩
  · by_contra ne
    exact ((ready_iff .m j).mp before).interruptFor_ne_none ((State.not_takes_before h).1 ne)
  · exact ((ready_iff .s j).mp before).interruptFor_ne_none ((State.not_takes_before h).2 vs)
  · have takes := (ready_iff d j).mp hj
    have member {k : Nat} (hk : s.Takes d k) : k ∈ s.standardOrder d := hk.mem.resolve_left (by simp [bare])
    have le := State.idxOf_standardOrder_le bare h takes
    have ordered := And.intro (member (State.takes_of_interrupt h)) (And.intro (member takes) le)
    cases d <;> exact ordered

end Sys2Proof.Machine
end

section
/-! PROOFS. The steps that take an interrupt (O58) or a non-maskable one (O59): what the boundary answers, the cause and the handler of an
interrupt, and the entry into each mode. -/

namespace Sys2Proof.Machine

/-! ### The cause and the handler of an interrupt (R340, R341) -/

theorem causeWord_interrupt_toNat (xl : Xlen) {code : Nat} (h : code < 64) :
    (causeWord xl true code).toNat = 2 ^ (xl.bits - 1) + code := by
  have table (xl : Xlen) : ∀ code : Fin 64, (causeWord xl true code.val).toNat = 2 ^ (xl.bits - 1) + code.val := by
    cases xl <;> decide
  exact table xl ⟨code, h⟩

theorem vector_interrupt (tvec : Word) (code : Nat) :
    vector tvec true code = (tvec &&& ~~~3#64) + if tvec.getLsbD 0 then BitVec.ofNat 64 (4 * code) else 0 := by
  simp [vector, align4, bit]

theorem State.vectorM_interrupt (s : State) (code : Nat) :
    s.vectorM true code = (s.mc.mtvec &&& ~~~3#64) + if s.mc.mtvec.getLsbD 0 then BitVec.ofNat 64 (4 * code) else 0 := by
  rw [← vector_interrupt]
  unfold State.vectorM
  split
  · simp
  · rfl

/-- The trap values of an interrupt are 0 whatever the destination's width. -/
theorem zx_zero (xl : Xlen) : zx xl 0 = 0 := by cases xl <;> rfl

/-! ### The boundary (R338, R350) -/

section
variable {s : State}

theorem step_of_takes {r : Result} (awake : s.tick.stalled = false) (takes : s.tick.woken.beginNext = .taken r) : step s = r := by
  unfold step State.boundary
  rw [if_neg (by simp [awake]), takes]

theorem State.beginNext_nonMaskable {t : State} (h : s.nonMaskable = some t) : s.beginNext = .taken (.next t) := by
  rw [State.beginNext, h]

theorem State.beginNext_interrupt {d : Dest} {i : Nat} (none : s.nonMaskable = none) (h : s.interrupt = some (d, i)) :
    s.beginNext = .taken (.next (s.takeInterrupt d i)) := by
  rw [State.beginNext, none, h]

end

/-- Settles O58, by the entry into the interrupt's destination. -/
theorem interruptEntry : Obligations.InterruptEntry := by
  intro s d i awake none found small
  have steps := step_of_takes awake (State.beginNext_interrupt none found)
  generalize s.tick.woken = u at steps
  refine ⟨_, steps, ?_⟩
  cases d with
  | m =>
    refine ⟨?_, causeWord_interrupt_toNat _ small, u.saveStatusM_mpie _, u.saveStatusM_mie _, u.saveStatusM_mpp _,
      fun has => ⟨State.saveStatusM_mpv _ has, State.saveStatusM_gva _ has⟩, u.sameBitsBut_saveStatusM _⟩
    simp only [State.takeInterrupt, State.enterTrap, State.enterM, State.vectorM_interrupt, zx_zero]
    rfl
  | s =>
    refine ⟨?_, causeWord_interrupt_toNat _ small, enablesS_spie _ _, enablesS_sie _ _, enablesS_spp _ _,
      sameBitsBut_enablesS _ _, fun has => ?_⟩
    · simp only [State.takeInterrupt, State.enterTrap, State.enterS, vector_interrupt, zx_zero]
      cases u.hasH <;> rfl
    · simp only [State.hstatusSPV, State.hstatusGVA, State.hstatusSPVP, State.takeInterrupt, State.enterTrap, State.enterS, if_pos has]
      exact ⟨u.saveHstatus_spv _, u.saveHstatus_gva _, u.saveHstatus_spvp _, u.sameBitsBut_saveHstatus _⟩
  | vs =>
    refine ⟨?_, causeWord_interrupt_toNat _ ?_, enablesS_spie _ _, enablesS_sie _ _, enablesS_spp _ _, sameBitsBut_enablesS _ _⟩
    · simp only [State.takeInterrupt, State.enterTrap, State.enterVS, vector_interrupt, zx_zero]
      rfl
    · change vsNumber i < 64
      unfold vsNumber
      split <;> omega

/-! ### What an RNMI saves (R350) -/

section
variable (s : State)

theorem State.saveMnstatus_nmie : bit s.saveMnstatus 3 = false := by
  unfold State.saveMnstatus
  dsimp only
  split
  · rw [bit_setBit_other _ _ (by decide), bit_setBit_same _ _ (by decide)]
  · exact bit_setBit_same _ _ (by decide)

variable {s} in
theorem State.saveMnstatus_mnpv (h : s.hasH = true) : bit s.saveMnstatus 7 = s.virt := by
  unfold State.saveMnstatus
  rw [if_pos h, bit_setBit_same _ _ (by decide)]

end

/-- Settles O59, by the non-maskable interrupt that the boundary takes and what it saves. -/
theorem nonMaskableInterrupts : Obligations.NonMaskableInterrupts := by
  intro s code awake u cause
  refine ⟨fun rnmi nmie pin => ?_, fun nmi pin => ?_⟩
  · have takes : u.nonMaskable = some (State.takeRnmi { u with pins := { u.pins with rnmi := none } } code) := by
      simp [State.nonMaskable, rnmi, nmie, pin]
    refine ⟨_, step_of_takes awake (State.beginNext_nonMaskable takes), rfl, rfl, rfl, ?_⟩
    exact ⟨rfl, State.saveMnstatus_mnpp _, State.saveMnstatus_nmie _, fun has => State.saveMnstatus_mnpv has, rfl, rfl⟩
  · have takes : u.nonMaskable = some (State.takeNmi { u with pins := { u.pins with nmi := none } } code) := by
      simp [State.nonMaskable, nmi, pin]
    refine ⟨_, step_of_takes awake (State.beginNext_nonMaskable takes), rfl, rfl, rfl, rfl, rfl, rfl,
      State.saveStatusM_mpie _ _, State.saveStatusM_mie _ _, State.saveStatusM_mpp _ _, rfl, rfl⟩

end Sys2Proof.Machine
end

section
/-! PROOFS. The state that reset leaves (O60), of every hart that the parameters allow, and so of the standard one (O7). -/

namespace Sys2Proof.Machine

theorem Config.resetVector_aligned {c : Config} (h : c.wf = true) : misalignedTarget c.resetVector = false := by
  simp only [Config.wf, Bool.and_eq_true] at h
  obtain ⟨⟨⟨⟨⟨⟨⟨-, vector⟩, -⟩, -⟩, -⟩, -⟩, -⟩, -⟩ := h
  simp [misalignedTarget, beq_iff_eq.mp vector]

section
variable (c : Config)

theorem resetWith_pc : (State.resetWith c).pc = sx c.mxlen c.resetVector := by
  unfold State.resetWith
  cases c.mxlen <;> rfl

/-! ### Modes and mstatus -/

theorem resetWith_hasU : (State.resetWith c).hasU = c.hasU := by
  have enabled : c.hasU = true → (misaAtReset c).getLsbD 20 = true := by
    intro has
    unfold misaAtReset
    rw [has]
    cases c.hasS <;> cases c.hasH <;> rfl
  change (c.hasU && (!c.misaImpl || (misaAtReset c).getLsbD 20)) = c.hasU
  cases has : c.hasU
  · rfl
  · simp [enabled has]

theorem misaAtReset_extensions : (misaAtReset c).getLsbD 8 = true ∧ (misaAtReset c).getLsbD 18 = c.hasS
    ∧ (misaAtReset c).getLsbD 20 = c.hasU ∧ (misaAtReset c).getLsbD 7 = c.hasH := by
  unfold misaAtReset
  cases c.hasH <;> cases c.hasS <;> cases c.hasU <;> decide

/-- The least mode's code in its field, as reset leaves it in MPP and MNPP. -/
def leastModeField (c : Config) : Word := if c.hasU then 0 else 3 <<< 11

theorem field_leastModeField : field (leastModeField c) 11 2 = if c.hasU then 0 else 3 := by
  unfold leastModeField
  cases c.hasU <;> rfl

theorem bit_atReset {e : EndianBit} {lo k : Nat} (h : k = lo → e ≠ .big) : bit (EndianBit.atReset e <<< lo) k = false := by
  cases e with
  | big =>
    have ne : lo ≠ k := fun eq => h eq.symm rfl
    simpa [ne, bitAt, EndianBit.atReset] using bit_bitAt lo k true
  | little | writable => simp [EndianBit.atReset, bit]

/-- SXL and UXL as reset leaves them. -/
def widthsAtReset (c : Config) : Word :=
  match c.mxlen with
  | .rv32 => 0
  | .rv64 => (if c.hasS then 2 <<< 34 else 0) ||| (if c.hasU then 2 <<< 32 else 0)

theorem bit_widthsAtReset {k : Nat} (h : k ∉ [33, 35]) : bit (widthsAtReset c) k = false := by
  have table : ∀ j, j < 64 → bit (widthsAtReset c) j = true → j ∈ [33, 35] := by
    unfold widthsAtReset
    cases c.mxlen <;> cases c.hasS <;> cases c.hasU <;> decide
  exact Bool.eq_false_iff.mpr fun set => h (mem_of_bit table set)

theorem mstatusAtReset_eq : mstatusAtReset c = leastModeField c ||| widthsAtReset c
    ||| (EndianBit.atReset c.mbe <<< 37) ||| (EndianBit.atReset c.sbe <<< 36) ||| (EndianBit.atReset c.ube <<< 6) := by
  unfold mstatusAtReset leastModeField widthsAtReset
  cases c.hasU <;> rfl

/-- Outside the byte orders and the widths mstatus has the least mode in MPP, and 0. -/
theorem bit_mstatusAtReset {k : Nat} (h : k ∉ [6, 33, 35, 36]) (little : k = 37 → c.mbe ≠ .big) :
    bit (mstatusAtReset c) k = bit (leastModeField c) k := by
  have widths : k ∉ [33, 35] := fun member => h ((by decide : [33, 35] ⊆ [6, 33, 35, 36]) member)
  have ube : k ≠ 6 := fun eq => h (by simp [eq])
  have sbe : k ≠ 36 := fun eq => h (by simp [eq])
  rw [mstatusAtReset_eq, bit_or, bit_or, bit_or, bit_or, bit_widthsAtReset c widths, bit_atReset little,
    bit_atReset (absurd · sbe), bit_atReset (absurd · ube)]
  simp only [Bool.or_false]

theorem resetWith_mpp : (State.resetWith c).mstatusMPP = if c.hasU then 0 else 3 := by
  rw [← field_leastModeField]
  refine field_congr fun k lo hi => bit_mstatusAtReset c ?_ (by omega)
  simp only [List.mem_cons, List.not_mem_nil, or_false]
  omega

theorem resetWith_mpp_eq_mnpp : (State.resetWith c).mstatusMPP = (State.resetWith c).mnstatusMNPP :=
  (resetWith_mpp c).trans (field_leastModeField c).symm

/-- Reset leaves an implemented mode in MPP: the least. -/
theorem resetWith_mpp_supported : (State.resetWith c).mstatusMPP ≠ 2#2
    ∧ (State.resetWith c).supports (Priv.ofCode (State.resetWith c).mstatusMPP) = true := by
  rw [resetWith_mpp]
  cases has : c.hasU
  · exact ⟨by decide, rfl⟩
  · exact ⟨by decide, (resetWith_hasU c).trans has⟩

theorem bit_initial (t : TvecLegal) (xl : Xlen) : bit (t.initial xl) 1 = false := by
  have filled := TvecLegal.bit_fill t 0
  cases xl
  · exact (bit_zx .rv32 (t.fill 0) 1).trans (by rw [filled, Bool.and_false])
  · exact filled

theorem align4_zero : align4 0 = 0 := by decide

variable {c} in
theorem resetWith_inv (h : c.wf = true) : (State.resetWith c).Inv where
  config := h
  memory := rfl
  pcAligned := by rw [resetWith_pc, misalignedTarget_sx, Config.resetVector_aligned h]
  mode := rfl
  virtual := nofun
  mpp := resetWith_mpp_supported c
  mnpp := resetWith_mpp_eq_mnpp c ▸ resetWith_mpp_supported c
  epcs := ⟨align4_zero, align4_zero, align4_zero, align4_zero⟩
  tvecs := ⟨bit_initial .., bit_initial .., bit_initial ..⟩

/-! ### PMP and address translation -/

theorem resetWith_pmpcfg (i : Nat) : (State.resetWith c).pmpcfg i = 0 := by
  unfold State.pmpcfg
  split
  · next h =>
    split
    · exact Vector.getElem_replicate ..
    · rfl
  · rfl

theorem resetWith_mstateen (n : Fin 4) : (State.resetWith c).mstateen n = 0 := by
  have zero : (State.resetWith c).mc.mstateen[n] = 0 := Vector.getElem_replicate ..
  rw [State.mstateen, zero]
  exact BitVec.zero_and

theorem schemeOf_zero (xl : Xlen) : schemeOf xl 0 = none := by cases xl <;> rfl

end

/-- Settles O7: the standard hart is one that the parameters allow. -/
theorem resetSatisfiesInvariant : Obligations.ResetSatisfiesInvariant := resetWith_inv (by decide)

/-- Settles O60, by the invariant and the reset value of each field. -/
theorem resetLeaves : Obligations.ResetLeaves := by
  intro c wf
  have mie : (State.resetWith c).mstatusMIE = false :=
    (bit_mstatusAtReset c (k := 3) (by decide) nofun).trans (by unfold leastModeField; cases c.hasU <;> rfl)
  have mprv : (State.resetWith c).mstatusMPRV = false :=
    (bit_mstatusAtReset c (k := 17) (by decide) nofun).trans (by unfold leastModeField; cases c.hasU <;> rfl)
  have mbe (little : c.mbe ≠ .big) : (State.resetWith c).mstatusMBE = false :=
    (bit_mstatusAtReset c (k := 37) (by decide) fun _ => little).trans (by unfold leastModeField; cases c.hasU <;> rfl)
  have nmie : (State.resetWith c).mnstatusNMIE = false := by
    change bit (leastModeField c) 3 = false
    unfold leastModeField
    cases c.hasU <;> rfl
  refine ⟨resetWith_inv wf, rfl, rfl, rfl, mie, mprv, mbe, misaAtReset_extensions c, rfl, ?_, rfl, fun i => ?_, rfl, nmie,
    resetWith_mstateen c, schemeOf_zero _, schemeOf_zero _⟩
  · rw [resetWith_pc, zx_sx]
  · rw [resetWith_pmpcfg]
    decide

end Sys2Proof.Machine
end

section
/-! PROOFS. A step runs the instruction that it fetches (O4): the fetch that reaches an instruction, and the step behind it. -/

namespace Sys2Proof.Machine

/-- A fetch that reaches the bytes of an instruction runs it. -/
theorem State.beginFetch_run {s t : State} {pa : Nat} {rs : List Region} {i : Instr} {rest : List Byte}
    (reached : s.reach s.fetchAccess s.fetchAccess.va 4 = .ok (pa, rs, t)) (decoded : decode (t.physRead pa 4) = .ok (i, rest)) :
    s.beginFetch = .run i t := by
  have bytes : bytesOfWord ((valueOfBytes false (t.physRead pa 4)).setWidth 32) = t.physRead pa 4 :=
    bytesOfWord_fetchedWord (t.length_physRead pa 4)
  simp only [State.beginFetch, State.fetch_ok reached, bytes, decoded]

theorem State.waited_tick (s : State) : s.tick.waited = s.waited := by
  obtain ⟨a, b, c, l, m, d, e, f, g, k, same⟩ := s.ticked_tick.eq
  rw [same]

/-- Settles O4, by the fetch that the step begins with. -/
theorem stepRunsDecodedInstruction : Obligations.StepRunsDecodedInstruction := by
  intro s t pa rs i rest awake u nonMaskable interrupt reached decoded
  refine ⟨?_, (State.reach_walked reached).only, fun unstalled => State.woken_of_waited (s.waited_tick.trans unstalled),
    fun kept => State.reachPart_pure kept reached⟩
  rw [step, State.boundary_fetch awake nonMaskable interrupt, State.beginFetch_run reached decoded]

end Sys2Proof.Machine
end

section
/-! PROOFS. The mode, the address and the byte order of an access (O5): where MPRV acts, and what it then puts in place of the current
mode. -/

namespace Sys2Proof.Machine

section
variable {s : State}

/-- MPRV acts in M-mode alone, and not while NMIE is 0 (R58, R134). -/
theorem State.mprvActs_iff : s.mprvActs = true
    ↔ s.priv = .m ∧ bit s.mc.mstatus 17 = true ∧ (s.cfg.smrnmi = true → bit s.mc.mnstatus 3 = true) := by
  rw [State.mprvActs, Bool.and_eq_true, Bool.and_eq_true, beq_iff_eq, and_assoc]
  cases s.cfg.smrnmi
  · simp [State.mstatusMPRV]
  · simp [State.mstatusMPRV, State.mnstatusNMIE]

/-- Where MPRV does not act an access is made in the current mode, at an address of the current XLEN. -/
theorem State.plainAccess_current (off : s.mprvActs = false) (need : Need) (n : Nat) (addr form : Word) :
    let a := s.plainAccess need n addr form
    a.p = s.priv ∧ a.v = s.virt ∧ a.va = zx s.xlen addr := by
  have priv : s.effPriv = s.priv := by simp [State.effPriv, off]
  have virt : s.effVirt = s.virt := by simp [State.effVirt, off]
  refine ⟨priv, virt, ?_⟩
  change zx (s.xlenAt s.effPriv s.effVirt) (zx s.xlen addr) = zx s.xlen addr
  rw [priv, virt]
  exact zx_zx s.xlen addr

/-- Where MPRV acts an access is made in the mode of MPP, and with V as in MPV unless that is M-mode (R58, R165). -/
theorem State.effMode_relocated (acts : s.mprvActs = true) {p : Priv} (mpp : Priv.ofCode (field s.mc.mstatus 11 2) = p) :
    s.effPriv = p ∧ s.effVirt = (s.hasH && bit s.mc.mstatus 39 && p != .m) := by
  have priv : s.effPriv = p := by rw [State.effPriv, if_pos acts]; exact mpp
  exact ⟨priv, by rw [State.effVirt, if_pos acts, priv]; rfl⟩

/-- Settles O5: MPRV acts or does not; the other accesses name their mode. -/
theorem accessesAreMadeInTheirMode : Obligations.AccessesAreMadeInTheirMode := by
  intro s need n addr form a g f relocated
  refine ⟨⟨rfl, rfl, rfl, rfl, rfl, rfl⟩, fun current => ?_, fun acts => ⟨fun mpp => ?_, fun mpp => ?_, fun mpp => ?_, rfl⟩,
    ⟨rfl, rfl, rfl⟩, ⟨rfl, rfl, rfl⟩, fun _ => rfl, rfl, rfl, rfl, rfl⟩
  · exact State.plainAccess_current (Bool.eq_false_iff.mpr fun acts => current (State.mprvActs_iff.mp acts)) need n addr form
  · have mode := State.effMode_relocated (State.mprvActs_iff.mpr acts) (p := .m) (by rw [mpp]; rfl)
    exact ⟨mode.1, mode.2.trans (by simp)⟩
  · have mode := State.effMode_relocated (State.mprvActs_iff.mpr acts) (p := .s) (by rw [mpp]; rfl)
    exact ⟨mode.1, mode.2.trans (by simp)⟩
  · have mode := State.effMode_relocated (State.mprvActs_iff.mpr acts) (p := .u) (by rw [mpp]; rfl)
    exact ⟨mode.1, mode.2.trans (by simp)⟩

end

end Sys2Proof.Machine
end

section
/-! PROOFS. CSRRW of the registers that only their number guards: the scratch registers (O44), the saved pcs and the trap vectors
(O45). -/

namespace Sys2Proof.Machine

/-! ### Registers that only their number guards (R247) -/

/-- Registers that no enable bit guards: what decides is the level of the number and whether the register is implemented. -/
def guardedByNumber : CsrReg → Bool
  | .mstatus | .medeleg | .mideleg | .mie | .mtvec | .mscratch | .mepc | .mip | .mnepc | .mnstatus => true
  | .sstatus | .stvec | .sscratch | .sepc => true
  | .hstatus | .hedeleg | .hideleg | .hvip => true
  | .vsstatus | .vstvec | .vsscratch | .vsepc => true
  | _ => false

theorem guardedByNumber_csrTarget (v : Bool) {r : CsrReg} (h : guardedByNumber r = true) :
    guardedByNumber (csrTarget v r) = true := by
  cases v
  · exact h
  · cases r <;> cases h <;> rfl

section
variable {s : State} {n : BitVec 12} {r q : CsrReg}

theorem State.levelVerdict_machine (hp : s.priv = .m) (c : CsrRef) (n : BitVec 12) (write : Bool) :
    s.levelVerdict c n write = .allowed := by
  simp only [State.levelVerdict, hp]

theorem State.csrCheck_guardedByNumber (hc : csrOf n = some ⟨r, false⟩) (hr : guardedByNumber r = true) (has : s.hasCsr r = true)
    (level : s.levelVerdict ⟨r, false⟩ n true = .allowed) (writable : csrReadOnly n = false) : s.csrCheck n true = .allowed := by
  have free : s.blockedByM ⟨r, false⟩ = false ∧ s.trapBits r = .allowed ∧ s.blockedByHS r = false
      ∧ s.windowVerdict r = .allowed := by
    cases r <;> cases hr <;>
      simp [State.blockedByM, State.trapBits, State.blockedByHS, State.windowVerdict, counterIndex]
  obtain ⟨unblocked, trap, unblockedByHS, window⟩ := free
  have admits : s.Admits n ⟨r, false⟩ true :=
    ⟨hc, by simp [State.csrExists, has], .inr unblocked, level, fun _ => writable⟩
  rw [admits.csrCheck_of_free trap unblockedByHS, window]

/-- A write reaches the register that stands for the one named, in its low XLEN bits (R37, R138). -/
theorem State.csrWrite_guardedByNumber (target : csrTarget s.virt r = q) (hr : guardedByNumber r = true) (v : Word) :
    s.csrWrite ⟨r, false⟩ v = s.csrSet q (writeLow s.xlen (s.csrView q) v) := by
  have hq : guardedByNumber q = true := target ▸ guardedByNumber_csrTarget s.virt hr
  simp only [State.csrWrite, target]
  cases q <;> cases hq <;> rfl

/-- t is s after CSRRW has written v to the register q and the value that q had to x[rd]. -/
structure State.Replaces (s t : State) (rd : Reg) (q : CsrReg) (v : Word) : Prop where
  frame : (s.csrSet q (writeLow s.xlen (s.csrView q) v)).CompletesAs t
  read : rd ≠ 0#5 → t.x rd = sx t.xlen (zx s.xlen (s.csrView q))

theorem State.CompletesAs.xlen {u t : State} (h : u.CompletesAs t) : t.xlen = u.xlen := by
  rw [State.CompletesAs] at h
  rw [h]
  rfl

theorem State.csrFinish_x (s b : State) {rd : Reg} (h : rd ≠ 0#5) (old : Word) (wroteMinstret : Bool) :
    (s.csrFinish b rd old wroteMinstret).x rd = sx s.xlen old := by
  unfold State.csrFinish
  cases wroteMinstret
  · simp [State.x_setX_same s old h]
  · simp [State.x_setX_same s old h]

/-- CSRRW of a register that only its number guards, from a level that reaches it. -/
theorem exec_csrrw_replaces (hc : csrOf n = some ⟨r, false⟩) (hr : guardedByNumber r = true) (has : s.hasCsr r = true)
    (target : csrTarget s.virt r = q) (level : s.levelVerdict ⟨r, false⟩ n true = .allowed) (writable : csrReadOnly n = false)
    (rd rs1 : Reg) : ∃ t, exec (.csrrw rd n rs1) s = .next t ∧ s.Replaces t rd q (s.x rs1) := by
  have ok := State.csrCheck_guardedByNumber hc hr has level writable
  have written := State.csrWrite_guardedByNumber target hr (s.x rs1)
  have frame := (s.csrWrite ⟨r, false⟩ (s.x rs1)).csrFinish_eq s rd (s.csrRead ⟨r, false⟩) (s.writesMinstret ⟨r, false⟩)
  refine ⟨_, exec_csrrw_allowed hc ok rd rs1, written ▸ frame, fun h => ?_⟩
  rw [State.CompletesAs.xlen frame, State.csrFinish_x _ _ h, ← target]
  rfl

/-- In M-mode, with V=0, every register is reached as it is named. -/
theorem exec_csrrw_machine (hp : s.priv = .m) (hv : s.virt = false) (hc : csrOf n = some ⟨r, false⟩)
    (hr : guardedByNumber r = true) (has : s.hasCsr r = true) (writable : csrReadOnly n = false) (rd rs1 : Reg) :
    ∃ t, exec (.csrrw rd n rs1) s = .next t ∧ s.Replaces t rd r (s.x rs1) :=
  exec_csrrw_replaces hc hr has (by rw [hv]; rfl) (State.levelVerdict_machine hp ..) writable rd rs1

/-- So from HS-mode, but the registers of machine level. -/
theorem exec_csrrw_hypervisor (hp : s.priv ≠ .u) (hv : s.virt = false) (hn : csrLevel n ≠ 3#2)
    (hc : csrOf n = some ⟨r, false⟩) (hr : guardedByNumber r = true) (has : s.hasCsr r = true) (writable : csrReadOnly n = false)
    (rd rs1 : Reg) : ∃ t, exec (.csrrw rd n rs1) s = .next t ∧ s.Replaces t rd r (s.x rs1) :=
  exec_csrrw_replaces hc hr has (by rw [hv]; rfl) (State.levelVerdict_host hv hp hn ..) writable rd rs1

/-- From VS-mode a register of supervisor level stands for that of VS level (R138). -/
theorem exec_csrrw_guest (hp : s.priv = .s) (hv : s.virt = true) (hn : csrLevel n = 1#2) (hc : csrOf n = some ⟨r, false⟩)
    (hr : guardedByNumber r = true) (has : s.hasCsr r = true) (writable : csrReadOnly n = false) (rd rs1 : Reg) :
    ∃ t, exec (.csrrw rd n rs1) s = .next t ∧ s.Replaces t rd (csrTarget true r) (s.x rs1) :=
  exec_csrrw_replaces hc hr has (by rw [hv]) (State.levelVerdict_guest hv hp hn ..) writable rd rs1

end

/-! ### Widths (R27, R56, R140) -/

theorem Xlen.bits_le (xl : Xlen) : xl.bits ≤ 64 := by cases xl <;> decide

/-- The low bits of what is written are those of the operand, also of a register narrower than XLEN. -/
theorem zx_writeLow_of_le {xl wide : Xlen} (h : xl.bits ≤ wide.bits) (old v : Word) : zx xl (writeLow wide old v) = zx xl v := by
  refine eq_of_bits fun k => ?_
  rw [bit_zx, bit_zx, bit_writeLow]
  by_cases low : k < xl.bits
  · rw [if_pos (by omega)]
  · simp [low]

theorem State.xlen_machine {s : State} (hp : s.priv = .m) : s.xlen = s.cfg.mxlen := by simp [State.xlen, State.xlenAt, hp]

theorem State.sxlen_le (s : State) : s.sxlen.bits ≤ s.cfg.mxlen.bits := by
  unfold State.sxlen
  cases s.cfg.mxlen with
  | rv32 => exact Nat.le_refl _
  | rv64 => exact Xlen.bits_le _

theorem State.vsxlen_le (s : State) : s.vsxlen.bits ≤ s.sxlen.bits := by
  unfold State.vsxlen
  cases s.sxlen with
  | rv32 => exact Nat.le_refl _
  | rv64 => exact Xlen.bits_le _

/-! ### The scratch registers (R79, R94, R138) -/

section
variable {s t : State} {rd : Reg} {v : Word}

theorem State.Replaces.read_same {q : CsrReg} (h : s.Replaces t rd q v)
    (width : (s.csrSet q (writeLow s.xlen (s.csrView q) v)).xlen = s.xlen) (hr : rd ≠ 0#5) : t.x rd = sx s.xlen (s.csrView q) := by
  rw [h.read hr, h.frame.xlen, width, sx_zx]

theorem State.Replaces.mscratch (h : s.Replaces t rd .mscratch v) (hp : s.priv = .m) :
    t.mc = { s.mc with mscratch := zx s.cfg.mxlen v } ∧ t.sc = s.sc ∧ t.vc = s.vc
      ∧ (rd ≠ 0#5 → t.x rd = sx s.xlen s.mc.mscratch) := by
  obtain ⟨mc, sc, -, vc, -⟩ := h.frame.fields
  rw [State.csrSet, State.xlen_machine hp, zx_writeLow] at mc
  exact ⟨mc, sc, vc, h.read_same rfl⟩

theorem State.Replaces.sscratch (h : s.Replaces t rd .sscratch v) (width : s.sxlen.bits ≤ s.xlen.bits) :
    t.sc = { s.sc with sscratch := zx s.sxlen v } ∧ t.mc = s.mc ∧ t.vc = s.vc
      ∧ (rd ≠ 0#5 → t.x rd = sx s.xlen s.sc.sscratch) := by
  obtain ⟨mc, sc, -, vc, -⟩ := h.frame.fields
  rw [State.csrSet, zx_writeLow_of_le width] at sc
  exact ⟨sc, mc, vc, h.read_same rfl⟩

theorem State.Replaces.vsscratch (h : s.Replaces t rd .vsscratch v) (width : s.vsxlen.bits ≤ s.xlen.bits) :
    t.vc = { s.vc with vsscratch := zx s.vsxlen v } ∧ t.mc = s.mc ∧ t.sc = s.sc
      ∧ (rd ≠ 0#5 → t.x rd = sx s.xlen s.vc.vsscratch) := by
  obtain ⟨mc, sc, -, vc, -⟩ := h.frame.fields
  rw [State.csrSet, zx_writeLow_of_le width] at vc
  exact ⟨vc, mc, sc, h.read_same rfl⟩

end

/-- Settles O44: each write reaches the register of the level that its number names, with V=1 that of VS level. -/
theorem scratchRegisters : Obligations.ScratchRegisters := by
  intro s rd rs1
  refine ⟨fun hp => ?_, fun hp hv has => ?_, fun hp hv has => ?_, fun hp hv has => ?_⟩
  · obtain ⟨t, he, ht⟩ := exec_csrrw_replaces (s := s) (n := 0x340) (r := .mscratch) (q := .mscratch) rfl rfl rfl
      (by cases s.virt <;> rfl) (State.levelVerdict_machine hp ..) rfl rd rs1
    exact ⟨t, he, ht.mscratch hp⟩
  · obtain ⟨t, he, ht⟩ := exec_csrrw_hypervisor (s := s) (n := 0x140) (r := .sscratch) (by simp [hp]) hv (by decide) rfl rfl has
      rfl rd rs1
    exact ⟨t, he, ht.sscratch (by simp [State.xlen, State.xlenAt, hp, hv])⟩
  · obtain ⟨t, he, ht⟩ := exec_csrrw_guest (s := s) (n := 0x140) (r := .sscratch) hp hv (by decide) rfl rfl has rfl rd rs1
    exact ⟨t, he, State.Replaces.vsscratch ht (by simp [State.xlen, State.xlenAt, hp, hv])⟩
  · obtain ⟨t, he, ht⟩ := exec_csrrw_hypervisor (s := s) (n := 0x240) (r := .vsscratch) (by simp [hp]) hv (by decide) rfl rfl has
      rfl rd rs1
    exact ⟨t, he, ht.vsscratch (by simpa [State.xlen, State.xlenAt, hp, hv] using s.vsxlen_le)⟩

/-! ### Saved pcs (R80, R95, R132, R161) -/

/-- The low bits of what is written, but for bits 1:0, are those of the operand. -/
theorem zx_align4_writeLow {xl wide : Xlen} (h : xl.bits ≤ wide.bits) (old v : Word) :
    zx xl (align4 (writeLow wide old v)) = zx xl (v &&& ~~~3#64) := by
  rw [← align4_zx, zx_writeLow_of_le h, align4_zx, align4]

/-! ### Trap vectors (R67, R90, R161, D6) -/

theorem toNat_align4 (w : Word) : (align4 w).toNat = w.toNat / 4 * 4 := by
  refine Nat.eq_of_testBit_eq fun k => ?_
  change bit (align4 w) k = (w.toNat / 2 ^ 2 * 2 ^ 2).testBit k
  rw [bit_align4, Nat.testBit_mul_two_pow, Nat.testBit_div_two_pow]
  by_cases high : 2 ≤ k
  · simp [high, show k - 2 + 2 = k by omega, bit, BitVec.getLsbD]
  · simp [high]

/-- Vectored mode finds its alignment missing (R67). -/
theorem TvecLegal.aligned_eq_false (t : TvecLegal) (w : Word) :
    t.aligned w = false ↔ w.getLsbD 0 = true ∧ (w &&& ~~~3#64).toNat % 2 ^ t.vectoredAlign ≠ 0 := by
  rw [show w &&& ~~~3#64 = align4 w from rfl, toNat_align4]
  simp [TvecLegal.aligned]

/-- What a trap vector holds after v is written to it, of the values it can hold. -/
def tvecAfter (t : TvecLegal) (xl : Xlen) (old v : Word) : Word :=
  let want := (v &&& ~~~3#64) ||| (if v.getLsbD 1 then old &&& 1 else v &&& 1)
  let w := zx xl (((want &&& t.writable) ||| (t.value &&& ~~~t.writable)) &&& ~~~2#64)
  if w.getLsbD 0 = true ∧ (w &&& ~~~3#64).toNat % 2 ^ t.vectoredAlign ≠ 0 then old else w

theorem legalTvec_eq (t : TvecLegal) (xl : Xlen) (old v : Word) : legalTvec t xl old v = tvecAfter t xl old v := by
  cases reserved : v.getLsbD 1 <;>
    simp only [legalTvec, bit, reserved, if_true, Bool.false_eq_true, if_false, tvecAfter, ← TvecLegal.aligned_eq_false,
      ← Bool.not_eq_true, ite_not, TvecLegal.fill, align4]

/-- Only the low bits of what is written count. -/
theorem legalTvec_congr {xl : Xlen} {w v : Word} (h : zx xl w = zx xl v) (t : TvecLegal) (old : Word) :
    legalTvec t xl old w = legalTvec t xl old v := by
  have same {k : Nat} (low : k < xl.bits) : bit w k = bit v k := by
    have := congrArg (bit · k) h
    simpa only [bit_zx, low, decide_true, Bool.true_and] using this
  have reserved : bit w 1 = bit v 1 := same (by cases xl <;> decide)
  have filled : zx xl (t.fill (align4 w ||| ((if bit w 1 then old else w) &&& 1)))
      = zx xl (t.fill (align4 v ||| ((if bit v 1 then old else v) &&& 1))) := by
    refine eq_of_bits fun k => ?_
    rw [reserved, bit_zx, bit_zx]
    by_cases low : k < xl.bits
    · cases bit v 1 <;> simp [TvecLegal.fill, bit_and, bit_or, bit_align4, same low]
    · simp [low]
  simp only [legalTvec, filled]

theorem legalTvec_writeLow {xl wide : Xlen} (h : xl.bits ≤ wide.bits) (t : TvecLegal) (old x v : Word) :
    legalTvec t xl old (writeLow wide x v) = tvecAfter t xl old v :=
  (legalTvec_congr (zx_writeLow_of_le h x v) t old).trans (legalTvec_eq t xl old v)

/-- Settles O45: M-mode is as wide as the widest of these registers, so that each takes the low bits of the operand. -/
theorem savedPcsAndVectors : Obligations.SavedPcsAndVectors := by
  intro s rd rs1 hp hv saved tvec
  have machine : s.cfg.mxlen.bits ≤ s.xlen.bits := (congrArg Xlen.bits (State.xlen_machine hp)).ge
  have supervisor := s.sxlen_le.trans machine
  have guest := s.vsxlen_le.trans supervisor
  refine ⟨?_, fun has => ?_, fun has => ?_, fun has => ?_, ?_, fun has => ?_, fun has => ?_⟩
  · obtain ⟨t, he, ht⟩ := exec_csrrw_machine hp hv (n := 0x341) (r := .mepc) rfl rfl rfl rfl rd rs1
    obtain ⟨mc, sc, -, vc, -⟩ := ht.frame.fields
    rw [State.csrSet, zx_align4_writeLow machine] at mc
    exact ⟨t, he, mc, sc, vc⟩
  · obtain ⟨t, he, ht⟩ := exec_csrrw_machine hp hv (n := 0x141) (r := .sepc) rfl rfl has rfl rd rs1
    obtain ⟨mc, sc, -, vc, -⟩ := ht.frame.fields
    rw [State.csrSet, zx_align4_writeLow supervisor] at sc
    exact ⟨t, he, sc, mc, vc⟩
  · obtain ⟨t, he, ht⟩ := exec_csrrw_machine hp hv (n := 0x241) (r := .vsepc) rfl rfl has rfl rd rs1
    obtain ⟨mc, sc, -, vc, -⟩ := ht.frame.fields
    rw [State.csrSet, zx_align4_writeLow guest] at vc
    exact ⟨t, he, vc, mc, sc⟩
  · obtain ⟨t, he, ht⟩ := exec_csrrw_machine hp hv (n := 0x741) (r := .mnepc) rfl rfl has rfl rd rs1
    obtain ⟨mc, sc, -, vc, -⟩ := ht.frame.fields
    rw [State.csrSet, zx_align4_writeLow machine] at mc
    exact ⟨t, he, mc, sc, vc⟩
  · obtain ⟨t, he, ht⟩ := exec_csrrw_machine hp hv (n := 0x305) (r := .mtvec) rfl rfl rfl rfl rd rs1
    obtain ⟨mc, sc, -, vc, -⟩ := ht.frame.fields
    rw [State.csrSet, legalTvec_writeLow machine] at mc
    exact ⟨t, he, mc, sc, vc⟩
  · obtain ⟨t, he, ht⟩ := exec_csrrw_machine hp hv (n := 0x105) (r := .stvec) rfl rfl has rfl rd rs1
    obtain ⟨mc, sc, -, vc, -⟩ := ht.frame.fields
    rw [State.csrSet, legalTvec_writeLow supervisor] at sc
    exact ⟨t, he, sc, mc, vc⟩
  · obtain ⟨t, he, ht⟩ := exec_csrrw_machine hp hv (n := 0x205) (r := .vstvec) rfl rfl has rfl rd rs1
    obtain ⟨mc, sc, -, vc, -⟩ := ht.frame.fields
    rw [State.csrSet, legalTvec_writeLow guest] at vc
    exact ⟨t, he, vc, mc, sc⟩

end Sys2Proof.Machine
end

section
/-! PROOFS. Writes of the interrupt and delegation registers from M-mode (O28): the bits of each that exist, and those that a write
leaves. -/

namespace Sys2Proof.Machine

/-! ### Bits that exist, written, and the others -/

/-- The bits that exist, below the width, are those of v; every other is as it was. -/
def WrittenWhere (xl : Xlen) (v : Word) (exists_ : Nat → Prop) (old new : Word) : Prop :=
  ∀ k, k < 64 → (exists_ k ∧ k < xl.bits → bit new k = bit v k) ∧ (¬ (exists_ k ∧ k < xl.bits) → bit new k = bit old k)

theorem lt_of_bit {w : Word} {k : Nat} (h : bit w k = true) : k < 64 :=
  Nat.lt_of_not_le fun ge => Bool.false_ne_true ((bit_of_ge w ge).symm.trans h)

section
variable {xl : Xlen} {v x stored mask read : Word} {exists_ : Nat → Prop}

/-- A register stored as it is, of whose bits a write reaches those of the mask, all of them below every width. -/
theorem writtenWhere_merge (h : ∀ k, k < 64 → (bit mask k = true ↔ exists_ k)) (low : ∀ k, bit mask k = true → k < 32) :
    WrittenWhere xl v exists_ stored (merge stored (writeLow xl x v) mask) := by
  intro k hk
  rw [bit_merge, bit_writeLow, ← h k hk]
  have below : bit mask k = true → k < xl.bits := fun set => (low k set).trans_le (by cases xl <;> decide)
  exact ⟨fun here => by rw [if_pos here.1, if_pos here.2], fun here => if_neg fun set => here ⟨set, below set⟩⟩

/-- A register read under one mask and written under another that holds no fewer bits: above the width a write puts back what is
read. -/
theorem writtenWhere_read (h : ∀ k, k < 64 → (bit read k = true ↔ exists_ k))
    (reached : ∀ k, bit read k = true → bit mask k = true) :
    WrittenWhere xl v exists_ (stored &&& read) (merge stored (writeLow xl (stored &&& read) v) mask &&& read) := by
  intro k hk
  rw [← h k hk, bit_and, bit_merge, bit_writeLow, bit_and]
  cases shown : bit read k with
  | false => simp
  | true =>
    rw [reached k shown, if_pos rfl]
    by_cases low : k < xl.bits <;> simp [low]

end

/-! ### The bits that exist (R68, R70, R91, R146-R149, R166) -/

/-- A mask of a few bits, from the list of them. -/
theorem bit_iff_mem {w : Word} {l : List Nat} (table : ∀ k, k < 64 → bit w k = decide (k ∈ l)) {k : Nat} (hk : k < 64) :
    bit w k = true ↔ k ∈ l := by
  rw [table k hk, decide_eq_true_iff]

theorem bit_bitAt_iff {j k : Nat} {b : Bool} (hk : k < 64) : bit (bitAt j b) k = true ↔ k = j ∧ b = true := by
  simp only [bit_bitAt, Bool.and_eq_true, decide_eq_true_iff, hk, and_true]
  rw [and_comm, eq_comm]

theorem bit_ite {p : Prop} [Decidable p] (w : Word) (k : Nat) : bit (if p then w else 0) k = true ↔ p ∧ bit w k = true := by
  split
  · next h => exact (and_iff_right h).symm
  · next h => exact iff_of_false (by simp [bit]) fun here => h here.1

section
variable {s : State} {k : Nat}

/-- Interrupt k is one of supervisor level: SSI, STI and SEI with S-mode, LCOFI with Sscofpmf, the platform's (R70, R91). -/
def State.SupervisorInt (s : State) (k : Nat) : Prop :=
  (s.hasS = true ∧ k ∈ [1, 5, 9]) ∨ (k = 13 ∧ s.cfg.sscofpmf = true) ∨ k ∈ s.cfg.platformInts

/-- Interrupt k is one of VS level, or the guest external one (R149, R166). -/
def State.VsLevelInt (s : State) (k : Nat) : Prop := s.hasH = true ∧ (k ∈ [2, 6, 10] ∨ (k = 12 ∧ s.cfg.geilen ≠ 0))

theorem State.bit_sInts_iff (hk : k < 64) : bit s.sInts k = true ↔ s.SupervisorInt k := by
  have standard : bit 0x222 k = true ↔ k ∈ [1, 5, 9] := bit_iff_mem (by decide) hk
  rw [State.sInts, bit_or, bit_or, Bool.or_eq_true, Bool.or_eq_true, bit_ite, standard, bit_bitAt_iff hk, State.bit_platformMask,
    or_assoc, and_iff_left hk, State.SupervisorInt]

theorem State.bit_hInts_iff (hk : k < 64) : bit s.hInts k = true ↔ s.VsLevelInt k := by
  have standard : bit 0x444 k = true ↔ k ∈ [2, 6, 10] := bit_iff_mem (by decide) hk
  rw [State.hInts, bit_ite, bit_or, Bool.or_eq_true, standard, bit_bitAt_iff hk, bne_iff_ne, State.VsLevelInt]

theorem State.bit_mieMask_iff (hk : k < 64) : bit s.mieMask k = true
    ↔ k ∈ [3, 7, 11] ∨ s.SupervisorInt k ∨ s.VsLevelInt k := by
  have standard : bit 0x888 k = true ↔ k ∈ [3, 7, 11] := bit_iff_mem (by decide) hk
  rw [State.mieMask, bit_or, bit_or, Bool.or_eq_true, Bool.or_eq_true, standard, or_assoc, State.bit_sInts_iff hk,
    State.bit_hInts_iff hk]

theorem State.bit_mipWritable_iff (hk : k < 64) : bit s.mipWritable k = true
    ↔ (s.hasS = true ∧ (k = 1 ∨ k = 9 ∨ (k = 5 ∧ s.menvcfgSTCE = false))) ∨ (k = 13 ∧ s.cfg.sscofpmf = true) := by
  have standard : bit 0x202 k = true ↔ k ∈ [1, 9] := bit_iff_mem (by decide) hk
  rw [State.mipWritable, bit_or, bit_or, Bool.or_eq_true, Bool.or_eq_true, bit_ite, standard, bit_bitAt_iff hk, bit_bitAt_iff hk]
  refine or_congr_left ?_
  simp only [List.mem_cons, List.not_mem_nil, or_false, Bool.and_eq_true, Bool.not_eq_true']
  tauto

/-- Of the exceptions that can occur below M-mode, those of the hypervisor extension exist with it only (R68). -/
theorem State.bit_medelegMask_iff (wf : s.cfg.wf = true) (hk : k < 64) :
    bit (s.cfg.medelegMask &&& (if s.hasH then 0xFCB7FF else 0x0CB3FF)) k = true
      ↔ bit s.cfg.medelegMask k = true ∧ (k ∈ [10, 20, 21, 22, 23] → s.hasH = true) := by
  have below : bit s.cfg.medelegMask k = true → bit 0xFCB7FF k = true := by
    simp only [Config.wf, Config.delegationWf, Bool.and_eq_true, beq_iff_eq] at wf
    obtain ⟨-, ⟨none, -⟩, -⟩ := wf
    intro set
    have out : (bit s.cfg.medelegMask k && bit (~~~0xFCB7FF) k) = false :=
      (bit_and ..).symm.trans ((congrArg (bit · k) none).trans (by simp [bit]))
    rw [set, bit_not, decide_eq_true hk] at out
    simpa using out
  have split : ∀ k, k < 64 → bit 0x0CB3FF k = (bit 0xFCB7FF k && decide (k ∉ [10, 20, 21, 22, 23])) := by decide
  rw [bit_and, Bool.and_eq_true, and_congr_right_iff]
  intro set
  cases s.hasH with
  | true => simpa using below set
  | false =>
    rw [if_neg Bool.false_ne_true, split k hk, below set]
    simp

theorem State.bit_hedelegMask_iff (hk : k < 64) : bit (s.cfg.hedelegMask &&& 0xFFFFFFFFFF0EF1FF) k = true
    ↔ bit s.cfg.hedelegMask k = true ∧ k ∉ [9, 10, 11, 16, 20, 21, 22, 23] := by
  have table : ∀ k, k < 64 → (bit 0xFFFFFFFFFF0EF1FF k = true ↔ k ∉ [9, 10, 11, 16, 20, 21, 22, 23]) := by decide
  rw [bit_and, Bool.and_eq_true, table k hk]

theorem State.bit_hidelegWritable_iff (hasH : s.hasH = true) (hk : k < 64) : bit s.hidelegWritable k = true
    ↔ k < s.sxlen.bits ∧ bit s.cfg.hidelegMask k = true ∧ bit s.mideleg k = true
      ∧ (k ∈ [2, 6, 10] ∨ (k = 13 ∧ s.cfg.shlcofideleg = true) ∨ k ∈ s.cfg.platformInts) := by
  have standard : bit 0x444 k = true ↔ k ∈ [2, 6, 10] := bit_iff_mem (by decide) hk
  rw [State.hidelegWritable, if_pos hasH, bit_zx, bit_and, bit_and, bit_or, bit_or]
  simp only [Bool.and_eq_true, Bool.or_eq_true, decide_eq_true_iff, standard, bit_bitAt_iff hk, State.bit_platformMask, hk,
    and_true]
  tauto

end

/-! ### The writes -/

/-- What completes an instruction replaces the registers, the pc and the counters. -/
theorem State.CompletesAs.eq {u t : State} (h : u.CompletesAs t) :
    ∃ regs pc cnt, t = { u with regs := regs, pc := pc, cnt := cnt } := ⟨_, _, _, h⟩

section
variable {s : State} {k : Nat}

theorem State.written_mie (s : State) (v : Word) :
    WrittenWhere s.xlen v (fun k => k ∈ [3, 7, 11] ∨ s.SupervisorInt k ∨ s.VsLevelInt k)
      s.mie (s.csrSet .mie (writeLow s.xlen s.mie v)).mie :=
  writtenWhere_read (read := s.mieMask) (fun _ hk => State.bit_mieMask_iff hk) fun _ set => by rwa [BitVec.allOnes_and]

theorem State.written_mip (s : State) (v : Word) :
    WrittenWhere s.xlen v
      (fun k => (s.hasS = true ∧ (k = 1 ∨ k = 9 ∨ (k = 5 ∧ s.menvcfgSTCE = false))) ∨ (k = 13 ∧ s.cfg.sscofpmf = true))
      s.mc.mip (s.csrSet .mip (writeLow s.xlen s.mip v)).mc.mip := by
  refine writtenWhere_merge (fun k hk => ?_) fun k set => ?_
  · rw [BitVec.allOnes_and, State.bit_mipWritable_iff hk]
  · rw [BitVec.allOnes_and] at set
    have small := (State.bit_mipWritable_iff (lt_of_bit set)).mp set
    omega

/-- VSSIP, which `mip` shows, stands in `hvip` (R71, R150). -/
theorem State.written_mip_hvip (s : State) (v : Word) :
    WrittenWhere s.xlen v (fun k => k = 2 ∧ s.hasH = true) s.hc.hvip (s.csrSet .mip (writeLow s.xlen s.mip v)).hc.hvip := by
  refine writtenWhere_merge (fun k hk => ?_) fun k set => ?_
  · rw [BitVec.allOnes_and, bit_bitAt_iff hk]
  · rw [BitVec.allOnes_and] at set
    rw [eq_of_bit_bitAt set]
    decide

theorem State.written_medeleg (wf : s.cfg.wf = true) (v : Word) :
    WrittenWhere s.xlen v (fun k => bit s.cfg.medelegMask k = true ∧ (k ∈ [10, 20, 21, 22, 23] → s.hasH = true))
      s.medeleg (s.csrSet .medeleg (writeLow s.xlen s.medeleg v)).medeleg := by
  have view : s.medeleg = s.mc.medeleg &&& (s.cfg.medelegMask &&& (if s.hasH then 0xFCB7FF else 0x0CB3FF)) :=
    BitVec.and_assoc ..
  have after (w : Word) : (s.csrSet .medeleg w).medeleg = merge s.mc.medeleg w s.cfg.medelegMask
      &&& (s.cfg.medelegMask &&& (if s.hasH then 0xFCB7FF else 0x0CB3FF)) := BitVec.and_assoc ..
  rw [after, view]
  exact writtenWhere_read (fun k hk => State.bit_medelegMask_iff wf hk) fun k set => by
    rw [bit_and, Bool.and_eq_true] at set
    exact set.1

theorem State.written_hedeleg (hasH : s.hasH = true) (v : Word) :
    WrittenWhere s.xlen v (fun k => bit s.cfg.hedelegMask k = true ∧ k ∉ [9, 10, 11, 16, 20, 21, 22, 23])
      s.hedeleg (s.csrSet .hedeleg (writeLow s.xlen s.hedeleg v)).hedeleg := by
  have view : s.hedeleg = s.hc.hedeleg &&& (s.cfg.hedelegMask &&& 0xFFFFFFFFFF0EF1FF) := by
    rw [State.hedeleg, if_pos hasH, BitVec.and_assoc]
  have after (w : Word) : (s.csrSet .hedeleg w).hedeleg = merge s.hc.hedeleg w s.cfg.hedelegMask
      &&& (s.cfg.hedelegMask &&& 0xFFFFFFFFFF0EF1FF) := (if_pos hasH).trans (BitVec.and_assoc ..)
  rw [after, view]
  exact writtenWhere_read (fun k hk => State.bit_hedelegMask_iff hk) fun k set => by
    rw [bit_and, Bool.and_eq_true] at set
    exact set.1

theorem State.written_hideleg (hasH : s.hasH = true) (v : Word) :
    WrittenWhere s.xlen v
      (fun k => k < s.sxlen.bits ∧ bit s.cfg.hidelegMask k = true ∧ bit s.mideleg k = true
        ∧ (k ∈ [2, 6, 10] ∨ (k = 13 ∧ s.cfg.shlcofideleg = true) ∨ k ∈ s.cfg.platformInts))
      s.hideleg (s.csrSet .hideleg (writeLow s.xlen s.hideleg v)).hideleg :=
  writtenWhere_read (read := s.hidelegWritable) (fun _ hk => State.bit_hidelegWritable_iff hasH hk) fun _ => id

/-- `hvip` has three bits, VSSIP, VSTIP and VSEIP (R148). -/
theorem writeLow_and_hvip (xl : Xlen) (old v : Word) : writeLow xl old v &&& 0x444 = v &&& 0x444 := by
  refine eq_of_bits fun k => ?_
  rw [bit_and, bit_and, bit_writeLow]
  cases shown : bit 0x444 k with
  | false => rw [Bool.and_false, Bool.and_false]
  | true =>
    have low : k ∈ [2, 6, 10] := mem_of_bit (by decide) shown
    have below : k < xl.bits := (show k < 32 by revert low; simp; omega).trans_le (by cases xl <;> decide)
    rw [if_pos below]

/-! ### `mideleg` (R68, R166) -/

theorem State.mideleg_writeMideleg (s : State) (w : Word) : (s.writeMideleg w).mideleg
    = (merge s.mc.mideleg w s.midelegWritable &&& s.midelegWritable) ||| s.hInts := rfl

/-- After a write the VS-level bits read 1, those that it reaches as written, the others as before. -/
theorem State.bit_midelegAfter (s : State) (xl : Xlen) (v : Word) (k : Nat) :
    bit (s.writeMideleg (writeLow xl s.mideleg v)).mideleg k
      = (bit s.hInts k || if bit s.midelegWritable k = true ∧ k < xl.bits then bit v k else bit s.mideleg k) := by
  rw [State.mideleg_writeMideleg, bit_or, bit_and, bit_merge, bit_writeLow, Bool.or_comm]
  by_cases low : k < xl.bits <;> cases writable : bit s.midelegWritable k <;> cases vs : bit s.hInts k <;>
    simp [low, writable, vs, State.mideleg, bit_or, bit_and]

theorem State.bit_midelegWritable_iff (hasS : s.hasS = true) (hk : k < 64) :
    bit s.midelegWritable k = true ↔ bit s.cfg.midelegMask k = true ∧ s.SupervisorInt k := by
  rw [State.midelegWritable, if_pos hasS, bit_and, Bool.and_eq_true, State.bit_sInts_iff hk]

theorem State.written_mideleg (hasS : s.hasS = true) (xl : Xlen) (v : Word) :
    let new := (s.writeMideleg (writeLow xl s.mideleg v)).mideleg
    (∀ k, k < 64 → s.VsLevelInt k → bit new k = true)
      ∧ (∀ k, k < 64 → ¬ s.VsLevelInt k → k < xl.bits → bit s.cfg.midelegMask k = true → s.SupervisorInt k →
          bit new k = bit v k)
      ∧ (∀ k, k < 64 → ¬ (bit s.cfg.midelegMask k = true ∧ s.SupervisorInt k ∧ k < xl.bits) →
          bit new k = bit s.mideleg k) := by
  refine ⟨fun k hk vs => ?_, fun k hk vs low mask level => ?_, fun k hk out => ?_⟩
  · rw [s.bit_midelegAfter, (State.bit_hInts_iff hk).mpr vs, Bool.true_or]
  · have apart : bit s.hInts k = false := Bool.eq_false_iff.mpr fun set => vs ((State.bit_hInts_iff hk).mp set)
    rw [s.bit_midelegAfter, apart, Bool.false_or, if_pos ⟨(State.bit_midelegWritable_iff hasS hk).mpr ⟨mask, level⟩, low⟩]
  · rw [s.bit_midelegAfter,
      if_neg fun here => out (and_assoc.mp ⟨(State.bit_midelegWritable_iff hasS hk).mp here.1, here.2⟩)]
    cases vs : bit s.hInts k
    · exact Bool.false_or _
    · exact (State.mideleg_of_hInts vs).symm

/-- A write of `mideleg` leaves the bits of `hideleg` that do not become writable. -/
theorem State.bit_writeMideleg_hideleg {w : Word}
    (h : bit s.hidelegWritable k = true ∨ bit (s.writeMideleg w).hidelegWritable k = false) :
    bit (s.writeMideleg w).hc.hideleg k = bit s.hc.hideleg k := by
  have stays : bit ((s.writeMideleg w).hidelegWritable &&& ~~~s.hidelegWritable) k = false := by
    rw [bit_and, bit_not]
    rcases h with before | after
    · rw [before, Bool.not_true, Bool.and_false, Bool.and_false]
    · rw [after, Bool.false_and]
  change bit (merge _ _ ((s.writeMideleg w).hidelegWritable &&& ~~~s.hidelegWritable)) k = _
  rw [bit_merge, stays, if_neg Bool.false_ne_true]

/-- What completing an instruction changes has no part in what the interrupt and delegation registers read. -/
theorem State.CompletesAs.delegation {u t : State} (h : u.CompletesAs t) :
    t.mie = u.mie ∧ t.medeleg = u.medeleg ∧ t.mideleg = u.mideleg ∧ t.hedeleg = u.hedeleg ∧ t.hideleg = u.hideleg
      ∧ t.hidelegWritable = u.hidelegWritable := by
  rw [State.CompletesAs] at h
  rw [h]
  exact ⟨rfl, rfl, rfl, rfl, rfl, rfl⟩

end

/-- Settles O28: which bits exist, register by register, and how each is stored and read. -/
theorem interruptAndDelegationWrites : Obligations.InterruptAndDelegationWrites := by
  intro s rd rs1 hp hv wf v written platform supervisor vsLevel
  refine ⟨?_, ?_, fun has => ?_, fun has => ?_, fun has => ?_, fun has => ?_, fun has => ?_⟩
  · obtain ⟨t, he, ht⟩ := exec_csrrw_machine hp hv (n := 0x304) (r := .mie) rfl rfl rfl rfl rd rs1
    obtain ⟨mie, -⟩ := ht.frame.delegation
    refine ⟨t, he, ?_, mie ▸ s.written_mie v⟩
    obtain ⟨regs, pc, cnt, rfl⟩ := ht.frame.eq
    rfl
  · obtain ⟨t, he, ht⟩ := exec_csrrw_machine hp hv (n := 0x344) (r := .mip) rfl rfl rfl rfl rd rs1
    obtain ⟨regs, pc, cnt, rfl⟩ := ht.frame.eq
    exact ⟨_, he, rfl, s.written_mip v, s.written_mip_hvip v⟩
  · obtain ⟨t, he, ht⟩ := exec_csrrw_machine hp hv (n := 0x302) (r := .medeleg) rfl rfl has rfl rd rs1
    obtain ⟨-, medeleg, -⟩ := ht.frame.delegation
    refine ⟨t, he, ?_, medeleg ▸ State.written_medeleg wf v⟩
    obtain ⟨regs, pc, cnt, rfl⟩ := ht.frame.eq
    rfl
  · obtain ⟨t, he, ht⟩ := exec_csrrw_machine hp hv (n := 0x303) (r := .mideleg) rfl rfl has rfl rd rs1
    obtain ⟨-, -, mideleg, -, -, writable⟩ := ht.frame.delegation
    obtain ⟨vs, reached, others⟩ := State.written_mideleg has s.xlen v
    refine ⟨t, he, ?_, mideleg ▸ vs, mideleg ▸ reached, mideleg ▸ others, fun k h => ?_⟩
    · obtain ⟨regs, pc, cnt, rfl⟩ := ht.frame.eq
      rfl
    · obtain ⟨-, -, hc, -⟩ := ht.frame.fields
      rw [hc]
      rw [writable] at h
      exact State.bit_writeMideleg_hideleg h
  · obtain ⟨t, he, ht⟩ := exec_csrrw_machine hp hv (n := 0x602) (r := .hedeleg) rfl rfl has rfl rd rs1
    obtain ⟨-, -, -, hedeleg, -⟩ := ht.frame.delegation
    refine ⟨t, he, ?_, hedeleg ▸ State.written_hedeleg has v⟩
    obtain ⟨regs, pc, cnt, rfl⟩ := ht.frame.eq
    rfl
  · obtain ⟨t, he, ht⟩ := exec_csrrw_machine hp hv (n := 0x603) (r := .hideleg) rfl rfl has rfl rd rs1
    obtain ⟨-, -, -, -, hideleg, -⟩ := ht.frame.delegation
    refine ⟨t, he, ?_, hideleg ▸ State.written_hideleg has v⟩
    obtain ⟨regs, pc, cnt, rfl⟩ := ht.frame.eq
    rfl
  · obtain ⟨t, he, ht⟩ := exec_csrrw_machine hp hv (n := 0x645) (r := .hvip) rfl rfl has rfl rd rs1
    obtain ⟨regs, pc, cnt, rfl⟩ := ht.frame.eq
    exact ⟨_, he, rfl, writeLow_and_hvip s.xlen _ v⟩

end Sys2Proof.Machine
end

section
/-! PROOFS. Writes of the status registers (O23): which bits of each a write can set to any value, and what it leaves of the fields of
more than one bit. -/

namespace Sys2Proof.Machine

/-! ### The bits of `mstatus` that can be written (R52, R61, R65) -/

section
variable {s : State} {k : Nat}

/-- The bits of `mstatus` that a write can set to any value, FS and VS apart (R52, R61). -/
def State.statusTaken (s : State) : List Nat :=
  [3, 7] ++ (if s.hasS then [1, 5, 8, 19, 20, 22] else [])
    ++ (if s.hasS && s.hasPaging then [18] else []) ++ (if s.hasU then [17, 21] else [])
    ++ (if s.hasH then [38, 39] else []) ++ (if s.hasU && s.cfg.ube == .writable then [6] else [])
    ++ (if s.hasS && s.cfg.sbe == .writable then [36] else []) ++ (if s.cfg.mbe == .writable then [37] else [])

/-- All of them that some hart has. -/
def statusTakenOnSome : List Nat := [1, 3, 5, 6, 7, 8, 17, 18, 19, 20, 21, 22, 36, 37, 38, 39]

/-- FS and VS, where they are writable (R65). -/
def State.contextTaken (s : State) : List Nat :=
  (if s.hasS && s.cfg.fsWritable then [13, 14] else []) ++ (if s.hasS && s.cfg.vsWritable then [9, 10] else [])

theorem State.bit_mstatusMask_iff (hk : k < 64) : bit s.mstatusMask k = true
    ↔ k ∈ [3, 7, 11, 12] ∨ (s.hasS = true ∧ k ∈ [1, 5, 8, 19, 20, 22]) ∨ ((s.hasS = true ∧ s.hasPaging = true) ∧ k = 18)
      ∨ (s.hasU = true ∧ k ∈ [17, 21, 6]) ∨ (s.hasS = true ∧ k = 36) ∨ k = 37 ∨ (s.hasH = true ∧ k ∈ [38, 39])
      ∨ k ∈ s.contextTaken := by
  have machine : bit 0x1888 k = true ↔ k ∈ [3, 7, 11, 12] := bit_iff_mem (by decide) hk
  have supervisor : bit 0x580122 k = true ↔ k ∈ [1, 5, 8, 19, 20, 22] := bit_iff_mem (by decide) hk
  have hypervisor : bit 0xC000000000 k = true ↔ k ∈ [38, 39] := bit_iff_mem (by decide) hk
  have fs : bit 0x6000 k = true ↔ k ∈ [13, 14] := bit_iff_mem (by decide) hk
  have vs : bit 0x600 k = true ↔ k ∈ [9, 10] := bit_iff_mem (by decide) hk
  have single {j : Nat} {b : Bool} : bit (bitAt j b) k = true ↔ b = true ∧ k = j := (bit_bitAt_iff hk).trans and_comm
  simp only [State.mstatusMask, bit_or, Bool.or_eq_true, bit_ite, single, machine, supervisor, hypervisor, fs, vs,
    State.contextTaken, List.mem_append, List.mem_ite_nil_right, Bool.and_eq_true, List.mem_cons, List.not_mem_nil, or_false,
    or_assoc, and_or_left, true_and]

theorem State.bit_mstatusWritable_iff (hk : k < 64) :
    bit s.mstatusWritable k = true ↔ k ∈ s.statusTaken ∨ k ∈ s.contextTaken := by
  have fixed : bit (~~~(0x3000001840 : Word)) k = true ↔ k ∉ [6, 11, 12, 36, 37] := by
    rw [bit_not, decide_eq_true hk, Bool.true_and, Bool.not_eq_true', ← Bool.not_eq_true,
      bit_iff_mem (l := [6, 11, 12, 36, 37]) (by decide) hk]
  simp only [State.mstatusWritable, bit_or, bit_and, Bool.or_eq_true, Bool.and_eq_true, fixed, State.bit_mstatusMask_iff hk,
    bit_bitAt_iff hk, State.statusTaken, List.mem_append, List.mem_ite_nil_right, List.mem_cons, List.not_mem_nil, or_false,
    beq_iff_eq, not_or]
  by_cases apart : k ≠ 6 ∧ k ≠ 11 ∧ k ≠ 12 ∧ k ≠ 36 ∧ k ≠ 37
  · obtain ⟨h6, h11, h12, h36, h37⟩ := apart
    simp only [h6, h11, h12, h36, h37, false_and, and_false, or_false, false_or, not_false_eq_true, and_true, or_assoc,
      and_or_left]
  · have inside : k = 6 ∨ k = 11 ∨ k = 12 ∨ k = 36 ∨ k = 37 := by omega
    rcases inside with rfl | rfl | rfl | rfl | rfl <;> simp [State.contextTaken]

theorem State.mem_of_statusTaken (h : k ∈ s.statusTaken) : k ∈ statusTakenOnSome := by
  have drop {p : Prop} [Decidable p] {l : List Nat} (h : k ∈ if p then l else []) : k ∈ l := (List.mem_ite_nil_right.mp h).2
  simp only [State.statusTaken, List.mem_append] at h
  rcases h with ((((((h | h) | h) | h) | h) | h) | h) | h
  · exact (by decide : [3, 7] ⊆ _) h
  · exact (by decide : [1, 5, 8, 19, 20, 22] ⊆ _) (drop h)
  · exact (by decide : [18] ⊆ _) (drop h)
  · exact (by decide : [17, 21] ⊆ _) (drop h)
  · exact (by decide : [38, 39] ⊆ _) (drop h)
  · exact (by decide : [6] ⊆ _) (drop h)
  · exact (by decide : [36] ⊆ _) (drop h)
  · exact (by decide : [37] ⊆ _) (drop h)

theorem State.bit_mstatusMask_of_writable (h : bit s.mstatusWritable k = true) : bit s.mstatusMask k = true := by
  have hk := lt_of_bit h
  simp only [State.mstatusWritable, bit_or, bit_and, Bool.or_eq_true, Bool.and_eq_true, bit_bitAt_iff hk] at h
  rcases h with ((⟨set, -⟩ | ⟨rfl, hasU, -⟩) | ⟨rfl, hasS, -⟩) | ⟨rfl, -⟩
  · exact set
  · exact (State.bit_mstatusMask_iff hk).mpr (by simp [hasU])
  · exact (State.bit_mstatusMask_iff hk).mpr (by simp [hasS])
  · exact (State.bit_mstatusMask_iff hk).mpr (by simp)

/-! ### `mstatus` (R52-R54, R56, R61) -/

/-- A bit that is in no field of more than one bit takes what is written where it is writable and in the mask. -/
theorem State.bit_legalMstatus_single (mask w : Word) (hk : k ∉ [11, 12, 32, 33, 34, 35]) :
    bit (s.legalMstatus mask w) k
      = if bit mask k = true ∧ bit s.mstatusWritable k = true then bit w k else bit s.mc.mstatus k := by
  simp only [List.mem_cons, List.not_mem_nil, or_false, not_or] at hk
  have single (f : BitVec 2) : bit (setField (merge s.mc.mstatus (merge s.mc.mstatus w mask) s.mstatusWritable) 11 f) k
      = if bit mask k = true ∧ bit s.mstatusWritable k = true then bit w k else bit s.mc.mstatus k := by
    rw [bit_setField, if_neg (by omega), bit_merge, bit_merge]
    cases bit mask k <;> cases bit s.mstatusWritable k <;> rfl
  unfold State.legalMstatus
  cases s.cfg.mxlen with
  | rv32 => exact single _
  | rv64 =>
    dsimp only
    rw [bit_setField, if_neg (by omega), bit_setField, if_neg (by omega)]
    exact single _

/-- A bit that is writable, and in the mask, takes what is written. -/
theorem State.bit_legalMstatus_taken {mask : Word} (reached : bit mask k = true) (hk : k ∈ s.statusTaken) (w : Word) :
    bit (s.legalMstatus mask w) k = bit w k := by
  have apart : ∀ k ∈ statusTakenOnSome, k < 64 ∧ k ∉ [11, 12, 32, 33, 34, 35] := by decide
  obtain ⟨small, single⟩ := apart k (State.mem_of_statusTaken hk)
  rw [State.bit_legalMstatus_single mask w single, if_pos ⟨reached, (State.bit_mstatusWritable_iff small).mpr (.inl hk)⟩]

/-- A byte-order bit that is not writable stays (R61). -/
theorem State.bit_legalMstatus_endian (hk : k ∈ [6, 36, 37]) (out : k ∉ s.statusTaken) (mask w : Word) :
    bit (s.legalMstatus mask w) k = bit s.mc.mstatus k := by
  have apart : ∀ k ∈ [6, 36, 37], k < 64 ∧ k ∉ [11, 12, 32, 33, 34, 35] ∧ k ∉ [13, 14] ∧ k ∉ [9, 10] := by decide
  obtain ⟨small, single, fs, vs⟩ := apart k hk
  have context : k ∉ s.contextTaken := by
    simp only [State.contextTaken, List.mem_append, List.mem_ite_nil_right, fs, vs, and_false, or_self, not_false_eq_true]
  rw [State.bit_legalMstatus_single mask w single, if_neg]
  rw [State.bit_mstatusWritable_iff small]
  exact fun here => here.2.elim out context

/-- The bits of `sstatus` that are writable are so through it. -/
theorem State.mem_statusTaken_of_sstatus (hasS : s.hasS = true) (hk : k ∈ [1, 5, 8, 19] ++ (if s.hasPaging then [18] else []))
    (xl : Xlen) : k ∈ s.statusTaken ∧ bit (sstatusMask xl) k = true := by
  have mask : ∀ k ∈ [1, 5, 8, 19, 18], bit (sstatusMask xl) k = true := by cases xl <;> decide
  rcases List.mem_append.mp hk with always | paging
  · have supervisor : k ∈ [1, 5, 8, 19, 20, 22] := (by decide : [1, 5, 8, 19] ⊆ _) always
    exact ⟨by simp only [State.statusTaken, hasS, if_true, List.mem_append, supervisor, or_true, true_or],
      mask k (List.mem_append_left [18] always)⟩
  · exact ⟨by simp only [State.statusTaken, hasS, Bool.true_and, List.mem_append, paging, or_true, true_or],
      mask k ((by decide : [18] ⊆ _) (List.mem_ite_nil_right.mp paging).2)⟩

theorem State.legalPP_eq (s : State) (old w : BitVec 2) :
    s.legalPP old w = if w ≠ 2#2 ∧ s.supports (Priv.ofCode w) = true then w else old := by
  unfold State.legalPP
  by_cases reserved : w = 2#2
  · simp [reserved]
  · simp [reserved]

/-- SXL, where it cannot be written and holds a legal code. -/
theorem State.newSxl_fixed (fixed : s.cfg.sxlWritable = false) (hasS : s.hasS = true) {old : Word}
    (legal : field old 34 2 = 1#2 ∨ field old 34 2 = 2#2) (w : Word) : s.newSxl old w = field old 34 2 := by
  rw [State.newSxl, if_pos hasS, fixed]
  rcases legal with h | h <;> rw [h] <;> rfl

/-- The bits that a write can set lie apart from MPP and the widths. -/
theorem State.mstatusWritable_spares (hk : k ∈ [11, 12, 32, 33, 34, 35]) : bit s.mstatusWritable k = false := by
  have small : ∀ k ∈ [11, 12, 32, 33, 34, 35], k < 64 := by decide
  have apart : ∀ k ∈ [11, 12, 32, 33, 34, 35], k ∉ statusTakenOnSome ++ [13, 14, 9, 10] := by
    decide
  refine Bool.eq_false_iff.mpr fun set => apart k hk ?_
  rcases (State.bit_mstatusWritable_iff (small k hk)).mp set with taken | context
  · exact List.mem_append_left [13, 14, 9, 10] (State.mem_of_statusTaken taken)
  · simp only [State.contextTaken, List.mem_append, List.mem_ite_nil_right] at context
    rcases context with ⟨-, fs⟩ | ⟨-, vs⟩
    · exact (by decide : [13, 14] ⊆ _) fs
    · exact (by decide : [9, 10] ⊆ _) vs

theorem setField_field (w : Word) (lo n : Nat) : setField w lo (field w lo n) = w :=
  eq_of_bits fun _ => bit_setField_copy rfl lo n

theorem State.newUxl_fixed (sxl : s.cfg.sxlWritable = false) (uxl : s.cfg.uxlWritable = false) (hasS : s.hasS = true) {old : Word}
    (legal : field old 34 2 = 1#2 ∨ field old 34 2 = 2#2) (w : Word) : s.newUxl old w = field old 34 2 := by
  rw [State.newUxl, State.hasU_of_hasS hasS, if_pos hasS, State.newSxl_fixed sxl hasS legal, uxl]
  rcases legal with h | h <;> rw [h] <;> rfl

/-- A write leaves SXL, where it cannot be written. -/
theorem State.legalMstatus_sxl (fixed : s.cfg.sxlWritable = false) (width : s.cfg.mxlen = .rv64) (hasS : s.hasS = true)
    (legal : field s.mc.mstatus 34 2 = 1#2 ∨ field s.mc.mstatus 34 2 = 2#2) (mask w : Word) :
    field (s.legalMstatus mask w) 34 2 = field s.mc.mstatus 34 2 := by
  simp only [State.legalMstatus, width]
  rw [field_setField_other _ _ _ _ _ (by omega), field_setField_same _ _ _ (by omega), State.newSxl_fixed fixed hasS legal]

/-- The widths of a hart with S-mode that can write none of them. -/
structure State.WidthsFixed (s : State) : Prop where
  sxl : s.cfg.sxlWritable = false
  uxl : s.cfg.uxlWritable = false
  sxlLegal : s.cfg.mxlen = .rv64 → field s.mc.mstatus 34 2 = 1#2 ∨ field s.mc.mstatus 34 2 = 2#2
  uxlSame : s.cfg.mxlen = .rv64 → field s.mc.mstatus 32 2 = field s.mc.mstatus 34 2

/-- Where the widths are fixed, a write reaches the bits that are writable and MPP, and leaves every other bit. -/
theorem State.legalMstatus_fixed (fixed : s.WidthsFixed) (hasS : s.hasS = true) (mask w : Word) :
    s.legalMstatus mask w = setField (merge s.mc.mstatus (merge s.mc.mstatus w mask) s.mstatusWritable) 11
      (s.legalPP (field s.mc.mstatus 11 2) (field (merge s.mc.mstatus w mask) 11 2)) := by
  generalize hr : setField (merge s.mc.mstatus (merge s.mc.mstatus w mask) s.mstatusWritable) 11
      (s.legalPP (field s.mc.mstatus 11 2) (field (merge s.mc.mstatus w mask) 11 2)) = r
  have stays (lo : Nat) (hlo : lo = 32 ∨ lo = 34) : field r lo 2 = field s.mc.mstatus lo 2 := by
    rw [← hr, field_setField_other _ _ _ _ _ (by omega)]
    refine field_merge_other _ _ _ _ _ fun k _ _ => State.mstatusWritable_spares ?_
    rcases (by omega : k = 32 ∨ k = 33 ∨ k = 34 ∨ k = 35) with rfl | rfl | rfl | rfl <;> decide
  simp only [State.legalMstatus, hr]
  cases width : s.cfg.mxlen with
  | rv32 => rfl
  | rv64 =>
    dsimp only
    rw [State.newSxl_fixed fixed.sxl hasS (fixed.sxlLegal width), State.newUxl_fixed fixed.sxl fixed.uxl hasS (fixed.sxlLegal width),
      ← stays 34 (.inr rfl), setField_field, stays 34 (.inr rfl), ← fixed.uxlSame width, ← stays 32 (.inl rfl), setField_field]

theorem State.sxlen_congr {s t : State} (hc : t.cfg = s.cfg) (hm : t.mc.misa = s.mc.misa)
    (h : s.cfg.mxlen = .rv64 → s.hasS = true → field t.mc.mstatus 34 2 = field s.mc.mstatus 34 2) : t.sxlen = s.sxlen := by
  obtain ⟨-, sameS, -, -⟩ := State.modes_congr hc hm
  simp only [State.sxlen, hc, sameS]
  cases width : s.cfg.mxlen with
  | rv32 => rfl
  | rv64 =>
    cases hasS : s.hasS with
    | false => rfl
    | true => rw [h width hasS]

/-- Where no width changes, no register of another level does (R36). -/
theorem State.modulate_of_sxlen {before after : State} (h : after.sxlen = before.sxlen) : before.modulate after = after := by
  unfold State.modulate
  rw [h]
  cases before.sxlen <;> rfl

theorem State.modulateVS_of_vsxlen {before after : State} (h : after.vsxlen = before.vsxlen) : before.modulateVS after = after := by
  unfold State.modulateVS
  rw [h]
  cases before.cfg.hasH <;> cases before.vsxlen <;> rfl

/-- Where SXL is fixed a write of `mstatus` changes no other register. -/
theorem State.csrSet_mstatus_fixed (fixed : s.cfg.sxlWritable = false)
    (legal : s.cfg.mxlen = .rv64 → s.hasS = true → field s.mc.mstatus 34 2 = 1#2 ∨ field s.mc.mstatus 34 2 = 2#2) (w : Word) :
    s.csrSet .mstatus w = { s with mc := { s.mc with mstatus := s.legalMstatus (BitVec.allOnes 64) w } } :=
  State.modulate_of_sxlen (State.sxlen_congr rfl rfl fun width hasS =>
    State.legalMstatus_sxl fixed width hasS (legal width hasS) _ w)

/-- What M-mode reads of a bit that it can write is the bit, but for that of SD (R52). -/
theorem State.bit_viewMstatus (h : bit s.mstatusWritable k = true) (sd : k ≠ s.cfg.mxlen.bits - 1) :
    bit s.viewMstatus k = bit s.mc.mstatus k := by
  rw [State.viewMstatus, withSD, bit_setBit_other _ _ (Ne.symm sd), bit_and, bit_or, State.bit_mstatusMask_of_writable h, Bool.true_or,
    Bool.and_true]

theorem bit_allOnes (hk : k < 64) : bit (BitVec.allOnes 64) k = true :=
  BitVec.getLsbD_allOnes.trans (decide_eq_true hk)

/-- Of what is written under a full mask, MPP takes an implemented mode (R54). -/
theorem State.legalMstatus_allOnes_mpp (s : State) (w : Word) : field (s.legalMstatus (BitVec.allOnes 64) w) 11 2
    = if field w 11 2 ≠ 2#2 ∧ s.supports (Priv.ofCode (field w 11 2)) = true then field w 11 2 else field s.mc.mstatus 11 2 := by
  have whole : field (merge s.mc.mstatus w (BitVec.allOnes 64)) 11 2 = field w 11 2 := field_congr fun k _ h => by
    rw [bit_merge, if_pos (bit_allOnes (by omega))]
  rw [State.legalMstatus_mpp, State.legalPP_eq, whole]

/-- A field below bit 32 of what is written is the operand's. -/
theorem field_writeLow (xl : Xlen) (old v : Word) {lo n : Nat} (h : lo + n ≤ 32) :
    field (writeLow xl old v) lo n = field v lo n :=
  field_congr fun k _ hk => by
    rw [bit_writeLow, if_pos]
    exact (show k < 32 by omega).trans_le (by cases xl <;> decide)

/-- Below the width only the bits listed can be written. -/
theorem State.le_of_statusTaken (h : k ∈ s.statusTaken) {xl : Xlen}
    (out : k ∉ [1, 3, 5, 6, 7, 8, 11, 12, 17, 18, 19, 20, 21, 22] ++ (if xl = .rv64 then [36, 37, 38, 39] else [])) :
    xl.bits ≤ k := by
  have member := State.mem_of_statusTaken h
  cases xl with
  | rv32 =>
    have above : ∀ k ∈ statusTakenOnSome,
        k ∉ [1, 3, 5, 6, 7, 8, 11, 12, 17, 18, 19, 20, 21, 22] → 32 ≤ k := by decide
    exact above k member fun listed => out (List.mem_append_left _ listed)
  | rv64 =>
    exact absurd ((by decide : _ ⊆ [1, 3, 5, 6, 7, 8, 11, 12, 17, 18, 19, 20, 21, 22] ++ [36, 37, 38, 39]) member) out

/-- Every bit stays but those that can be written below the width, and MPP. -/
theorem State.bit_legalMstatus_stays (fixed : s.WidthsFixed) (hasS : s.hasS = true) {xl : Xlen} (width : xl = s.cfg.mxlen)
    (v : Word) (mpp : k ∉ [11, 12]) (out : bit s.mstatusWritable k = true → xl.bits ≤ k) :
    bit (s.legalMstatus (BitVec.allOnes 64) (writeLow xl s.viewMstatus v)) k = bit s.mc.mstatus k := by
  simp only [List.mem_cons, List.not_mem_nil, or_false, not_or] at mpp
  rw [State.legalMstatus_fixed fixed hasS, bit_setField, if_neg (by omega), bit_merge]
  cases writable : bit s.mstatusWritable k with
  | false => rfl
  | true =>
    have high := out writable
    have sd : k ≠ s.cfg.mxlen.bits - 1 := by
      rw [← width]
      cases xl <;> simp only [Xlen.bits] at * <;> omega
    rw [if_pos rfl, bit_merge, bit_allOnes (lt_of_bit writable), if_pos rfl, bit_writeLow, if_neg (by omega),
      State.bit_viewMstatus writable sd]

/-! ### `hstatus` and `vsstatus` (R139-R145, R159) -/

/-- The bits of `hstatus` that a write can set to any value. -/
def State.hstatusTaken (s : State) : List Nat := [6, 7, 8, 9, 20, 21, 22] ++ (if s.cfg.vsbe == .writable then [5] else [])

/-- The bits of `vsstatus` that a write can set to any value, FS and VS apart. -/
def State.vsstatusTaken (s : State) : List Nat := [1, 5, 8, 18, 19] ++ (if s.cfg.vube == .writable then [6] else [])

/-- The mask of the bits of `hstatus` that a write can set to any value. -/
def State.hstatusWritable (s : State) : Word := 0x7003C0 ||| bitAt 5 (s.cfg.vsbe == .writable)

/-- The mask of the bits of `vsstatus` that a write can set to any value. -/
def State.vsstatusWritable (s : State) : Word :=
  0xC0122 ||| bitAt 6 (s.cfg.vube == .writable) ||| (if s.cfg.fsWritable then 0x6000 else 0)
    ||| (if s.cfg.vsWritable then 0x600 else 0)

theorem State.bit_hstatusWritable_iff (hk : k < 64) : bit s.hstatusWritable k = true ↔ k ∈ s.hstatusTaken := by
  have fixed : bit 0x7003C0 k = true ↔ k ∈ [6, 7, 8, 9, 20, 21, 22] := bit_iff_mem (by decide) hk
  rw [State.hstatusWritable, bit_or, Bool.or_eq_true, fixed, bit_bitAt_iff hk, State.hstatusTaken, List.mem_append,
    List.mem_ite_nil_right, List.mem_singleton, and_comm]

theorem State.bit_vsstatusWritable_iff (hk : k < 64) : bit s.vsstatusWritable k = true
    ↔ k ∈ s.vsstatusTaken ∨ (s.cfg.fsWritable = true ∧ k ∈ [13, 14]) ∨ (s.cfg.vsWritable = true ∧ k ∈ [9, 10]) := by
  have fixed : bit 0xC0122 k = true ↔ k ∈ [1, 5, 8, 18, 19] := bit_iff_mem (by decide) hk
  have fs : bit 0x6000 k = true ↔ k ∈ [13, 14] := bit_iff_mem (by decide) hk
  have vs : bit 0x600 k = true ↔ k ∈ [9, 10] := bit_iff_mem (by decide) hk
  rw [State.vsstatusWritable, bit_or, bit_or, bit_or, Bool.or_eq_true, Bool.or_eq_true, Bool.or_eq_true, fixed, bit_ite, fs, bit_ite,
    vs, bit_bitAt_iff hk, State.vsstatusTaken, List.mem_append, List.mem_ite_nil_right, List.mem_singleton, and_comm (a := k = 6),
    or_assoc]

theorem State.mem_of_hstatusTaken (h : k ∈ s.hstatusTaken) : k ∈ [5, 6, 7, 8, 9, 20, 21, 22] := by
  rcases List.mem_append.mp h with always | endian
  · exact (by decide : [6, 7, 8, 9, 20, 21, 22] ⊆ _) always
  · exact (by decide : [5] ⊆ _) (List.mem_ite_nil_right.mp endian).2

theorem State.mem_of_vsstatusTaken (h : k ∈ s.vsstatusTaken) : k ∈ [1, 5, 6, 8, 18, 19] := by
  rcases List.mem_append.mp h with always | endian
  · exact (by decide : [1, 5, 8, 18, 19] ⊆ _) always
  · exact (by decide : [6] ⊆ _) (List.mem_ite_nil_right.mp endian).2

/-- A width field that cannot be written and holds a legal code stays. -/
theorem setField_legalXl {r old : Word} {lo : Nat} (same : field r lo 2 = field old lo 2)
    (legal : field old lo 2 = 1#2 ∨ field old lo 2 = 2#2) (w : BitVec 2) :
    setField r lo (legalXl false .rv64 (field old lo 2) w) = r := by
  have stays : legalXl false .rv64 (field old lo 2) w = field r lo 2 := by
    rw [same]
    rcases legal with h | h <;> rw [h] <;> rfl
  rw [stays, setField_field]

/-- VGEIN after a write of w (R32, R142). -/
def State.newVgein (s : State) (w : Word) : BitVec 6 :=
  if (field w 12 6).toNat ≤ s.cfg.geilen then field w 12 6 else Config.wlrlVgein (field w 12 6) (field s.hc.hstatus 12 6)

/-- `hstatus` after a write of w: the writable bits and VGEIN. -/
def State.hstatusAfter (s : State) (w : Word) : Word :=
  setField (merge s.hc.hstatus w s.hstatusWritable) 12 (s.newVgein w)

theorem State.bit_hstatusAfter (w : Word) (vgein : k < 12 ∨ 18 ≤ k) :
    bit (s.hstatusAfter w) k = if bit s.hstatusWritable k then bit w k else bit s.hc.hstatus k := by
  rw [State.hstatusAfter, bit_setField, if_neg (by omega), bit_merge]

theorem State.bit_hstatusAfter_taken (hk : k ∈ s.hstatusTaken) (w : Word) : bit (s.hstatusAfter w) k = bit w k := by
  have apart : ∀ k ∈ [5, 6, 7, 8, 9, 20, 21, 22], k < 64 ∧ (k < 12 ∨ 18 ≤ k) := by decide
  obtain ⟨small, vgein⟩ := apart k (State.mem_of_hstatusTaken hk)
  rw [State.bit_hstatusAfter w vgein, if_pos ((State.bit_hstatusWritable_iff small).mpr hk)]

theorem State.bit_hstatusAfter_other (hk : k ∉ s.hstatusTaken) (vgein : k < 12 ∨ 18 ≤ k) (w : Word) :
    bit (s.hstatusAfter w) k = bit s.hc.hstatus k := by
  rw [State.bit_hstatusAfter w vgein, if_neg fun set => hk ((State.bit_hstatusWritable_iff (lt_of_bit set)).mp set)]

/-- VGEIN takes a number that it can hold (R142). -/
theorem State.field_hstatusAfter_vgein {w : Word} (h : (field w 12 6).toNat ≤ s.cfg.geilen) :
    field (s.hstatusAfter w) 12 6 = field w 12 6 := by
  rw [State.hstatusAfter, field_setField_same _ _ _ (by decide), State.newVgein, if_pos h]

/-- What a write of `hstatus` reaches lies apart from VSXL. -/
theorem State.field_hstatusAfter_vsxl (s : State) (w : Word) : field (s.hstatusAfter w) 32 2 = field s.hc.hstatus 32 2 :=
  field_congr fun k h1 h2 => State.bit_hstatusAfter_other (fun taken => by
    have := State.mem_of_hstatusTaken taken
    simp only [List.mem_cons, List.not_mem_nil, or_false] at this
    omega) (by omega) w

/-- Where VSXL is fixed, a write reaches the bits that are writable and VGEIN, and leaves every other bit. -/
theorem State.legalHstatus_fixed (fixed : s.cfg.vsxlWritable = false)
    (legal : s.sxlen = .rv64 → field s.hc.hstatus 32 2 = 1#2 ∨ field s.hc.hstatus 32 2 = 2#2) (w : Word) :
    s.legalHstatus w = s.hstatusAfter w := by
  unfold State.legalHstatus
  cases width : s.sxlen with
  | rv32 => rfl
  | rv64 =>
    rw [fixed]
    exact setField_legalXl (s.field_hstatusAfter_vsxl w) (legal width) _

theorem State.vsxlen_congr {s t : State} (hs : t.sxlen = s.sxlen) (h : field t.hc.hstatus 32 2 = field s.hc.hstatus 32 2) :
    t.vsxlen = s.vsxlen := by
  simp only [State.vsxlen, hs, h]

/-- Where VSXL is fixed a write of `hstatus` changes no other register. -/
theorem State.csrSet_hstatus_fixed (fixed : s.cfg.vsxlWritable = false)
    (legal : s.sxlen = .rv64 → field s.hc.hstatus 32 2 = 1#2 ∨ field s.hc.hstatus 32 2 = 2#2) (w : Word) :
    s.csrSet .hstatus w = { s with hc := { s.hc with hstatus := s.hstatusAfter w } } := by
  rw [State.csrSet, State.legalHstatus_fixed fixed legal]
  exact State.modulateVS_of_vsxlen (State.vsxlen_congr rfl (s.field_hstatusAfter_vsxl w))

/-- Where UXL of `vsstatus` is fixed, a write reaches the bits that are writable, and leaves every other bit. -/
theorem State.legalVsstatus_fixed (fixed : s.cfg.vuxlWritable = false)
    (legal : s.vsxlen = .rv64 → field s.vc.vsstatus 32 2 = 1#2 ∨ field s.vc.vsstatus 32 2 = 2#2) (w : Word) :
    s.legalVsstatus w = merge s.vc.vsstatus w s.vsstatusWritable := by
  unfold State.legalVsstatus
  cases width : s.vsxlen with
  | rv32 => rfl
  | rv64 =>
    rw [fixed]
    refine setField_legalXl (field_merge_other _ _ _ _ _ fun k h1 h2 => Bool.eq_false_iff.mpr fun set => ?_) (legal width) _
    rcases (State.bit_vsstatusWritable_iff (by omega)).mp set with taken | ⟨-, fs⟩ | ⟨-, vs⟩
    · have := State.mem_of_vsstatusTaken taken
      simp only [List.mem_cons, List.not_mem_nil, or_false] at this
      omega
    · simp only [List.mem_cons, List.not_mem_nil, or_false] at fs
      omega
    · simp only [List.mem_cons, List.not_mem_nil, or_false] at vs
      omega

theorem State.bit_vsstatus_taken (hk : k ∈ s.vsstatusTaken) (w : Word) :
    bit (merge s.vc.vsstatus w s.vsstatusWritable) k = bit w k := by
  have small : ∀ k ∈ [1, 5, 6, 8, 18, 19], k < 64 := by decide
  rw [bit_merge, if_pos ((State.bit_vsstatusWritable_iff (small k (State.mem_of_vsstatusTaken hk))).mpr (.inl hk))]

theorem State.bit_vsstatus_other (hk : k ∉ s.vsstatusTaken) (fs : s.cfg.fsWritable = true → k ∉ [13, 14])
    (vs : s.cfg.vsWritable = true → k ∉ [9, 10]) (w : Word) :
    bit (merge s.vc.vsstatus w s.vsstatusWritable) k = bit s.vc.vsstatus k := by
  rw [bit_merge, if_neg]
  intro set
  rcases (State.bit_vsstatusWritable_iff (lt_of_bit set)).mp set with taken | ⟨writable, inFs⟩ | ⟨writable, inVs⟩
  · exact hk taken
  · exact fs writable inFs
  · exact vs writable inVs

/-! ### `mnstatus` (R134) -/

theorem State.csrSet_mnstatus (s : State) (w : Word) : (s.csrSet .mnstatus w).mc.mnstatus
    = setBit (if s.hasH then setBit (setField s.mc.mnstatus 11 (s.legalPP (field s.mc.mnstatus 11 2) (field w 11 2))) 7 (bit w 7)
        else setField s.mc.mnstatus 11 (s.legalPP (field s.mc.mnstatus 11 2) (field w 11 2))) 3
      (bit s.mc.mnstatus 3 || bit w 3) := rfl

theorem State.written_mnstatus (s : State) (w : Word) :
    let new := (s.csrSet .mnstatus w).mc.mnstatus
    field new 11 2 = s.legalPP (field s.mc.mnstatus 11 2) (field w 11 2) ∧ bit new 3 = (bit s.mc.mnstatus 3 || bit w 3)
      ∧ (s.hasH = true → bit new 7 = bit w 7) ∧ (s.hasH = false → bit new 7 = bit s.mc.mnstatus 7)
      ∧ SameBitsBut s.mc.mnstatus new [3, 7, 11, 12] := by
  simp only [State.csrSet_mnstatus]
  have mode := (SameBitsBut.refl s.mc.mnstatus [3, 7, 11, 12]).setMode
    (s.legalPP (field s.mc.mnstatus 11 2) (field w 11 2)) (by decide) (by decide)
  cases s.hasH with
  | false =>
    refine ⟨?_, bit_setBit_same _ _ (by decide), nofun, fun _ => ?_, mode.setBit _ (by decide)⟩
    · simp [field_setBit_other]
    · simp [bit_setBit_other, bit_setMode_other]
  | true =>
    refine ⟨?_, bit_setBit_same _ _ (by decide), fun _ => ?_, nofun, (mode.setBit _ (by decide)).setBit _ (by decide)⟩
    · simp [field_setBit_other]
    · simp [bit_setBit_other, bit_setBit_same]

end

/-- Settles O23: which bits of each register are writable, and that a write changes no width. -/
theorem statusRegisterWrites : Obligations.StatusRegisterWrites := by
  intro s rd rs1 v takes mode legal fixed
  have low {k : Nat} (old : Word) (hk : k < s.xlen.bits) : bit (writeLow s.xlen old v) k = bit v k := by
    rw [bit_writeLow, if_pos hk]
  refine ⟨fun hp hv ⟨sxl, uxl, widths⟩ => ?_, fun hasS hv hp => ?_, fun hasH hv hp vsxl legalVsxl => ?_,
    fun n hn vuxl legalVuxl => ?_, fun hp hv has => ?_⟩
  · obtain ⟨t, he, ht⟩ := exec_csrrw_machine hp hv (n := 0x300) (r := .mstatus) rfl rfl rfl rfl rd rs1
    have frame := ht.frame
    rw [State.csrSet_mstatus_fixed sxl fun width => (widths width).1] at frame
    obtain ⟨regs, pc, cnt, rfl⟩ := frame.eq
    refine ⟨_, he, rfl, fun k hk width => ?_, ?_, fun fs vs hasS hasU k out => ?_, fun ube => ?_, fun sbe => ?_, fun mbe => ?_⟩
    · exact (State.bit_legalMstatus_taken (bit_allOnes (width.trans_le (Xlen.bits_le _))) hk _).trans (low _ width)
    · exact (s.legalMstatus_allOnes_mpp _).trans (by rw [field_writeLow _ _ _ (by decide)]; rfl)
    · have fixed : s.WidthsFixed :=
        ⟨sxl, uxl, fun width => (widths width).1 hasS, fun width => ((widths width).2 hasU).trans (if_pos hasS)⟩
      refine State.bit_legalMstatus_stays fixed hasS (State.xlen_machine hp) v (fun mpp => out ?_) fun writable => ?_
      · exact List.mem_append_left _ ((by decide : [11, 12] ⊆ _) mpp)
      · rcases (State.bit_mstatusWritable_iff (lt_of_bit writable)).mp writable with taken | context
        · exact State.le_of_statusTaken taken out
        · simp [State.contextTaken, fs, vs] at context
    · exact State.bit_legalMstatus_endian (by decide) (by simp [State.statusTaken, ube]) _ _
    · exact State.bit_legalMstatus_endian (by decide) (by simp [State.statusTaken, sbe]) _ _
    · exact State.bit_legalMstatus_endian (by decide) (by simp [State.statusTaken, mbe]) _ _
  · obtain ⟨t, he, ht⟩ := exec_csrrw_hypervisor hp hv (by decide) (n := 0x100) (r := .sstatus) rfl rfl hasS rfl rd rs1
    obtain ⟨regs, pc, cnt, rfl⟩ := ht.frame.eq
    refine ⟨_, he, fun k hk width => ?_⟩
    obtain ⟨taken, shown⟩ := State.mem_statusTaken_of_sstatus hasS hk s.sxlen
    exact (State.bit_legalMstatus_taken shown taken _).trans (low _ width)
  · obtain ⟨t, he, ht⟩ := exec_csrrw_hypervisor hp hv (by decide) (n := 0x600) (r := .hstatus) rfl rfl hasH rfl rd rs1
    have frame := ht.frame
    rw [State.csrSet_hstatus_fixed vsxl legalVsxl] at frame
    obtain ⟨regs, pc, cnt, rfl⟩ := frame.eq
    refine ⟨_, he, rfl, fun k hk width => (State.bit_hstatusAfter_taken hk _).trans (low _ width), fun geilen => ?_,
      fun vsbe => State.bit_hstatusAfter_other (by simp [State.hstatusTaken, vsbe]) (by decide) _, fun k out => ?_⟩
    · have vgein (old : Word) : field (writeLow s.xlen old v) 12 6 = field v 12 6 := field_writeLow _ _ _ (by decide)
      exact (State.field_hstatusAfter_vgein (by rw [vgein]; exact geilen)).trans (vgein _)
    · refine State.bit_hstatusAfter_other (fun taken => out ((by decide : [5, 6, 7, 8, 9, 20, 21, 22] ⊆ _)
        (State.mem_of_hstatusTaken taken))) ?_ _
      simp only [List.mem_cons, List.not_mem_nil, or_false] at out
      omega
  · have reaches : ∃ t, exec (.csrrw rd n rs1) s = .next t ∧ s.Replaces t rd .vsstatus v := by
      rcases hn with ⟨rfl, hasH, hv, hp⟩ | ⟨rfl, hasS, hv, hp⟩
      · exact exec_csrrw_hypervisor (r := .vsstatus) hp hv (by decide) rfl rfl hasH rfl rd rs1
      · exact exec_csrrw_guest (r := .sstatus) hp hv (by decide) rfl rfl hasS rfl rd rs1
    obtain ⟨t, he, ht⟩ := reaches
    have frame := ht.frame
    rw [State.csrSet, State.legalVsstatus_fixed vuxl legalVuxl] at frame
    obtain ⟨regs, pc, cnt, rfl⟩ := frame.eq
    exact ⟨_, he, rfl, fun k hk width => (State.bit_vsstatus_taken hk _).trans (low _ width),
      fun vube => State.bit_vsstatus_other (by simp [State.vsstatusTaken, vube]) (fun _ => by decide) (fun _ => by decide) _,
      fun fs vs k out => State.bit_vsstatus_other (fun taken => out (State.mem_of_vsstatusTaken taken)) (by simp [fs])
        (by simp [vs]) _⟩
  · obtain ⟨t, he, ht⟩ := exec_csrrw_machine hp hv (n := 0x744) (r := .mnstatus) rfl rfl has rfl rd rs1
    obtain ⟨regs, pc, cnt, rfl⟩ := ht.frame.eq
    obtain ⟨mnpp, nmie, mnpv, noMnpv, rest⟩ := s.written_mnstatus (writeLow s.xlen s.viewMnstatus v)
    rw [State.legalPP_eq, field_writeLow _ _ _ (by decide)] at mnpp
    have bits : 32 ≤ s.xlen.bits := by cases s.xlen <;> decide
    rw [low _ (by omega)] at nmie mnpv
    exact ⟨_, he, rfl, mnpp, nmie, mnpv, noMnpv, rest⟩

end Sys2Proof.Machine
end
